-- ==== Sys2Proof/Word.lean ====
section
/-! DEFINITION. The word types of the machine (spec/00_scope.md section 4: `u8`, `u16`, `u32`). -/

namespace Sys2Proof

/-- A byte, the unit of addressing (20_memory.md section 1). -/
abbrev Byte := BitVec 8

/-- A 16-bit value: a selector, a port number, a table limit. -/
abbrev Half := BitVec 16

/-- A 32-bit value: a general register, an offset, a linear or a physical address. -/
abbrev Word := BitVec 32

end Sys2Proof
end

