-- ==== Sys2Proof/Syntax.lean ====
section
/-! DEFINITION. The instructions of spec/opcode_table.json as one inductive type.

The 287 rows of the table are 81 mnemonics in several operand shapes, and the undefined slots `#UD`.
A row is a constructor together with the value of its shape fields: its form (`AluForm`, `IncForm`,
`TestForm`), its width (the rows `Eb…` and `Ev…` differ in `w`, and an `Ev` row runs at `osz` 16 or 32),
its count (`Ib`, `1`, `CL`) and its register field. notes in NOTES.md, `## Rows`, list which. The prefixes
are already resolved here: an instruction carries its operand size `z` (R163), the address size inside its
memory operand (R164), the segment its memory operand uses (R168) and its repeat prefix (R161). -/

namespace Sys2Proof

/-- The eight general registers in the order of their numbers 0 to 7 (R20). With width 8 the number names
`AL CL DL BL AH CH DH BH`, with width 16 `AX` to `DI` (R169). -/
inductive Reg
  | eax | ecx | edx | ebx | esp | ebp | esi | edi
deriving DecidableEq, Repr

/-- The six segment registers in the order of their numbers 0 to 5 (R30). -/
inductive Seg
  | es | cs | ss | ds | fs | gs
deriving DecidableEq, Repr

/-- A size attribute: 16 or 32 bits. `osz` of the non-byte forms (R163), `asz` (R164) and `ssz` (R220). -/
inductive Size
  | s16 | s32
deriving DecidableEq, Repr

/-- An operand or access width: 8, 16 or 32 bits (R86). -/
inductive Width
  | w8 | w16 | w32
deriving DecidableEq, Repr

/-- The repeat prefix in force: none, `F3` or `F2` (R161). -/
inductive Rep
  | none | repe | repne
deriving DecidableEq, Repr

/-- The sixteen condition codes, in the order of their numbers (R364). -/
inductive Cond
  | o | no | b | ae | e | ne | be | a | s | ns | p | np | l | ge | le | g
deriving DecidableEq, Repr

/-- The base of a 16-bit effective address, in the order of `rm` (R166). -/
inductive Base16
  | bxsi | bxdi | bpsi | bpdi | si | di | bp | bx
deriving DecidableEq, Repr

/-- A displacement as the instruction carries it: none (mod 0), a byte (mod 1) or a full one of the
address size (mod 2). -/
inductive Disp (full : Type)
  | none
  | d8 (b : Byte)
  | full (v : full)
deriving DecidableEq, Repr

/-- A memory address expression: the tables of R166 (`asz` 16) and R167 (`asz` 32). -/
inductive Addr
  /-- `asz` 16, mod 0, rm 6: a 16-bit offset alone. -/
  | abs16 (d : Half)
  /-- `asz` 16, every other row. -/
  | based16 (b : Base16) (d : Disp Half)
  /-- `asz` 32, mod 0, rm 5: a 32-bit offset alone. -/
  | abs32 (d : Word)
  /-- `asz` 32, a base register without SIB. -/
  | based32 (b : Reg) (d : Disp Word)
  /-- `asz` 32, SIB with a base register; an index of `none` is index number 4, whose scale is ignored. -/
  | sib (b : Reg) (x : Option Reg) (scale : BitVec 2) (d : Disp Word)
  /-- `asz` 32, SIB with base number 5 and mod 0: no base register. -/
  | sibAbs (x : Option Reg) (scale : BitVec 2) (d : Word)
deriving DecidableEq, Repr

/-- A memory operand: the segment it uses, override resolved (R168), and its address. -/
structure MemRef where
  seg  : Seg
  addr : Addr
deriving DecidableEq, Repr

/-- An r/m operand: the register `rm` (mod 3) or memory (R165). -/
inductive RM
  | reg (r : Reg)
  | mem (m : MemRef)
deriving DecidableEq, Repr

/-- A `moffs` operand: an offset of `asz` bits, segment DS or the override (R172). -/
structure Moffs where
  asz : Size
  seg : Seg
  off : Word
deriving DecidableEq, Repr

/-- The encodings shared by ADD, OR, ADC, SBB, AND, SUB, XOR and CMP (R260). -/
inductive AluForm
  /-- `base+0 /r`, `base+1 /r`: `Eb,Gb`, `Ev,Gv`. -/
  | rmReg (w : Width) (rm : RM) (r : Reg)
  /-- `base+2 /r`, `base+3 /r`: `Gb,Eb`, `Gv,Ev`. -/
  | regRm (w : Width) (r : Reg) (rm : RM)
  /-- `base+4 ib`, `base+5 iv`: `AL,Ib`, `eAX,Iv`. -/
  | accImm (w : Width) (imm : Word)
  /-- `80 /d ib`, `81 /d iv`: `Eb,Ib`, `Ev,Iv`. -/
  | rmImm (w : Width) (rm : RM) (imm : Word)
  /-- `83 /d ib`: `Ev,Ib`, sign-extended. -/
  | rmImm8 (z : Size) (rm : RM) (ib : Byte)
deriving DecidableEq, Repr

/-- The encodings of INC and DEC (R269, R270): the register in the opcode, or an r/m operand. -/
inductive IncForm
  | reg (z : Size) (r : Reg)
  | rm (w : Width) (rm : RM)
deriving DecidableEq, Repr

/-- The encodings of TEST (R273). -/
inductive TestForm
  | rmReg (w : Width) (rm : RM) (r : Reg)
  | accImm (w : Width) (imm : Word)
  | rmImm (w : Width) (rm : RM) (imm : Word)
deriving DecidableEq, Repr

/-- The raw count of a shift or rotate: 1, CL or an immediate (R320). -/
inductive Count
  | one
  | cl
  | imm (ib : Byte)
deriving DecidableEq, Repr

/-- The opcodes that have undefined group slots (first line of the table of R180). -/
inductive UdOp
  | o8F | oC6 | oC7 | oFE | oFF | o0F00 | o0F01
deriving DecidableEq, Repr

/-- One instruction. -/
inductive Instr
  -- integer arithmetic and logic (41_alu.md)
  | add (f : AluForm)
  | or (f : AluForm)
  | adc (f : AluForm)
  | sbb (f : AluForm)
  | and (f : AluForm)
  | sub (f : AluForm)
  | xor (f : AluForm)
  | cmp (f : AluForm)
  | inc (f : IncForm)
  | dec (f : IncForm)
  | neg (w : Width) (rm : RM)
  | not (w : Width) (rm : RM)
  | test (f : TestForm)
  -- multiply, divide, sign extension (42_mul_div.md)
  | mul (w : Width) (rm : RM)
  | imul1 (w : Width) (rm : RM)
  | imul2 (z : Size) (r : Reg) (rm : RM)
  | imul3 (z : Size) (r : Reg) (rm : RM) (imm : Word)
  | imul3b (z : Size) (r : Reg) (rm : RM) (ib : Byte)
  | div (w : Width) (rm : RM)
  | idiv (w : Width) (rm : RM)
  | cbw (z : Size)
  | cwd (z : Size)
  -- shifts and rotates (43_shift_rotate.md); sal is group 2 /6
  | rol (w : Width) (rm : RM) (c : Count)
  | ror (w : Width) (rm : RM) (c : Count)
  | rcl (w : Width) (rm : RM) (c : Count)
  | rcr (w : Width) (rm : RM) (c : Count)
  | shl (w : Width) (rm : RM) (c : Count)
  | sal (w : Width) (rm : RM) (c : Count)
  | shr (w : Width) (rm : RM) (c : Count)
  | sar (w : Width) (rm : RM) (c : Count)
  -- data transfer (40_data_transfer.md)
  | movRmReg (w : Width) (rm : RM) (r : Reg)
  | movRegRm (w : Width) (r : Reg) (rm : RM)
  | movAccMoffs (w : Width) (m : Moffs)
  | movMoffsAcc (w : Width) (m : Moffs)
  | movRegImm (w : Width) (r : Reg) (imm : Word)
  | movRmImm (w : Width) (rm : RM) (imm : Word)
  | movRmSeg (z : Size) (rm : RM) (sreg : BitVec 3)
  | movSegRm (sreg : BitVec 3) (rm : RM)
  | movzxByte (z : Size) (r : Reg) (rm : RM)
  | movzxWord (z : Size) (r : Reg) (rm : RM)
  | movsxByte (z : Size) (r : Reg) (rm : RM)
  | movsxWord (z : Size) (r : Reg) (rm : RM)
  | lea (z : Size) (r : Reg) (rm : RM)
  | xchg (w : Width) (rm : RM) (r : Reg)
  | xchgAcc (z : Size) (r : Reg)
  | pushReg (z : Size) (r : Reg)
  | pushImm (z : Size) (imm : Word)
  | pushImm8 (z : Size) (ib : Byte)
  | pushRm (z : Size) (rm : RM)
  | popReg (z : Size) (r : Reg)
  | popRm (z : Size) (rm : RM)
  | pushSeg (z : Size) (sr : Seg)
  | popSeg (z : Size) (sr : Seg)
  | inImm (ib : Byte)
  | inDx
  | outImm (ib : Byte)
  | outDx
  -- string instructions (44_string.md)
  | movsb (rep : Rep) (asz : Size) (seg : Seg)
  | movsw (z : Size) (rep : Rep) (asz : Size) (seg : Seg)
  | cmpsb (rep : Rep) (asz : Size) (seg : Seg)
  | cmpsw (z : Size) (rep : Rep) (asz : Size) (seg : Seg)
  | stosb (rep : Rep) (asz : Size)
  | stosw (z : Size) (rep : Rep) (asz : Size)
  | lodsb (rep : Rep) (asz : Size) (seg : Seg)
  | lodsw (z : Size) (rep : Rep) (asz : Size) (seg : Seg)
  | scasb (rep : Rep) (asz : Size)
  | scasw (z : Size) (rep : Rep) (asz : Size)
  -- control transfer (45_control_transfer.md)
  | jmpShort (z : Size) (cb : Byte)
  | jmpNear (z : Size) (cv : Word)
  | jmpRm (z : Size) (rm : RM)
  | jmpFarPtr (z : Size) (sel : Half) (off : Word)
  | jmpFarMem (z : Size) (rm : RM)
  | jccShort (z : Size) (cc : Cond) (cb : Byte)
  | jccNear (z : Size) (cc : Cond) (cv : Word)
  | jcxz (z : Size) (asz : Size) (cb : Byte)
  | loop (z : Size) (asz : Size) (cb : Byte)
  | loope (z : Size) (asz : Size) (cb : Byte)
  | loopne (z : Size) (asz : Size) (cb : Byte)
  | callNear (z : Size) (cv : Word)
  | callRm (z : Size) (rm : RM)
  | callFarPtr (z : Size) (sel : Half) (off : Word)
  | callFarMem (z : Size) (rm : RM)
  | ret (z : Size)
  | retImm (z : Size) (iw : Half)
  | retf (z : Size)
  | retfImm (z : Size) (iw : Half)
  | int3
  | int (ib : Byte)
  | into
  | iret (z : Size)
  -- flag control (46_flag_control.md)
  | clc
  | stc
  | cmc
  | cld
  | std
  | cli
  | sti
  | lahf
  | sahf
  | pushf (z : Size)
  | popf (z : Size)
  -- system (47_system.md)
  | hlt
  | nop
  | lgdt (z : Size) (rm : RM)
  | lidt (z : Size) (rm : RM)
  | sgdt (z : Size) (rm : RM)
  | sidt (z : Size) (rm : RM)
  | lldt (rm : RM)
  | sldt (z : Size) (rm : RM)
  | ltr (rm : RM)
  | str (z : Size) (rm : RM)
  | movToCr (cr : BitVec 3) (r : Reg)
  | movFromCr (r : Reg) (cr : BitVec 3)
  | invlpg (rm : RM)
  | arpl (rm : RM) (r : Reg)
  -- the undefined group slots (R180)
  | ud (op : UdOp) (ext : BitVec 3) (rm : RM)
deriving DecidableEq, Repr

end Sys2Proof
end

