-- ==== Sys2Proof/WellFormed.lean ====
section
/-! DEFINITION. Which terms of `Instr` stand for an encoding of spec/opcode_table.json: operands fit their
widths and address expressions are ones the ModRM and SIB tables have (30_encoding.md). A term that is not
well-formed has no bytes. A well-formed instruction may still raise `#UD` when it runs (R180). -/

namespace Sys2Proof

/-- The number of bits of a width (R86). -/
def Width.bits : Width → Nat
  | .w8 => 8
  | .w16 => 16
  | .w32 => 32

/-- The number of bytes of a width (R86). -/
def Width.bytes : Width → Nat
  | .w8 => 1
  | .w16 => 2
  | .w32 => 4

/-- The operand width of a size attribute: `osz` 16 or 32 (R163). -/
def Size.width : Size → Width
  | .s16 => .w16
  | .s32 => .w32

/-- `v` has no bit above the width: the value of an n-bit operand held in 32 bits. -/
def Width.fits (w : Width) (v : Word) : Bool := v.toNat < 2 ^ w.bits

/-- A displacement other than "none" (mod 1 or 2). -/
def Disp.present {α : Type} : Disp α → Bool
  | .none => false
  | .d8 _ => true
  | .full _ => true

/-- The rows of R166 and R167. Base BP without a displacement is the d16 row; base EBP without one is the
d32 row; base ESP is the SIB row; index number 4 is "no index". -/
def Addr.wf : Addr → Bool
  | .abs16 _ => true
  | .based16 b d => b ≠ .bp || d.present
  | .abs32 _ => true
  | .based32 b d => b ≠ .esp && (b ≠ .ebp || d.present)
  | .sib b x _ d => x ≠ some .esp && (b ≠ .ebp || d.present)
  | .sibAbs x _ _ => x ≠ some .esp

/-- A memory operand is well-formed when its address is. -/
def RM.wf : RM → Bool
  | .reg _ => true
  | .mem m => m.addr.wf

/-- A `moffs` offset has `asz` bits (R172). -/
def Moffs.wf (m : Moffs) : Bool := m.asz.width.fits m.off

/-- The operand shapes of R260. -/
def AluForm.wf : AluForm → Bool
  | .rmReg _ rm _ => rm.wf
  | .regRm _ _ rm => rm.wf
  | .accImm w imm => w.fits imm
  | .rmImm w rm imm => rm.wf && w.fits imm
  | .rmImm8 _ rm _ => rm.wf

/-- The operand shapes of R269 and R270. -/
def IncForm.wf : IncForm → Bool
  | .reg _ _ => true
  | .rm _ e => e.wf

/-- The operand shapes of R273. -/
def TestForm.wf : TestForm → Bool
  | .rmReg _ rm _ => rm.wf
  | .accImm w imm => w.fits imm
  | .rmImm w rm imm => rm.wf && w.fits imm

/-- The undefined slots of each group, as the rows `#UD` of the table list them (R175, R180). -/
def UdOp.hasSlot : UdOp → BitVec 3 → Bool
  | .o8F, e => e ≠ 0
  | .oC6, e => e ≠ 0
  | .oC7, e => e ≠ 0
  | .oFE, e => 2 ≤ e
  | .oFF, e => e = 7
  | .o0F00, e => 6 ≤ e
  | .o0F01, e => e = 5

/-- A term that some byte string of the table encodes. -/
def Instr.wf : Instr → Bool
  | .add f => f.wf
  | .or f => f.wf
  | .adc f => f.wf
  | .sbb f => f.wf
  | .and f => f.wf
  | .sub f => f.wf
  | .xor f => f.wf
  | .cmp f => f.wf
  | .inc f => f.wf
  | .dec f => f.wf
  | .neg _ rm => rm.wf
  | .not _ rm => rm.wf
  | .test f => f.wf
  | .mul _ rm => rm.wf
  | .imul1 _ rm => rm.wf
  | .imul2 _ _ rm => rm.wf
  | .imul3 z _ rm imm => rm.wf && z.width.fits imm
  | .imul3b _ _ rm _ => rm.wf
  | .div _ rm => rm.wf
  | .idiv _ rm => rm.wf
  | .cbw _ => true
  | .cwd _ => true
  | .rol _ rm _ => rm.wf
  | .ror _ rm _ => rm.wf
  | .rcl _ rm _ => rm.wf
  | .rcr _ rm _ => rm.wf
  | .shl _ rm _ => rm.wf
  | .sal _ rm _ => rm.wf
  | .shr _ rm _ => rm.wf
  | .sar _ rm _ => rm.wf
  | .movRmReg _ rm _ => rm.wf
  | .movRegRm _ _ rm => rm.wf
  | .movAccMoffs _ m => m.wf
  | .movMoffsAcc _ m => m.wf
  | .movRegImm w _ imm => w.fits imm
  | .movRmImm w rm imm => rm.wf && w.fits imm
  | .movRmSeg _ rm _ => rm.wf
  | .movSegRm _ rm => rm.wf
  | .movzxByte _ _ rm => rm.wf
  | .movzxWord _ _ rm => rm.wf
  | .movsxByte _ _ rm => rm.wf
  | .movsxWord _ _ rm => rm.wf
  | .lea _ _ rm => rm.wf
  | .xchg _ rm _ => rm.wf
  | .xchgAcc _ r => r ≠ .eax
  | .pushReg _ _ => true
  | .pushImm z imm => z.width.fits imm
  | .pushImm8 _ _ => true
  | .pushRm _ rm => rm.wf
  | .popReg _ _ => true
  | .popRm _ rm => rm.wf
  | .pushSeg _ _ => true
  | .popSeg _ sr => sr ≠ .cs
  | .inImm _ => true
  | .inDx => true
  | .outImm _ => true
  | .outDx => true
  | .movsb _ _ _ => true
  | .movsw _ _ _ _ => true
  | .cmpsb _ _ _ => true
  | .cmpsw _ _ _ _ => true
  | .stosb _ _ => true
  | .stosw _ _ _ => true
  | .lodsb _ _ _ => true
  | .lodsw _ _ _ _ => true
  | .scasb _ _ => true
  | .scasw _ _ _ => true
  | .jmpShort _ _ => true
  | .jmpNear z cv => z.width.fits cv
  | .jmpRm _ rm => rm.wf
  | .jmpFarPtr z _ off => z.width.fits off
  | .jmpFarMem _ rm => rm.wf
  | .jccShort _ _ _ => true
  | .jccNear z _ cv => z.width.fits cv
  | .jcxz _ _ _ => true
  | .loop _ _ _ => true
  | .loope _ _ _ => true
  | .loopne _ _ _ => true
  | .callNear z cv => z.width.fits cv
  | .callRm _ rm => rm.wf
  | .callFarPtr z _ off => z.width.fits off
  | .callFarMem _ rm => rm.wf
  | .ret _ => true
  | .retImm _ _ => true
  | .retf _ => true
  | .retfImm _ _ => true
  | .int3 => true
  | .int _ => true
  | .into => true
  | .iret _ => true
  | .clc => true
  | .stc => true
  | .cmc => true
  | .cld => true
  | .std => true
  | .cli => true
  | .sti => true
  | .lahf => true
  | .sahf => true
  | .pushf _ => true
  | .popf _ => true
  | .hlt => true
  | .nop => true
  | .lgdt _ rm => rm.wf
  | .lidt _ rm => rm.wf
  | .sgdt _ rm => rm.wf
  | .sidt _ rm => rm.wf
  | .lldt rm => rm.wf
  | .sldt _ rm => rm.wf
  | .ltr rm => rm.wf
  | .str _ rm => rm.wf
  | .movToCr _ _ => true
  | .movFromCr _ _ => true
  | .invlpg rm => rm.wf
  | .arpl rm _ => rm.wf
  | .ud op ext rm => op.hasSlot ext && rm.wf

end Sys2Proof
end

