-- ==== Sys2Proof/Decode.lean ====
section
/-! DEFINITION. The decoder and the encoder (30_encoding.md).

`Dec` is a decoder that asks for one byte at a time. Two readers interpret it: `Dec.run` here takes the
bytes from a list, and the fetch unit (Machine/Fetch.lean) takes them from memory through CS, so that a
fetch fault on byte k comes before anything about a later byte (R506). Decoding depends on the bytes and
on the default size of the code segment only (R162). -/

namespace Sys2Proof

/-- A decoder: a result, no row of the table (R183), or a request for the next byte. -/
inductive Dec (α : Type)
  | ret (a : α)
  | unadmitted
  | byte (k : Byte → Dec α)

namespace Dec

/-- Continue a decoder with the value it reads. -/
def bind {α β : Type} : Dec α → (α → Dec β) → Dec β
  | .ret a, f => f a
  | .unadmitted, _ => .unadmitted
  | .byte k, f => .byte fun b => bind (k b) f

/-- Apply a function to the value a decoder reads. -/
def map {α β : Type} (f : α → β) (d : Dec α) : Dec β := d.bind fun a => .ret (f a)

/-- What a decoder says of a list of bytes. -/
inductive Outcome (α : Type)
  /-- The value, and the bytes after it. -/
  | ok (a : α) (rest : List Byte)
  /-- No row of the table and no undefined slot matches (R183). -/
  | unadmitted
  /-- The list ends before the instruction does. -/
  | more
deriving DecidableEq, Repr

/-- Read a decoder from a list of bytes. -/
def run {α : Type} : Dec α → List Byte → Outcome α
  | .ret a, bs => .ok a bs
  | .unadmitted, _ => .unadmitted
  | .byte _, [] => .more
  | .byte k, b :: bs => run (k b) bs

/-- One byte. -/
def u8 : Dec Byte := .byte .ret

/-- Two bytes, the lower first (R85). -/
def u16 : Dec Half := .byte fun a => .byte fun b => .ret (b ++ a)

/-- Four bytes, the lowest first (R85). -/
def u32 : Dec Word :=
  .byte fun a => .byte fun b => .byte fun c => .byte fun d => .ret (d ++ c ++ b ++ a)

/-- An immediate of a width, as a value without bits above it: `ib` of a byte form, `iw`, `iv` (R170). -/
def imm : Width → Dec Word
  | .w8 => u8.map (·.setWidth 32)
  | .w16 => u16.map (·.setWidth 32)
  | .w32 => u32

end Dec

/-! ### Numbers of registers, conditions and sizes -/

/-- The register with a number (R20, R169). -/
def Reg.ofNum (n : BitVec 3) : Reg :=
  match n.toNat with
  | 0 => .eax | 1 => .ecx | 2 => .edx | 3 => .ebx | 4 => .esp | 5 => .ebp | 6 => .esi | _ => .edi

/-- The number of a register (R20, R169). -/
def Reg.num : Reg → BitVec 3
  | .eax => 0 | .ecx => 1 | .edx => 2 | .ebx => 3 | .esp => 4 | .ebp => 5 | .esi => 6 | .edi => 7

/-- The condition with a number (R364). -/
def Cond.ofNum (n : BitVec 4) : Cond :=
  match n.toNat with
  | 0 => .o | 1 => .no | 2 => .b | 3 => .ae | 4 => .e | 5 => .ne | 6 => .be | 7 => .a
  | 8 => .s | 9 => .ns | 10 => .p | 11 => .np | 12 => .l | 13 => .ge | 14 => .le | _ => .g

/-- The number of a condition (R364). -/
def Cond.num : Cond → BitVec 4
  | .o => 0 | .no => 1 | .b => 2 | .ae => 3 | .e => 4 | .ne => 5 | .be => 6 | .a => 7
  | .s => 8 | .ns => 9 | .p => 10 | .np => 11 | .l => 12 | .ge => 13 | .le => 14 | .g => 15

/-- The base with an `rm` number (R166). -/
def Base16.ofNum (n : BitVec 3) : Base16 :=
  match n.toNat with
  | 0 => .bxsi | 1 => .bxdi | 2 => .bpsi | 3 => .bpdi | 4 => .si | 5 => .di | 6 => .bp | _ => .bx

/-- The `rm` number of a base (R166). -/
def Base16.num : Base16 → BitVec 3
  | .bxsi => 0 | .bxdi => 1 | .bpsi => 2 | .bpdi => 3 | .si => 4 | .di => 5 | .bp => 6 | .bx => 7

/-- The other size attribute: what a `66` or `67` byte toggles to (R163, R164). -/
def Size.toggle : Size → Size
  | .s16 => .s32
  | .s32 => .s16

/-- The size attribute of a width; a byte form has none (R163). -/
def Width.size? : Width → Option Size
  | .w8 => none
  | .w16 => some .s16
  | .w32 => some .s32

/-- Byte forms have an even opcode, the others the odd one after it (R173). -/
def Width.opBit : Width → Byte
  | .w8 => 0
  | .w16 => 1
  | .w32 => 1

/-- The default segment of an address: SS for the BP rows of R166 and, in R167, for base ESP or EBP; DS
otherwise. -/
def Addr.defaultSeg : Addr → Seg
  | .abs16 _ => .ds
  | .based16 b _ => match b with
    | .bpsi => .ss | .bpdi => .ss | .bp => .ss
    | .bxsi => .ds | .bxdi => .ds | .si => .ds | .di => .ds | .bx => .ds
  | .abs32 _ => .ds
  | .based32 b _ => if b = .ebp then .ss else .ds
  | .sib b _ _ _ => if b = .esp ∨ b = .ebp then .ss else .ds
  | .sibAbs _ _ _ => .ds

/-- The address size an address expression belongs to (R164). -/
def Addr.asz : Addr → Size
  | .abs16 _ => .s16
  | .based16 _ _ => .s16
  | .abs32 _ => .s32
  | .based32 _ _ => .s32
  | .sib _ _ _ _ => .s32
  | .sibAbs _ _ _ => .s32

/-! ### Prefixes (R161) -/

/-- The prefixes read so far. A repeated `66` or `67` counts once; the last segment override and the last
of `F2`, `F3` win; LOCK leaves no trace. -/
structure Prefixes where
  opsize : Bool := false
  adsize : Bool := false
  seg    : Option Seg := none
  rep    : Rep := .none
deriving DecidableEq, Repr

/-- Add a byte to the prefixes, or `none` when it is no prefix byte. -/
def Prefixes.add (p : Prefixes) (b : Byte) : Option Prefixes :=
  match b.toNat with
  | 0x66 => some { p with opsize := true }
  | 0x67 => some { p with adsize := true }
  | 0x26 => some { p with seg := some .es }
  | 0x2E => some { p with seg := some .cs }
  | 0x36 => some { p with seg := some .ss }
  | 0x3E => some { p with seg := some .ds }
  | 0x64 => some { p with seg := some .fs }
  | 0x65 => some { p with seg := some .gs }
  | 0xF3 => some { p with rep := .repe }
  | 0xF2 => some { p with rep := .repne }
  | 0xF0 => some p
  | _ => none

/-- The longest instruction in bytes (00_scope.md section 3, `MAX_INSN_LEN`). -/
def maxInsnLen : Nat := 15

/-- Read prefix bytes up to the first byte that is none. The fuel is the number of prefix bytes that still
fit in an instruction; when it is used up, one more byte is asked for, which is past the length limit. -/
def decPrefixes : Nat → Prefixes → Dec (Prefixes × Byte)
  | 0, _ => .byte fun _ => .unadmitted
  | n + 1, p => .byte fun b =>
    match p.add b with
    | some p' => decPrefixes n p'
    | none => .ret (p, b)

/-- What the prefixes and the default size settle for the rest of the instruction (R162 to R164, R168). -/
structure Ctx where
  osz : Size
  asz : Size
  seg : Option Seg
  rep : Rep
deriving DecidableEq, Repr

/-- The effective sizes: the default, toggled when the prefix is present (R163, R164). -/
def Prefixes.ctx (p : Prefixes) (d : Size) : Ctx where
  osz := if p.opsize then d.toggle else d
  asz := if p.adsize then d.toggle else d
  seg := p.seg
  rep := p.rep

/-! ### ModRM and SIB (R165 to R167) -/

/-- The three fields of a ModRM byte (R165). -/
structure ModRM where
  mod : BitVec 2
  reg : BitVec 3
  rm  : BitVec 3
deriving DecidableEq, Repr

/-- Split a ModRM byte; a SIB byte has the same fields, named scale, index and base (R165, R167). -/
def ModRM.ofByte (b : Byte) : ModRM where
  mod := b.extractLsb' 6 2
  reg := b.extractLsb' 3 3
  rm  := b.extractLsb' 0 3

/-- The byte of three fields. -/
def ModRM.toByte (m : ModRM) : Byte := m.mod ++ m.reg ++ m.rm

/-- The displacement `mod` calls for (R166, R167). -/
def decDisp {α : Type} (full : Dec α) (mod : BitVec 2) : Dec (Disp α) :=
  match mod.toNat with
  | 0 => .ret .none
  | 1 => Dec.u8.map .d8
  | _ => full.map .full

/-- The index of a SIB byte; number 4 is none (R167). -/
def decIndex (n : BitVec 3) : Option Reg := if n = 4 then none else some (Reg.ofNum n)

/-- The address a ModRM byte with mod other than 3 calls for. -/
def decAddr (asz : Size) (m : ModRM) : Dec Addr :=
  match asz with
  | .s16 =>
    if m.mod = 0 ∧ m.rm = 6 then Dec.u16.map .abs16
    else (decDisp Dec.u16 m.mod).map (.based16 (Base16.ofNum m.rm))
  | .s32 =>
    if m.rm = 4 then
      Dec.u8.bind fun b =>
        let sib := ModRM.ofByte b
        if sib.rm = 5 ∧ m.mod = 0 then Dec.u32.map (.sibAbs (decIndex sib.reg) sib.mod)
        else (decDisp Dec.u32 m.mod).map (.sib (Reg.ofNum sib.rm) (decIndex sib.reg) sib.mod)
    else if m.mod = 0 ∧ m.rm = 5 then Dec.u32.map .abs32
    else (decDisp Dec.u32 m.mod).map (.based32 (Reg.ofNum m.rm))

/-- The r/m operand of a ModRM byte (R165, R168). -/
def decRM (c : Ctx) (m : ModRM) : Dec RM :=
  if m.mod = 3 then .ret (.reg (Reg.ofNum m.rm))
  else (decAddr c.asz m).map fun a => .mem { seg := c.seg.getD a.defaultSeg, addr := a }

/-- A ModRM byte with its operand: the reg field and the r/m operand. -/
def decModRM (c : Ctx) : Dec (BitVec 3 × RM) :=
  Dec.u8.bind fun b =>
    let m := ModRM.ofByte b
    (decRM c m).map fun rm => (m.reg, rm)

/-- A ModRM byte whose reg field must name a row of the opcode's group: where it names none, no row matches, and no
byte after it is read (R1, R183). -/
def decModRMOf (admitted : BitVec 3 → Bool) (c : Ctx) : Dec (BitVec 3 × RM) :=
  Dec.u8.bind fun b =>
    let m := ModRM.ofByte b
    if admitted m.reg then (decRM c m).map fun rm => (m.reg, rm) else .unadmitted

/-- A `moffs` operand (R172). -/
def decMoffs (c : Ctx) : Dec Moffs :=
  (Dec.imm c.asz.width).map fun off => { asz := c.asz, seg := c.seg.getD .ds, off := off }

/-! ### The opcode map (R173 to R175) -/

/-- The width of an opcode's operand: byte forms are the even opcodes, the others run at `osz`. -/
def Ctx.width (c : Ctx) (odd : Bool) : Width := if odd then c.osz.width else .w8

/-- The instruction of a group 1 digit, or of bits 5:3 of an opcode below `40` (R260). -/
def aluInstr (digit : BitVec 3) (f : AluForm) : Instr :=
  match digit.toNat with
  | 0 => .add f | 1 => .or f | 2 => .adc f | 3 => .sbb f
  | 4 => .and f | 5 => .sub f | 6 => .xor f | _ => .cmp f

/-- The six forms `base+0` to `base+5` (R260). -/
def decAluForm (c : Ctx) (k : Nat) : Dec AluForm :=
  match k with
  | 0 => (decModRM c).map fun (r, rm) => .rmReg .w8 rm (Reg.ofNum r)
  | 1 => (decModRM c).map fun (r, rm) => .rmReg c.osz.width rm (Reg.ofNum r)
  | 2 => (decModRM c).map fun (r, rm) => .regRm .w8 (Reg.ofNum r) rm
  | 3 => (decModRM c).map fun (r, rm) => .regRm c.osz.width (Reg.ofNum r) rm
  | 4 => (Dec.imm .w8).map (.accImm .w8)
  | _ => (Dec.imm c.osz.width).map (.accImm c.osz.width)

/-- Group 2: the shift or rotate of a digit; `/6` is SAL (R175, R325). -/
def shiftInstr (digit : BitVec 3) (w : Width) (rm : RM) (n : Count) : Instr :=
  match digit.toNat with
  | 0 => .rol w rm n | 1 => .ror w rm n | 2 => .rcl w rm n | 3 => .rcr w rm n
  | 4 => .shl w rm n | 5 => .shr w rm n | 6 => .sal w rm n | _ => .sar w rm n

/-- Group 3 (R175): `/1` is not admitted. -/
def decGroup3 (c : Ctx) (w : Width) : Dec Instr :=
  (decModRMOf (fun d => d ≠ 1) c).bind fun (d, rm) =>
    match d.toNat with
    | 0 => (Dec.imm w).map fun i => .test (.rmImm w rm i)
    | 1 => .unadmitted
    | 2 => .ret (.not w rm)
    | 3 => .ret (.neg w rm)
    | 4 => .ret (.mul w rm)
    | 5 => .ret (.imul1 w rm)
    | 6 => .ret (.div w rm)
    | _ => .ret (.idiv w rm)

/-- Group 5 (R175). -/
def group5Instr (c : Ctx) (d : BitVec 3) (rm : RM) : Instr :=
  match d.toNat with
  | 0 => .inc (.rm c.osz.width rm)
  | 1 => .dec (.rm c.osz.width rm)
  | 2 => .callRm c.osz rm
  | 3 => .callFarMem c.osz rm
  | 4 => .jmpRm c.osz rm
  | 5 => .jmpFarMem c.osz rm
  | 6 => .pushRm c.osz rm
  | _ => .ud .oFF d rm

/-- Group 6, `0F 00` (R175): `/4` and `/5` are not admitted. -/
def decGroup6 (c : Ctx) : Dec Instr :=
  (decModRMOf (fun d => d ≠ 4 && d ≠ 5) c).bind fun (d, rm) =>
    match d.toNat with
    | 0 => .ret (.sldt c.osz rm)
    | 1 => .ret (.str c.osz rm)
    | 2 => .ret (.lldt rm)
    | 3 => .ret (.ltr rm)
    | 4 => .unadmitted
    | 5 => .unadmitted
    | _ => .ret (.ud .o0F00 d rm)

/-- Group 7, `0F 01` (R175): `/4` and `/6` are not admitted. -/
def decGroup7 (c : Ctx) : Dec Instr :=
  (decModRMOf (fun d => d ≠ 4 && d ≠ 6) c).bind fun (d, rm) =>
    match d.toNat with
    | 0 => .ret (.sgdt c.osz rm)
    | 1 => .ret (.sidt c.osz rm)
    | 2 => .ret (.lgdt c.osz rm)
    | 3 => .ret (.lidt c.osz rm)
    | 4 => .unadmitted
    | 5 => .ret (.ud .o0F01 d rm)
    | 6 => .unadmitted
    | _ => .ret (.invlpg rm)

/-- A direct far pointer: the offset, then the selector (R172). -/
def decFarPtr (z : Size) : Dec (Half × Word) :=
  (Dec.imm z.width).bind fun off => Dec.u16.map fun sel => (sel, off)

/-- Two-byte opcodes, by their second byte (R174). -/
def decOpcode0F (c : Ctx) (b : Byte) : Dec Instr :=
  match b.toNat / 16 with
  | 8 => (Dec.imm c.osz.width).map (.jccNear c.osz (Cond.ofNum (b.extractLsb' 0 4)))
  | _ =>
    match b.toNat with
    | 0x00 => decGroup6 c
    | 0x01 => decGroup7 c
    | 0x20 => Dec.u8.map fun m => .movFromCr (Reg.ofNum (ModRM.ofByte m).rm) (ModRM.ofByte m).reg
    | 0x22 => Dec.u8.map fun m => .movToCr (ModRM.ofByte m).reg (Reg.ofNum (ModRM.ofByte m).rm)
    | 0xA0 => .ret (.pushSeg c.osz .fs)
    | 0xA1 => .ret (.popSeg c.osz .fs)
    | 0xA8 => .ret (.pushSeg c.osz .gs)
    | 0xA9 => .ret (.popSeg c.osz .gs)
    | 0xAF => (decModRM c).map fun (r, rm) => .imul2 c.osz (Reg.ofNum r) rm
    | 0xB6 => (decModRM c).map fun (r, rm) => .movzxByte c.osz (Reg.ofNum r) rm
    | 0xB7 => (decModRM c).map fun (r, rm) => .movzxWord c.osz (Reg.ofNum r) rm
    | 0xBE => (decModRM c).map fun (r, rm) => .movsxByte c.osz (Reg.ofNum r) rm
    | 0xBF => (decModRM c).map fun (r, rm) => .movsxWord c.osz (Reg.ofNum r) rm
    | _ => .unadmitted

/-- Group 1 with an immediate of the operand's width: `80`, `81` (R175). -/
def decGroup1 (c : Ctx) (w : Width) : Dec Instr :=
  (decModRM c).bind fun (d, rm) => (Dec.imm w).map fun i => aluInstr d (.rmImm w rm i)

/-- Group 1 with a sign-extended byte: `83` (R175). -/
def decGroup1b (c : Ctx) : Dec Instr :=
  (decModRM c).bind fun (d, rm) => Dec.u8.map fun i => aluInstr d (.rmImm8 c.osz rm i)

/-- Group 2 with a count that the opcode settles (R320). -/
def decGroup2 (c : Ctx) (w : Width) (n : Count) : Dec Instr :=
  (decModRM c).map fun (d, rm) => shiftInstr d w rm n

/-- Group 2 with an immediate count: `C0`, `C1` (R320). -/
def decGroup2i (c : Ctx) (w : Width) : Dec Instr :=
  (decModRM c).bind fun (d, rm) => Dec.u8.map fun i => shiftInstr d w rm (.imm i)

/-- Group 11, `C6` and `C7`: MOV, or an undefined slot, which has no immediate (R175). -/
def decGroup11 (c : Ctx) (w : Width) (op : UdOp) : Dec Instr :=
  (decModRM c).bind fun (d, rm) =>
    if d = 0 then (Dec.imm w).map fun i => .movRmImm w rm i else .ret (.ud op d rm)

/-- Group 4, `FE` (R175). -/
def group4Instr (d : BitVec 3) (rm : RM) : Instr :=
  match d.toNat with
  | 0 => .inc (.rm .w8 rm)
  | 1 => .dec (.rm .w8 rm)
  | _ => .ud .oFE d rm

/-- One-byte opcodes from `60` up that stand alone, and the segment pushes and pops below `20` (R173). -/
def decOpcodeSingle (c : Ctx) (b : Byte) : Dec Instr :=
  match b.toNat with
  | 0x06 => .ret (.pushSeg c.osz .es)
  | 0x07 => .ret (.popSeg c.osz .es)
  | 0x0E => .ret (.pushSeg c.osz .cs)
  | 0x0F => .byte fun b2 => decOpcode0F c b2
  | 0x16 => .ret (.pushSeg c.osz .ss)
  | 0x17 => .ret (.popSeg c.osz .ss)
  | 0x1E => .ret (.pushSeg c.osz .ds)
  | 0x1F => .ret (.popSeg c.osz .ds)
  | 0x63 => (decModRM c).map fun (r, rm) => .arpl rm (Reg.ofNum r)
  | 0x68 => (Dec.imm c.osz.width).map (.pushImm c.osz)
  | 0x69 => (decModRM c).bind fun (r, rm) =>
      (Dec.imm c.osz.width).map fun i => .imul3 c.osz (Reg.ofNum r) rm i
  | 0x6A => Dec.u8.map (.pushImm8 c.osz)
  | 0x6B => (decModRM c).bind fun (r, rm) => Dec.u8.map fun i => .imul3b c.osz (Reg.ofNum r) rm i
  | 0x80 => decGroup1 c .w8
  | 0x81 => decGroup1 c c.osz.width
  | 0x83 => decGroup1b c
  | 0x84 => (decModRM c).map fun (r, rm) => .test (.rmReg .w8 rm (Reg.ofNum r))
  | 0x85 => (decModRM c).map fun (r, rm) => .test (.rmReg c.osz.width rm (Reg.ofNum r))
  | 0x86 => (decModRM c).map fun (r, rm) => .xchg .w8 rm (Reg.ofNum r)
  | 0x87 => (decModRM c).map fun (r, rm) => .xchg c.osz.width rm (Reg.ofNum r)
  | 0x88 => (decModRM c).map fun (r, rm) => .movRmReg .w8 rm (Reg.ofNum r)
  | 0x89 => (decModRM c).map fun (r, rm) => .movRmReg c.osz.width rm (Reg.ofNum r)
  | 0x8A => (decModRM c).map fun (r, rm) => .movRegRm .w8 (Reg.ofNum r) rm
  | 0x8B => (decModRM c).map fun (r, rm) => .movRegRm c.osz.width (Reg.ofNum r) rm
  | 0x8C => (decModRM c).map fun (r, rm) => .movRmSeg c.osz rm r
  | 0x8D => (decModRM c).map fun (r, rm) => .lea c.osz (Reg.ofNum r) rm
  | 0x8E => (decModRM c).map fun (r, rm) => .movSegRm r rm
  | 0x8F => (decModRM c).map fun (d, rm) => if d = 0 then .popRm c.osz rm else .ud .o8F d rm
  | 0x98 => .ret (.cbw c.osz)
  | 0x99 => .ret (.cwd c.osz)
  | 0x9A => (decFarPtr c.osz).map fun (sel, off) => .callFarPtr c.osz sel off
  | 0x9C => .ret (.pushf c.osz)
  | 0x9D => .ret (.popf c.osz)
  | 0x9E => .ret .sahf
  | 0x9F => .ret .lahf
  | 0xA0 => (decMoffs c).map (.movAccMoffs .w8)
  | 0xA1 => (decMoffs c).map (.movAccMoffs c.osz.width)
  | 0xA2 => (decMoffs c).map (.movMoffsAcc .w8)
  | 0xA3 => (decMoffs c).map (.movMoffsAcc c.osz.width)
  | 0xA4 => .ret (.movsb c.rep c.asz (c.seg.getD .ds))
  | 0xA5 => .ret (.movsw c.osz c.rep c.asz (c.seg.getD .ds))
  | 0xA6 => .ret (.cmpsb c.rep c.asz (c.seg.getD .ds))
  | 0xA7 => .ret (.cmpsw c.osz c.rep c.asz (c.seg.getD .ds))
  | 0xA8 => (Dec.imm .w8).map fun i => .test (.accImm .w8 i)
  | 0xA9 => (Dec.imm c.osz.width).map fun i => .test (.accImm c.osz.width i)
  | 0xAA => .ret (.stosb c.rep c.asz)
  | 0xAB => .ret (.stosw c.osz c.rep c.asz)
  | 0xAC => .ret (.lodsb c.rep c.asz (c.seg.getD .ds))
  | 0xAD => .ret (.lodsw c.osz c.rep c.asz (c.seg.getD .ds))
  | 0xAE => .ret (.scasb c.rep c.asz)
  | 0xAF => .ret (.scasw c.osz c.rep c.asz)
  | 0xC0 => decGroup2i c .w8
  | 0xC1 => decGroup2i c c.osz.width
  | 0xC2 => Dec.u16.map (.retImm c.osz)
  | 0xC3 => .ret (.ret c.osz)
  | 0xC6 => decGroup11 c .w8 .oC6
  | 0xC7 => decGroup11 c c.osz.width .oC7
  | 0xCA => Dec.u16.map (.retfImm c.osz)
  | 0xCB => .ret (.retf c.osz)
  | 0xCC => .ret .int3
  | 0xCD => Dec.u8.map .int
  | 0xCE => .ret .into
  | 0xCF => .ret (.iret c.osz)
  | 0xD0 => decGroup2 c .w8 .one
  | 0xD1 => decGroup2 c c.osz.width .one
  | 0xD2 => decGroup2 c .w8 .cl
  | 0xD3 => decGroup2 c c.osz.width .cl
  | 0xE0 => Dec.u8.map (.loopne c.osz c.asz)
  | 0xE1 => Dec.u8.map (.loope c.osz c.asz)
  | 0xE2 => Dec.u8.map (.loop c.osz c.asz)
  | 0xE3 => Dec.u8.map (.jcxz c.osz c.asz)
  | 0xE4 => Dec.u8.map .inImm
  | 0xE6 => Dec.u8.map .outImm
  | 0xE8 => (Dec.imm c.osz.width).map (.callNear c.osz)
  | 0xE9 => (Dec.imm c.osz.width).map (.jmpNear c.osz)
  | 0xEA => (decFarPtr c.osz).map fun (sel, off) => .jmpFarPtr c.osz sel off
  | 0xEB => Dec.u8.map (.jmpShort c.osz)
  | 0xEC => .ret .inDx
  | 0xEE => .ret .outDx
  | 0xF4 => .ret .hlt
  | 0xF5 => .ret .cmc
  | 0xF6 => decGroup3 c .w8
  | 0xF7 => decGroup3 c c.osz.width
  | 0xF8 => .ret .clc
  | 0xF9 => .ret .stc
  | 0xFA => .ret .cli
  | 0xFB => .ret .sti
  | 0xFC => .ret .cld
  | 0xFD => .ret .std
  | 0xFE => (decModRM c).map fun (d, rm) => group4Instr d rm
  | 0xFF => (decModRM c).map fun (d, rm) => group5Instr c d rm
  | _ => .unadmitted

/-- One-byte opcodes: the rows with a register or a condition in their low bits by the bits above, the
arithmetic block below `40` by its form, the rest one by one (R173). -/
def decOpcode (c : Ctx) (b : Byte) : Dec Instr :=
  let n := b.toNat
  let r := Reg.ofNum (b.extractLsb' 0 3)
  match n / 8 with
  | 8 => .ret (.inc (.reg c.osz r))
  | 9 => .ret (.dec (.reg c.osz r))
  | 10 => .ret (.pushReg c.osz r)
  | 11 => .ret (.popReg c.osz r)
  | 14 => Dec.u8.map (.jccShort c.osz (Cond.ofNum (b.extractLsb' 0 4)))
  | 15 => Dec.u8.map (.jccShort c.osz (Cond.ofNum (b.extractLsb' 0 4)))
  | 18 => .ret (if r = .eax then .nop else .xchgAcc c.osz r)
  | 22 => (Dec.imm .w8).map (.movRegImm .w8 r)
  | 23 => (Dec.imm c.osz.width).map (.movRegImm c.osz.width r)
  | _ =>
    if n < 64 ∧ n % 8 < 6 then (decAluForm c (n % 8)).map (aluInstr (b.extractLsb' 3 3))
    else decOpcodeSingle c b

/-- The decoder of one instruction: prefixes, opcode, then the parts its row calls for (R160). -/
def decInstr (d : Size) : Dec Instr :=
  (decPrefixes maxInsnLen {}).bind fun (p, b) => decOpcode (p.ctx d) b

/-- What the decoder says of bytes. -/
inductive DecodeResult
  /-- The instruction and its length in bytes. -/
  | ok (i : Instr) (len : Nat)
  /-- Refused by name: no row matches (R1, R183). -/
  | unadmitted
  /-- Refused by name: the bytes end before the instruction does. -/
  | truncated
  /-- Refused by name: the instruction is longer than 15 bytes (R130). -/
  | tooLong
deriving DecidableEq, Repr

/-- Decode the instruction at the head of a list of bytes in a code segment of default size `d`. Total. -/
def decode (d : Size) (bs : List Byte) : DecodeResult :=
  match (decInstr d).run (bs.take maxInsnLen) with
  | .ok i rest => .ok i ((bs.take maxInsnLen).length - rest.length)
  | .unadmitted => .unadmitted
  | .more => if maxInsnLen ≤ bs.length then .tooLong else .truncated

/-! ### The encoder, from the same tables -/

/-- The bytes of a value, lowest first (R85). -/
def leBytes (v : Word) : Width → List Byte
  | .w8 => [v.setWidth 8]
  | .w16 => [v.setWidth 8, v.extractLsb' 8 8]
  | .w32 => [v.setWidth 8, v.extractLsb' 8 8, v.extractLsb' 16 8, v.extractLsb' 24 8]

/-- The two bytes of a 16-bit value, the lower first. -/
def halfBytes (v : Half) : List Byte := [v.setWidth 8, v.extractLsb' 8 8]

/-- The override byte of a segment (R161). -/
def Seg.overrideByte : Seg → Byte
  | .es => 0x26 | .cs => 0x2E | .ss => 0x36 | .ds => 0x3E | .fs => 0x64 | .gs => 0x65

/-- The prefix bytes an instruction needs in a code segment of default size `d`: a size byte where its size
is not the default, an override where its segment is not the default one, its repeat prefix (R161). -/
def prefixBytes (d : Size) (osz asz : Option Size) (seg : Option Seg) (rep : Rep) : List Byte :=
  (match osz with | some z => if z = d then [] else [0x66] | none => []) ++
  (match asz with | some a => if a = d then [] else [0x67] | none => []) ++
  (match seg with | some s => [s.overrideByte] | none => []) ++
  (match rep with | .none => [] | .repe => [0xF3] | .repne => [0xF2])

/-- The address size of an r/m operand, when it is memory. -/
def RM.asz? : RM → Option Size
  | .reg _ => none
  | .mem m => some m.addr.asz

/-- The segment override an r/m operand needs. -/
def RM.override? : RM → Option Seg
  | .reg _ => none
  | .mem m => if m.seg = m.addr.defaultSeg then none else some m.seg

/-- The prefix bytes of an instruction with an r/m operand. -/
def rmPrefix (d : Size) (osz : Option Size) (rm : RM) : List Byte :=
  prefixBytes d osz rm.asz? rm.override? .none

/-- The prefix bytes of an instruction without one. -/
def opPrefix (d : Size) (osz : Option Size) : List Byte := prefixBytes d osz none none .none

/-- The mod field of a displacement. -/
def Disp.mod {α : Type} : Disp α → BitVec 2
  | .none => 0
  | .d8 _ => 1
  | .full _ => 2

/-- The bytes of a 16-bit displacement. -/
def Disp.bytes16 : Disp Half → List Byte
  | .none => []
  | .d8 b => [b]
  | .full v => halfBytes v

/-- The bytes of a 32-bit displacement. -/
def Disp.bytes32 : Disp Word → List Byte
  | .none => []
  | .d8 b => [b]
  | .full v => leBytes v .w32

/-- The index field of a SIB byte. -/
def indexNum : Option Reg → BitVec 3
  | none => 4
  | some r => r.num

/-- A ModRM byte with reg field `reg`, and the bytes of its operand (R165 to R167). -/
def rmBytes (reg : BitVec 3) : RM → List Byte
  | .reg r => [ModRM.toByte { mod := 3, reg := reg, rm := r.num }]
  | .mem m => match m.addr with
    | .abs16 d => ModRM.toByte { mod := 0, reg := reg, rm := 6 } :: halfBytes d
    | .based16 b d => ModRM.toByte { mod := d.mod, reg := reg, rm := b.num } :: d.bytes16
    | .abs32 d => ModRM.toByte { mod := 0, reg := reg, rm := 5 } :: leBytes d .w32
    | .based32 b d => ModRM.toByte { mod := d.mod, reg := reg, rm := b.num } :: d.bytes32
    | .sib b x s d =>
      ModRM.toByte { mod := d.mod, reg := reg, rm := 4 } ::
        ModRM.toByte { mod := s, reg := indexNum x, rm := b.num } :: d.bytes32
    | .sibAbs x s d =>
      ModRM.toByte { mod := 0, reg := reg, rm := 4 } ::
        ModRM.toByte { mod := s, reg := indexNum x, rm := 5 } :: leBytes d .w32

/-- The bytes of an arithmetic instruction with group 1 digit `digit` (R260). -/
def AluForm.encode (d : Size) (digit : BitVec 3) : AluForm → List Byte
  | .rmReg w rm r =>
    rmPrefix d w.size? rm ++ (((0#2 ++ digit ++ 0#3) + w.opBit) :: rmBytes r.num rm)
  | .regRm w r rm =>
    rmPrefix d w.size? rm ++ (((0#2 ++ digit ++ 2#3) + w.opBit) :: rmBytes r.num rm)
  | .accImm w imm => opPrefix d w.size? ++ (((0#2 ++ digit ++ 4#3) + w.opBit) :: leBytes imm w)
  | .rmImm w rm imm => rmPrefix d w.size? rm ++ ((0x80 + w.opBit) :: (rmBytes digit rm ++ leBytes imm w))
  | .rmImm8 z rm ib => rmPrefix d (some z) rm ++ (0x83 :: (rmBytes digit rm ++ [ib]))

/-- The bytes of INC (digit 0) and DEC (digit 1) (R269, R270). -/
def IncForm.encode (d : Size) (digit : BitVec 3) : IncForm → List Byte
  | .reg z r => opPrefix d (some z) ++ [0b01#2 ++ digit ++ r.num]
  | .rm w e => rmPrefix d w.size? e ++ ((0xFE + w.opBit) :: rmBytes digit e)

/-- The bytes of TEST (R273). -/
def TestForm.encode (d : Size) : TestForm → List Byte
  | .rmReg w rm r => rmPrefix d w.size? rm ++ ((0x84 + w.opBit) :: rmBytes r.num rm)
  | .accImm w imm => opPrefix d w.size? ++ ((0xA8 + w.opBit) :: leBytes imm w)
  | .rmImm w rm imm => rmPrefix d w.size? rm ++ ((0xF6 + w.opBit) :: (rmBytes 0 rm ++ leBytes imm w))

/-- Group 3 without an immediate (R175). -/
def encGroup3 (d : Size) (digit : BitVec 3) (w : Width) (rm : RM) : List Byte :=
  rmPrefix d w.size? rm ++ ((0xF6 + w.opBit) :: rmBytes digit rm)

/-- Group 2 (R320). -/
def encShift (d : Size) (digit : BitVec 3) (w : Width) (rm : RM) : Count → List Byte
  | .one => rmPrefix d w.size? rm ++ ((0xD0 + w.opBit) :: rmBytes digit rm)
  | .cl => rmPrefix d w.size? rm ++ ((0xD2 + w.opBit) :: rmBytes digit rm)
  | .imm ib => rmPrefix d w.size? rm ++ ((0xC0 + w.opBit) :: (rmBytes digit rm ++ [ib]))

/-- An opcode followed by a ModRM operand. -/
def encRM (d : Size) (osz : Option Size) (opcode : List Byte) (reg : BitVec 3) (rm : RM) : List Byte :=
  rmPrefix d osz rm ++ (opcode ++ rmBytes reg rm)

/-- An opcode followed by other bytes, with no memory operand. -/
def encOp (d : Size) (osz : Option Size) (bs : List Byte) : List Byte := opPrefix d osz ++ bs

/-- A `moffs` instruction (R172). -/
def encMoffs (d : Size) (w : Width) (opcode : Byte) (m : Moffs) : List Byte :=
  prefixBytes d w.size? (some m.asz) (if m.seg = .ds then none else some m.seg) .none ++
    ((opcode + w.opBit) :: leBytes m.off m.asz.width)

/-- A string instruction (44_string.md): its size, address size, source segment and repeat prefix. -/
def encString (d : Size) (osz : Option Size) (rep : Rep) (asz : Size) (seg : Seg) (opcode : Byte) :
    List Byte :=
  prefixBytes d osz (some asz) (if seg = .ds then none else some seg) rep ++ [opcode]

/-- A short branch whose count register has the address size (R365, R366). -/
def encLoop (d : Size) (z asz : Size) (opcode cb : Byte) : List Byte :=
  prefixBytes d (some z) (some asz) none .none ++ [opcode, cb]

/-- The opcode byte or bytes of an undefined slot. -/
def UdOp.opcode : UdOp → List Byte
  | .o8F => [0x8F] | .oC6 => [0xC6] | .oC7 => [0xC7] | .oFE => [0xFE] | .oFF => [0xFF]
  | .o0F00 => [0x0F, 0x00] | .o0F01 => [0x0F, 0x01]

/-- The opcode of a segment push (R223). -/
def Seg.pushOpcode : Seg → List Byte
  | .es => [0x06] | .cs => [0x0E] | .ss => [0x16] | .ds => [0x1E] | .fs => [0x0F, 0xA0] | .gs => [0x0F, 0xA8]

/-- The opcode of a segment pop (R224); there is none for CS. -/
def Seg.popOpcode : Seg → List Byte
  | .es => [0x07] | .cs => [] | .ss => [0x17] | .ds => [0x1F] | .fs => [0x0F, 0xA1] | .gs => [0x0F, 0xA9]

/-- The bytes of a well-formed instruction in a code segment of default size `d` (R160). -/
def encode (d : Size) : Instr → List Byte
  | .add f => f.encode d 0
  | .or f => f.encode d 1
  | .adc f => f.encode d 2
  | .sbb f => f.encode d 3
  | .and f => f.encode d 4
  | .sub f => f.encode d 5
  | .xor f => f.encode d 6
  | .cmp f => f.encode d 7
  | .inc f => f.encode d 0
  | .dec f => f.encode d 1
  | .neg w rm => encGroup3 d 3 w rm
  | .not w rm => encGroup3 d 2 w rm
  | .test f => f.encode d
  | .mul w rm => encGroup3 d 4 w rm
  | .imul1 w rm => encGroup3 d 5 w rm
  | .imul2 z r rm => encRM d (some z) [0x0F, 0xAF] r.num rm
  | .imul3 z r rm imm => encRM d (some z) [0x69] r.num rm ++ leBytes imm z.width
  | .imul3b z r rm ib => encRM d (some z) [0x6B] r.num rm ++ [ib]
  | .div w rm => encGroup3 d 6 w rm
  | .idiv w rm => encGroup3 d 7 w rm
  | .cbw z => encOp d (some z) [0x98]
  | .cwd z => encOp d (some z) [0x99]
  | .rol w rm c => encShift d 0 w rm c
  | .ror w rm c => encShift d 1 w rm c
  | .rcl w rm c => encShift d 2 w rm c
  | .rcr w rm c => encShift d 3 w rm c
  | .shl w rm c => encShift d 4 w rm c
  | .shr w rm c => encShift d 5 w rm c
  | .sal w rm c => encShift d 6 w rm c
  | .sar w rm c => encShift d 7 w rm c
  | .movRmReg w rm r => encRM d w.size? [0x88 + w.opBit] r.num rm
  | .movRegRm w r rm => encRM d w.size? [0x8A + w.opBit] r.num rm
  | .movAccMoffs w m => encMoffs d w 0xA0 m
  | .movMoffsAcc w m => encMoffs d w 0xA2 m
  | .movRegImm w r imm =>
    encOp d w.size? (((if w = .w8 then 0b10110#5 else 0b10111#5) ++ r.num) :: leBytes imm w)
  | .movRmImm w rm imm => encRM d w.size? [0xC6 + w.opBit] 0 rm ++ leBytes imm w
  | .movRmSeg z rm sreg => encRM d (some z) [0x8C] sreg rm
  | .movSegRm sreg rm => encRM d none [0x8E] sreg rm
  | .movzxByte z r rm => encRM d (some z) [0x0F, 0xB6] r.num rm
  | .movzxWord z r rm => encRM d (some z) [0x0F, 0xB7] r.num rm
  | .movsxByte z r rm => encRM d (some z) [0x0F, 0xBE] r.num rm
  | .movsxWord z r rm => encRM d (some z) [0x0F, 0xBF] r.num rm
  | .lea z r rm => encRM d (some z) [0x8D] r.num rm
  | .xchg w rm r => encRM d w.size? [0x86 + w.opBit] r.num rm
  | .xchgAcc z r => encOp d (some z) [0b10010#5 ++ r.num]
  | .pushReg z r => encOp d (some z) [0b01010#5 ++ r.num]
  | .pushImm z imm => encOp d (some z) (0x68 :: leBytes imm z.width)
  | .pushImm8 z ib => encOp d (some z) [0x6A, ib]
  | .pushRm z rm => encRM d (some z) [0xFF] 6 rm
  | .popReg z r => encOp d (some z) [0b01011#5 ++ r.num]
  | .popRm z rm => encRM d (some z) [0x8F] 0 rm
  | .pushSeg z sr => encOp d (some z) sr.pushOpcode
  | .popSeg z sr => encOp d (some z) sr.popOpcode
  | .inImm ib => encOp d none [0xE4, ib]
  | .inDx => encOp d none [0xEC]
  | .outImm ib => encOp d none [0xE6, ib]
  | .outDx => encOp d none [0xEE]
  | .movsb rep a s => encString d none rep a s 0xA4
  | .movsw z rep a s => encString d (some z) rep a s 0xA5
  | .cmpsb rep a s => encString d none rep a s 0xA6
  | .cmpsw z rep a s => encString d (some z) rep a s 0xA7
  | .stosb rep a => encString d none rep a .ds 0xAA
  | .stosw z rep a => encString d (some z) rep a .ds 0xAB
  | .lodsb rep a s => encString d none rep a s 0xAC
  | .lodsw z rep a s => encString d (some z) rep a s 0xAD
  | .scasb rep a => encString d none rep a .ds 0xAE
  | .scasw z rep a => encString d (some z) rep a .ds 0xAF
  | .jmpShort z cb => encOp d (some z) [0xEB, cb]
  | .jmpNear z cv => encOp d (some z) (0xE9 :: leBytes cv z.width)
  | .jmpRm z rm => encRM d (some z) [0xFF] 4 rm
  | .jmpFarPtr z sel off => encOp d (some z) (0xEA :: (leBytes off z.width ++ halfBytes sel))
  | .jmpFarMem z rm => encRM d (some z) [0xFF] 5 rm
  | .jccShort z cc cb => encOp d (some z) [0b0111#4 ++ cc.num, cb]
  | .jccNear z cc cv => encOp d (some z) (0x0F :: (0b1000#4 ++ cc.num) :: leBytes cv z.width)
  | .jcxz z a cb => encLoop d z a 0xE3 cb
  | .loop z a cb => encLoop d z a 0xE2 cb
  | .loope z a cb => encLoop d z a 0xE1 cb
  | .loopne z a cb => encLoop d z a 0xE0 cb
  | .callNear z cv => encOp d (some z) (0xE8 :: leBytes cv z.width)
  | .callRm z rm => encRM d (some z) [0xFF] 2 rm
  | .callFarPtr z sel off => encOp d (some z) (0x9A :: (leBytes off z.width ++ halfBytes sel))
  | .callFarMem z rm => encRM d (some z) [0xFF] 3 rm
  | .ret z => encOp d (some z) [0xC3]
  | .retImm z iw => encOp d (some z) (0xC2 :: halfBytes iw)
  | .retf z => encOp d (some z) [0xCB]
  | .retfImm z iw => encOp d (some z) (0xCA :: halfBytes iw)
  | .int3 => encOp d none [0xCC]
  | .int ib => encOp d none [0xCD, ib]
  | .into => encOp d none [0xCE]
  | .iret z => encOp d (some z) [0xCF]
  | .clc => encOp d none [0xF8]
  | .stc => encOp d none [0xF9]
  | .cmc => encOp d none [0xF5]
  | .cld => encOp d none [0xFC]
  | .std => encOp d none [0xFD]
  | .cli => encOp d none [0xFA]
  | .sti => encOp d none [0xFB]
  | .lahf => encOp d none [0x9F]
  | .sahf => encOp d none [0x9E]
  | .pushf z => encOp d (some z) [0x9C]
  | .popf z => encOp d (some z) [0x9D]
  | .hlt => encOp d none [0xF4]
  | .nop => encOp d none [0x90]
  | .lgdt z rm => encRM d (some z) [0x0F, 0x01] 2 rm
  | .lidt z rm => encRM d (some z) [0x0F, 0x01] 3 rm
  | .sgdt z rm => encRM d (some z) [0x0F, 0x01] 0 rm
  | .sidt z rm => encRM d (some z) [0x0F, 0x01] 1 rm
  | .lldt rm => encRM d none [0x0F, 0x00] 2 rm
  | .sldt z rm => encRM d (some z) [0x0F, 0x00] 0 rm
  | .ltr rm => encRM d none [0x0F, 0x00] 3 rm
  | .str z rm => encRM d (some z) [0x0F, 0x00] 1 rm
  | .movToCr cr r => encOp d none [0x0F, 0x22, ModRM.toByte { mod := 3, reg := cr, rm := r.num }]
  | .movFromCr r cr => encOp d none [0x0F, 0x20, ModRM.toByte { mod := 3, reg := cr, rm := r.num }]
  | .invlpg rm => encRM d none [0x0F, 0x01] 7 rm
  | .arpl rm r => encRM d none [0x63] r.num rm
  | .ud op ext rm => encRM d none op.opcode ext rm

/-! ### The table's numbering of bits -/

/-- `n` bytes of a number whose least significant byte is the first byte of the instruction. -/
def wordBytes : Nat → Nat → List Byte
  | 0, _ => []
  | n + 1, w => BitVec.ofNat 8 w :: wordBytes n (w / 256)

/-- The bytes of an opcode-table word: `nbits` bits of `w`, then zeros up to the longest instruction. -/
def tableBytes (nbits w : Nat) : List Byte := wordBytes maxInsnLen (w % 2 ^ nbits)

/-- The instruction the decoder reads from an opcode-table word, in the 16-bit code segment of reset (R50,
R162); `none` where it refuses. -/
def decodeTableWord (nbits w : Nat) : Option Instr :=
  match decode .s16 (tableBytes nbits w) with
  | .ok i _ => some i
  | .unadmitted => none
  | .truncated => none
  | .tooLong => none

end Sys2Proof
end

