-- ==== Sys2Proof/Config.lean ====
section
/-! DEFINITION. What an implementation fixes (00_scope.md section 3, "Implementation parameters") and the
free values of R4 (`draw`). A free value is a constant without a body: nothing in Lean can evaluate it, so a
claim holds whatever it is. It is applied to the counter `State.draws`, which every draw advances. -/

namespace Sys2Proof

/-- The emulated CPU class (`CPU_MODEL`, D2). -/
inductive CpuModel
  | i386
  | i486
deriving DecidableEq, Repr

/-- `FLAGS_CAP_MASK` of a CPU class (00_scope.md section 3; D2, D5). -/
def CpuModel.capMask : CpuModel → Word
  | .i386 => 0x00037FD5
  | .i486 => 0x00077FD5

namespace Config

/-- `CPU_MODEL`: the spec's default, 486-class (D2). Assumption log 3. -/
def cpuModel : CpuModel := .i486

/-- `FLAGS_CAP_MASK` of this machine (R26). -/
def capMask : Word := cpuModel.capMask

/-- `A20_RESET`: the gate is open at reset (D11, D42). -/
def a20Reset : Bool := true

/-- `V86_TEMPLATE_SIZE32` (D21, R98). -/
def v86TemplateSize32 : Bool := false

/-- What a byte of memory that nothing has written reads as: all ones, as an unmapped one does (R80).
DESIGN CHOICE for mapped memory, assumption log 2. -/
def unlistedByte : Byte := 0xFF

/-- `RESET_EDX`: EDX after reset is a draw (R50, U19). -/
opaque resetEdx : Word

/-- A 1-bit draw: a flag the architecture leaves undefined (R4, U1 to U4). -/
opaque drawBit : Nat → Bool

/-- An 8-bit draw: the sixth byte SGDT and SIDT store with `osz` 16 (U9). -/
opaque drawByte : Nat → Byte

/-- What a device answers to one call that reads its memory (R80, R86): the draw's number, the physical address and
the number of bytes. -/
opaque deviceRead : Nat → Nat → Nat → Word

/-- What a device answers to `IoRead8` (R82): the draw's number and the port. -/
opaque portByte : Nat → Half → Byte

/-- `InsnCycles`: the cycles charged for an instruction (R580, D43). -/
opaque insnCycles : Instr → Nat

/-- `INT_ACK_CYCLES` (R520, D43). -/
opaque intAckCycles : Nat

/-- `HALT_IDLE_CYCLES` (R520, D43). -/
opaque haltIdleCycles : Nat

end Config

end Sys2Proof
end

