-- ==== Sys2Proof/Machine/State.lean ====
section
/-! DEFINITION. The state of the machine as plain data (10_state.md), what its platform holds beside it
(20_memory.md R80 to R84, 60_exceptions.md R540 to R547), the reasons a run stops, and reset. -/

namespace Sys2Proof.Machine

/-! ### Register structures -/

/-- The eight general registers (R20). -/
structure Regs where
  eax : Word
  ecx : Word
  edx : Word
  ebx : Word
  esp : Word
  ebp : Word
  esi : Word
  edi : Word
deriving DecidableEq, Repr

/-- A segment register: selector and cached descriptor fields (R30). -/
structure SegReg where
  selector : Half
  base     : Word
  limitMin : Word
  limitMax : Word
  type     : BitVec 4
  dpl      : BitVec 2
  size32   : Bool
  readable : Bool
  writable : Bool
  valid    : Bool
deriving DecidableEq, Repr

/-- The six segment registers (R30). -/
structure Segs where
  es : SegReg
  cs : SegReg
  ss : SegReg
  ds : SegReg
  fs : SegReg
  gs : SegReg
deriving DecidableEq, Repr

/-- GDTR or IDTR: base and limit (R35). -/
structure TableReg where
  base  : Word
  limit : Half
deriving DecidableEq, Repr

/-- LDTR (R36). -/
structure Ldtr where
  selector : Half
  base     : Word
  limit    : Word
  valid    : Bool
deriving DecidableEq, Repr

/-- The task register (R37). -/
structure TaskReg where
  selector : Half
  base     : Word
  limit    : Word
  busy     : Bool
  type32   : Bool
deriving DecidableEq, Repr

/-- One TLB entry (R44). -/
structure TlbEntry where
  physBase       : Word
  readOnly       : Bool
  supervisorOnly : Bool
  dirty          : Bool
deriving DecidableEq, Repr

/-! ### The platform behind the contracts -/

/-- What a range of physical addresses is mapped to (R80, R81). -/
inductive RegionKind
  | ram
  | rom
  | device
deriving DecidableEq, Repr

/-- One range of `PhysMap`: the addresses `base` to `base + size - 1`. -/
structure Region where
  base : Nat
  size : Nat
  kind : RegionKind
deriving DecidableEq, Repr

/-- One range of `IoMap`: the ports `first` to `last` have a device (R82 to R84). -/
structure PortRange where
  first : Nat
  last  : Nat
deriving DecidableEq, Repr

/-- Something the platform does between steps, or inside a call the core makes to a device (R2, R543, R546). -/
inductive PlatformEvent
  /-- Devices raised or cleared requests (R543): the vectors the controller is willing to deliver from now
  on, the next one first. -/
  | requests (vectors : List Byte)
  /-- The A20 input (R546): true opens the gate. -/
  | setA20 (on : Bool)
  /-- A device writes a byte of memory (R143). -/
  | memWrite (addr : Word) (v : Byte)
  /-- A TLB entry vanishes, as a finite TLB lets it (R124, U23). -/
  | tlbDrop (page : BitVec 20)
  /-- The reset input (R547). -/
  | reset
deriving DecidableEq, Repr

/-- A call the core makes of a device: of one that owns memory (R80, R81, R86) or of one that has a port (R82,
R83). -/
inductive DeviceCall
  /-- `readMEM{8,16,32}(address)`: the address and the number of bytes. -/
  | readMem (addr bytes : Nat)
  /-- `writeMEM{8,16,32}(address, value)`. -/
  | writeMem (addr bytes : Nat) (value : Word)
  /-- `readIO8(port)`. -/
  | readIo (port : Half)
  /-- `writeIO8(port, value)`. -/
  | writeIo (port : Half) (value : Byte)
deriving DecidableEq, Repr

/-- Memory: address and byte pairs in canonical form (Machine/Memory.lean). -/
abbrev Memory := List Host.Cell

/-! ### The state -/

/-- Everything the spec gives the machine, and the platform's side of its contracts. -/
structure State where
  /-- General registers (R20). -/
  regs       : Regs
  /-- Instruction pointer (R24). -/
  eip        : Word
  /-- The stored flag word (R25, R26). -/
  flags      : Word
  /-- Segment registers (R30). -/
  segs       : Segs
  /-- Current privilege level (R33). -/
  cpl        : BitVec 2
  gdtr       : TableReg
  idtr       : TableReg
  ldtr       : Ldtr
  tr         : TaskReg
  /-- CR0: bit 0 PE, bit 31 PG (R38). -/
  cr0        : Word
  /-- The linear address of the last page fault (R39). -/
  cr2        : Word
  /-- The page-directory base (R40). -/
  cr3        : Word
  /-- The A20 gate; `State.a20Mask` is the 32-bit mask (R42). -/
  a20On      : Bool
  /-- The halt state (R43). -/
  halted     : Bool
  /-- Shutdown: no successor until the reset input (R511, R537). -/
  shutdown   : Bool
  /-- Translations by linear page number, rising (R44). -/
  tlb        : List (Nat × TlbEntry)
  /-- EIP of the running instruction's first byte (R48). -/
  startEip   : Word
  /-- ESP before the running instruction (R48). -/
  startEsp   : Word
  /-- EIP of the byte after the running instruction (R24). -/
  nextEip    : Word
  /-- A code block is running and has not ended: no interrupt is looked for before the next instruction
  (R132, R520, R578). -/
  inBlock    : Bool
  /-- The 16-byte paragraphs of the running block: those its instructions lay in when the block began, and those they
  were fetched from (R45, R133, R134). -/
  blockParas : List Nat
  /-- `BlockPartition`: for the next instructions that need not end their block, whether the decoder ended it
  there; where the list is used up it did (R132, U21). -/
  blockPlan  : List Bool
  /-- Cycles of the current step (R47). -/
  cycles     : Nat
  /-- Memory contents (R80, R81). -/
  mem        : Memory
  /-- `PhysMap`; an address in no region is unmapped (R80). -/
  physMap    : List Region
  /-- `IoMap` (R82 to R84). -/
  ioMap      : List PortRange
  /-- The interrupt controller's deliverable requests, the next one first (R46, R542). -/
  pending    : List Byte
  /-- The total of cycles handed to the scheduler (R545). -/
  clock      : Nat
  /-- What the platform will do inside the coming `updateClock` calls, one batch a call (R545). -/
  events     : List (List PlatformEvent)
  /-- What the platform will do inside the coming calls of a device, through a port or through memory, one batch
  a call (R234, R543, R546). -/
  ioEvents   : List (List PlatformEvent)
  /-- The calls the core has made of devices, the latest first: what reached them (R81 to R83, R234, R235). -/
  calls      : List DeviceCall
  /-- The number of free values drawn so far (R4). The model's own field. -/
  draws      : Nat
deriving DecidableEq, Repr

/-! ### Why a run stops -/

/-- The machine has no successor state. -/
inductive Fault
  /-- Raised by `step` in the shutdown state while the reset input is not demanded: "the step relation has
  no successor state until the reset input" (R511). Safe: the spec gives none. -/
  | shutdown
deriving DecidableEq, Repr

/-- The spec gives the situation no meaning (R3). Each is safe: no claim about what follows can be proved. -/
inductive Refusal
  /-- Raised by `exec` for an instruction that has no meaning in this model yet. Safe. -/
  | notModelled (mnemonic : String)
  /-- Raised by the fetch unit: the bytes read so far match no row of the table (R1, R183). Safe. -/
  | unadmitted (bytes : List Byte)
  /-- Raised by IN and OUT: no device has the port, "a configuration error" (R84, U13). Safe. -/
  | unregisteredPort (port : Half)
  /-- Raised by far JMP and CALL through a call gate (R385, U17). Safe. -/
  | callGateTransfer
  /-- Raised by RETF to an outer privilege level (R390, U17). Safe. -/
  | farReturnOuter
  /-- Raised by a task switch or an inner stack load that meets a 16-bit task-state segment (R471, R473). Safe. -/
  | tss16
  /-- Raised by a 16-bit gate taken from virtual-8086 mode (R526, U17). Safe. -/
  | v86Gate16
deriving DecidableEq, Repr

/-! ### Reset -/

/-- ES, SS, DS, FS and GS after reset (R50). -/
def SegReg.resetData : SegReg where
  selector := 0
  base := 0
  limitMin := 0
  limitMax := 0xFFFF
  type := 0x3
  dpl := 0
  size32 := false
  readable := true
  writable := true
  valid := true

/-- CS after reset (R50). -/
def SegReg.resetCode : SegReg where
  selector := 0xF000
  base := 0xFFFF0000
  limitMin := 0
  limitMax := 0xFFFF
  type := 0xB
  dpl := 0
  size32 := false
  readable := true
  writable := true
  valid := true

/-- The core's state takes its reset values; memory, the maps, the controller and what the platform will do
are the platform's and stay (R49, R50, R570). The counter of draws goes on, so that later draws are fresh. -/
def State.resetCore (s : State) : State :=
  { s with
    regs := { eax := 0, ecx := 0, edx := Config.resetEdx, ebx := 0, esp := 0, ebp := 0, esi := 0, edi := 0 }
    eip := 0x0000FFF0
    flags := 0x00000002
    segs := { es := .resetData, cs := .resetCode, ss := .resetData, ds := .resetData, fs := .resetData,
              gs := .resetData }
    cpl := 0
    gdtr := { base := 0, limit := 0xFFFF }
    idtr := { base := 0, limit := 0x03FF }
    ldtr := { selector := 0, base := 0, limit := 0xFFFF, valid := false }
    tr := { selector := 0, base := 0, limit := 0xFFFF, busy := false, type32 := true }
    cr0 := 0x60000010
    cr2 := 0
    cr3 := 0
    a20On := Config.a20Reset
    halted := false
    shutdown := false
    tlb := []
    startEip := 0x0000FFF0
    startEsp := 0
    nextEip := 0x0000FFF0
    inBlock := false
    blockParas := []
    cycles := 0 }

/-- The machine right after power-on: R50, with nothing placed in memory and a platform that maps all of
physical memory to RAM, registers every port and does nothing (assumption log 1, 2, 4, 5). -/
def State.reset : State :=
  State.resetCore
    { regs := { eax := 0, ecx := 0, edx := 0, ebx := 0, esp := 0, ebp := 0, esi := 0, edi := 0 }
      eip := 0
      flags := 0
      segs := { es := .resetData, cs := .resetCode, ss := .resetData, ds := .resetData, fs := .resetData,
                gs := .resetData }
      cpl := 0
      gdtr := { base := 0, limit := 0 }
      idtr := { base := 0, limit := 0 }
      ldtr := { selector := 0, base := 0, limit := 0, valid := false }
      tr := { selector := 0, base := 0, limit := 0, busy := false, type32 := false }
      cr0 := 0
      cr2 := 0
      cr3 := 0
      a20On := true
      halted := false
      shutdown := false
      tlb := []
      startEip := 0
      startEsp := 0
      nextEip := 0
      inBlock := false
      blockParas := []
      blockPlan := []
      cycles := 0
      mem := []
      physMap := [{ base := 0, size := 2 ^ 32, kind := .ram }]
      ioMap := [{ first := 0, last := 0xFFFF }]
      pending := []
      clock := 0
      events := []
      ioEvents := []
      calls := []
      draws := 0 }

end Sys2Proof.Machine
end

