-- ==== Sys2Proof/Machine/Flags.lean ====
section
/-! DEFINITION. The flag register and every flag computation of the spec: the word with its capability mask
(R25, R26), the helpers of R27 and R28, the flag rules of the shift and rotate family (R321 to R327), and the
conditions of R364. Operand values are held in 32 bits with no bit above their width (`Width.fits`). -/

namespace Sys2Proof.Machine

/-! ### Bit-vector helpers on n-bit values held in 32 bits -/

/-- The value with ones in the low n bits. -/
def mask : Width → Word
  | .w8 => 0xFF
  | .w16 => 0xFFFF
  | .w32 => 0xFFFFFFFF

/-- `trunc_n(v)` (00_scope.md section 4). -/
def trunc (w : Width) (v : Word) : Word := v &&& mask w

/-- The sign bit `v[n-1]`. -/
def msb (w : Width) (v : Word) : Bool := v.getLsbD (w.bits - 1)

/-- `sint_n(v)`: the two's-complement value of the low n bits. -/
def sint (w : Width) (v : Word) : Int := (v.setWidth w.bits).toInt

/-- `sext_n(v)` of a byte, as an n-bit value. -/
def sextByte (w : Width) (b : Byte) : Word := trunc w (b.signExtend 32)

/-- `sext_32(v)` of an n-bit value. -/
def sext32 (w : Width) (v : Word) : Word := (v.setWidth w.bits).signExtend 32

/-! ### The flag word (R25, R26) -/

/-- The one-bit flags (R25). IOPL is the two-bit field `iopl`. -/
inductive Flag
  | cf | pf | af | zf | sf | tf | if_ | df | of | nt | rf | vm | ac
deriving DecidableEq, Repr

/-- The bit of a flag (R25). -/
def Flag.bit : Flag → Nat
  | .cf => 0 | .pf => 2 | .af => 4 | .zf => 6 | .sf => 7 | .tf => 8 | .if_ => 9 | .df => 10 | .of => 11
  | .nt => 14 | .rf => 16 | .vm => 17 | .ac => 18

/-- The word with only a flag's bit set. -/
def Flag.mask (f : Flag) : Word := 1#32 <<< f.bit

/-- `getValue` (R26). -/
def flagsValue (stored : Word) : Word := (stored &&& Config.capMask) ||| 0x00000002

/-- `setValue(value, mask)` under a capability mask (R26). -/
def setFlagsCap (cap stored value m : Word) : Word := (stored &&& ~~~(m &&& cap)) ||| (value &&& m &&& cap)

/-- `setValue(value, mask)` (R26). -/
def setFlags (stored value m : Word) : Word := setFlagsCap Config.capMask stored value m

/-- Read one flag from the stored word (R26). -/
def getFlag (stored : Word) (f : Flag) : Bool := stored.getLsbD f.bit

/-- Write one flag of the stored word, through the capability mask (R26). -/
def putFlag (stored : Word) (f : Flag) (v : Bool) : Word := setFlags stored (if v then f.mask else 0) f.mask

/-- The I/O-privilege-level field, bits 13:12 (R25). -/
def iopl (stored : Word) : BitVec 2 := stored.extractLsb' 12 2

/-! ### Sign, zero, parity (R27) -/

/-- The number of ones in the low byte. -/
def popcount8 (v : Word) : Nat := (List.range 8).countP fun i => v.getLsbD i

/-- The parity flag of a result: an even number of ones in the low byte (R27). -/
def parity (r : Word) : Bool := popcount8 r % 2 = 0

/-- The six status flags of a result. -/
structure Status where
  cf : Bool
  pf : Bool
  af : Bool
  zf : Bool
  sf : Bool
  of : Bool
deriving DecidableEq, Repr

/-- `SZP_n(r)`: SF, ZF and PF of a result, beside the other three (R27). -/
def Status.ofResult (w : Width) (r : Word) (cf af of : Bool) : Status :=
  { cf := cf, af := af, of := of, sf := msb w r, zf := r = 0, pf := parity r }

/-- Write all six status flags. -/
def putStatus (stored : Word) (t : Status) : Word :=
  putFlag (putFlag (putFlag (putFlag (putFlag (putFlag stored
    .cf t.cf) .pf t.pf) .af t.af) .zf t.zf) .sf t.sf) .of t.of

/-- The carry as a number. -/
def carryNat (c : Bool) : Nat := if c then 1 else 0

/-! ### Addition and subtraction (R28) -/

/-- The result of `AddFlags_n(a, b, c)`. -/
def addResult (w : Width) (a b : Word) (c : Bool) : Word :=
  trunc w (BitVec.ofNat 32 (a.toNat + b.toNat + carryNat c))

/-- The flags of `AddFlags_n(a, b, c)`. -/
def addStatus (w : Width) (a b : Word) (c : Bool) : Status :=
  let full := a.toNat + b.toNat + carryNat c
  let r := addResult w a b c
  .ofResult w r (cf := 2 ^ w.bits ≤ full) (af := (a ^^^ b ^^^ r).getLsbD 4)
    (of := msb w ((a ^^^ r) &&& (b ^^^ r)))

/-- The result of `SubFlags_n(a, b, c)`: `a - b - c` modulo 2^n. -/
def subResult (w : Width) (a b : Word) (c : Bool) : Word :=
  trunc w (a - b - BitVec.ofNat 32 (carryNat c))

/-- The flags of `SubFlags_n(a, b, c)`. -/
def subStatus (w : Width) (a b : Word) (c : Bool) : Status :=
  let full : Int := a.toNat - b.toNat - carryNat c
  let r := subResult w a b c
  .ofResult w r (cf := full < 0) (af := (a ^^^ b ^^^ r).getLsbD 4) (of := msb w ((a ^^^ b) &&& (a ^^^ r)))

/-- `LogicFlags_n(r)`, with the draw that is AF (R28). -/
def logicStatus (w : Width) (r : Word) (draw : Bool) : Status :=
  .ofResult w r (cf := false) (af := draw) (of := false)

/-! ### Shifts and rotates (R320 to R327)

Each takes the n-bit operand `a`, the effective count `cnt` (1 to 31) and the draws its rule names. -/

/-- `rotl_w(v, k)` on a vector of m bits held in a number below 2^m, `k < m` (R320). -/
def rotl (m v k : Nat) : Nat := (v * 2 ^ k + v / 2 ^ (m - k)) % 2 ^ m

/-- `rotr_w(v, k)` on a vector of m bits, `k < m` (R320). -/
def rotr (m v k : Nat) : Nat := (v / 2 ^ k + v * 2 ^ (m - k)) % 2 ^ m

/-- The result of a shift or rotate and the flags it settles; SF, ZF, PF and AF are written by shifts only. -/
structure ShiftOut where
  r  : Word
  cf : Bool
  of : Bool
deriving DecidableEq, Repr

/-- ROL (R321). -/
def rolOut (w : Width) (a : Word) (cnt : Nat) (ofDraw : Bool) : ShiftOut :=
  let r := BitVec.ofNat 32 (rotl w.bits a.toNat (cnt % w.bits))
  { r := r, cf := r.getLsbD 0, of := if cnt = 1 then msb w a ^^ msb w r else ofDraw }

/-- ROR (R322). -/
def rorOut (w : Width) (a : Word) (cnt : Nat) (ofDraw : Bool) : ShiftOut :=
  let r := BitVec.ofNat 32 (rotr w.bits a.toNat (cnt % w.bits))
  { r := r, cf := msb w r, of := if cnt = 1 then msb w r ^^ r.getLsbD (w.bits - 2) else ofDraw }

/-- The number of places an (n+1)-bit rotate moves (R323, R324). -/
def rclCount (w : Width) (cnt : Nat) : Nat := if w = .w32 then cnt else cnt % (w.bits + 1)

/-- The vector `F.CF :: a` of n+1 bits (R323, R324). -/
def withCarry (w : Width) (a : Word) (cf : Bool) : Nat := carryNat cf * 2 ^ w.bits + a.toNat

/-- RCL (R323). -/
def rclOut (w : Width) (a : Word) (cf : Bool) (cnt : Nat) (ofDraw : Bool) : ShiftOut :=
  let t := rotl (w.bits + 1) (withCarry w a cf) (rclCount w cnt)
  let r := BitVec.ofNat 32 (t % 2 ^ w.bits)
  let c := t.testBit w.bits
  { r := r, cf := c, of := if cnt = 1 then msb w r ^^ c else ofDraw }

/-- RCR (R324). -/
def rcrOut (w : Width) (a : Word) (cf : Bool) (cnt : Nat) (ofDraw : Bool) : ShiftOut :=
  let t := rotr (w.bits + 1) (withCarry w a cf) (rclCount w cnt)
  let r := BitVec.ofNat 32 (t % 2 ^ w.bits)
  { r := r, cf := t.testBit w.bits, of := if cnt = 1 then msb w r ^^ r.getLsbD (w.bits - 2) else ofDraw }

/-- SHL and SAL (R325): CF is a draw when the count is not below the width. -/
def shlOut (w : Width) (a : Word) (cnt : Nat) (cfDraw ofDraw : Bool) : ShiftOut :=
  let r := BitVec.ofNat 32 (a.toNat * 2 ^ cnt % 2 ^ w.bits)
  { r := r
    cf := if cnt < w.bits then a.getLsbD (w.bits - cnt) else cfDraw
    of := if cnt = 1 then msb w r ^^ msb w a else ofDraw }

/-- SHR (R326): CF is a draw when the count is not below the width. -/
def shrOut (w : Width) (a : Word) (cnt : Nat) (cfDraw ofDraw : Bool) : ShiftOut :=
  { r := BitVec.ofNat 32 (a.toNat / 2 ^ cnt)
    cf := if cnt < w.bits then a.getLsbD (cnt - 1) else cfDraw
    of := if cnt = 1 then msb w a else ofDraw }

/-- SAR (R327). The count is cut at the width for the value and for CF. -/
def sarOut (w : Width) (a : Word) (cnt : Nat) (ofDraw : Bool) : ShiftOut :=
  { r := trunc w (BitVec.ofInt 32 (sint w a / 2 ^ min cnt w.bits))
    cf := a.getLsbD (min cnt w.bits - 1)
    of := if cnt = 1 then false else ofDraw }

/-! ### Conditions (R364) -/

/-- `Cond(cc)` on the stored flag word. -/
def condHolds (f : Word) : Cond → Bool
  | .o => getFlag f .of
  | .no => !getFlag f .of
  | .b => getFlag f .cf
  | .ae => !getFlag f .cf
  | .e => getFlag f .zf
  | .ne => !getFlag f .zf
  | .be => getFlag f .cf || getFlag f .zf
  | .a => !getFlag f .cf && !getFlag f .zf
  | .s => getFlag f .sf
  | .ns => !getFlag f .sf
  | .p => getFlag f .pf
  | .np => !getFlag f .pf
  | .l => getFlag f .sf != getFlag f .of
  | .ge => getFlag f .sf == getFlag f .of
  | .le => getFlag f .zf || (getFlag f .sf != getFlag f .of)
  | .g => !getFlag f .zf && (getFlag f .sf == getFlag f .of)

/-! ### Masks of the instructions that load the flag word -/

/-- SAHF: SF, ZF, AF, PF, CF (R418). -/
def sahfMask : Word := 0x000000D5

/-- PUSHFD: VM and RF read as 0 in the image (R419). -/
def pushfdImage : Word := 0x00FCFFFF

/-- POPF and POPFD (R420): the bits the pop may touch. -/
def popfMask (z : Size) (ifOk ioplOk : Bool) : Word :=
  0x00004DD5 ||| (if z = .s32 then 0x00050000 else 0) ||| (if ifOk then 0x00000200 else 0) |||
    (if ioplOk then 0x00003000 else 0)

/-- IRET in real and virtual-8086 mode (R396). -/
def iretMaskReal (z : Size) (v86 : Bool) : Word :=
  let m : Word := if z = .s16 then 0x00007FD5 else 0x00057FD5
  if v86 then m &&& ~~~(0x00003000 : Word) else m

/-- `IretMask(osz, cpl)` (R397), with the IOPL read before the update. -/
def iretMask (z : Size) (cpl io : BitVec 2) : Word :=
  0x00004DD5 ||| (if z = .s32 then 0x00050000 else 0) |||
    (if cpl.toNat ≤ io.toNat then 0x00000200 else 0) ||| (if cpl = 0 then 0x00003000 else 0)

end Sys2Proof.Machine
end

