-- ==== Sys2Proof/Machine/Memory.lean ====
section
/-! DEFINITION. Operations that can fault, and the physical memory contract (20_memory.md R80, R81, R85,
R133, R134), with the devices behind it (R142, R143). -/

namespace Sys2Proof.Machine

/-! ### Operations and the ways they stop (R3, R500) -/

/-- The fault taxonomy (R500, R501). -/
inductive FaultKind
  | de | ud | df | ts | np | ss | gp | pf | mf
deriving DecidableEq, Repr

/-- A guest-visible fault: kind, error code, address (R500). -/
structure GuestFault where
  kind : FaultKind
  code : Option Word
  addr : Option Word
deriving DecidableEq, Repr

/-- How an operation stops before its end. -/
inductive Stop
  /-- A fault; `committed` marks one raised past the commit point of a task switch, which the rollback does
  not undo (R482, R505). -/
  | fault (f : GuestFault) (committed : Bool)
  /-- A refusal (R3). -/
  | refuse (r : Refusal)
deriving DecidableEq, Repr

/-- An operation of the core: it reads and writes the state, and either yields a value or stops. Where it
stops, the state reached so far is kept beside the reason; the rollback (`rollback`, R505) picks from it what
is not undone. -/
abbrev Op (α : Type) := EStateM Stop State α

/-- `raise Fault(kind, code)` (R500). -/
def raise {α : Type} (k : FaultKind) (code : Option Word) : Op α :=
  throw (.fault { kind := k, code := code, addr := none } false)

/-- `raise #UD`, `raise #DE`: a fault without an error code (R503). -/
def raiseUD {α : Type} : Op α := raise .ud none

/-- `raise #DE` (R304, R305). -/
def raiseDE {α : Type} : Op α := raise .de none

/-- `raise #GP(0)`. -/
def raiseGP0 {α : Type} : Op α := raise .gp (some 0)

/-- `refuse Name` (R3). -/
def refuse {α : Type} (r : Refusal) : Op α := throw (.refuse r)

/-- Go on when the condition holds, else raise the fault. -/
def require (ok : Bool) (k : FaultKind) (code : Word) : Op Unit := if ok then pure () else raise k (some code)

/-- Go on when the condition holds, else raise `#UD`. -/
def requireUD (ok : Bool) : Op Unit := if ok then pure () else raiseUD

/-! ### Lists of key and value pairs with rising keys -/

/-- The value of a key. -/
def Assoc.get {α : Type} (k : Nat) : List (Nat × α) → Option α
  | [] => none
  | (k', v) :: t => if k' = k then some v else Assoc.get k t

/-- Write a key, keeping the keys rising. -/
def Assoc.set {α : Type} (k : Nat) (v : α) : List (Nat × α) → List (Nat × α)
  | [] => [(k, v)]
  | (k', v') :: t =>
    if k < k' then (k, v) :: (k', v') :: t
    else if k = k' then (k, v) :: t
    else (k', v') :: Assoc.set k v t

/-- Remove a key. -/
def Assoc.erase {α : Type} (k : Nat) : List (Nat × α) → List (Nat × α)
  | [] => []
  | (k', v') :: t => if k = k' then t else (k', v') :: Assoc.erase k t

/-- The keys rise strictly. -/
abbrev Assoc.Rising {α : Type} (l : List (Nat × α)) : Prop := l.Pairwise fun a b => a.1 < b.1

/-! ### Memory as a list of cells -/

/-- The byte held at an address: the listed one, else what an unlisted address reads as. -/
def Memory.read (m : Memory) (a : Nat) : Byte := (Assoc.get a m).getD Config.unlistedByte

/-- Write a byte; writing what an unlisted address reads as removes the entry. -/
def Memory.write (m : Memory) (a : Nat) (v : Byte) : Memory :=
  if v = Config.unlistedByte then Assoc.erase a m else Assoc.set a v m

/-- The canonical form: addresses rise strictly, lie in the 32-bit physical space, and no entry equals what an
unlisted address reads as. -/
abbrev Memory.wf (m : Memory) : Prop :=
  Assoc.Rising m ∧ ∀ c ∈ m, c.1 < 2 ^ 32 ∧ c.2 ≠ Config.unlistedByte

/-! ### The memory contract (R80, R81) -/

/-- A region holds an address. -/
def Region.holds (r : Region) (a : Nat) : Bool := r.base ≤ a && a < r.base + r.size

/-- What an address is mapped to: the first region that holds it, or nothing. -/
def regionAt (map : List Region) (a : Nat) : Option RegionKind := (map.find? (·.holds a)).map (·.kind)

/-- The number of a free value, and the state after it is drawn (R4). -/
def nextDraw : Op Nat := do
  let s ← get
  set { s with draws := s.draws + 1 }
  pure s.draws

/-- A 1-bit draw (R4). -/
def drawBit : Op Bool := do
  let k ← nextDraw
  pure (Config.drawBit k)

/-- The paragraph of a physical address (R133). -/
def paragraph (a : Nat) : Nat := a / 16

/-- A write to a paragraph of the running block ends the block at the end of the instruction (R133, R134). -/
def State.invalidate (s : State) (a : Nat) : State :=
  if s.blockParas.contains (paragraph a) then { s with inBlock := false } else s

/-- Store a byte where RAM is; elsewhere nothing is stored here: the write is discarded, or the device's own (R81). -/
def State.storeByte (s : State) (a : Nat) (v : Byte) : State :=
  match regionAt s.physMap a with
  | some .ram => { s with mem := s.mem.write a v }
  | some .rom => s
  | some .device => s
  | none => s

/-- One byte of a `MemWrite`: the invalidation, then the store (R81). -/
def State.memWriteByte (s : State) (a : Nat) (v : Byte) : State := (s.invalidate a).storeByte a v

/-! ### Devices (R2, R142, R143, R543, R546) -/

/-- One platform event (R2, R124, R143, R543, R546, R547). -/
def State.applyEvent (s : State) : PlatformEvent → State
  | .requests v => { s with pending := v }
  | .setA20 on => { s with a20On := on }
  | .memWrite a v => s.memWriteByte a.toNat v
  | .tlbDrop p => { s with tlb := Assoc.erase p.toNat s.tlb }
  | .reset => s.resetCore

/-- The events that can happen inside a memory access to a device: requests (R543) and writes of memory (R142). The
A20 input moves inside port accesses only (R546). -/
def insideMemory : PlatformEvent → Bool
  | .requests _ => true
  | .setA20 _ => false
  | .memWrite _ _ => true
  | .tlbDrop _ => false
  | .reset => false

/-- The events that can happen inside a port access: all but the reset input (R547). -/
def insidePort : PlatformEvent → Bool
  | .requests _ => true
  | .setA20 _ => true
  | .memWrite _ _ => true
  | .tlbDrop _ => true
  | .reset => false

/-- The events that can happen inside a call. -/
def DeviceCall.admits : DeviceCall → PlatformEvent → Bool
  | .readMem _ _ => insideMemory
  | .writeMem _ _ _ => insideMemory
  | .readIo _ => insidePort
  | .writeIo _ _ => insidePort

/-- A call of a device: it is recorded, and the device does what it does inside it, the next batch of `ioEvents`
(R2, R142). Assumption logs 10 and 14. -/
def State.deviceCall (s : State) (c : DeviceCall) : State :=
  let t := { s with calls := c :: s.calls }
  match s.ioEvents with
  | [] => t
  | batch :: rest => (batch.filter c.admits).foldl State.applyEvent { t with ioEvents := rest }

/-- Some of n bytes from an address up are a device's. -/
def meetsDevice (map : List Region) : Nat → Nat → Bool
  | 0, _ => false
  | n + 1, a => regionAt map a = some .device || meetsDevice map n (a + 1)

/-! ### The accesses (R80, R81, R86) -/

/-- A byte of a read: all ones where nothing is mapped, the byte held in RAM and ROM, the device's answer in device
memory (R80). -/
def State.readByte (s : State) (answer : Byte) (a : Nat) : Byte :=
  match regionAt s.physMap a with
  | none => 0xFF
  | some .ram => s.mem.read a
  | some .rom => s.mem.read a
  | some .device => answer

/-- The n bytes of a read from an address up, the lowest first (R85), where devices answer a value. -/
def State.readBytes (s : State) : Word → Nat → Nat → Word
  | _, 0, _ => 0
  | answer, n + 1, a =>
    (s.readByte (answer.setWidth 8) a).setWidth 32 ||| (s.readBytes (answer >>> 8) n (a + 1) <<< 8)

/-- `MemRead(addr, n)` (R80). A read that meets device memory is one call of the device (R86). Assumption log 15. -/
def memRead (a : Word) (w : Width) : Op Word := do
  let s ← get
  if meetsDevice s.physMap w.bytes a.toNat then do
    let k ← nextDraw
    modify (·.deviceCall (.readMem a.toNat w.bytes))
    pure (s.readBytes (Config.deviceRead k a.toNat w.bytes) w.bytes a.toNat)
  else pure (s.readBytes 0 w.bytes a.toNat)

/-- The low n bytes of a value go to RAM, the lowest first (R81, R85). -/
def State.storeBytes : State → Nat → Nat → Word → State
  | s, 0, _, _ => s
  | s, n + 1, a, v => State.storeBytes (s.memWriteByte a (v.setWidth 8)) n (a + 1) (v >>> 8)

/-- `MemWrite` of the low n bytes of a value (R81). A write that meets device memory is one call of the device
(R86). Assumption log 15. -/
def State.memWriteBytes (s : State) (n a : Nat) (v : Word) : State :=
  let t := s.storeBytes n a v
  if meetsDevice s.physMap n a then t.deviceCall (.writeMem a n (BitVec.ofNat 32 (v.toNat % 2 ^ (8 * n)))) else t

/-- `MemWrite(addr, n, v)` (R81). It never faults. -/
def memWrite (a : Word) (w : Width) (v : Word) : Op Unit :=
  modify fun s => s.memWriteBytes w.bytes a.toNat v

end Sys2Proof.Machine
end

