-- ==== Sys2Proof/Machine/Paging.lean ====
section
/-! DEFINITION. Paging and the TLB (20_memory.md section 5). -/

namespace Sys2Proof.Machine

/-! ### Modes and masks -/

/-- CR0.PE (R38). -/
def State.pe (s : State) : Bool := s.cr0.getLsbD 0

/-- CR0.PG (R38). -/
def State.pg (s : State) : Bool := s.cr0.getLsbD 31

/-- F.VM. -/
def State.vm (s : State) : Bool := getFlag s.flags .vm

/-- `RealMode` (R34). -/
def State.realMode (s : State) : Bool := !s.pe

/-- `V86Mode` (R34). -/
def State.v86Mode (s : State) : Bool := s.pe && s.vm

/-- `ProtMode` (R34). -/
def State.protMode (s : State) : Bool := s.pe && !s.vm

/-- `isUser` of an instruction's own accesses: CPL 3 (R118). -/
def State.user (s : State) : Bool := s.cpl = 3

/-- `A20MASK` for a gate setting (R42). -/
def a20Mask (on : Bool) : Word := if on then 0xFFFFFFFF else 0xFFEFFFFF

/-- `A20MASK` (R42). -/
def State.a20Mask (s : State) : Word := Sys2Proof.Machine.a20Mask s.a20On

/-! ### The walker -/

/-- The linear page number `lin[31:12]` (R44). -/
def pageOf (lin : Word) : Nat := lin.toNat / 4096

/-- The error code of a page fault (R119). -/
def pfCode (present isWrite isUser : Bool) : Word :=
  (if present then 1 else 0) ||| (if isWrite then 2 else 0) ||| (if isUser then 4 else 0)

/-- `PageFault(lin, present, isWrite, isUser)`: CR2 latches the address (R119). -/
def pageFault {α : Type} (lin : Word) (present isWrite isUser : Bool) : Op α := do
  modify fun s => { s with cr2 := lin }
  throw (.fault { kind := .pf, code := some (pfCode present isWrite isUser), addr := some lin } false)

/-- Write a page-table entry back when a bit of it was set (R113). -/
def setEntryBits (addr old new : Word) : Op Unit := if new = old then pure () else memWrite addr .w32 new

/-- The physical address of a directory entry (R111). -/
def pdeAddr (s : State) (lin : Word) : Word :=
  ((s.cr3 &&& 0xFFFFF000) ||| ((lin >>> 22) <<< 2)) &&& s.a20Mask

/-- The physical address of a table entry (R111). -/
def pteAddr (s : State) (pde lin : Word) : Word :=
  ((pde &&& 0xFFFFF000) ||| (((lin >>> 12) &&& 0x3FF) <<< 2)) &&& s.a20Mask

/-- The TLB takes the entry of a page (R111). -/
def State.fillTlb (s : State) (lin : Word) (e : TlbEntry) : State :=
  { s with tlb := Assoc.set (pageOf lin) e s.tlb }

/-- `Walk(lin, isWrite, isUser)` (R111): every check before any write (R113). -/
def walk (lin : Word) (isWrite isUser : Bool) : Op Word := do
  let s ← get
  let pde ← memRead (pdeAddr s lin) .w32
  if !pde.getLsbD 0 then pageFault lin false isWrite isUser
  else do
    let pte ← memRead (pteAddr s pde lin) .w32
    let ro := !(pde.getLsbD 1 && pte.getLsbD 1)
    let sup := !(pde.getLsbD 2 && pte.getLsbD 2)
    if !pte.getLsbD 0 then pageFault lin false isWrite isUser
    else if isUser && sup then pageFault lin true isWrite isUser
    else if isUser && isWrite && ro then pageFault lin true isWrite isUser
    else do
      setEntryBits (pdeAddr s lin) pde (pde ||| 0x20)
      let pte' : Word := pte ||| 0x20 ||| (if isWrite then 0x40 else 0)
      setEntryBits (pteAddr s pde lin) pte pte'
      modify (·.fillTlb lin
        { physBase := pte &&& 0xFFFFF000, readOnly := ro, supervisorOnly := sup, dirty := pte'.getLsbD 6 })
      pure ((pte &&& 0xFFFFF000) ||| (lin &&& 0xFFF))

/-- The TLB entry that serves an access: a write does not use an entry whose dirty flag is clear (R115). -/
def State.tlbHit (s : State) (lin : Word) (isWrite : Bool) : Option TlbEntry :=
  (Assoc.get (pageOf lin) s.tlb).filter fun e => !isWrite || e.dirty

/-- `Translate(lin, isWrite, isUser)` (R115); the A20 mask comes last (R116). -/
def translate (lin : Word) (isWrite isUser : Bool) : Op Word := do
  let s ← get
  if !s.pg then pure (lin &&& s.a20Mask)
  else
    match s.tlbHit lin isWrite with
    | some e =>
      if isUser && e.supervisorOnly then pageFault lin true isWrite isUser
      else if isUser && isWrite && e.readOnly then pageFault lin true isWrite isUser
      else pure ((e.physBase ||| (lin &&& 0xFFF)) &&& s.a20Mask)
    | none => do
      let p ← walk lin isWrite isUser
      pure (p &&& s.a20Mask)

/-! ### Linear accesses (R125 to R127) -/

/-- An access of a width at an address is one call of the memory contract (R86). -/
def aligned (lin : Word) (w : Width) : Bool := lin.toNat % w.bytes = 0

/-- The bytes of an unaligned read, ascending, each translated just before it is read (R125). -/
def linReadBytes (isUser : Bool) : Nat → Word → Op Word
  | 0, _ => pure 0
  | n + 1, lin => do
    let p ← translate lin false isUser
    let b ← memRead p .w8
    let rest ← linReadBytes isUser n (lin + 1)
    pure (b ||| (rest <<< 8))

/-- `LinRead(lin, n, isUser)` (R125). -/
def linRead (lin : Word) (w : Width) (isUser : Bool) : Op Word :=
  if aligned lin w then do
    let p ← translate lin false isUser
    memRead p w
  else linReadBytes isUser w.bytes lin

/-- The bytes of an unaligned write, ascending (R126). -/
def linWriteBytes (isUser : Bool) : Nat → Word → Word → Op Unit
  | 0, _, _ => pure ()
  | n + 1, lin, v => do
    let p ← translate lin true isUser
    memWrite p .w8 (v &&& 0xFF)
    linWriteBytes isUser n (lin + 1) (v >>> 8)

/-- `LinWrite(lin, n, v, isUser)` (R126). -/
def linWrite (lin : Word) (w : Width) (v : Word) (isUser : Bool) : Op Unit :=
  if aligned lin w then do
    let p ← translate lin true isUser
    memWrite p w v
  else linWriteBytes isUser w.bytes lin v

/-- `SysRead(lin, n)`: supervisor rights, no segment check (R127). -/
def sysRead (lin : Word) (w : Width) : Op Word := linRead lin w false

/-- `SysWrite(lin, n, v)` (R127). -/
def sysWrite (lin : Word) (w : Width) (v : Word) : Op Unit := linWrite lin w v false

/-! ### Flushing (R122, R123) -/

/-- The whole TLB is emptied (R122). -/
def State.flushTlb (s : State) : State := { s with tlb := [] }

/-- One page's entry is removed (R123). -/
def State.flushPage (s : State) (lin : Word) : State := { s with tlb := Assoc.erase (pageOf lin) s.tlb }

/-- Every TLB entry lies under its page number, rising, with a page base (R44). -/
abbrev Tlb.wf (t : List (Nat × TlbEntry)) : Prop :=
  Assoc.Rising t ∧ ∀ e ∈ t, e.1 < 2 ^ 20 ∧ e.2.physBase &&& 0xFFF = 0

end Sys2Proof.Machine
end

