-- ==== Sys2Proof/Machine/Registers.lean ====
section
/-! DEFINITION. Reading and writing the registers: the general registers and their views (R20 to R23), the
segment registers (R30), EIP (R24) and the flag word, each through one accessor. -/

namespace Sys2Proof.Machine

/-! ### General registers -/

/-- Read a general register as 32 bits (R20). -/
def Regs.get (x : Regs) : Reg → Word
  | .eax => x.eax | .ecx => x.ecx | .edx => x.edx | .ebx => x.ebx
  | .esp => x.esp | .ebp => x.ebp | .esi => x.esi | .edi => x.edi

/-- Write a general register, 32 bits (R20). -/
def Regs.set (x : Regs) (r : Reg) (v : Word) : Regs :=
  match r with
  | .eax => { x with eax := v } | .ecx => { x with ecx := v }
  | .edx => { x with edx := v } | .ebx => { x with ebx := v }
  | .esp => { x with esp := v } | .ebp => { x with ebp := v }
  | .esi => { x with esi := v } | .edi => { x with edi := v }

/-- The register an 8-bit register number lies in: numbers 4 to 7 are the high bytes of 0 to 3 (R22). -/
def Reg.byteHome : Reg → Reg
  | .eax => .eax | .ecx => .ecx | .edx => .edx | .ebx => .ebx
  | .esp => .eax | .ebp => .ecx | .esi => .edx | .edi => .ebx

/-- An 8-bit register number names a high byte (R22). -/
def Reg.isHigh : Reg → Bool
  | .eax => false | .ecx => false | .edx => false | .ebx => false
  | .esp => true | .ebp => true | .esi => true | .edi => true

/-- `Reg_n[r]` as an n-bit value (R21, R22, R169). -/
def Regs.view (x : Regs) (w : Width) (r : Reg) : Word :=
  match w with
  | .w8 => if Reg.isHigh r then (x.get (Reg.byteHome r) >>> 8) &&& 0xFF else x.get (Reg.byteHome r) &&& 0xFF
  | .w16 => x.get r &&& 0xFFFF
  | .w32 => x.get r

/-- `Reg_n[r] <- v`: the bits outside the view stay (R21, R22). -/
def Regs.setView (x : Regs) (w : Width) (r : Reg) (v : Word) : Regs :=
  match w with
  | .w8 =>
    let h := Reg.byteHome r
    if Reg.isHigh r then x.set h ((x.get h &&& 0xFFFF00FF) ||| ((v &&& 0xFF) <<< 8))
    else x.set h ((x.get h &&& 0xFFFFFF00) ||| (v &&& 0xFF))
  | .w16 => x.set r ((x.get r &&& 0xFFFF0000) ||| (v &&& 0xFFFF))
  | .w32 => x.set r v

/-- Read a view of a general register. -/
def State.reg (s : State) (w : Width) (r : Reg) : Word := s.regs.view w r

/-- Write a view of a general register. -/
def State.setReg (s : State) (w : Width) (r : Reg) (v : Word) : State :=
  { s with regs := s.regs.setView w r v }

/-! ### Segment registers -/

/-- Read a segment register (R30). -/
def Segs.get (x : Segs) : Seg → SegReg
  | .es => x.es | .cs => x.cs | .ss => x.ss | .ds => x.ds | .fs => x.fs | .gs => x.gs

/-- Write a segment register (R30). -/
def Segs.set (x : Segs) (i : Seg) (v : SegReg) : Segs :=
  match i with
  | .es => { x with es := v } | .cs => { x with cs := v } | .ss => { x with ss := v }
  | .ds => { x with ds := v } | .fs => { x with fs := v } | .gs => { x with gs := v }

/-- Read a segment register. -/
def State.seg (s : State) (i : Seg) : SegReg := s.segs.get i

/-- Write a segment register. -/
def State.setSeg (s : State) (i : Seg) (v : SegReg) : State := { s with segs := s.segs.set i v }

/-! ### EIP and flags -/

/-- `pc <- target` (R24). -/
def State.setEip (s : State) (v : Word) : State := { s with eip := v }

/-- Replace the stored flag word. -/
def State.setFlagWord (s : State) (f : Word) : State := { s with flags := f }

/-- Read one flag (R26). -/
def State.flag (s : State) (f : Flag) : Bool := getFlag s.flags f

/-- Write one flag (R26). -/
def State.putFlag (s : State) (f : Flag) (v : Bool) : State :=
  s.setFlagWord (Sys2Proof.Machine.putFlag s.flags f v)

/-- `F.setValue(value, mask)` (R26). -/
def State.loadFlags (s : State) (value m : Word) : State := s.setFlagWord (setFlags s.flags value m)

/-- Write the six status flags. -/
def State.putStatus (s : State) (t : Status) : State :=
  s.setFlagWord (Sys2Proof.Machine.putStatus s.flags t)

/-- The I/O privilege level (R25). -/
def State.iopl (s : State) : BitVec 2 := Sys2Proof.Machine.iopl s.flags

/-- The current instruction transfers to the next one: `pc <- nextEIP` (R24). -/
def State.advance (s : State) : State := s.setEip s.nextEip

/-- The running block ends with this instruction (R132). -/
def State.endBlock (s : State) : State := { s with inBlock := false }

/-! ### The same as operations -/

/-- Read a register view. -/
def readReg (w : Width) (r : Reg) : Op Word := do
  let s ← get
  pure (s.reg w r)

/-- Write a register view. -/
def writeReg (w : Width) (r : Reg) (v : Word) : Op Unit := modify (·.setReg w r v)

/-- `pc <- nextEIP`. -/
def advance : Op Unit := modify State.advance

/-- `pc <- target`. -/
def jumpTo (target : Word) : Op Unit := modify (·.setEip target)

/-- End the block. -/
def endBlock : Op Unit := modify State.endBlock

/-- Write the six status flags. -/
def putStatusOp (t : Status) : Op Unit := modify (·.putStatus t)

/-- Write one flag. -/
def putFlagOp (f : Flag) (v : Bool) : Op Unit := modify (·.putFlag f v)

/-- Leave a flag a draw (R4). -/
def drawFlag (f : Flag) : Op Unit := do
  let b ← drawBit
  putFlagOp f b

end Sys2Proof.Machine
end

