-- ==== Sys2Proof/Machine/Segments.lean ====
section
/-! DEFINITION. Selectors, descriptors, the segment load paths and access through a segment
(20_memory.md sections 2 to 4). -/

namespace Sys2Proof.Machine

/-! ### Selectors (R90) -/

/-- `sel[15:2] = 0`: the null selector. -/
def nullSel (sel : Half) : Bool := sel.extractLsb' 2 14 = 0

/-- `TI`: 1 names the LDT. -/
def selTI (sel : Half) : Bool := sel.getLsbD 2

/-- `RPL`. -/
def rpl (sel : Half) : BitVec 2 := sel.extractLsb' 0 2

/-- The index. -/
def selIndex (sel : Half) : Nat := sel.toNat / 8

/-- `sel & 0xFFFC`: the selector form of an error code (R502). -/
def selCode (sel : Half) : Word := sel.setWidth 32 &&& 0xFFFC

/-! ### Descriptors (R91 to R93) -/

/-- A parsed 8-byte table entry. -/
structure Desc where
  base    : Word
  limit   : Word
  type    : BitVec 4
  s       : Bool
  dpl     : BitVec 2
  p       : Bool
  db      : Bool
  gateSel : Half
  gateOff : Word
  params  : BitVec 5
deriving DecidableEq, Repr

/-- Parse the two words of an entry (R91, R93). -/
def parseDesc (lo hi : Word) : Desc where
  base := (hi &&& 0xFF000000) ||| ((hi &&& 0xFF) <<< 16) ||| (lo >>> 16)
  limit :=
    let l20 : Word := (hi &&& 0x000F0000) ||| (lo &&& 0xFFFF)
    if hi.getLsbD 23 then (l20 <<< 12) ||| 0xFFF else l20
  type := hi.extractLsb' 8 4
  s := hi.getLsbD 12
  dpl := hi.extractLsb' 13 2
  p := hi.getLsbD 15
  db := hi.getLsbD 22
  gateSel := lo.extractLsb' 16 16
  gateOff := (hi &&& 0xFFFF0000) ||| (lo &&& 0xFFFF)
  params := hi.extractLsb' 0 5

/-- The classes of R92. -/
inductive DescClass
  | data | code
  | tss16Avail | ldt | tss16Busy | callGate16 | taskGate | intGate16 | trapGate16
  | tss32Avail | tss32Busy | callGate32 | intGate32 | trapGate32
  | invalid
deriving DecidableEq, Repr

/-- Classification from S and type (R92). -/
def Desc.cls (d : Desc) : DescClass :=
  if d.s then (if d.type.getLsbD 3 then .code else .data)
  else
    match d.type.toNat with
    | 0x1 => .tss16Avail
    | 0x2 => .ldt
    | 0x3 => .tss16Busy
    | 0x4 => .callGate16
    | 0x5 => .taskGate
    | 0x6 => .intGate16
    | 0x7 => .trapGate16
    | 0x9 => .tss32Avail
    | 0xB => .tss32Busy
    | 0xC => .callGate32
    | 0xE => .intGate32
    | 0xF => .trapGate32
    | _ => .invalid

/-- A code segment. -/
def Desc.isCode (d : Desc) : Bool := d.cls = .code

/-- A conforming code segment's type bit (R92). -/
def Desc.conforming (d : Desc) : Bool := d.type.getLsbD 2

/-- A writable data segment (R92). -/
def Desc.writableData (d : Desc) : Bool := d.cls = .data && d.type.getLsbD 1

/-- An available TSS, 16- or 32-bit. -/
def Desc.availTss (d : Desc) : Bool := d.cls = .tss16Avail || d.cls = .tss32Avail

/-- A busy TSS, 16- or 32-bit. -/
def Desc.busyTss (d : Desc) : Bool := d.cls = .tss16Busy || d.cls = .tss32Busy

/-- `FetchDescriptor(sel)`: the entry and its linear address, or `none` for `fail` (R94). -/
def fetchDescriptor (sel : Half) : Op (Option (Desc × Word)) := do
  let s ← get
  let base := if selTI sel then s.ldtr.base else s.gdtr.base
  let limit := if selTI sel then s.ldtr.limit.toNat else s.gdtr.limit.toNat
  if selTI sel && !s.ldtr.valid then pure none
  else if selIndex sel * 8 + 7 > limit then pure none
  else do
    let a := base + (sel.setWidth 32 &&& 0xFFF8)
    let lo ← sysRead a .w32
    let hi ← sysRead (a + 4) .w32
    pure (some (parseDesc lo hi, a))

/-- `FetchDescriptor(sel)` where the caller raises a fault on `fail`. -/
def fetchDescOr (sel : Half) (k : FaultKind) (code : Word) : Op (Desc × Word) := do
  match ← fetchDescriptor sel with
  | some x => pure x
  | none => raise k (some code)

/-! ### The load paths (R97 to R101, R106, R107) -/

/-- `LoadSegReal(s, sel)` (R97). -/
def SegReg.loadReal (g : SegReg) (sel : Half) : SegReg :=
  { g with selector := sel, base := sel.setWidth 32 <<< 4, readable := true, writable := true, valid := true }

/-- `LoadSegV86(s, sel)` (R98). -/
def SegReg.v86 (i : Seg) (sel : Half) : SegReg where
  selector := sel
  base := sel.setWidth 32 <<< 4
  limitMin := 0
  limitMax := 0x0000FFFF
  type := if i = .cs then 0xB else 0x3
  dpl := 3
  size32 := Config.v86TemplateSize32
  readable := true
  writable := true
  valid := true

/-- `CopyDescriptor(s, sel, d)` (R100). -/
def SegReg.ofDesc (sel : Half) (d : Desc) : SegReg :=
  let data := d.cls = .data
  let down := data && d.type.getLsbD 2
  { selector := sel
    base := d.base
    limitMin := if down then d.limit + 1 else 0
    limitMax := if down then (if d.db then 0xFFFFFFFF else 0x0000FFFF) else d.limit
    type := d.type
    dpl := d.dpl
    size32 := d.db
    readable := data || d.type.getLsbD 1
    writable := data && d.type.getLsbD 1
    valid := true }

/-- A segment register that is marked invalid under a selector. -/
def SegReg.invalidate (g : SegReg) (sel : Half) : SegReg := { g with selector := sel, valid := false }

/-- `Usable(d, sel, cpl)` (R106). -/
def usable (d : Desc) (sel : Half) (cpl : BitVec 2) : Bool :=
  d.s && (d.cls = .data || (d.cls = .code && d.type.getLsbD 1)) &&
    ((d.cls = .code && d.conforming) || max cpl.toNat (rpl sel).toNat ≤ d.dpl.toNat)

/-- Load a segment register through the real-mode path. -/
def loadSegReal (i : Seg) (sel : Half) : Op Unit := modify fun s => s.setSeg i ((s.seg i).loadReal sel)

/-- Load a segment register through the virtual-8086 path. -/
def loadSegV86 (i : Seg) (sel : Half) : Op Unit := modify (·.setSeg i (.v86 i sel))

/-- Copy a descriptor into a segment register. -/
def copyDescriptor (i : Seg) (sel : Half) (d : Desc) : Op Unit := modify (·.setSeg i (.ofDesc sel d))

/-- `LoadSegProt(s, sel)` (R99). -/
def loadSegProt (i : Seg) (sel : Half) : Op Unit := do
  if nullSel sel then modify fun s => s.setSeg i ((s.seg i).invalidate sel)
  else do
    let (d, _) ← fetchDescOr sel .gp (selCode sel)
    let s ← get
    require (usable d sel s.cpl) .gp (selCode sel)
    require d.p .np (selCode sel)
    copyDescriptor i sel d

/-- `LoadSS(sel, cpl)` (R101). -/
def loadSS (sel : Half) (cpl : BitVec 2) : Op Unit := do
  require (!nullSel sel) .gp 0
  let (d, _) ← fetchDescOr sel .gp (selCode sel)
  require (rpl sel = cpl && d.dpl = cpl) .gp (selCode sel)
  require d.writableData .gp (selCode sel)
  require d.p .ss (selCode sel)
  copyDescriptor .ss sel d

/-- Write CPL (R33). -/
def setCpl (cpl : BitVec 2) : Op Unit := modify fun s => { s with cpl := cpl }

/-- `LoadCS(sel, d, newCPL)` (R101). -/
def loadCS (sel : Half) (d : Desc) (cpl : BitVec 2) : Op Unit := do
  copyDescriptor .cs ((sel &&& 0xFFFC) ||| cpl.setWidth 16) d
  setCpl cpl

/-- `LoadSeg(s, sel)` for s other than CS, by mode (R107). -/
def loadSeg (i : Seg) (sel : Half) : Op Unit := do
  let s ← get
  if s.realMode then loadSegReal i sel
  else if s.v86Mode then loadSegV86 i sel
  else if i = .ss then loadSS sel s.cpl
  else loadSegProt i sel

/-! ### Access through a segment (R102 to R105, R108) -/

/-- The kinds of access. -/
inductive AccessKind
  | read
  | write
deriving DecidableEq, Repr

/-- An access of n bytes at an offset is inside the limits, without wrap-around (R102). -/
def SegReg.inLimit (g : SegReg) (off : Word) (n : Nat) : Bool :=
  g.limitMin.toNat ≤ off.toNat && off.toNat + n - 1 ≤ g.limitMax.toNat

/-- The fault kind of a segment: `#SS` for SS, else `#GP` (R103). -/
def segFault (i : Seg) : FaultKind := if i = .ss then .ss else .gp

/-- The rights part of `SegCheck` for an access kind (R103). -/
def SegReg.rightsOk (g : SegReg) (prot : Bool) : AccessKind → Bool
  | .read => g.readable
  | .write => if g.type.getLsbD 3 then !prot else g.writable

/-- `SegCheck(s, off, n, kind)` (R103), each check with the fault kind of the segment, rights through SS too (R220,
ruling D17): assumption log 24. -/
def segCheck (i : Seg) (off : Word) (n : Nat) (k : AccessKind) : Op Unit := do
  let s ← get
  let g := s.seg i
  require g.valid (segFault i) 0
  require (g.rightsOk s.protMode k) (segFault i) 0
  require (g.inLimit off n) (segFault i) 0

/-- The linear address of an offset. -/
def State.linear (s : State) (i : Seg) (off : Word) : Word := (s.seg i).base + off

/-- `SegRead(s, off, n)` (R104). -/
def segRead (i : Seg) (off : Word) (w : Width) : Op Word := do
  segCheck i off w.bytes .read
  let s ← get
  linRead (s.linear i off) w s.user

/-- `SegWrite(s, off, n, v)` (R105). -/
def segWrite (i : Seg) (off : Word) (w : Width) (v : Word) : Op Unit := do
  segCheck i off w.bytes .write
  let s ← get
  linWrite (s.linear i off) w v s.user

/-- The first half of a read-modify-write of memory: the write check, then the read (R108). -/
def segReadForWrite (i : Seg) (off : Word) (w : Width) : Op Word := do
  segCheck i off w.bytes .write
  let s ← get
  linRead (s.linear i off) w s.user

/-- The second half: the write, checked already (R108). -/
def segWriteBack (i : Seg) (off : Word) (w : Width) (v : Word) : Op Unit := do
  let s ← get
  linWrite (s.linear i off) w v s.user

end Sys2Proof.Machine
end

