-- ==== Sys2Proof/Machine/Operands.lean ====
section
/-! DEFINITION. Operand forms: effective addresses (R166, R167), the operand helpers of R177, the stack
primitives (R220), far pointers in memory (R380), and the privilege tests shared by several instructions
(R230, R421). -/

namespace Sys2Proof.Machine

/-! ### Effective addresses -/

/-- The base term of R166. -/
def State.base16 (s : State) (b : Base16) : Half :=
  let r (x : Reg) : Half := (s.reg .w16 x).setWidth 16
  match b with
  | .bxsi => r .ebx + r .esi
  | .bxdi => r .ebx + r .edi
  | .bpsi => r .ebp + r .esi
  | .bpdi => r .ebp + r .edi
  | .si => r .esi
  | .di => r .edi
  | .bp => r .ebp
  | .bx => r .ebx

/-- A displacement as a value of the address size, a byte sign-extended (R166, R167). -/
def Disp.value {n : Nat} : Disp (BitVec n) → BitVec n
  | .none => 0
  | .d8 b => b.signExtend n
  | .full v => v

/-- The index term of R167. -/
def State.index32 (s : State) (x : Option Reg) (scale : BitVec 2) : Word :=
  match x with
  | none => 0
  | some r => s.reg .w32 r <<< scale.toNat

/-- The offset of an address expression: 16 bits wide and zero-extended with `asz` 16 (R166), modulo 2^32
with `asz` 32 (R167). It reads registers only (R177). -/
def State.ea (s : State) : Addr → Word
  | .abs16 d => d.setWidth 32
  | .based16 b d => (s.base16 b + Disp.value d).setWidth 32
  | .abs32 d => d
  | .based32 b d => s.reg .w32 b + Disp.value d
  | .sib b x scale d => s.reg .w32 b + s.index32 x scale + Disp.value d
  | .sibAbs x scale d => s.index32 x scale + d

/-- The offset of a memory operand. -/
def State.off (s : State) (m : MemRef) : Word := s.ea m.addr

/-- The address size of an address expression (R164). -/
def addrSize : Addr → Size
  | .abs16 _ => .s16
  | .based16 _ _ => .s16
  | .abs32 _ => .s32
  | .based32 _ _ => .s32
  | .sib _ _ _ _ => .s32
  | .sibAbs _ _ _ => .s32

/-- `ea +asz k`: an addition that wraps at the address size. -/
def addAsz (a : Addr) (off k : Word) : Word := trunc (addrSize a).width (off + k)

/-! ### Register and memory operands (R177) -/

/-- `ReadRM_n()`. -/
def readRM (w : Width) : RM → Op Word
  | .reg r => readReg w r
  | .mem m => do
    let s ← get
    segRead m.seg (s.off m) w

/-- `WriteRM_n(v)`. -/
def writeRM (w : Width) (rm : RM) (v : Word) : Op Unit :=
  match rm with
  | .reg r => writeReg w r v
  | .mem m => do
    let s ← get
    segWrite m.seg (s.off m) w v

/-- Read the destination of a read-modify-write (R108). -/
def readDst (w : Width) : RM → Op Word
  | .reg r => readReg w r
  | .mem m => do
    let s ← get
    segReadForWrite m.seg (s.off m) w

/-- Write the destination of a read-modify-write back (R108). -/
def writeDst (w : Width) (rm : RM) (v : Word) : Op Unit :=
  match rm with
  | .reg r => writeReg w r v
  | .mem m => do
    let s ← get
    segWriteBack m.seg (s.off m) w v

/-- A read-modify-write of an r/m operand (R108). The computation answers `none` where its rule writes nothing
back. The old value is returned. -/
def modifyRM (w : Width) (rm : RM) (f : Word → Op (Option Word)) : Op Word := do
  let a ← readDst w rm
  match ← f a with
  | some v => do
    writeDst w rm v
    pure a
  | none => pure a

/-- A result function as the computation of a read-modify-write. -/
def storing (f : Word → Op Word) (a : Word) : Op (Option Word) := do
  let r ← f a
  pure (some r)

/-- The memory operand an instruction needs, or `#UD` with mod 3 (R180). -/
def memOperand : RM → Op MemRef
  | .reg _ => raiseUD
  | .mem m => pure m

/-- Store a selector: zero-extended into a register of the operand size, 16 bits into memory (R202, R437,
R439). -/
def storeSelector (z : Size) (rm : RM) (sel : Half) : Op Unit :=
  match rm with
  | .reg r => writeReg z.width r (sel.setWidth 32)
  | .mem m => do
    let s ← get
    segWrite m.seg (s.off m) .w16 (sel.setWidth 32)

/-- `m16:v`: the offset, then the selector above it, at an offset that wraps at the address size (R102, R380).
Assumption log 13. -/
def readFarPtr (z : Size) (m : MemRef) : Op (Half × Word) := do
  let s ← get
  let off ← segRead m.seg (s.off m) z.width
  let sel ← segRead m.seg (addAsz m.addr (s.off m) (BitVec.ofNat 32 z.width.bytes)) .w16
  pure (sel.setWidth 16, off)

/-! ### The operand forms of R260, R269, R270, R273 and R320 -/

/-- The width of an arithmetic form. -/
def AluForm.width : AluForm → Width
  | .rmReg w _ _ => w
  | .regRm w _ _ => w
  | .accImm w _ => w
  | .rmImm w _ _ => w
  | .rmImm8 z _ _ => z.width

/-- The destination of an arithmetic form. -/
def AluForm.dst : AluForm → RM
  | .rmReg _ rm _ => rm
  | .regRm _ r _ => .reg r
  | .accImm _ _ => .reg .eax
  | .rmImm _ rm _ => rm
  | .rmImm8 _ rm _ => rm

/-- Read the source of an arithmetic form. -/
def AluForm.src : AluForm → Op Word
  | .rmReg w _ r => readReg w r
  | .regRm w _ rm => readRM w rm
  | .accImm _ imm => pure imm
  | .rmImm _ _ imm => pure imm
  | .rmImm8 z _ ib => pure (sextByte z.width ib)

/-- The width of an INC or DEC form. -/
def IncForm.width : IncForm → Width
  | .reg z _ => z.width
  | .rm w _ => w

/-- The operand of an INC or DEC form. -/
def IncForm.dst : IncForm → RM
  | .reg _ r => .reg r
  | .rm _ e => e

/-- The width of a TEST form. -/
def TestForm.width : TestForm → Width
  | .rmReg w _ _ => w
  | .accImm w _ => w
  | .rmImm w _ _ => w

/-- The first operand of a TEST form. -/
def TestForm.dst : TestForm → RM
  | .rmReg _ rm _ => rm
  | .accImm _ _ => .reg .eax
  | .rmImm _ rm _ => rm

/-- Read the second operand of a TEST form. -/
def TestForm.src : TestForm → Op Word
  | .rmReg w _ r => readReg w r
  | .accImm _ imm => pure imm
  | .rmImm _ _ imm => pure imm

/-- The effective count: the raw count and 1FH (R320). -/
def State.count (s : State) : Count → Nat
  | .one => 1
  | .cl => (s.reg .w8 .ecx).toNat % 32
  | .imm ib => ib.toNat % 32

/-! ### The stack (R220) -/

/-- `ssz` (R220). -/
def State.ssz (s : State) : Size := if s.segs.ss.size32 then .s32 else .s16

/-- The stack pointer, zero-extended: ESP or SP by `ssz`. -/
def State.sp (s : State) : Word := s.reg s.ssz.width .esp

/-- The stack pointer moved by a number of bytes, wrapping at `ssz`. -/
def State.spAdd (s : State) (k : Word) : Word := trunc s.ssz.width (s.sp + k)

/-- Write the stack pointer: ESP, or SP with the upper half kept. -/
def State.setSp (s : State) (v : Word) : State := s.setReg s.ssz.width .esp v

/-- The stack pointer after a push of a size. -/
def State.pushSp (s : State) (z : Size) : Word := s.spAdd (-(BitVec.ofNat 32 z.width.bytes))

/-- `Push_n(v)`: the pointer is written after the store has succeeded. -/
def push (z : Size) (v : Word) : Op Unit := do
  let s ← get
  segWrite .ss (s.pushSp z) z.width v
  modify (·.setSp (s.pushSp z))

/-- `Pop_n()`. -/
def pop (z : Size) : Op Word := do
  let s ← get
  let v ← segRead .ss s.sp z.width
  modify (·.setSp (s.spAdd (BitVec.ofNat 32 z.width.bytes)))
  pure v

/-- `Pop_n()` into a selector: the upper bytes of a 32-bit pop are ignored. -/
def popSel (z : Size) : Op Half := do
  let v ← pop z
  pure (v.setWidth 16)

/-- Release bytes of arguments: the stack pointer plus `iw` (R369, R390). -/
def releaseStack (iw : Half) : Op Unit := modify fun s => s.setSp (s.spAdd (iw.setWidth 32))

/-! ### Privilege tests -/

/-- `IoplOk()` (R421). -/
def State.ioplOk (s : State) : Bool :=
  s.realMode || (s.v86Mode && s.iopl = 3) || (s.protMode && s.cpl.toNat ≤ s.iopl.toNat)

/-- CPL 0 or real mode: the instructions of the first row of R531. -/
def State.privileged (s : State) : Bool := s.realMode || s.cpl = 0

/-- The IOPL test virtual-8086 mode makes for PUSHF, POPF, INT n and IRET (R421, R532). -/
def State.v86IoplLow (s : State) : Bool := s.v86Mode && s.iopl.toNat < 3

/-- `#GP(0)` unless at CPL 0 or in real mode. -/
def requirePrivilege : Op Unit := do
  let s ← get
  require s.privileged .gp 0

/-- `IoPermitted(port)` (R230). -/
def ioPermitted (port : Half) : Op Unit := do
  let s ← get
  if s.realMode then pure ()
  else if s.protMode && s.cpl.toNat ≤ s.iopl.toNat then pure ()
  else do
    require (s.tr.type32 && 103 ≤ s.tr.limit.toNat) .gp 0
    let mapBase ← sysRead (s.tr.base + 0x66) .w16
    let o := mapBase.toNat + port.toNat / 8
    require (o + 1 ≤ s.tr.limit.toNat) .gp 0
    let w ← sysRead (s.tr.base + BitVec.ofNat 32 o) .w16
    require (!w.getLsbD (port.toNat % 8)) .gp 0

end Sys2Proof.Machine
end

