-- ==== Sys2Proof/Machine/TaskSwitch.lean ====
section
/-! DEFINITION. The hardware task switch (48_task_switch.md). -/

namespace Sys2Proof.Machine

/-- The operation types of a task switch (R474). -/
inductive SwitchOp
  | interrupt
  | iret
  | jmp
  | call
deriving DecidableEq, Repr

/-- A switch by call or interrupt nests the new task in the old one (R478, R480). -/
def SwitchOp.nests : SwitchOp → Bool
  | .interrupt => true
  | .call => true
  | .iret => false
  | .jmp => false

/-- A switch by jmp or iret leaves the old task (R476). -/
def SwitchOp.leaves : SwitchOp → Bool
  | .interrupt => false
  | .call => false
  | .iret => true
  | .jmp => true

/-- `TssRead(off, n)` on a task-state segment at a base (R471). -/
def tssRead (base : Word) (off : Nat) (w : Width) : Op Word := sysRead (base + BitVec.ofNat 32 off) w

/-- `TssWrite(off, n, v)` (R471). -/
def tssWrite (base : Word) (off : Nat) (w : Width) (v : Word) : Op Unit :=
  sysWrite (base + BitVec.ofNat 32 off) w v

/-- `TssStack(level)`: the inner stack of a level, selector and pointer (R471). -/
def tssStack (level : Nat) : Op (Half × Word) := do
  let s ← get
  if !s.tr.type32 then refuse .tss16
  else do
    require (8 * level + 11 ≤ s.tr.limit.toNat) .ts (selCode s.tr.selector)
    let esp ← tssRead s.tr.base (4 + 8 * level) .w32
    let ss ← tssRead s.tr.base (8 + 8 * level) .w16
    pure (ss.setWidth 16, esp)

/-- Clear or set the busy bit of a TSS descriptor at a linear address: bit 1 of byte 5 (R92, R476, R480). -/
def putBusyBit (a : Word) (on : Bool) : Op Unit := do
  let b ← sysRead (a + 5) .w8
  sysWrite (a + 5) .w8 (if on then b ||| 0x02 else b &&& 0xFD)

/-- Step 1: the outgoing descriptor's busy bit (R476). -/
def switchStep1 (op : SwitchOp) : Op Unit :=
  if op.leaves then do
    let s ← get
    putBusyBit (s.gdtr.base + BitVec.ofNat 32 (selIndex s.tr.selector * 8)) false
  else pure ()

/-- The flag image step 2 saves: NT stripped on iret (R477). -/
def savedFlags (op : SwitchOp) (stored : Word) : Word :=
  if op = .iret then flagsValue stored &&& 0xFFFFBFFF else flagsValue stored

/-- Step 2: the outgoing state is saved (R477). -/
def switchStep2 (op : SwitchOp) (retEip : Word) : Op Unit := do
  let s ← get
  let b := s.tr.base
  tssWrite b 0x1C .w32 s.cr3
  tssWrite b 0x20 .w32 retEip
  tssWrite b 0x24 .w32 (savedFlags op s.flags)
  tssWrite b 0x28 .w32 s.regs.eax
  tssWrite b 0x2C .w32 s.regs.ecx
  tssWrite b 0x30 .w32 s.regs.edx
  tssWrite b 0x34 .w32 s.regs.ebx
  tssWrite b 0x38 .w32 s.regs.esp
  tssWrite b 0x3C .w32 s.regs.ebp
  tssWrite b 0x40 .w32 s.regs.esi
  tssWrite b 0x44 .w32 s.regs.edi
  tssWrite b 0x48 .w16 (s.segs.es.selector.setWidth 32)
  tssWrite b 0x4C .w16 (s.segs.cs.selector.setWidth 32)
  tssWrite b 0x50 .w16 (s.segs.ss.selector.setWidth 32)
  tssWrite b 0x54 .w16 (s.segs.ds.selector.setWidth 32)
  tssWrite b 0x58 .w16 (s.segs.fs.selector.setWidth 32)
  tssWrite b 0x5C .w16 (s.segs.gs.selector.setWidth 32)

/-- Step 3: the back link of the incoming task (R478). -/
def switchStep3 (op : SwitchOp) (d : Desc) : Op Unit :=
  if op.nests then do
    let s ← get
    tssWrite d.base 0 .w16 (s.tr.selector.setWidth 32)
  else pure ()

/-- What step 4 reads from the incoming task-state segment (R479). -/
structure TaskImage where
  cr3  : Word
  eip  : Word
  fl   : Word
  regs : Regs
  es   : Half
  cs   : Half
  ss   : Half
  ds   : Half
  fs   : Half
  gs   : Half
  ldt  : Half
deriving DecidableEq, Repr

/-- A selector field of a task-state segment (R470). -/
def tssSel (base : Word) (off : Nat) : Op Half := do
  let v ← tssRead base off .w16
  pure (v.setWidth 16)

/-- The reads of step 4 (R479). -/
def readTaskImage (b : Word) : Op TaskImage := do
  let cr3 ← tssRead b 0x1C .w32
  let eip ← tssRead b 0x20 .w32
  let fl ← tssRead b 0x24 .w32
  let eax ← tssRead b 0x28 .w32
  let ecx ← tssRead b 0x2C .w32
  let edx ← tssRead b 0x30 .w32
  let ebx ← tssRead b 0x34 .w32
  let esp ← tssRead b 0x38 .w32
  let ebp ← tssRead b 0x3C .w32
  let esi ← tssRead b 0x40 .w32
  let edi ← tssRead b 0x44 .w32
  let es ← tssSel b 0x48
  let cs ← tssSel b 0x4C
  let ss ← tssSel b 0x50
  let ds ← tssSel b 0x54
  let fs ← tssSel b 0x58
  let gs ← tssSel b 0x5C
  let ldt ← tssSel b 0x60
  pure { cr3 := cr3, eip := eip, fl := fl,
         regs := { eax := eax, ecx := ecx, edx := edx, ebx := ebx, esp := esp, ebp := ebp, esi := esi, edi := edi },
         es := es, cs := cs, ss := ss, ds := ds, fs := fs, gs := gs, ldt := ldt }

/-- The register writes of step 4, from the commit point on (R479). -/
def State.loadTask (s : State) (sel : Half) (d : Desc) (t : TaskImage) : State :=
  { s with
    cr3 := t.cr3
    tlb := []
    eip := t.eip
    flags := setFlags s.flags t.fl 0xFFFFFFFF
    regs := t.regs
    tr := { selector := sel, base := d.base, limit := d.limit, busy := s.tr.busy, type32 := true }
    segs :=
      { es := s.segs.es.invalidate t.es
        cs := s.segs.cs.invalidate t.cs
        ss := s.segs.ss.invalidate t.ss
        ds := s.segs.ds.invalidate t.ds
        fs := s.segs.fs.invalidate t.fs
        gs := s.segs.gs.invalidate t.gs }
    ldtr := { s.ldtr with selector := t.ldt, valid := false } }

/-- Steps 5 and 6: NT and the busy bits (R480). -/
def switchStep56 (op : SwitchOp) (a : Word) : Op Unit := do
  if op.nests then putFlagOp .nt true else pure ()
  if op ≠ .iret then putBusyBit a true else pure ()
  modify fun s => { s with tr := { s.tr with busy := true } }

/-- CPL after the switch (R481). -/
def switchCpl (t : TaskImage) : Op Unit := do
  let s ← get
  setCpl (if s.vm then 3 else rpl t.cs)

/-- `T(sel)` unless the condition holds (R482). -/
def requireTs (ok : Bool) (sel : Half) : Op Unit := require ok .ts (selCode sel)

/-- `FetchDescriptor(sel)` with `T(sel)` on fail (R482). -/
def fetchDescTs (sel : Half) : Op (Desc × Word) := fetchDescOr sel .ts (selCode sel)

/-- Step 7, LDT (R482). -/
def switchLdt (sel : Half) : Op Unit :=
  if nullSel sel then pure ()
  else do
    requireTs (!selTI sel) sel
    let (l, _) ← fetchDescTs sel
    requireTs (l.cls = .ldt && l.p) sel
    modify fun s => { s with ldtr := { s.ldtr with base := l.base, limit := l.limit, valid := true } }

/-- The privilege test a code descriptor passes for a level: not below it when conforming, else equal. -/
def Desc.codeFits (d : Desc) (level : BitVec 2) : Bool :=
  if d.conforming then d.dpl.toNat ≤ level.toNat else d.dpl = level

/-- Step 7, CS (R482). -/
def switchCs (sel : Half) : Op Unit := do
  requireTs (!nullSel sel) sel
  let (c, _) ← fetchDescTs sel
  requireTs c.isCode sel
  requireTs (c.codeFits (rpl sel)) sel
  requireTs c.p sel
  loadCS sel c (rpl sel)

/-- Step 7, SS (R482). -/
def switchSs (sel : Half) : Op Unit := do
  requireTs (!nullSel sel) sel
  let (k, _) ← fetchDescTs sel
  let s ← get
  requireTs (rpl sel = s.cpl && k.dpl = s.cpl) sel
  requireTs (k.writableData && k.p) sel
  copyDescriptor .ss sel k

/-- Step 7, a data segment (R482). -/
def switchData (i : Seg) (sel : Half) : Op Unit :=
  if nullSel sel then pure ()
  else do
    let (e, _) ← fetchDescTs sel
    let s ← get
    requireTs (usable e sel s.cpl && e.p) sel
    copyDescriptor i sel e

/-- Step 7 (R482). -/
def switchStep7 (t : TaskImage) : Op Unit := do
  switchLdt t.ldt
  let s ← get
  if s.vm then do
    loadSegV86 .cs t.cs
    loadSegV86 .ss t.ss
    loadSegV86 .es t.es
    loadSegV86 .ds t.ds
    loadSegV86 .fs t.fs
    loadSegV86 .gs t.gs
  else do
    switchCs t.cs
    switchSs t.ss
    switchData .es t.es
    switchData .ds t.ds
    switchData .fs t.fs
    switchData .gs t.gs

/-- Mark the faults of an operation as raised past the commit point (R482, R505). -/
def pastCommit {α : Type} (op : Op α) : Op α := fun s =>
  match op s with
  | .ok a s' => .ok a s'
  | .error (.fault f _) s' => .error (.fault f true) s'
  | .error (.refuse r) s' => .error (.refuse r) s'

/-- A 16-bit task-state segment (R473). -/
def Desc.tss16 (d : Desc) : Bool := d.cls = .tss16Avail || d.cls = .tss16Busy

/-- `switchToTask(sel, d, a, op)` with the instruction pointer to save (R475). -/
def switchToTask (sel : Half) (d : Desc) (a : Word) (op : SwitchOp) (retEip : Word) : Op Unit := do
  let s ← get
  if d.tss16 || !s.tr.type32 then refuse .tss16
  else do
    require (103 ≤ d.limit.toNat) .ts (selCode sel)
    switchStep1 op
    switchStep2 op retEip
    switchStep3 op d
    let t ← readTaskImage d.base
    pastCommit do
      modify (·.loadTask sel d t)
      switchStep56 op a
      switchCpl t
      switchStep7 t
    endBlock

end Sys2Proof.Machine
end

