-- ==== Sys2Proof/Machine/Ops.lean ====
section
/-! DEFINITION. Taking an exception, and the return from one (60_exceptions.md, 45_control_transfer.md R396 to
R399), far transfers (R383 to R386, R390), and how an instruction's outcome is settled (R505, R510, R520). -/

namespace Sys2Proof.Machine

/-! ### Dispatch (R501 to R503, R521 to R529) -/

/-- The three kinds of dispatch (R521). -/
inductive DispatchKind
  | external
  | fault
  | software
deriving DecidableEq, Repr

/-- The vector of a fault (R501). -/
def FaultKind.vector : FaultKind → Nat
  | .de => 0
  | .ud => 6
  | .df => 8
  | .ts => 10
  | .np => 11
  | .ss => 12
  | .gp => 13
  | .pf => 14
  | .mf => 16

/-- `ext`: 0 for a software interrupt, else 1 (R521). -/
def DispatchKind.ext : DispatchKind → Word
  | .external => 1
  | .fault => 1
  | .software => 0

/-- `sc(s)`: the selector form of an error code with the EXT bit (R524). -/
def extCode (k : DispatchKind) (sel : Half) : Word := selCode sel + k.ext

/-- The error code that names an IDT entry, `vector * 8 + 2 + ext` (R502, R523). -/
def idtCode (k : DispatchKind) (vector : Nat) : Word := BitVec.ofNat 32 (vector * 8 + 2) + k.ext

/-- The flags real-mode dispatch clears (R522). -/
def realEntryFlags (stored : Word) : Word := putFlag (putFlag stored .if_ false) .tf false

/-- The flags a gate clears: TF, NT, RF, VM, and IF for an interrupt gate (R528). -/
def gateEntryFlags (interruptGate : Bool) (stored : Word) : Word :=
  let f := putFlag (putFlag (putFlag (putFlag stored .tf false) .nt false) .rf false) .vm false
  if interruptGate then putFlag f .if_ false else f

/-- Replace the stored flag word by a function of it. -/
def mapFlags (f : Word → Word) : Op Unit := modify fun s => s.setFlagWord (f s.flags)

/-- `Push_16` of a 16-bit value. -/
def push16 (v : Half) : Op Unit := push .s16 (v.setWidth 32)

/-- `Push_w` of a selector, zero-extended. -/
def pushSel (z : Size) (v : Half) : Op Unit := push z (v.setWidth 32)

/-- Real-mode dispatch (R522). -/
def dispatchReal (vector : Nat) (retEip : Word) : Op Unit := do
  let s ← get
  require (4 * vector + 3 ≤ s.idtr.limit.toNat) .gp 0
  let off ← sysRead (s.idtr.base + BitVec.ofNat 32 (4 * vector)) .w16
  let sg ← sysRead (s.idtr.base + BitVec.ofNat 32 (4 * vector + 2)) .w16
  push .s16 (flagsValue s.flags)
  push16 s.segs.cs.selector
  push .s16 retEip
  mapFlags realEntryFlags
  loadSegReal .cs (sg.setWidth 16)
  jumpTo off

/-- An interrupt or trap gate of 32 bits (R524). -/
def Desc.gate32 (g : Desc) : Bool := g.cls = .intGate32 || g.cls = .trapGate32

/-- An interrupt gate, 16- or 32-bit (R528). -/
def Desc.intGate (g : Desc) : Bool := g.cls = .intGate16 || g.cls = .intGate32

/-- A trap gate, 16- or 32-bit. -/
def Desc.trapGate (g : Desc) : Bool := g.cls = .trapGate16 || g.cls = .trapGate32

/-- The size of a gate's pushes (R524). -/
def Desc.gateSize (g : Desc) : Size := if g.gate32 then .s32 else .s16

/-- The offset a gate names; a 16-bit gate's is zero-extended (R93, R524). -/
def Desc.gateTarget (g : Desc) : Word := if g.gate32 then g.gateOff else g.gateOff &&& 0xFFFF

/-- Push an error code when there is one (R503). -/
def pushError (z : Size) : Option Word → Op Unit
  | some c => push z c
  | none => pure ()

/-- The new stack of an inter-privilege entry at level `n`, checked (R525). -/
def innerStack (k : DispatchKind) (n : BitVec 2) : Op (Half × Desc × Word) := do
  let (nss, nesp) ← tssStack n.toNat
  require (!nullSel nss) .ts k.ext
  let (d, _) ← fetchDescOr nss .ts (extCode k nss)
  require (rpl nss = n && d.dpl = n && d.writableData) .ts (extCode k nss)
  require d.p .ss (extCode k nss)
  pure (nss, d, nesp)

/-- Switch to the new stack and the new level (R525, R526). -/
def enterStack (nss : Half) (d : Desc) (n : BitVec 2) (nesp : Word) : Op Unit := do
  copyDescriptor .ss nss d
  setCpl n
  modify (·.setSp nesp)

/-- Interrupt to a more privileged level (R525). -/
def dispatchInner (k : DispatchKind) (g d : Desc) (code : Option Word) (retEip : Word) : Op Unit := do
  let (nss, kd, nesp) ← innerStack k d.dpl
  let s ← get
  enterStack nss kd d.dpl nesp
  pushSel g.gateSize s.segs.ss.selector
  push g.gateSize s.regs.esp
  push g.gateSize (flagsValue s.flags)
  pushSel g.gateSize s.segs.cs.selector
  push g.gateSize retEip
  pushError g.gateSize code
  loadCS g.gateSel d d.dpl
  jumpTo g.gateTarget
  mapFlags (gateEntryFlags g.intGate)

/-- A segment register emptied on the way out of virtual-8086 mode (R526). -/
def clearSeg (i : Seg) : Op Unit := modify fun s => s.setSeg i ((s.seg i).invalidate 0)

/-- Interrupt or fault taken in virtual-8086 mode (R526). -/
def dispatchV86 (k : DispatchKind) (g d : Desc) (code : Option Word) (retEip : Word) : Op Unit := do
  require (d.dpl = 0) .gp (extCode k g.gateSel)
  if !g.gate32 then refuse .v86Gate16
  else do
    let (nss, kd, nesp) ← innerStack k 0
    let s ← get
    copyDescriptor .ss nss kd
    setCpl 0
    putFlagOp .vm false
    modify (·.setSp nesp)
    pushSel .s32 s.segs.gs.selector
    pushSel .s32 s.segs.fs.selector
    pushSel .s32 s.segs.ds.selector
    pushSel .s32 s.segs.es.selector
    pushSel .s32 s.segs.ss.selector
    push .s32 s.regs.esp
    push .s32 (flagsValue s.flags)
    pushSel .s32 s.segs.cs.selector
    push .s32 retEip
    pushError .s32 code
    clearSeg .es
    clearSeg .ds
    clearSeg .fs
    clearSeg .gs
    loadCS g.gateSel d 0
    jumpTo g.gateTarget
    mapFlags (gateEntryFlags g.intGate)

/-- Interrupt at the same privilege level (R524). -/
def dispatchSame (k : DispatchKind) (g d : Desc) (code : Option Word) (retEip : Word) : Op Unit := do
  let s ← get
  require (!s.v86Mode) .gp (extCode k g.gateSel)
  push g.gateSize (flagsValue s.flags)
  pushSel g.gateSize s.segs.cs.selector
  push g.gateSize retEip
  pushError g.gateSize code
  loadCS g.gateSel d s.cpl
  jumpTo g.gateTarget
  mapFlags (gateEntryFlags g.intGate)

/-- Interrupt and trap gates (R524). -/
def dispatchGate (k : DispatchKind) (g : Desc) (code : Option Word) (retEip : Word) : Op Unit := do
  let s ← get
  require (!nullSel g.gateSel) .gp k.ext
  let (d, _) ← fetchDescOr g.gateSel .gp (extCode k g.gateSel)
  require (d.isCode && d.dpl.toNat ≤ s.cpl.toNat) .gp (extCode k g.gateSel)
  require d.p .np (extCode k g.gateSel)
  if !d.conforming && d.dpl.toNat < s.cpl.toNat then
    if s.v86Mode then dispatchV86 k g d code retEip else dispatchInner k g d code retEip
  else dispatchSame k g d code retEip

/-- A task gate in the IDT (R527); the error code goes on the incoming task's stack (R483). -/
def dispatchTask (k : DispatchKind) (g : Desc) (code : Option Word) (retEip : Word) : Op Unit := do
  require (!nullSel g.gateSel && !selTI g.gateSel) .gp (extCode k g.gateSel)
  let (td, ta) ← fetchDescOr g.gateSel .gp (extCode k g.gateSel)
  require td.availTss .gp (extCode k g.gateSel)
  require td.p .np (extCode k g.gateSel)
  switchToTask g.gateSel td ta .interrupt retEip
  pastCommit (pushError .s32 code)

/-- Protected-mode dispatch: the gate fetch (R523). -/
def dispatchProt (vector : Nat) (k : DispatchKind) (code : Option Word) (retEip : Word) : Op Unit := do
  let s ← get
  require (8 * vector + 7 ≤ s.idtr.limit.toNat) .gp (idtCode k vector)
  let lo ← sysRead (s.idtr.base + BitVec.ofNat 32 (8 * vector)) .w32
  let hi ← sysRead (s.idtr.base + BitVec.ofNat 32 (8 * vector + 4)) .w32
  let g := parseDesc lo hi
  require (g.cls = .taskGate || g.intGate || g.trapGate) .gp (idtCode k vector)
  require (k ≠ .software || s.cpl.toNat ≤ g.dpl.toNat) .gp (BitVec.ofNat 32 (vector * 8 + 2))
  require g.p .np (idtCode k vector)
  if g.cls = .taskGate then dispatchTask k g code retEip else dispatchGate k g code retEip

/-- `Dispatch(vector, kind, errorCode, retEIP)` (R521). -/
def dispatch (vector : Nat) (k : DispatchKind) (code : Option Word) (retEip : Word) : Op Unit := do
  let s ← get
  if s.realMode then dispatchReal vector retEip else dispatchProt vector k code retEip

/-! ### Rollback, double fault and shutdown (R505, R510, R511) -/

/-- The latches of an instruction, or of a dispatch, at its beginning (R48). -/
def State.latch (s : State) : State := { s with startEip := s.eip, startEsp := s.regs.esp }

/-- The state after a fault: every register as it was at the beginning, EIP and ESP from the latches; memory,
the TLB, CR2 and the end of the block are not undone (R505). `s0` is the state at the beginning, `s` the one in
which the fault was raised. -/
def rollback (s0 s : State) : State :=
  { s with
    regs := { s0.regs with esp := s0.startEsp }
    eip := s0.startEip
    flags := s0.flags
    segs := s0.segs
    cpl := s0.cpl
    gdtr := s0.gdtr
    idtr := s0.idtr
    ldtr := s0.ldtr
    tr := s0.tr
    cr0 := s0.cr0
    cr3 := s0.cr3 }

/-- The classes of the double-fault rule (R510). -/
inductive FaultClass
  | benign
  | contributory
  | page
deriving DecidableEq, Repr

/-- The class of a fault (R510). -/
def FaultKind.faultClass : FaultKind → FaultClass
  | .de => .contributory
  | .ts => .contributory
  | .np => .contributory
  | .ss => .contributory
  | .gp => .contributory
  | .pf => .page
  | .ud => .benign
  | .df => .benign
  | .mf => .benign

/-- A second fault that escalates to `#DF` (R510). -/
def escalates (f1 f2 : FaultKind) : Bool :=
  match f1.faultClass, f2.faultClass with
  | .contributory, .contributory => true
  | .page, .page => true
  | .page, .contributory => true
  | .benign, _ => false
  | _, .benign => false
  | .contributory, .page => false

/-- A fault whose error code carries EXT = 1 (R502, R510); a page fault's code has no such bit. Assumption
log 11. -/
def GuestFault.withExt (f : GuestFault) : GuestFault :=
  if f.kind = .pf then f else { f with code := f.code.map (· ||| 1) }

/-- The core stops (R511). -/
def State.shutDown (s : State) : State := { s with shutdown := true, inBlock := false }

/-- The state in which a fault that a dispatch raised is handled, and the instruction pointer to save: the
dispatch is undone, or, past the commit point of a task switch, the incoming task goes on (R482, R505, R510).
Assumption log 12. -/
def afterFault (s0 s : State) (retEip : Word) (past : Bool) : State × Word :=
  if past then (s, s.eip) else (rollback s0 s, retEip)

/-- Dispatch of `#DF`; a fault of it is the shutdown (R510, R511). -/
def dispatchDouble (retEip : Word) (s : State) : Host.Outcome State Fault Refusal :=
  match (dispatch 8 .fault (some 0) retEip).run s.latch with
  | .ok _ s' => .next s'.endBlock
  | .error (.refuse r) _ => .refused r
  | .error (.fault _ past) s' => .next (afterFault s.latch s' retEip past).1.shutDown

/-- `DispatchFault(f1, retEIP)` (R510), and the end of the block (R520). The number bounds the chain of faults
that are handled one after the other: a benign one, a contributory one, a page fault. -/
def dispatchFault (fuel : Nat) (f1 : GuestFault) (retEip : Word) (s : State) : Host.Outcome State Fault Refusal :=
  match (dispatch f1.kind.vector .fault f1.code retEip).run s.latch with
  | .ok _ s' => .next s'.endBlock
  | .error (.refuse r) _ => .refused r
  | .error (.fault f2 past) s' =>
    let (s2, ret2) := afterFault s.latch s' retEip past
    if escalates f1.kind f2.kind then dispatchDouble ret2 s2
    else
      match fuel with
      | 0 => .next s2.shutDown
      | n + 1 => dispatchFault n f2.withExt ret2 s2

/-- The longest chain that R510 handles serially before it escalates. -/
def faultChain : Nat := 2

/-- Delivery of an external interrupt (R520). -/
def dispatchExternal (vector : Byte) (s : State) : Host.Outcome State Fault Refusal :=
  match (dispatch vector.toNat .external none s.eip).run s.latch with
  | .ok _ s' => .next s'
  | .error (.refuse r) _ => .refused r
  | .error (.fault f past) s' =>
    let (s2, ret2) := afterFault s.latch s' s.eip past
    dispatchFault faultChain f.withExt ret2 s2

/-- The outcome of an instruction that began in `s0` (R520): the next state, a refusal, or the fault it raised
dispatched. -/
def settle (s0 : State) : EStateM.Result Stop State Unit → Host.Outcome State Fault Refusal
  | .ok _ s => .next s
  | .error (.refuse r) _ => .refused r
  | .error (.fault f past) s =>
    let (s', ret) := afterFault s0 s s0.startEip past
    dispatchFault faultChain f ret s'

/-- Run the operation that is an instruction's meaning. -/
def run (op : Op Unit) (s : State) : Host.Outcome State Fault Refusal := settle s (op.run s)

/-! ### Far transfers (R383 to R386) -/

/-- A far transfer of kind jmp or call. -/
inductive FarKind
  | jmp
  | call
deriving DecidableEq, Repr

/-- The task switch a far transfer starts. -/
def FarKind.switchOp : FarKind → SwitchOp
  | .jmp => .jmp
  | .call => .call

/-- The target of a transfer at an operand size: 16 bits of it, or all (R24). -/
def target (z : Size) (v : Word) : Word := trunc z.width v

/-- The return address a far call pushes: CS, then the address of the next instruction (R383, R384). -/
def pushFarReturn (z : Size) (k : FarKind) : Op Unit := do
  let s ← get
  if k = .call then do
    pushSel z s.segs.cs.selector
    push z s.nextEip
  else pure ()

/-- Load CS in real or virtual-8086 mode (R383, R390, R396). -/
def loadCsFlat (sel : Half) : Op Unit := do
  let s ← get
  if s.realMode then loadSegReal .cs sel else loadSegV86 .cs sel

/-- A far transfer in real and virtual-8086 mode (R383). -/
def farFlat (z : Size) (k : FarKind) (sel : Half) (off : Word) : Op Unit := do
  pushFarReturn z k
  loadCsFlat sel
  jumpTo (target z off)

/-- A far transfer to a code segment (R384). -/
def farCode (z : Size) (k : FarKind) (sel : Half) (off : Word) (d : Desc) : Op Unit := do
  let s ← get
  require (if d.conforming then d.dpl.toNat ≤ s.cpl.toNat else (rpl sel).toNat ≤ s.cpl.toNat && d.dpl = s.cpl)
    .gp (selCode sel)
  require d.p .np (selCode sel)
  require (off.toNat ≤ d.limit.toNat) .gp 0
  pushFarReturn z k
  loadCS sel d s.cpl
  jumpTo (target z off)

/-- A far transfer to a TSS descriptor (R386). -/
def farTss (k : FarKind) (sel : Half) (d : Desc) (a : Word) : Op Unit := do
  let s ← get
  require (!selTI sel) .gp (selCode sel)
  require (s.cpl.toNat ≤ d.dpl.toNat && (rpl sel).toNat ≤ d.dpl.toNat) .gp (selCode sel)
  require (!d.busyTss) .gp (selCode sel)
  require d.p .np (selCode sel)
  switchToTask sel d a k.switchOp s.nextEip

/-- A far transfer to a task gate (R386). -/
def farTaskGate (k : FarKind) (sel : Half) (d : Desc) : Op Unit := do
  let s ← get
  require (s.cpl.toNat ≤ d.dpl.toNat && (rpl sel).toNat ≤ d.dpl.toNat) .gp (selCode sel)
  require d.p .np (selCode sel)
  require (!nullSel d.gateSel && !selTI d.gateSel) .gp (selCode d.gateSel)
  let (td, ta) ← fetchDescOr d.gateSel .gp (selCode d.gateSel)
  require td.availTss .gp (selCode d.gateSel)
  require td.p .np (selCode d.gateSel)
  switchToTask d.gateSel td ta k.switchOp s.nextEip

/-- `FarTransfer(kind, sel, off)` (R384). -/
def farProt (z : Size) (k : FarKind) (sel : Half) (off : Word) : Op Unit := do
  require (!nullSel sel) .gp 0
  let (d, a) ← fetchDescOr sel .gp (selCode sel)
  if d.isCode then farCode z k sel off d
  else if d.cls = .callGate16 || d.cls = .callGate32 then refuse .callGateTransfer
  else if d.availTss || d.busyTss then farTss k sel d a
  else if d.cls = .taskGate then farTaskGate k sel d
  else raise .gp (some (selCode sel))

/-- JMP and CALL far (R381, R382); the block ends (R360). -/
def farTransfer (z : Size) (k : FarKind) (sel : Half) (off : Word) : Op Unit := do
  let s ← get
  if s.protMode then farProt z k sel off else farFlat z k sel off
  endBlock

/-! ### Far return (R390) -/

/-- The protected-mode part of RETF. -/
def retfProt (cs : Half) : Op Unit := do
  let s ← get
  require (!nullSel cs) .gp 0
  let (d, _) ← fetchDescOr cs .gp (selCode cs)
  require d.isCode .gp (selCode cs)
  require (s.cpl.toNat ≤ (rpl cs).toNat) .gp (selCode cs)
  if s.cpl.toNat < (rpl cs).toNat then refuse .farReturnOuter
  else do
    require (d.codeFits s.cpl) .gp (selCode cs)
    require d.p .np (selCode cs)
    loadCS cs d s.cpl

/-- RETF, releasing `iw` bytes (R390); the block ends (R360). -/
def farReturn (z : Size) (iw : Half) : Op Unit := do
  let ip ← pop z
  let cs ← popSel z
  let s ← get
  if s.protMode then retfProt cs else loadCsFlat cs
  jumpTo ip
  releaseStack iw
  endBlock

/-! ### Return from interrupt (R396 to R399) -/

/-- IRET in real and virtual-8086 mode (R396). -/
def iretFlat (z : Size) : Op Unit := do
  let s ← get
  require (!s.v86IoplLow) .gp 0
  let ip ← pop z
  let cs ← popSel z
  let fl ← pop z
  loadCsFlat cs
  jumpTo ip
  modify (·.loadFlags fl (iretMaskReal z s.v86Mode))

/-- IRET with NT = 1: the return to the previous task (R397). -/
def iretTask : Op Unit := do
  let s ← get
  let link ← tssSel s.tr.base 0
  require (!nullSel link && !selTI link) .ts (selCode link)
  let (d, a) ← fetchDescOr link .ts (selCode link)
  require d.busyTss .ts (selCode link)
  require d.p .np (selCode link)
  switchToTask link d a .iret s.nextEip

/-- A cached descriptor is still usable at the current level (R398). -/
def SegReg.stillUsable (g : SegReg) (cpl : BitVec 2) : Bool :=
  let code := g.type.getLsbD 3
  (!code || g.type.getLsbD 1) &&
    ((code && g.type.getLsbD 2) || max cpl.toNat (rpl g.selector).toNat ≤ g.dpl.toNat)

/-- `ValidateOuter(s)` on a segment register (R398). -/
def SegReg.validateOuter (g : SegReg) (cpl : BitVec 2) : SegReg :=
  if g.valid && !g.stillUsable cpl then g.invalidate 0 else g

/-- `ValidateOuter(s)` (R398). -/
def validateOuter (i : Seg) : Op Unit := modify fun s => s.setSeg i ((s.seg i).validateOuter s.cpl)

/-- IRET from CPL 0 to virtual-8086 mode: EIP, CS and the flags are popped already (R399). -/
def iretV86 (eip : Word) (cs : Half) (fl : Word) : Op Unit := do
  let nsp ← pop .s32
  let nss ← popSel .s32
  let es ← popSel .s32
  let ds ← popSel .s32
  let fs ← popSel .s32
  let gs ← popSel .s32
  modify (·.loadFlags fl 0xFFFFFFFF)
  setCpl 3
  loadSegV86 .cs cs
  loadSegV86 .ss nss
  loadSegV86 .es es
  loadSegV86 .ds ds
  loadSegV86 .fs fs
  loadSegV86 .gs gs
  jumpTo (eip &&& 0xFFFF)
  writeReg .w32 .esp nsp

/-- The return to an outer level (R397). -/
def iretOuter (z : Size) (eip : Word) (cs : Half) (fl : Word) (d : Desc) : Op Unit := do
  let s ← get
  let nsp ← pop z
  let nss ← popSel z
  loadSS nss (rpl cs)
  loadCS cs d (rpl cs)
  jumpTo eip
  modify (·.loadFlags fl (iretMask z s.cpl s.iopl))
  modify (·.setSp nsp)
  validateOuter .es
  validateOuter .ds
  validateOuter .fs
  validateOuter .gs

/-- The return to a protected-mode code segment, after the pops (R397). -/
def iretProtCs (z : Size) (eip : Word) (cs : Half) (fl : Word) : Op Unit := do
  let s ← get
  require (!nullSel cs) .gp 0
  let (d, _) ← fetchDescOr cs .gp (selCode cs)
  require d.isCode .gp (selCode cs)
  require (s.cpl.toNat ≤ (rpl cs).toNat) .gp (selCode cs)
  require (d.codeFits (rpl cs)) .gp (selCode cs)
  require d.p .np (selCode cs)
  if rpl cs = s.cpl then do
    loadCS cs d s.cpl
    jumpTo eip
    modify (·.loadFlags fl (iretMask z s.cpl s.iopl))
  else iretOuter z eip cs fl d

/-- IRET in protected mode (R397). -/
def iretProt (z : Size) : Op Unit := do
  let s ← get
  if s.flag .nt then iretTask
  else do
    let eip ← pop z
    let cs ← popSel z
    let fl ← pop z
    if z = .s32 && fl.getLsbD 17 && s.cpl = 0 then iretV86 eip cs fl else iretProtCs z eip cs fl

/-- IRET (R396, R397); the block ends (R360). -/
def interruptReturn (z : Size) : Op Unit := do
  let s ← get
  if s.protMode then iretProt z else iretFlat z
  endBlock

end Sys2Proof.Machine
end

