-- ==== Sys2Proof/Machine/Alu.lean ====
section
/-! DEFINITION. The meanings of ADD, OR, ADC, SBB, AND, SUB, XOR, CMP, INC, DEC, NEG, NOT and TEST
(41_alu.md). Each is an operation over operands and one result function. -/

namespace Sys2Proof.Machine

/-- A result function of a two-operand instruction: it gives the result from destination and source, and
writes the flags. -/
abbrev BinOp := Width → Word → Word → Op Word

/-- The flags and the result of `AddFlags_n` (R28). -/
def addOp : BinOp := fun w a b => do
  putStatusOp (addStatus w a b false)
  pure (addResult w a b false)

/-- ADC: the carry flag comes in (R263). -/
def adcOp : BinOp := fun w a b => do
  let s ← get
  let c := s.flag .cf
  putStatusOp (addStatus w a b c)
  pure (addResult w a b c)

/-- The flags and the result of `SubFlags_n` (R28). -/
def subOp : BinOp := fun w a b => do
  putStatusOp (subStatus w a b false)
  pure (subResult w a b false)

/-- SBB: the carry flag comes in (R264). -/
def sbbOp : BinOp := fun w a b => do
  let s ← get
  let c := s.flag .cf
  putStatusOp (subStatus w a b c)
  pure (subResult w a b c)

/-- `LogicFlags_n(r)`: AF is a draw (R28). -/
def logicOp (w : Width) (r : Word) : Op Word := do
  let af ← drawBit
  putStatusOp (logicStatus w r af)
  pure r

/-- `dst <- dst op src`: the source first, then the destination (R260). -/
def aluStore (g : BinOp) (f : AluForm) : Op Unit := do
  let b ← AluForm.src f
  let _ ← modifyRM (AluForm.width f) (AluForm.dst f) (storing fun a => g (AluForm.width f) a b)
  advance

/-- The comparison of two operands: neither is written (R268). -/
def aluCompare (g : BinOp) (f : AluForm) : Op Unit := do
  let b ← AluForm.src f
  let a ← readRM (AluForm.width f) (AluForm.dst f)
  let _ ← g (AluForm.width f) a b
  advance

/-- A one-operand read-modify-write. -/
def unaryStore (w : Width) (rm : RM) (g : Word → Op Word) : Op Unit := do
  let _ ← modifyRM w rm (storing g)
  advance

/-- Compute with the carry flag kept (R269, R270). -/
def keepingCarry (op : Op Word) : Op Word := do
  let s ← get
  let r ← op
  putFlagOp .cf (s.flag .cf)
  pure r

/-- ADD (R261). -/
def execAdd (f : AluForm) (s : State) : Host.Outcome State Fault Refusal := run (aluStore addOp f) s

/-- OR (R262). -/
def execOr (f : AluForm) (s : State) : Host.Outcome State Fault Refusal :=
  run (aluStore (fun w a b => logicOp w (a ||| b)) f) s

/-- ADC (R263). -/
def execAdc (f : AluForm) (s : State) : Host.Outcome State Fault Refusal := run (aluStore adcOp f) s

/-- SBB (R264). -/
def execSbb (f : AluForm) (s : State) : Host.Outcome State Fault Refusal := run (aluStore sbbOp f) s

/-- AND (R265). -/
def execAnd (f : AluForm) (s : State) : Host.Outcome State Fault Refusal :=
  run (aluStore (fun w a b => logicOp w (a &&& b)) f) s

/-- SUB (R266). -/
def execSub (f : AluForm) (s : State) : Host.Outcome State Fault Refusal := run (aluStore subOp f) s

/-- XOR (R267). -/
def execXor (f : AluForm) (s : State) : Host.Outcome State Fault Refusal :=
  run (aluStore (fun w a b => logicOp w (a ^^^ b)) f) s

/-- CMP (R268). -/
def execCmp (f : AluForm) (s : State) : Host.Outcome State Fault Refusal := run (aluCompare subOp f) s

/-- INC (R269). -/
def execInc (f : IncForm) (s : State) : Host.Outcome State Fault Refusal :=
  run (unaryStore (IncForm.width f) (IncForm.dst f) fun a => keepingCarry (addOp (IncForm.width f) a 1)) s

/-- DEC (R270). -/
def execDec (f : IncForm) (s : State) : Host.Outcome State Fault Refusal :=
  run (unaryStore (IncForm.width f) (IncForm.dst f) fun a => keepingCarry (subOp (IncForm.width f) a 1)) s

/-- NEG (R271). -/
def execNeg (w : Width) (rm : RM) (s : State) : Host.Outcome State Fault Refusal :=
  run (unaryStore w rm fun a => subOp w 0 a) s

/-- NOT (R272). -/
def execNot (w : Width) (rm : RM) (s : State) : Host.Outcome State Fault Refusal :=
  run (unaryStore w rm fun a => pure (trunc w (~~~a))) s

/-- TEST (R273). -/
def execTest (f : TestForm) (s : State) : Host.Outcome State Fault Refusal :=
  run (do
    let b ← TestForm.src f
    let a ← readRM (TestForm.width f) (TestForm.dst f)
    let _ ← logicOp (TestForm.width f) (a &&& b)
    advance) s

end Sys2Proof.Machine
end

