-- ==== Sys2Proof/Machine/Control.lean ====
section
/-! DEFINITION. The meanings of JMP, Jcc, JCXZ, LOOP, CALL, RET, RETF, INT, INT3, INTO and IRET
(45_control_transfer.md). Each ends the running block, taken or not (R360). -/

namespace Sys2Proof.Machine

/-- A relative target: `nextEIP` plus the displacement, at the operand size (R171). -/
def State.relTarget (s : State) (z : Size) (disp : Word) : Word := target z (s.nextEip + disp)

/-- Jump to a relative target (R361). -/
def jumpRel (z : Size) (disp : Word) : Op Unit := modify fun s => s.setEip (s.relTarget z disp)

/-- Jump when the condition holds, else go on (R363, R365, R366). -/
def branch (take : Bool) (z : Size) (disp : Word) : Op Unit := do
  if take then jumpRel z disp else advance
  endBlock

/-- The displacement of `cv`: `osz` bits, sign-extended (R171). -/
def nearDisp (z : Size) (cv : Word) : Word := sext32 z.width cv

/-- The displacement of `cb` (R171). -/
def shortDisp (cb : Byte) : Word := cb.signExtend 32

/-! ### Jumps -/

/-- JMP cb (R361). -/
def execJmpShort (z : Size) (cb : Byte) (s : State) : Host.Outcome State Fault Refusal :=
  run (branch true z (shortDisp cb)) s

/-- JMP cv (R361). -/
def execJmpNear (z : Size) (cv : Word) (s : State) : Host.Outcome State Fault Refusal :=
  run (branch true z (nearDisp z cv)) s

/-- JMP Ev (R362). -/
def execJmpRm (z : Size) (rm : RM) (s : State) : Host.Outcome State Fault Refusal :=
  run (do
    let t ← readRM z.width rm
    jumpTo t
    endBlock) s

/-- JMP ptr16:v (R381). -/
def execJmpFarPtr (z : Size) (sel : Half) (off : Word) (s : State) : Host.Outcome State Fault Refusal :=
  run (farTransfer z .jmp sel off) s

/-- JMP m16:v (R381). -/
def execJmpFarMem (z : Size) (rm : RM) (s : State) : Host.Outcome State Fault Refusal :=
  run (do
    let m ← memOperand rm
    let (sel, off) ← readFarPtr z m
    farTransfer z .jmp sel off) s

/-- Jcc cb (R363). -/
def execJccShort (z : Size) (cc : Cond) (cb : Byte) (s : State) : Host.Outcome State Fault Refusal :=
  run (do
    let s ← get
    branch (condHolds s.flags cc) z (shortDisp cb)) s

/-- Jcc cv (R363). -/
def execJccNear (z : Size) (cc : Cond) (cv : Word) (s : State) : Host.Outcome State Fault Refusal :=
  run (do
    let s ← get
    branch (condHolds s.flags cc) z (nearDisp z cv)) s

/-- JCXZ and JECXZ (R365). -/
def execJcxz (z asz : Size) (cb : Byte) (s : State) : Host.Outcome State Fault Refusal :=
  run (do
    let c ← readReg asz.width .ecx
    branch (c = 0) z (shortDisp cb)) s

/-- Decrement the count register and jump while it is not zero and the condition on ZF holds (R366). -/
def loopStep (z asz : Size) (cb : Byte) (zf : Bool → Bool) : Op Unit := do
  let c ← readReg asz.width .ecx
  writeReg asz.width .ecx (trunc asz.width (c - 1))
  let s ← get
  branch (s.reg asz.width .ecx ≠ 0 && zf (s.flag .zf)) z (shortDisp cb)

/-- LOOP (R366). -/
def execLoop (z asz : Size) (cb : Byte) (s : State) : Host.Outcome State Fault Refusal :=
  run (loopStep z asz cb fun _ => true) s

/-- LOOPE (R366). -/
def execLoope (z asz : Size) (cb : Byte) (s : State) : Host.Outcome State Fault Refusal :=
  run (loopStep z asz cb fun zf => zf) s

/-- LOOPNE (R366). -/
def execLoopne (z asz : Size) (cb : Byte) (s : State) : Host.Outcome State Fault Refusal :=
  run (loopStep z asz cb fun zf => !zf) s

/-! ### Calls and returns -/

/-- Push the return address of a near call (R367). -/
def pushReturn (z : Size) : Op Unit := do
  let s ← get
  push z s.nextEip

/-- CALL cv (R367). -/
def execCallNear (z : Size) (cv : Word) (s : State) : Host.Outcome State Fault Refusal :=
  run (do
    pushReturn z
    jumpRel z (nearDisp z cv)
    endBlock) s

/-- CALL Ev: the target is read before the push (R368). -/
def execCallRm (z : Size) (rm : RM) (s : State) : Host.Outcome State Fault Refusal :=
  run (do
    let t ← readRM z.width rm
    pushReturn z
    jumpTo t
    endBlock) s

/-- CALL ptr16:v (R382). -/
def execCallFarPtr (z : Size) (sel : Half) (off : Word) (s : State) : Host.Outcome State Fault Refusal :=
  run (farTransfer z .call sel off) s

/-- CALL m16:v (R382). -/
def execCallFarMem (z : Size) (rm : RM) (s : State) : Host.Outcome State Fault Refusal :=
  run (do
    let m ← memOperand rm
    let (sel, off) ← readFarPtr z m
    farTransfer z .call sel off) s

/-- A near return that releases `iw` bytes (R369). -/
def nearReturn (z : Size) (iw : Half) : Op Unit := do
  let t ← pop z
  jumpTo t
  releaseStack iw
  endBlock

/-- RET (R369). -/
def execRet (z : Size) (s : State) : Host.Outcome State Fault Refusal := run (nearReturn z 0) s

/-- RET iw (R369). -/
def execRetImm (z : Size) (iw : Half) (s : State) : Host.Outcome State Fault Refusal := run (nearReturn z iw) s

/-- RETF (R390). -/
def execRetf (z : Size) (s : State) : Host.Outcome State Fault Refusal := run (farReturn z 0) s

/-- RETF iw (R390). -/
def execRetfImm (z : Size) (iw : Half) (s : State) : Host.Outcome State Fault Refusal := run (farReturn z iw) s

/-! ### Software interrupts and their return -/

/-- A software interrupt: the saved instruction pointer is `nextEIP` (R393). -/
def softInt (vector : Nat) : Op Unit := do
  let s ← get
  dispatch vector .software none s.nextEip
  endBlock

/-- INT3 (R394). -/
def execInt3 (s : State) : Host.Outcome State Fault Refusal := run (softInt 3) s

/-- INT n (R393). -/
def execInt (ib : Byte) (s : State) : Host.Outcome State Fault Refusal :=
  run (do
    let s ← get
    require (!s.v86IoplLow) .gp 0
    softInt ib.toNat) s

/-- INTO (R395). -/
def execInto (s : State) : Host.Outcome State Fault Refusal :=
  run (do
    let s ← get
    if s.flag .of then softInt 4
    else do
      advance
      endBlock) s

/-- IRET and IRETD (R396, R397). -/
def execIret (z : Size) (s : State) : Host.Outcome State Fault Refusal := run (interruptReturn z) s

end Sys2Proof.Machine
end

