-- ==== Sys2Proof/Machine/FlagControl.lean ====
section
/-! DEFINITION. The meanings of CLC, STC, CMC, CLD, STD, CLI, STI, LAHF, SAHF, PUSHF and POPF
(46_flag_control.md). -/

namespace Sys2Proof.Machine

/-- Write one flag and go on. -/
def flagStore (f : Flag) (v : Bool) : Op Unit := do
  putFlagOp f v
  advance

/-- CLC (R410). -/
def execClc (s : State) : Host.Outcome State Fault Refusal := run (flagStore .cf false) s

/-- STC (R411). -/
def execStc (s : State) : Host.Outcome State Fault Refusal := run (flagStore .cf true) s

/-- CMC (R412). -/
def execCmc (s : State) : Host.Outcome State Fault Refusal :=
  run (do
    let s ← get
    flagStore .cf (!s.flag .cf)) s

/-- CLD (R413). -/
def execCld (s : State) : Host.Outcome State Fault Refusal := run (flagStore .df false) s

/-- STD (R414). -/
def execStd (s : State) : Host.Outcome State Fault Refusal := run (flagStore .df true) s

/-- CLI (R415). -/
def execCli (s : State) : Host.Outcome State Fault Refusal :=
  run (do
    let s ← get
    require s.ioplOk .gp 0
    flagStore .if_ false) s

/-- STI, without a delay (R416, R579). -/
def execSti (s : State) : Host.Outcome State Fault Refusal :=
  run (do
    let s ← get
    require s.ioplOk .gp 0
    flagStore .if_ true) s

/-- LAHF: AH is byte register 4 (R417). -/
def execLahf (s : State) : Host.Outcome State Fault Refusal :=
  run (do
    let s ← get
    writeReg .w8 .esp (trunc .w8 (flagsValue s.flags))
    advance) s

/-- SAHF (R418). -/
def execSahf (s : State) : Host.Outcome State Fault Refusal :=
  run (do
    let v ← readReg .w8 .esp
    modify (·.loadFlags v sahfMask)
    advance) s

/-- The image PUSHF stores: VM and RF read as 0 in the 32-bit one (R419). -/
def pushfValue (z : Size) (stored : Word) : Word :=
  match z with
  | .s16 => trunc .w16 (flagsValue stored)
  | .s32 => flagsValue stored &&& pushfdImage

/-- PUSHF and PUSHFD (R419). -/
def execPushf (z : Size) (s : State) : Host.Outcome State Fault Refusal :=
  run (do
    let s ← get
    require (!s.v86IoplLow) .gp 0
    push z (pushfValue z s.flags)
    advance) s

/-- The image POPF loads: RF is forced to 0 in the 32-bit one (R420). -/
def popfValue (z : Size) (v : Word) : Word :=
  match z with
  | .s16 => v
  | .s32 => v &&& 0xFFFEFFFF

/-- POPF may change IOPL in real mode and at CPL 0 of protected mode (R420). -/
def State.popfIopl (s : State) : Bool := s.realMode || (s.protMode && s.cpl = 0)

/-- POPF and POPFD: the tests use the values from before the pop (R420). -/
def execPopf (z : Size) (s : State) : Host.Outcome State Fault Refusal :=
  run (do
    let s ← get
    require (!s.v86IoplLow) .gp 0
    let v ← pop z
    modify (·.loadFlags (popfValue z v) (popfMask z s.ioplOk s.popfIopl))
    advance) s

end Sys2Proof.Machine
end

