-- ==== Sys2Proof/Machine/MulDiv.lean ====
section
/-! DEFINITION. The meanings of MUL, IMUL, DIV, IDIV, CBW/CWDE and CWD/CDQ (42_mul_div.md). -/

namespace Sys2Proof.Machine

/-! ### The implicit operands (R300) -/

/-- The dividend: AX, DX::AX or EDX::EAX as a number below 2^2n (R300). -/
def State.dividend (s : State) (w : Width) : Nat :=
  match w with
  | .w8 => (s.reg .w16 .eax).toNat
  | .w16 => (s.reg .w16 .edx).toNat * 2 ^ 16 + (s.reg .w16 .eax).toNat
  | .w32 => (s.reg .w32 .edx).toNat * 2 ^ 32 + (s.reg .w32 .eax).toNat

/-- Store a 2n-bit product: AX, DX::AX or EDX::EAX (R301). -/
def State.setProduct (s : State) (w : Width) (p : Nat) : State :=
  match w with
  | .w8 => s.setReg .w16 .eax (BitVec.ofNat 32 (p % 2 ^ 16))
  | .w16 =>
    (s.setReg .w16 .eax (BitVec.ofNat 32 (p % 2 ^ 16))).setReg .w16 .edx (BitVec.ofNat 32 (p / 2 ^ 16 % 2 ^ 16))
  | .w32 =>
    (s.setReg .w32 .eax (BitVec.ofNat 32 (p % 2 ^ 32))).setReg .w32 .edx (BitVec.ofNat 32 (p / 2 ^ 32 % 2 ^ 32))

/-- Store a quotient and a remainder, n bits each: AL and AH, AX and DX, EAX and EDX (R300). -/
def State.setQuotient (s : State) (w : Width) (q r : Word) : State :=
  match w with
  | .w8 => (s.setReg .w8 .eax q).setReg .w8 .esp r
  | .w16 => (s.setReg .w16 .eax q).setReg .w16 .edx r
  | .w32 => (s.setReg .w32 .eax q).setReg .w32 .edx r

/-! ### Flags -/

/-- CF and OF of a product; SF, ZF, PF and AF are draws (R301 to R303). -/
def mulFlags (ovf : Bool) : Op Unit := do
  let sf ← drawBit
  let zf ← drawBit
  let pf ← drawBit
  let af ← drawBit
  putStatusOp { cf := ovf, of := ovf, sf := sf, zf := zf, pf := pf, af := af }

/-- All six status flags are draws (R304, R305, R444, R445). -/
def drawStatus : Op Unit := do
  let cf ← drawBit
  let of ← drawBit
  let sf ← drawBit
  let zf ← drawBit
  let af ← drawBit
  let pf ← drawBit
  putStatusOp { cf := cf, of := of, sf := sf, zf := zf, af := af, pf := pf }

/-- A signed product does not fit in n bits (R302, R303). -/
def signedOver (w : Width) (p : Int) : Bool := p < -(2 ^ (w.bits - 1) : Int) || (2 ^ (w.bits - 1) : Int) ≤ p

/-! ### The arithmetic -/

/-- Quotient and remainder of an unsigned division, or `none` for a divide error (R304). -/
def divide (w : Width) (n d : Nat) : Option (Word × Word) :=
  if d = 0 then none
  else if 2 ^ w.bits - 1 < n / d then none
  else some (BitVec.ofNat 32 (n / d), BitVec.ofNat 32 (n % d))

/-- `sint_2n` of a dividend (R305). -/
def signedDividend (w : Width) (n : Nat) : Int := (BitVec.ofNat (2 * w.bits) n).toInt

/-- Quotient, truncated toward zero, and remainder of a signed division, or `none` for a divide error (R305). -/
def divideSigned (w : Width) (n d : Int) : Option (Word × Word) :=
  if d = 0 then none
  else
    let q := n.tdiv d
    let r := n - q * d
    if q < -(2 ^ (w.bits - 1) : Int) || (2 ^ (w.bits - 1) - 1 : Int) < q then none
    else some (trunc w (BitVec.ofInt 32 q), trunc w (BitVec.ofInt 32 r))

/-- The product IMUL truncates to the operand size (R303). -/
def imulTruncated (w : Width) (a b : Word) : Word := trunc w (BitVec.ofInt 32 (sint w a * sint w b))

/-- Store a quotient and a remainder, or the divide error (R304, R305). -/
def finishDivide (w : Width) : Option (Word × Word) → Op Unit
  | none => raiseDE
  | some (q, r) => do
    modify (·.setQuotient w q r)
    drawStatus
    advance

/-- IMUL with two factors and a destination register (R303). -/
def imulStore (w : Width) (r : Reg) (a b : Word) : Op Unit := do
  writeReg w r (imulTruncated w a b)
  mulFlags (signedOver w (sint w a * sint w b))
  advance

/-! ### The meanings -/

/-- MUL (R301). -/
def execMul (w : Width) (rm : RM) (s : State) : Host.Outcome State Fault Refusal :=
  run (do
    let b ← readRM w rm
    let a ← readReg w .eax
    let p := a.toNat * b.toNat
    modify (·.setProduct w p)
    mulFlags (2 ^ w.bits ≤ p)
    advance) s

/-- IMUL, one operand (R302). -/
def execImul1 (w : Width) (rm : RM) (s : State) : Host.Outcome State Fault Refusal :=
  run (do
    let b ← readRM w rm
    let a ← readReg w .eax
    let p := sint w a * sint w b
    modify (·.setProduct w (p % (2 ^ (2 * w.bits) : Int)).toNat)
    mulFlags (signedOver w p)
    advance) s

/-- IMUL, two operands (R303). -/
def execImul2 (z : Size) (r : Reg) (rm : RM) (s : State) : Host.Outcome State Fault Refusal :=
  run (do
    let b ← readRM z.width rm
    let a ← readReg z.width r
    imulStore z.width r a b) s

/-- IMUL with an immediate of the operand size (R303). -/
def execImul3 (z : Size) (r : Reg) (rm : RM) (imm : Word) (s : State) : Host.Outcome State Fault Refusal :=
  run (do
    let a ← readRM z.width rm
    imulStore z.width r a imm) s

/-- IMUL with a sign-extended byte (R303). -/
def execImul3b (z : Size) (r : Reg) (rm : RM) (ib : Byte) (s : State) : Host.Outcome State Fault Refusal :=
  run (do
    let a ← readRM z.width rm
    imulStore z.width r a (sextByte z.width ib)) s

/-- DIV (R304). -/
def execDiv (w : Width) (rm : RM) (s : State) : Host.Outcome State Fault Refusal :=
  run (do
    let d ← readRM w rm
    let s ← get
    finishDivide w (divide w (s.dividend w) d.toNat)) s

/-- IDIV (R305). -/
def execIdiv (w : Width) (rm : RM) (s : State) : Host.Outcome State Fault Refusal :=
  run (do
    let d ← readRM w rm
    let s ← get
    finishDivide w (divideSigned w (signedDividend w (s.dividend w)) (sint w d))) s

/-- The byte or word half of the accumulator that CBW and CWDE extend. -/
def extendedAcc (s : State) : Size → Word
  | .s16 => sextByte .w16 ((s.reg .w8 .eax).setWidth 8)
  | .s32 => sext32 .w16 (s.reg .w16 .eax)

/-- CBW and CWDE (R306). -/
def execCbw (z : Size) (s : State) : Host.Outcome State Fault Refusal :=
  run (do
    writeReg z.width .eax (extendedAcc s z)
    advance) s

/-- CWD and CDQ (R307). -/
def execCwd (z : Size) (s : State) : Host.Outcome State Fault Refusal :=
  run (do
    writeReg z.width .edx (if msb z.width (s.reg z.width .eax) then mask z.width else 0)
    advance) s

end Sys2Proof.Machine
end

