-- ==== Sys2Proof/Machine/Shift.lean ====
section
/-! DEFINITION. The meanings of ROL, ROR, RCL, RCR, SHL (SAL), SHR and SAR (43_shift_rotate.md). -/

namespace Sys2Proof.Machine

/-- A rotate writes CF and OF only (R320). -/
def rotateFlags (o : ShiftOut) : Op Word := do
  putFlagOp .cf o.cf
  putFlagOp .of o.of
  pure o.r

/-- A shift writes CF, OF, SF, ZF and PF and leaves AF a draw (R320). -/
def shiftFlags (w : Width) (o : ShiftOut) : Op Word := do
  let af ← drawBit
  putStatusOp (.ofResult w o.r (cf := o.cf) (af := af) (of := o.of))
  pure o.r

/-- A shift or rotate of an operand by a raw count: nothing when the effective count is 0 (R320). A memory operand is
then checked for write and read all the same, and that check is a read of it: assumption log 25. -/
def shiftStore (w : Width) (rm : RM) (c : Count) (f : Nat → Word → Op Word) : Op Unit := do
  let s ← get
  let cnt := s.count c
  let _ ← modifyRM w rm fun a =>
    if cnt = 0 then pure none else storing (f cnt) a
  advance

/-- ROL (R321). -/
def execRol (w : Width) (rm : RM) (c : Count) (s : State) : Host.Outcome State Fault Refusal :=
  run (shiftStore w rm c fun cnt a => do
    let d ← drawBit
    rotateFlags (rolOut w a cnt d)) s

/-- ROR (R322). -/
def execRor (w : Width) (rm : RM) (c : Count) (s : State) : Host.Outcome State Fault Refusal :=
  run (shiftStore w rm c fun cnt a => do
    let d ← drawBit
    rotateFlags (rorOut w a cnt d)) s

/-- RCL (R323). -/
def execRcl (w : Width) (rm : RM) (c : Count) (s : State) : Host.Outcome State Fault Refusal :=
  run (shiftStore w rm c fun cnt a => do
    let d ← drawBit
    let s ← get
    rotateFlags (rclOut w a (s.flag .cf) cnt d)) s

/-- RCR (R324). -/
def execRcr (w : Width) (rm : RM) (c : Count) (s : State) : Host.Outcome State Fault Refusal :=
  run (shiftStore w rm c fun cnt a => do
    let d ← drawBit
    let s ← get
    rotateFlags (rcrOut w a (s.flag .cf) cnt d)) s

/-- The operation of SHL and SAL (R325). -/
def shlOp (w : Width) (cnt : Nat) (a : Word) : Op Word := do
  let c ← drawBit
  let o ← drawBit
  shiftFlags w (shlOut w a cnt c o)

/-- SHL, group 2 `/4` (R325). -/
def execShl (w : Width) (rm : RM) (c : Count) (s : State) : Host.Outcome State Fault Refusal :=
  run (shiftStore w rm c (shlOp w)) s

/-- SAL, group 2 `/6`: it executes as SHL (R181, R325). -/
def execSal (w : Width) (rm : RM) (c : Count) (s : State) : Host.Outcome State Fault Refusal :=
  run (shiftStore w rm c (shlOp w)) s

/-- SHR (R326). -/
def execShr (w : Width) (rm : RM) (c : Count) (s : State) : Host.Outcome State Fault Refusal :=
  run (shiftStore w rm c fun cnt a => do
    let c ← drawBit
    let o ← drawBit
    shiftFlags w (shrOut w a cnt c o)) s

/-- SAR (R327). -/
def execSar (w : Width) (rm : RM) (c : Count) (s : State) : Host.Outcome State Fault Refusal :=
  run (shiftStore w rm c fun cnt a => do
    let o ← drawBit
    shiftFlags w (sarOut w a cnt o)) s

end Sys2Proof.Machine
end

