-- ==== Sys2Proof/Machine/Strings.lean ====
section
/-! DEFINITION. The meanings of MOVS, CMPS, STOS, LODS and SCAS with their repeat prefixes (44_string.md). -/

namespace Sys2Proof.Machine

/-- An index or count register of `asz` bits, zero-extended (R340). -/
def State.idx (s : State) (asz : Size) (r : Reg) : Word := s.reg asz.width r

/-- `delta`: the element width, negative when DF is 1 (R340). -/
def State.delta (s : State) (w : Width) : Word :=
  if s.flag .df then -(BitVec.ofNat 32 w.bytes) else BitVec.ofNat 32 w.bytes

/-- Move an index register by one element, wrapping at `asz` bits (R340). -/
def State.moveIndex (s : State) (asz : Size) (w : Width) (r : Reg) : State :=
  s.setReg asz.width r (trunc asz.width (s.idx asz r + s.delta w))

/-- The same as an operation. -/
def moveIndex (asz : Size) (w : Width) (r : Reg) : Op Unit := modify (·.moveIndex asz w r)

/-- The source element at `seg:[SI]` (R340). -/
def sourceElement (asz : Size) (w : Width) (sg : Seg) : Op Word := do
  let s ← get
  segRead sg (s.idx asz .esi) w

/-- The destination element at `ES:[DI]` (R340). -/
def destElement (asz : Size) (w : Width) : Op Word := do
  let s ← get
  segRead .es (s.idx asz .edi) w

/-- Store to `ES:[DI]` (R340). -/
def storeElement (asz : Size) (w : Width) (v : Word) : Op Unit := do
  let s ← get
  segWrite .es (s.idx asz .edi) w v

/-- One element of MOVS (R342). -/
def movsBody (w : Width) (asz : Size) (sg : Seg) : Op Unit := do
  let v ← sourceElement asz w sg
  storeElement asz w v
  moveIndex asz w .esi
  moveIndex asz w .edi

/-- One element of CMPS (R343). -/
def cmpsBody (w : Width) (asz : Size) (sg : Seg) : Op Unit := do
  let a ← sourceElement asz w sg
  let b ← destElement asz w
  putStatusOp (subStatus w a b false)
  moveIndex asz w .esi
  moveIndex asz w .edi

/-- One element of STOS (R344). -/
def stosBody (w : Width) (asz : Size) : Op Unit := do
  let v ← readReg w .eax
  storeElement asz w v
  moveIndex asz w .edi

/-- One element of LODS (R345). -/
def lodsBody (w : Width) (asz : Size) (sg : Seg) : Op Unit := do
  let v ← sourceElement asz w sg
  writeReg w .eax v
  moveIndex asz w .esi

/-- One element of SCAS (R346). -/
def scasBody (w : Width) (asz : Size) : Op Unit := do
  let b ← destElement asz w
  let s ← get
  putStatusOp (subStatus w (s.reg w .eax) b false)
  moveIndex asz w .edi

/-! ### The repeat prefixes (R341) -/

/-- The count register less one, wrapping at `asz` bits (R341). -/
def State.decCount (s : State) (asz : Size) : State :=
  s.setReg asz.width .ecx (trunc asz.width (s.idx asz .ecx - 1))

/-- An external interrupt is pending and enabled (R520, R542). -/
def State.interruptDue (s : State) : Bool := !s.pending.isEmpty && s.flag .if_

/-- The repeated instruction is left with EIP still at it (R341). -/
def State.resumeHere (s : State) : State := (s.setEip s.startEip).endBlock

/-- The test of ZF that ends a repetition: REPE on not-equal, REPNE on equal (R341). -/
def repStops (rep : Rep) (usesZF : Bool) (s : State) : Bool :=
  match rep with
  | .none => false
  | .repe => usesZF && !s.flag .zf
  | .repne => usesZF && s.flag .zf

/-- The block goes on after an element where it was running before it, in `s0`, and the element wrote nothing into
it (R134). -/
def State.stillIn (s s0 : State) : State := { s with inBlock := s0.inBlock && s.inBlock }

/-- `RepLoop` (R341): `n` is the number of elements left, from the state `s` at the start of an iteration. A
fault in the body undoes that iteration only. The body runs with the block marked as running, so that the mark is
gone where the body wrote into the block. -/
def repLoop (rep : Rep) (usesZF : Bool) (asz : Size) (body : Op Unit) :
    Nat → State → Host.Outcome State Fault Refusal
  | 0, s => .next s.advance
  | n + 1, s =>
    match body.run { s with inBlock := true } with
    | .ok _ s1 =>
      let s2 := (s1.decCount asz).stillIn s
      if repStops rep usesZF s2 then .next s2.advance
      else if s2.idx asz .ecx = 0 then .next s2.advance
      else if s2.interruptDue then .next s2.resumeHere
      else if !s1.inBlock then .next s2.resumeHere
      else repLoop rep usesZF asz body n s2
    | .error e s1 => settle s (.error e s1)

/-- A string instruction: its body once, or repeated (R341). -/
def stringRun (rep : Rep) (usesZF : Bool) (asz : Size) (body : Op Unit) (s : State) :
    Host.Outcome State Fault Refusal :=
  match rep with
  | .none =>
    run (do
      body
      advance) s
  | .repe => repLoop .repe usesZF asz body (s.idx asz .ecx).toNat s
  | .repne => repLoop .repne usesZF asz body (s.idx asz .ecx).toNat s

/-! ### The meanings -/

/-- MOVSB (R342). -/
def execMovsb (rep : Rep) (asz : Size) (sg : Seg) (s : State) : Host.Outcome State Fault Refusal :=
  stringRun rep false asz (movsBody .w8 asz sg) s

/-- MOVSW and MOVSD (R342). -/
def execMovsw (z : Size) (rep : Rep) (asz : Size) (sg : Seg) (s : State) : Host.Outcome State Fault Refusal :=
  stringRun rep false asz (movsBody z.width asz sg) s

/-- CMPSB (R343). -/
def execCmpsb (rep : Rep) (asz : Size) (sg : Seg) (s : State) : Host.Outcome State Fault Refusal :=
  stringRun rep true asz (cmpsBody .w8 asz sg) s

/-- CMPSW and CMPSD (R343). -/
def execCmpsw (z : Size) (rep : Rep) (asz : Size) (sg : Seg) (s : State) : Host.Outcome State Fault Refusal :=
  stringRun rep true asz (cmpsBody z.width asz sg) s

/-- STOSB (R344). -/
def execStosb (rep : Rep) (asz : Size) (s : State) : Host.Outcome State Fault Refusal :=
  stringRun rep false asz (stosBody .w8 asz) s

/-- STOSW and STOSD (R344). -/
def execStosw (z : Size) (rep : Rep) (asz : Size) (s : State) : Host.Outcome State Fault Refusal :=
  stringRun rep false asz (stosBody z.width asz) s

/-- LODSB (R345). -/
def execLodsb (rep : Rep) (asz : Size) (sg : Seg) (s : State) : Host.Outcome State Fault Refusal :=
  stringRun rep false asz (lodsBody .w8 asz sg) s

/-- LODSW and LODSD (R345). -/
def execLodsw (z : Size) (rep : Rep) (asz : Size) (sg : Seg) (s : State) : Host.Outcome State Fault Refusal :=
  stringRun rep false asz (lodsBody z.width asz sg) s

/-- SCASB (R346). -/
def execScasb (rep : Rep) (asz : Size) (s : State) : Host.Outcome State Fault Refusal :=
  stringRun rep true asz (scasBody .w8 asz) s

/-- SCASW and SCASD (R346). -/
def execScasw (z : Size) (rep : Rep) (asz : Size) (s : State) : Host.Outcome State Fault Refusal :=
  stringRun rep true asz (scasBody z.width asz) s

end Sys2Proof.Machine
end

