-- ==== Sys2Proof/Machine/System.lean ====
section
/-! DEFINITION. The meanings of HLT, NOP, LGDT, LIDT, SGDT, SIDT, LLDT, SLDT, LTR, STR, MOV to and from control
registers, INVLPG and ARPL (47_system.md), and of the undefined group slots (R180). -/

namespace Sys2Proof.Machine

/-- HLT (R430). -/
def execHlt (s : State) : Host.Outcome State Fault Refusal :=
  run (do
    requirePrivilege
    modify fun s => { s with halted := true }
    advance
    endBlock) s

/-- NOP (R431). -/
def execNop (s : State) : Host.Outcome State Fault Refusal := run advance s

/-! ### Descriptor-table registers (R432 to R435) -/

/-- Read six bytes: the limit, then the base, of which 24 bits count with `osz` 16 (R432). -/
def readTableReg (z : Size) (m : MemRef) : Op TableReg := do
  let s ← get
  let lim ← segRead m.seg (s.off m) .w16
  let base ← segRead m.seg (addAsz m.addr (s.off m) 2) .w32
  pure { base := if z = .s16 then base &&& 0x00FFFFFF else base, limit := lim.setWidth 16 }

/-- The base SGDT and SIDT store: with `osz` 16 its top byte is a draw (R434, U9). -/
def storedBase (z : Size) (base : Word) : Op Word :=
  match z with
  | .s32 => pure base
  | .s16 => do
    let k ← nextDraw
    pure (((Config.drawByte k).setWidth 32 <<< 24) ||| (base &&& 0x00FFFFFF))

/-- Store six bytes: the limit, then the base (R434). -/
def writeTableReg (z : Size) (m : MemRef) (t : TableReg) : Op Unit := do
  let s ← get
  segWrite m.seg (s.off m) .w16 (t.limit.setWidth 32)
  let b ← storedBase z t.base
  segWrite m.seg (addAsz m.addr (s.off m) 2) .w32 b

/-- LGDT (R432). -/
def execLgdt (z : Size) (rm : RM) (s : State) : Host.Outcome State Fault Refusal :=
  run (do
    let m ← memOperand rm
    requirePrivilege
    let t ← readTableReg z m
    modify fun s => { s with gdtr := t }
    advance) s

/-- LIDT (R433). -/
def execLidt (z : Size) (rm : RM) (s : State) : Host.Outcome State Fault Refusal :=
  run (do
    let m ← memOperand rm
    requirePrivilege
    let t ← readTableReg z m
    modify fun s => { s with idtr := t }
    advance) s

/-- SGDT (R434). -/
def execSgdt (z : Size) (rm : RM) (s : State) : Host.Outcome State Fault Refusal :=
  run (do
    let m ← memOperand rm
    let s ← get
    writeTableReg z m s.gdtr
    advance) s

/-- SIDT (R435). -/
def execSidt (z : Size) (rm : RM) (s : State) : Host.Outcome State Fault Refusal :=
  run (do
    let m ← memOperand rm
    let s ← get
    writeTableReg z m s.idtr
    advance) s

/-! ### LDTR and TR (R436 to R439) -/

/-- `#UD` outside protected mode (R180). -/
def requireProtected : Op Unit := do
  let s ← get
  requireUD s.protMode

/-- `#GP(0)` unless CPL is 0 (R436, R438). -/
def requireCpl0 : Op Unit := do
  let s ← get
  require (s.cpl = 0) .gp 0

/-- LLDT of a selector that is not null (R436). -/
def loadLdtr (sel : Half) : Op Unit := do
  require (!selTI sel) .gp (selCode sel)
  let (d, _) ← fetchDescOr sel .gp (selCode sel)
  require (d.cls = .ldt) .gp (selCode sel)
  require d.p .np (selCode sel)
  modify fun s => { s with ldtr := { selector := sel, base := d.base, limit := d.limit, valid := true } }

/-- LLDT (R436). -/
def execLldt (rm : RM) (s : State) : Host.Outcome State Fault Refusal :=
  run (do
    requireProtected
    requireCpl0
    let v ← readRM .w16 rm
    if nullSel (v.setWidth 16) then
      modify fun s => { s with ldtr := { s.ldtr with selector := v.setWidth 16, valid := false } }
    else loadLdtr (v.setWidth 16)
    advance) s

/-- SLDT (R437). -/
def execSldt (z : Size) (rm : RM) (s : State) : Host.Outcome State Fault Refusal :=
  run (do
    requireProtected
    let s ← get
    storeSelector z rm s.ldtr.selector
    advance) s

/-- The task register takes a descriptor and the task is marked busy (R438). -/
def loadTr (sel : Half) : Op Unit := do
  require (!nullSel sel) .gp 0
  require (!selTI sel) .gp (selCode sel)
  let (d, a) ← fetchDescOr sel .gp (selCode sel)
  require d.availTss .gp (selCode sel)
  require d.p .np (selCode sel)
  putBusyBit a true
  modify fun s =>
    { s with tr := { selector := sel, base := d.base, limit := d.limit, busy := true,
                     type32 := d.cls = .tss32Avail } }

/-- LTR (R438). -/
def execLtr (rm : RM) (s : State) : Host.Outcome State Fault Refusal :=
  run (do
    requireProtected
    requireCpl0
    let v ← readRM .w16 rm
    loadTr (v.setWidth 16)
    advance) s

/-- STR (R439). -/
def execStr (z : Size) (rm : RM) (s : State) : Host.Outcome State Fault Refusal :=
  run (do
    requireProtected
    let s ← get
    storeSelector z rm s.tr.selector
    advance) s

/-! ### Control registers (R444, R445) -/

/-- The control registers there are (R41). -/
inductive CtrlReg
  | cr0
  | cr2
  | cr3
deriving DecidableEq, Repr

/-- The control register with a number; the others are none (R41, R169). -/
def ctrlOfNum (n : BitVec 3) : Option CtrlReg :=
  match n.toNat with
  | 0 => some .cr0
  | 2 => some .cr2
  | 3 => some .cr3
  | _ => none

/-- Read a control register. -/
def State.ctrl (s : State) : CtrlReg → Word
  | .cr0 => s.cr0
  | .cr2 => s.cr2
  | .cr3 => s.cr3

/-- Write CR0: the TLB is emptied when PG changes (R122, R444). -/
def State.writeCr0 (s : State) (v : Word) : State :=
  { s with cr0 := v, tlb := if v.getLsbD 31 = s.pg then s.tlb else [] }

/-- Write CR3: the TLB is emptied (R40, R122). -/
def State.writeCr3 (s : State) (v : Word) : State := { s with cr3 := v, tlb := [] }

/-- Write a control register (R444). -/
def writeCtrl (v : Word) : CtrlReg → Op Unit
  | .cr0 => do
    require (!v.getLsbD 31 || v.getLsbD 0) .gp 0
    modify (·.writeCr0 v)
  | .cr2 => modify fun s => { s with cr2 := v }
  | .cr3 => modify (·.writeCr3 v)

/-- MOV CRn,r32 (R444). -/
def execMovToCr (cr : BitVec 3) (r : Reg) (s : State) : Host.Outcome State Fault Refusal :=
  run (do
    match ctrlOfNum cr with
    | none => raiseUD
    | some c => do
      requirePrivilege
      let v ← readReg .w32 r
      writeCtrl v c
      drawStatus
      advance
      endBlock) s

/-- MOV r32,CRn (R445). -/
def execMovFromCr (r : Reg) (cr : BitVec 3) (s : State) : Host.Outcome State Fault Refusal :=
  run (do
    match ctrlOfNum cr with
    | none => raiseUD
    | some c => do
      requirePrivilege
      let s ← get
      writeReg .w32 r (s.ctrl c)
      drawStatus
      advance) s

/-- INVLPG (R448). -/
def execInvlpg (rm : RM) (s : State) : Host.Outcome State Fault Refusal :=
  run (do
    let m ← memOperand rm
    requirePrivilege
    modify fun s => s.flushPage (s.linear m.seg (s.off m))
    advance
    endBlock) s

/-! ### ARPL and the undefined slots -/

/-- The RPL of one selector raised to another's, if it is lower (R446). -/
def adjustRpl (t s : Half) : Option Half :=
  if (rpl t).toNat < (rpl s).toNat then some ((t &&& 0xFFFC) ||| (rpl s).setWidth 16) else none

/-- ARPL (R446). -/
def execArpl (rm : RM) (r : Reg) (s : State) : Host.Outcome State Fault Refusal :=
  run (do
    requireProtected
    let src ← readReg .w16 r
    let _ ← modifyRM .w16 rm fun t => do
      let adj := adjustRpl (t.setWidth 16) (src.setWidth 16)
      putFlagOp .zf adj.isSome
      pure (adj.map (·.setWidth 32))
    advance) s

/-- An undefined group slot raises `#UD` before any operand is read (R180). -/
def execUd (_op : UdOp) (_ext : BitVec 3) (_rm : RM) (s : State) : Host.Outcome State Fault Refusal :=
  run raiseUD s

end Sys2Proof.Machine
end

