-- ==== Sys2Proof/Machine/Transfer.lean ====
section
/-! DEFINITION. The meanings of MOV, MOVZX, MOVSX, LEA, XCHG, PUSH, POP, IN and OUT (40_data_transfer.md), and
the port contract (R82 to R84). -/

namespace Sys2Proof.Machine

/-! ### MOV (R201 to R203) -/

/-- MOV Eb,Gb and Ev,Gv (R201). -/
def execMovRmReg (w : Width) (rm : RM) (r : Reg) (s : State) : Host.Outcome State Fault Refusal :=
  run (do
    let v ← readReg w r
    writeRM w rm v
    advance) s

/-- MOV Gb,Eb and Gv,Ev (R201). -/
def execMovRegRm (w : Width) (r : Reg) (rm : RM) (s : State) : Host.Outcome State Fault Refusal :=
  run (do
    let v ← readRM w rm
    writeReg w r v
    advance) s

/-- MOV AL,Ob and eAX,Ov (R201). -/
def execMovAccMoffs (w : Width) (m : Moffs) (s : State) : Host.Outcome State Fault Refusal :=
  run (do
    let v ← segRead m.seg m.off w
    writeReg w .eax v
    advance) s

/-- MOV Ob,AL and Ov,eAX (R201). -/
def execMovMoffsAcc (w : Width) (m : Moffs) (s : State) : Host.Outcome State Fault Refusal :=
  run (do
    let v ← readReg w .eax
    segWrite m.seg m.off w v
    advance) s

/-- MOV r8,Ib and r16/r32,Iv (R201). -/
def execMovRegImm (w : Width) (r : Reg) (imm : Word) (s : State) : Host.Outcome State Fault Refusal :=
  run (do
    writeReg w r imm
    advance) s

/-- MOV Eb,Ib and Ev,Iv (R201). -/
def execMovRmImm (w : Width) (rm : RM) (imm : Word) (s : State) : Host.Outcome State Fault Refusal :=
  run (do
    writeRM w rm imm
    advance) s

/-- The segment register with a number; 6 and 7 are none (R169). -/
def segOfNum (n : BitVec 3) : Option Seg :=
  match n.toNat with
  | 0 => some .es
  | 1 => some .cs
  | 2 => some .ss
  | 3 => some .ds
  | 4 => some .fs
  | 5 => some .gs
  | _ => none

/-- MOV Ew,Sw (R202). -/
def execMovRmSeg (z : Size) (rm : RM) (sreg : BitVec 3) (s : State) : Host.Outcome State Fault Refusal :=
  run (do
    match segOfNum sreg with
    | none => raiseUD
    | some i => do
      let s ← get
      storeSelector z rm (s.seg i).selector
      advance) s

/-- MOV Sw,Ew (R203): CS and the numbers 6 and 7 are `#UD`. -/
def execMovSegRm (sreg : BitVec 3) (rm : RM) (s : State) : Host.Outcome State Fault Refusal :=
  run (do
    match segOfNum sreg with
    | none => raiseUD
    | some .cs => raiseUD
    | some i => do
      let v ← readRM .w16 rm
      loadSeg i (v.setWidth 16)
      advance) s

/-! ### MOVZX, MOVSX, LEA, XCHG (R204 to R207) -/

/-- MOVZX Gv,Eb (R204). -/
def execMovzxByte (z : Size) (r : Reg) (rm : RM) (s : State) : Host.Outcome State Fault Refusal :=
  run (do
    let v ← readRM .w8 rm
    writeReg z.width r v
    advance) s

/-- MOVZX Gv,Ew (R204). -/
def execMovzxWord (z : Size) (r : Reg) (rm : RM) (s : State) : Host.Outcome State Fault Refusal :=
  run (do
    let v ← readRM .w16 rm
    writeReg z.width r v
    advance) s

/-- MOVSX Gv,Eb (R205). -/
def execMovsxByte (z : Size) (r : Reg) (rm : RM) (s : State) : Host.Outcome State Fault Refusal :=
  run (do
    let v ← readRM .w8 rm
    writeReg z.width r (trunc z.width (sext32 .w8 v))
    advance) s

/-- MOVSX Gv,Ew (R205). -/
def execMovsxWord (z : Size) (r : Reg) (rm : RM) (s : State) : Host.Outcome State Fault Refusal :=
  run (do
    let v ← readRM .w16 rm
    writeReg z.width r (trunc z.width (sext32 .w16 v))
    advance) s

/-- LEA (R206). -/
def execLea (z : Size) (r : Reg) (rm : RM) (s : State) : Host.Outcome State Fault Refusal :=
  run (do
    let m ← memOperand rm
    let s ← get
    writeReg z.width r (trunc z.width (s.off m))
    advance) s

/-- XCHG Eb,Gb and Ev,Gv (R207). -/
def execXchg (w : Width) (rm : RM) (r : Reg) (s : State) : Host.Outcome State Fault Refusal :=
  run (do
    let b ← readReg w r
    let a ← modifyRM w rm fun _ => pure (some b)
    writeReg w r a
    advance) s

/-- XCHG eAX,r (R207). -/
def execXchgAcc (z : Size) (r : Reg) (s : State) : Host.Outcome State Fault Refusal :=
  run (do
    let a ← readReg z.width .eax
    let b ← readReg z.width r
    writeReg z.width .eax b
    writeReg z.width r a
    advance) s

/-! ### The stack (R221 to R224) -/

/-- PUSH r16/r32: the value before the decrement (R221). -/
def execPushReg (z : Size) (r : Reg) (s : State) : Host.Outcome State Fault Refusal :=
  run (do
    let v ← readReg z.width r
    push z v
    advance) s

/-- PUSH Iv (R221). -/
def execPushImm (z : Size) (imm : Word) (s : State) : Host.Outcome State Fault Refusal :=
  run (do
    push z imm
    advance) s

/-- PUSH Ib, sign-extended (R221). -/
def execPushImm8 (z : Size) (ib : Byte) (s : State) : Host.Outcome State Fault Refusal :=
  run (do
    push z (sextByte z.width ib)
    advance) s

/-- PUSH Ev (R221). -/
def execPushRm (z : Size) (rm : RM) (s : State) : Host.Outcome State Fault Refusal :=
  run (do
    let v ← readRM z.width rm
    push z v
    advance) s

/-- POP r16/r32 (R222). -/
def execPopReg (z : Size) (r : Reg) (s : State) : Host.Outcome State Fault Refusal :=
  run (do
    let v ← pop z
    writeReg z.width r v
    advance) s

/-- POP Ev: the address is computed after the stack pointer moved (R222). -/
def execPopRm (z : Size) (rm : RM) (s : State) : Host.Outcome State Fault Refusal :=
  run (do
    let v ← pop z
    writeRM z.width rm v
    advance) s

/-- PUSH of a segment register (R223). -/
def execPushSeg (z : Size) (i : Seg) (s : State) : Host.Outcome State Fault Refusal :=
  run (do
    let s ← get
    pushSel z (s.seg i).selector
    advance) s

/-- POP of a segment register (R224). -/
def execPopSeg (z : Size) (i : Seg) (s : State) : Host.Outcome State Fault Refusal :=
  run (do
    let v ← popSel z
    loadSeg i v
    advance) s

/-! ### Ports (R82 to R84, R232 to R235) -/

/-- A device has a port (R82 to R84). -/
def ioRegistered (map : List PortRange) (port : Half) : Bool :=
  map.any fun r => r.first ≤ port.toNat && port.toNat ≤ r.last

/-- The port must have a device, or the access is refused (R84). -/
def requirePort (port : Half) : Op Unit := do
  let s ← get
  if ioRegistered s.ioMap port then pure () else refuse (.unregisteredPort port)

/-- `IoRead8(port)`: the value is the device's (R82). -/
def ioRead8 (port : Half) : Op Byte := do
  requirePort port
  let k ← nextDraw
  modify (·.deviceCall (.readIo port))
  pure (Config.portByte k port)

/-- `IoWrite8(port, v)`: the device is handed the value (R83). -/
def ioWrite8 (port : Half) (v : Byte) : Op Unit := do
  requirePort port
  modify (·.deviceCall (.writeIo port v))

/-- IN from a port (R232, R233). -/
def inPort (port : Half) : Op Unit := do
  ioPermitted port
  let v ← ioRead8 port
  writeReg .w8 .eax (v.setWidth 32)
  advance

/-- OUT to a port (R234, R235). -/
def outPort (port : Half) : Op Unit := do
  ioPermitted port
  let v ← readReg .w8 .eax
  ioWrite8 port (v.setWidth 8)
  advance

/-- The port in DX. -/
def dxPort : Op Half := do
  let v ← readReg .w16 .edx
  pure (v.setWidth 16)

/-- IN AL,Ib (R232). -/
def execInImm (ib : Byte) (s : State) : Host.Outcome State Fault Refusal := run (inPort (ib.setWidth 16)) s

/-- IN AL,DX (R233). -/
def execInDx (s : State) : Host.Outcome State Fault Refusal :=
  run (do
    let port ← dxPort
    inPort port) s

/-- OUT Ib,AL (R234). -/
def execOutImm (ib : Byte) (s : State) : Host.Outcome State Fault Refusal := run (outPort (ib.setWidth 16)) s

/-- OUT DX,AL (R235). -/
def execOutDx (s : State) : Host.Outcome State Fault Refusal :=
  run (do
    let port ← dxPort
    outPort port) s

end Sys2Proof.Machine
end

