-- ==== Sys2Proof/Machine/Dispatch.lean ====
section
/-! DEFINITION. One arm per constructor of Instr, each one direct call of its meaning. -/

namespace Sys2Proof.Machine

/-- What an instruction does to the state. -/
def exec (i : Instr) (s : State) : Host.Outcome State Fault Refusal :=
  match i with
  -- integer arithmetic and logic (41_alu.md)
  | .add f => Sys2Proof.Machine.execAdd f s
  | .or f => Sys2Proof.Machine.execOr f s
  | .adc f => Sys2Proof.Machine.execAdc f s
  | .sbb f => Sys2Proof.Machine.execSbb f s
  | .and f => Sys2Proof.Machine.execAnd f s
  | .sub f => Sys2Proof.Machine.execSub f s
  | .xor f => Sys2Proof.Machine.execXor f s
  | .cmp f => Sys2Proof.Machine.execCmp f s
  | .inc f => Sys2Proof.Machine.execInc f s
  | .dec f => Sys2Proof.Machine.execDec f s
  | .neg w rm => Sys2Proof.Machine.execNeg w rm s
  | .not w rm => Sys2Proof.Machine.execNot w rm s
  | .test f => Sys2Proof.Machine.execTest f s
  -- multiply, divide, sign extension (42_mul_div.md)
  | .mul w rm => Sys2Proof.Machine.execMul w rm s
  | .imul1 w rm => Sys2Proof.Machine.execImul1 w rm s
  | .imul2 z r rm => Sys2Proof.Machine.execImul2 z r rm s
  | .imul3 z r rm imm => Sys2Proof.Machine.execImul3 z r rm imm s
  | .imul3b z r rm ib => Sys2Proof.Machine.execImul3b z r rm ib s
  | .div w rm => Sys2Proof.Machine.execDiv w rm s
  | .idiv w rm => Sys2Proof.Machine.execIdiv w rm s
  | .cbw z => Sys2Proof.Machine.execCbw z s
  | .cwd z => Sys2Proof.Machine.execCwd z s
  -- shifts and rotates (43_shift_rotate.md); sal is group 2 /6
  | .rol w rm c => Sys2Proof.Machine.execRol w rm c s
  | .ror w rm c => Sys2Proof.Machine.execRor w rm c s
  | .rcl w rm c => Sys2Proof.Machine.execRcl w rm c s
  | .rcr w rm c => Sys2Proof.Machine.execRcr w rm c s
  | .shl w rm c => Sys2Proof.Machine.execShl w rm c s
  | .sal w rm c => Sys2Proof.Machine.execSal w rm c s
  | .shr w rm c => Sys2Proof.Machine.execShr w rm c s
  | .sar w rm c => Sys2Proof.Machine.execSar w rm c s
  -- data transfer (40_data_transfer.md)
  | .movRmReg w rm r => Sys2Proof.Machine.execMovRmReg w rm r s
  | .movRegRm w r rm => Sys2Proof.Machine.execMovRegRm w r rm s
  | .movAccMoffs w m => Sys2Proof.Machine.execMovAccMoffs w m s
  | .movMoffsAcc w m => Sys2Proof.Machine.execMovMoffsAcc w m s
  | .movRegImm w r imm => Sys2Proof.Machine.execMovRegImm w r imm s
  | .movRmImm w rm imm => Sys2Proof.Machine.execMovRmImm w rm imm s
  | .movRmSeg z rm sreg => Sys2Proof.Machine.execMovRmSeg z rm sreg s
  | .movSegRm sreg rm => Sys2Proof.Machine.execMovSegRm sreg rm s
  | .movzxByte z r rm => Sys2Proof.Machine.execMovzxByte z r rm s
  | .movzxWord z r rm => Sys2Proof.Machine.execMovzxWord z r rm s
  | .movsxByte z r rm => Sys2Proof.Machine.execMovsxByte z r rm s
  | .movsxWord z r rm => Sys2Proof.Machine.execMovsxWord z r rm s
  | .lea z r rm => Sys2Proof.Machine.execLea z r rm s
  | .xchg w rm r => Sys2Proof.Machine.execXchg w rm r s
  | .xchgAcc z r => Sys2Proof.Machine.execXchgAcc z r s
  | .pushReg z r => Sys2Proof.Machine.execPushReg z r s
  | .pushImm z imm => Sys2Proof.Machine.execPushImm z imm s
  | .pushImm8 z ib => Sys2Proof.Machine.execPushImm8 z ib s
  | .pushRm z rm => Sys2Proof.Machine.execPushRm z rm s
  | .popReg z r => Sys2Proof.Machine.execPopReg z r s
  | .popRm z rm => Sys2Proof.Machine.execPopRm z rm s
  | .pushSeg z sr => Sys2Proof.Machine.execPushSeg z sr s
  | .popSeg z sr => Sys2Proof.Machine.execPopSeg z sr s
  | .inImm ib => Sys2Proof.Machine.execInImm ib s
  | .inDx => Sys2Proof.Machine.execInDx s
  | .outImm ib => Sys2Proof.Machine.execOutImm ib s
  | .outDx => Sys2Proof.Machine.execOutDx s
  -- string instructions (44_string.md)
  | .movsb rep asz seg => Sys2Proof.Machine.execMovsb rep asz seg s
  | .movsw z rep asz seg => Sys2Proof.Machine.execMovsw z rep asz seg s
  | .cmpsb rep asz seg => Sys2Proof.Machine.execCmpsb rep asz seg s
  | .cmpsw z rep asz seg => Sys2Proof.Machine.execCmpsw z rep asz seg s
  | .stosb rep asz => Sys2Proof.Machine.execStosb rep asz s
  | .stosw z rep asz => Sys2Proof.Machine.execStosw z rep asz s
  | .lodsb rep asz seg => Sys2Proof.Machine.execLodsb rep asz seg s
  | .lodsw z rep asz seg => Sys2Proof.Machine.execLodsw z rep asz seg s
  | .scasb rep asz => Sys2Proof.Machine.execScasb rep asz s
  | .scasw z rep asz => Sys2Proof.Machine.execScasw z rep asz s
  -- control transfer (45_control_transfer.md)
  | .jmpShort z cb => Sys2Proof.Machine.execJmpShort z cb s
  | .jmpNear z cv => Sys2Proof.Machine.execJmpNear z cv s
  | .jmpRm z rm => Sys2Proof.Machine.execJmpRm z rm s
  | .jmpFarPtr z sel off => Sys2Proof.Machine.execJmpFarPtr z sel off s
  | .jmpFarMem z rm => Sys2Proof.Machine.execJmpFarMem z rm s
  | .jccShort z cc cb => Sys2Proof.Machine.execJccShort z cc cb s
  | .jccNear z cc cv => Sys2Proof.Machine.execJccNear z cc cv s
  | .jcxz z asz cb => Sys2Proof.Machine.execJcxz z asz cb s
  | .loop z asz cb => Sys2Proof.Machine.execLoop z asz cb s
  | .loope z asz cb => Sys2Proof.Machine.execLoope z asz cb s
  | .loopne z asz cb => Sys2Proof.Machine.execLoopne z asz cb s
  | .callNear z cv => Sys2Proof.Machine.execCallNear z cv s
  | .callRm z rm => Sys2Proof.Machine.execCallRm z rm s
  | .callFarPtr z sel off => Sys2Proof.Machine.execCallFarPtr z sel off s
  | .callFarMem z rm => Sys2Proof.Machine.execCallFarMem z rm s
  | .ret z => Sys2Proof.Machine.execRet z s
  | .retImm z iw => Sys2Proof.Machine.execRetImm z iw s
  | .retf z => Sys2Proof.Machine.execRetf z s
  | .retfImm z iw => Sys2Proof.Machine.execRetfImm z iw s
  | .int3 => Sys2Proof.Machine.execInt3 s
  | .int ib => Sys2Proof.Machine.execInt ib s
  | .into => Sys2Proof.Machine.execInto s
  | .iret z => Sys2Proof.Machine.execIret z s
  -- flag control (46_flag_control.md)
  | .clc => Sys2Proof.Machine.execClc s
  | .stc => Sys2Proof.Machine.execStc s
  | .cmc => Sys2Proof.Machine.execCmc s
  | .cld => Sys2Proof.Machine.execCld s
  | .std => Sys2Proof.Machine.execStd s
  | .cli => Sys2Proof.Machine.execCli s
  | .sti => Sys2Proof.Machine.execSti s
  | .lahf => Sys2Proof.Machine.execLahf s
  | .sahf => Sys2Proof.Machine.execSahf s
  | .pushf z => Sys2Proof.Machine.execPushf z s
  | .popf z => Sys2Proof.Machine.execPopf z s
  -- system (47_system.md)
  | .hlt => Sys2Proof.Machine.execHlt s
  | .nop => Sys2Proof.Machine.execNop s
  | .lgdt z rm => Sys2Proof.Machine.execLgdt z rm s
  | .lidt z rm => Sys2Proof.Machine.execLidt z rm s
  | .sgdt z rm => Sys2Proof.Machine.execSgdt z rm s
  | .sidt z rm => Sys2Proof.Machine.execSidt z rm s
  | .lldt rm => Sys2Proof.Machine.execLldt rm s
  | .sldt z rm => Sys2Proof.Machine.execSldt z rm s
  | .ltr rm => Sys2Proof.Machine.execLtr rm s
  | .str z rm => Sys2Proof.Machine.execStr z rm s
  | .movToCr cr r => Sys2Proof.Machine.execMovToCr cr r s
  | .movFromCr r cr => Sys2Proof.Machine.execMovFromCr r cr s
  | .invlpg rm => Sys2Proof.Machine.execInvlpg rm s
  | .arpl rm r => Sys2Proof.Machine.execArpl rm r s
  -- the undefined group slots (R180)
  | .ud op ext rm => Sys2Proof.Machine.execUd op ext rm s

end Sys2Proof.Machine
end

