-- ==== Sys2Proof/Machine/Fetch.lean ====
section
/-! DEFINITION. Instruction fetch (R130, R506), the running block (R131 to R134), the parts of the main step
(R520) and the platform's turn at its end (R545 to R547). Machine/Step.lean puts them together. -/

namespace Sys2Proof.Machine

/-! ### Fetch -/

/-- The default operand and address size (R162). -/
def State.codeSize (s : State) : Size := if s.segs.cs.size32 then .s32 else .s16

/-- An offset in the code segment, `k` bytes after another: 16 bits wide in a 16-bit segment (R24, R130). -/
def State.codeAdd (s : State) (off : Word) (k : Nat) : Word := trunc s.codeSize.width (off + BitVec.ofNat 32 k)

/-- The offset is inside the code segment's limits (R130). -/
def State.codeInLimit (s : State) (off : Word) : Bool := s.segs.cs.inLimit off 1

/-- A byte fetched from an address puts its paragraph into the running block (R133). -/
def State.notePara (s : State) (p : Word) : State :=
  if s.blockParas.contains (paragraph p.toNat) then s
  else { s with blockParas := paragraph p.toNat :: s.blockParas }

/-- `FetchByte(k)`; a 16th byte is `#GP(0)` (R130). -/
def fetchByte (k : Nat) : Op Byte := do
  if maxInsnLen ≤ k then raiseGP0
  else do
    let s ← get
    let off := s.codeAdd s.startEip k
    require (s.codeInLimit off) .gp 0
    let p ← translate (s.linear .cs off) false s.user
    modify (·.notePara p)
    let v ← memRead p .w8
    pure (v.setWidth 8)

/-- Fetch `n` bytes, from byte `k` of the instruction on (R130). -/
def fetchBytes : Nat → Nat → Op (List Byte)
  | 0, _ => pure []
  | n + 1, k => do
    let b ← fetchByte k
    let bs ← fetchBytes n (k + 1)
    pure (b :: bs)

/-- Read a decoder from memory: the value and the number of bytes read. A decoder that admits no row is refused
with the bytes it has read (R1, R183). -/
def runFetch {α : Type} : Dec α → Nat → List Byte → Op (α × Nat)
  | .ret a, k, _ => pure (a, k)
  | .unadmitted, _, bs => refuse (.unadmitted bs)
  | .byte f, k, bs => do
    let b ← fetchByte k
    runFetch (f b) (k + 1) (bs ++ [b])

/-- `nextEIP`: the byte after an instruction of a length (R24). -/
def State.setNextEip (s : State) (len : Nat) : State := { s with nextEip := s.codeAdd s.startEip len }

/-- Fetch and decode one instruction; `nextEIP` is the byte after it (R24, R130). -/
def fetchInstr : Op Instr := do
  let s ← get
  let (i, len) ← runFetch (decInstr s.codeSize) 0 []
  modify (·.setNextEip len)
  pure i

/-! ### Blocks and cycles -/

/-- Change the state of a next outcome. -/
def onNext (f : State → State) : Host.Outcome State Fault Refusal → Host.Outcome State Fault Refusal
  | .next s => .next (f s)
  | .fault r => .fault r
  | .refused r => .refused r

/-- Charge cycles to the current step (R47). -/
def State.charge (s : State) (n : Nat) : State := { s with cycles := s.cycles + n }

/-- A step begins: no cycles, no running block (R520). -/
def State.beginStep (s : State) : State := { s with cycles := 0, blockParas := [] }

/-- An instruction ends its block whatever the partition is: the transfers of 45_control_transfer.md, taken or not,
HLT, MOV to a control register, INVLPG (R132, R444), and the undefined slots, which fault (R180). -/
def Instr.endsBlock : Instr → Bool
  | .add _ => false
  | .or _ => false
  | .adc _ => false
  | .sbb _ => false
  | .and _ => false
  | .sub _ => false
  | .xor _ => false
  | .cmp _ => false
  | .inc _ => false
  | .dec _ => false
  | .neg _ _ => false
  | .not _ _ => false
  | .test _ => false
  | .mul _ _ => false
  | .imul1 _ _ => false
  | .imul2 _ _ _ => false
  | .imul3 _ _ _ _ => false
  | .imul3b _ _ _ _ => false
  | .div _ _ => false
  | .idiv _ _ => false
  | .cbw _ => false
  | .cwd _ => false
  | .rol _ _ _ => false
  | .ror _ _ _ => false
  | .rcl _ _ _ => false
  | .rcr _ _ _ => false
  | .shl _ _ _ => false
  | .sal _ _ _ => false
  | .shr _ _ _ => false
  | .sar _ _ _ => false
  | .movRmReg _ _ _ => false
  | .movRegRm _ _ _ => false
  | .movAccMoffs _ _ => false
  | .movMoffsAcc _ _ => false
  | .movRegImm _ _ _ => false
  | .movRmImm _ _ _ => false
  | .movRmSeg _ _ _ => false
  | .movSegRm _ _ => false
  | .movzxByte _ _ _ => false
  | .movzxWord _ _ _ => false
  | .movsxByte _ _ _ => false
  | .movsxWord _ _ _ => false
  | .lea _ _ _ => false
  | .xchg _ _ _ => false
  | .xchgAcc _ _ => false
  | .pushReg _ _ => false
  | .pushImm _ _ => false
  | .pushImm8 _ _ => false
  | .pushRm _ _ => false
  | .popReg _ _ => false
  | .popRm _ _ => false
  | .pushSeg _ _ => false
  | .popSeg _ _ => false
  | .inImm _ => false
  | .inDx => false
  | .outImm _ => false
  | .outDx => false
  | .movsb _ _ _ => false
  | .movsw _ _ _ _ => false
  | .cmpsb _ _ _ => false
  | .cmpsw _ _ _ _ => false
  | .stosb _ _ => false
  | .stosw _ _ _ => false
  | .lodsb _ _ _ => false
  | .lodsw _ _ _ _ => false
  | .scasb _ _ => false
  | .scasw _ _ _ => false
  | .jmpShort _ _ => true
  | .jmpNear _ _ => true
  | .jmpRm _ _ => true
  | .jmpFarPtr _ _ _ => true
  | .jmpFarMem _ _ => true
  | .jccShort _ _ _ => true
  | .jccNear _ _ _ => true
  | .jcxz _ _ _ => true
  | .loop _ _ _ => true
  | .loope _ _ _ => true
  | .loopne _ _ _ => true
  | .callNear _ _ => true
  | .callRm _ _ => true
  | .callFarPtr _ _ _ => true
  | .callFarMem _ _ => true
  | .ret _ => true
  | .retImm _ _ => true
  | .retf _ => true
  | .retfImm _ _ => true
  | .int3 => true
  | .int _ => true
  | .into => true
  | .iret _ => true
  | .clc => false
  | .stc => false
  | .cmc => false
  | .cld => false
  | .std => false
  | .cli => false
  | .sti => false
  | .lahf => false
  | .sahf => false
  | .pushf _ => false
  | .popf _ => false
  | .hlt => true
  | .nop => false
  | .lgdt _ _ => false
  | .lidt _ _ => false
  | .sgdt _ _ => false
  | .sidt _ _ => false
  | .lldt _ => false
  | .sldt _ _ => false
  | .ltr _ => false
  | .str _ _ => false
  | .movToCr _ _ => true
  | .movFromCr _ _ => false
  | .invlpg _ => true
  | .arpl _ _ => false
  | .ud _ _ _ => true

/-- Fetch the instruction at EIP to see where it lies: the paragraphs of the block up to its last byte, and, where it
can have one after it, the state that fetches the next. -/
def lookAhead (s : State) : List Nat × Option State :=
  match fetchInstr.run s.latch with
  | .ok i t => (t.blockParas, if Instr.endsBlock i then none else some { t with eip := t.nextEip })
  | .error _ t => (t.blockParas, none)

/-- The paragraphs of the block at EIP under a partition: its instructions as memory holds them now, up to the first
one that ends it or cannot be fetched (R131 to R133). Nothing else of the look-ahead is kept. Assumption log 18. -/
def blockAhead : List Bool → State → List Nat
  | [], s => (lookAhead s).1
  | last :: rest, s =>
    match lookAhead s with
    | (ps, none) => ps
    | (ps, some t) => if last then ps else blockAhead rest t

/-- A block begins: it runs, and its paragraphs are known (R131, R520). -/
def State.beginBlock (s : State) : State :=
  let t := s.beginStep
  { t with inBlock := true, blockParas := blockAhead t.blockPlan t }

/-- Where the instruction did not end its block, `BlockPartition` says whether the decoder did (R132, U21). -/
def State.partition (s : State) : State :=
  if s.inBlock then
    match s.blockPlan with
    | [] => s.endBlock
    | b :: rest => { s with blockPlan := rest, inBlock := !b }
  else s

/-- `Scheduler.updateClock(cycles)`: the cycles are handed over, and the platform takes its turn (R545). -/
def State.updateClock (s : State) : State :=
  let t := { s with clock := s.clock + s.cycles, cycles := 0, blockParas := [] }
  match t.events with
  | [] => t
  | batch :: rest => batch.foldl State.applyEvent { t with events := rest }

/-- The end of an instruction: the step ends with its block (R520). -/
def State.finish (s : State) : State :=
  let t := s.partition
  if t.inBlock then t else t.updateClock

/-! ### The parts of the main step -/

/-- Fetch, decode and execute one instruction (R520). A page walk of the fetch can end the block by its writes
(R133). -/
def runInstruction (s : State) : Host.Outcome State Fault Refusal :=
  match fetchInstr.run s.latch with
  | .ok i t => onNext (fun u => (u.charge (Config.insnCycles i)).finish) (exec i t)
  | .error e t => onNext State.finish (settle s.latch (.error e t))

/-- Take the first pending interrupt: the request is acknowledged and dispatched (R520, R542). -/
def takeInterrupt (s : State) : Host.Outcome State Fault Refusal :=
  match s.pending with
  | [] => .next s.updateClock
  | v :: rest =>
    onNext (fun u => (u.charge Config.intAckCycles).updateClock)
      (dispatchExternal v { s with halted := false, pending := rest })

/-- One step in the halt state (R520, R537). -/
def idle (s : State) : Host.Outcome State Fault Refusal := .next (s.charge Config.haltIdleCycles).updateClock

/-- The platform demands a reset in its next turn. -/
def State.resetDemanded (s : State) : Bool :=
  match s.events with
  | [] => false
  | batch :: _ => batch.contains .reset

/-- In shutdown there is no successor but by the reset input (R511, R547). Assumption log 10. -/
def shutdownStep (s : State) : Host.Outcome State Fault Refusal :=
  if s.resetDemanded then .next s.updateClock else .fault .shutdown

/-- The start of a block: the pending check, the halt state, else the first instruction (R520). -/
def startBlock (s : State) : Host.Outcome State Fault Refusal :=
  if s.interruptDue then takeInterrupt s.beginStep
  else if s.halted then idle s.beginStep
  else runInstruction s.beginBlock

/-! ### Placing an instruction -/

/-- A physical address holds a byte the fetch will read: RAM, or made RAM. -/
def State.placeByte (s : State) (p : Nat) (v : Byte) : State :=
  let t := { s with mem := s.mem.write p v }
  match regionAt s.physMap p with
  | some .ram => t
  | some .rom => t
  | some .device => { t with physMap := { base := p, size := 1, kind := .ram } :: s.physMap }
  | none => { t with physMap := { base := p, size := 1, kind := .ram } :: s.physMap }

/-- Place bytes from the `k`-th code byte on; a byte whose translation faults is left out. -/
def State.placeCode (s0 : State) : State → Nat → List Byte → State
  | s, _, [] => s
  | s, k, b :: bs =>
    match (translate (s0.linear .cs (s0.codeAdd s0.eip k)) false s0.user).run s0 with
    | .ok p _ => State.placeCode s0 (s.placeByte p.toNat b) (k + 1) bs
    | .error _ _ => State.placeCode s0 s (k + 1) bs

/-- Every code byte of the longest instruction is inside the limit. -/
def State.codeReachable (s : State) : Bool := (List.range maxInsnLen).all fun k => s.codeInLimit (s.codeAdd s.eip k)

/-- The code segment's limits opened where the fetch would leave them. -/
def State.openCode (s : State) : State :=
  if s.codeReachable then s
  else { s with segs := { s.segs with cs := { s.segs.cs with limitMin := 0, limitMax := 0xFFFFFFFF } } }

/-- The next step fetches an instruction: no shutdown, and at a block boundary no halt and no pending interrupt. -/
def State.aboutToFetch (s : State) : State :=
  { s with
    shutdown := false
    halted := s.halted && s.inBlock
    pending := if s.inBlock then s.pending else if s.interruptDue then [] else s.pending }

end Sys2Proof.Machine
end

