-- ==== Sys2Proof/Machine/Step.lean ====
section
/-! DEFINITION. One step of the model: one instruction of a block, one interrupt taken, or one idle step of the
halt state (R520). The main step of the spec, a whole block, is the steps from one pending check to the next
(assumption log 9). -/

namespace Sys2Proof.Machine

/-- One step. -/
def step (s : State) : Host.Outcome State Fault Refusal :=
  if s.shutdown then shutdownStep s
  else if s.inBlock then runInstruction s
  else startBlock s

/-- The state with an opcode-table word, and zeros after it, where the next step fetches its instruction. -/
def State.withFetchWord (s : State) (nbits w : Nat) : State :=
  let t := s.openCode.aboutToFetch
  State.placeCode t t 0 (tableBytes nbits w)

end Sys2Proof.Machine
end

