-- ==== Sys2Proof/Safety.lean ====
section
/-! DEFINITION. What counts as a safe state, in the terms claims use: the forms the spec gives to memory (R80),
the TLB (R44), the flag word (R26) and CR0 (R444), which every step keeps; what it means that a run is not over; and
the frames: what an instruction leaves as it was. Where a frame speaks of an access that met device memory it rests on
assumption log 14 (DESIGN CHOICE, unsafe): what the device may do inside the call. -/

namespace Sys2Proof.Machine

/-- The stored flag word holds bits of the capability mask, and bit 1 as reset left it (R26, R50). -/
def FlagsOk (stored : Word) : Prop := stored &&& ~~~Config.capMask = 2

/-- Paging is enabled only with protection (R444). -/
def PagingOk (cr0 : Word) : Prop := cr0.getLsbD 31 = true → cr0.getLsbD 0 = true

/-- The memory map and the port map lie in their address spaces. -/
def MapOk (m : List Region) : Prop := ∀ r ∈ m, r.base + r.size ≤ 2 ^ 32

/-- A well-formed state. -/
structure State.Inv (s : State) : Prop where
  mem    : Memory.wf s.mem
  tlb    : Tlb.wf s.tlb
  flags  : FlagsOk s.flags
  paging : PagingOk s.cr0
  map    : MapOk s.physMap

/-- A step can go on: the machine is not in shutdown (R511). -/
def State.live (s : State) : Prop := s.shutdown = false

/-- An outcome is a next state. -/
def completes (o : Host.Outcome State Fault Refusal) : Prop := ∃ t, o = .next t

/-! ### What a statement says stays as it was -/

/-- Every segment, system, control and exception register is as it was, and so are the level, the A20 gate and
the halt and shutdown states. -/
structure SameSystem (s t : State) : Prop where
  segs     : t.segs = s.segs
  cpl      : t.cpl = s.cpl
  gdtr     : t.gdtr = s.gdtr
  idtr     : t.idtr = s.idtr
  ldtr     : t.ldtr = s.ldtr
  tr       : t.tr = s.tr
  cr0      : t.cr0 = s.cr0
  cr2      : t.cr2 = s.cr2
  cr3      : t.cr3 = s.cr3
  a20On    : t.a20On = s.a20On
  halted   : t.halted = s.halted
  shutdown : t.shutdown = s.shutdown

/-- The physical address of a linear one in a state right after an access of that kind: with paging the TLB entry
the access left gives it, without paging it is the linear address; the A20 mask comes last (R115, R116). -/
def State.physAddr (s : State) (lin : Word) (isWrite : Bool) : Option Word :=
  if s.pg then (s.tlbHit lin isWrite).map fun e => (e.physBase ||| (lin &&& 0xFFF)) &&& s.a20Mask
  else some (lin &&& s.a20Mask)

/-- Linear ranges: first address and number of bytes. -/
abbrev Ranges := List (Word × Nat)

/-- A physical address is none that the bytes of the linear ranges went to. -/
def State.outside (s : State) (l : Ranges) (a : Word) : Prop :=
  ∀ r ∈ l, ∀ k, k < r.2 → s.physAddr (r.1 + BitVec.ofNat 32 k) true ≠ some a

/-- The batches of what the platform does inside calls of devices that were used up from one state to a later one. -/
def State.usedEvents (s t : State) : List (List PlatformEvent) :=
  s.ioEvents.take (s.ioEvents.length - t.ioEvents.length)

/-- No device wrote the byte at an address inside a call made of it from one state to a later one (R142). -/
def State.untouched (s t : State) (a : Nat) : Prop :=
  ∀ batch ∈ s.usedEvents t, ∀ p v, PlatformEvent.memWrite p v ∈ batch → p.toNat ≠ a

/-- Memory is as it was outside the bytes of the ranges stored to, but for bytes a device wrote inside a call that an
access made of it (R142; assumption log 14). With paging on a page walk may have set accessed and dirty bits of
page-table entries, bits 5 and 6 of a byte (R110, R113); with paging off there are none. -/
def StoresOnly (s t : State) (l : Ranges) : Prop :=
  ∀ a : Word, t.outside l a → s.untouched t a.toNat →
    t.mem.read a.toNat ||| 0x60 = s.mem.read a.toNat ||| 0x60 ∧ (s.pg = false → t.mem.read a.toNat = s.mem.read a.toNat)

/-- The byte a little-endian value has at a place (R85). -/
def byteAt (v : Word) (k : Nat) : Byte := (v >>> (8 * k)).setWidth 8

/-- The bytes of a value stand in RAM at a linear address, but for bytes a device wrote since `s`. With paging on, an
unaligned store is read up to bits 5 and 6, which the walk for a later byte may set where the store went into a page
table. -/
def Stored (s t : State) (lin : Word) (w : Width) (v : Word) : Prop :=
  ∀ k, k < w.bytes → ∃ p, t.physAddr (lin + BitVec.ofNat 32 k) true = some p ∧
    (regionAt t.physMap p.toNat = some .ram → s.untouched t p.toNat →
      t.mem.read p.toNat ||| 0x60 = byteAt v k ||| 0x60 ∧
      (t.pg = false ∨ aligned lin w → t.mem.read p.toNat = byteAt v k))

/-- A value is the bytes RAM or ROM held at a linear address, and has no others; bytes a device wrote inside a call on
the way are not spoken of. With paging on it is so up to
bits 5 and 6, for a read of a page table whose walk sets them. -/
def Loaded (s t : State) (lin : Word) (w : Width) (v : Word) : Prop :=
  w.fits v ∧ ∀ k, k < w.bytes → ∃ p, t.physAddr (lin + BitVec.ofNat 32 k) false = some p ∧
    (regionAt s.physMap p.toNat = some .ram ∨ regionAt s.physMap p.toNat = some .rom → s.untouched t p.toNat →
      byteAt v k ||| 0x60 = s.mem.read p.toNat ||| 0x60 ∧ (s.pg = false → byteAt v k = s.mem.read p.toNat))

/-- The whole frame of accesses that succeeded: registers, flags and EIP are as they were, so is the system, and
memory is as it was outside the ranges. Where an access met device memory, what the device did inside the call is
bounded by assumption log 14: requests and writes of memory, which `StoresOnly` leaves out, and nothing else; the A20
gate stays (R546), and later batches of the platform's acts are what they were. -/
structure Accessed (s t : State) (l : Ranges) : Prop where
  regs    : t.regs = s.regs
  flags   : t.flags = s.flags
  eip     : t.eip = s.eip
  nextEip : t.nextEip = s.nextEip
  system  : SameSystem s t
  memory  : StoresOnly s t l
  events  : t.ioEvents <:+ s.ioEvents

/-- What a write of an r/m operand leaves: the register's view, or the bytes stored, and nothing else. -/
def Wrote (s t : State) (w : Width) (rm : RM) (v : Word) : Prop :=
  match rm with
  | .reg r => t.regs = s.regs.setView w r v ∧ StoresOnly s t []
  | .mem m =>
    t.regs = s.regs ∧ StoresOnly s t [(s.linear m.seg (s.off m), w.bytes)] ∧
      Stored s t (s.linear m.seg (s.off m)) w v

/-! ### The flags an instruction leaves, with its draws -/

/-- A logical instruction's state before the result is written: CF and OF 0, AF a draw, the others of the result
(R28). -/
def logicFlags (s : State) (w : Width) (r : Word) : State :=
  { s with flags := putStatus s.flags { cf := false, of := false, af := Config.drawBit s.draws, sf := msb w r,
                                        zf := r = 0, pf := parity r }
           draws := s.draws + 1 }

/-- The four status flags a multiplication leaves draws, and CF and OF (R301). -/
def mulDraws (s : State) (ovf : Bool) : State :=
  { s with flags := putStatus s.flags
             { cf := ovf, of := ovf, sf := Config.drawBit s.draws, zf := Config.drawBit (s.draws + 1)
               pf := Config.drawBit (s.draws + 2), af := Config.drawBit (s.draws + 3) }
           draws := s.draws + 4 }

/-- All six status flags draws (R304). -/
def sixDraws (s : State) : State :=
  { s with flags := putStatus s.flags
             { cf := Config.drawBit s.draws, of := Config.drawBit (s.draws + 1), sf := Config.drawBit (s.draws + 2)
               zf := Config.drawBit (s.draws + 3), af := Config.drawBit (s.draws + 4)
               pf := Config.drawBit (s.draws + 5) }
           draws := s.draws + 6 }

/-- The register of the high half of a product and of the remainder: AH, DX or EDX (R300). -/
def highReg : Width → Reg
  | .w8 => .esp
  | .w16 => .edx
  | .w32 => .edx

/-- A rotate's state before the result is written: one draw, CF and OF (R320). -/
def rotated (s : State) (o : ShiftOut) : State :=
  { s with flags := putFlag (putFlag s.flags .cf o.cf) .of o.of, draws := s.draws + 1 }

/-- A shift's state before the result is written: the draws named, and the six flags (R320). -/
def shifted (s : State) (w : Width) (o : ShiftOut) (draws : Nat) : State :=
  { s with flags := putStatus s.flags { cf := o.cf, of := o.of, af := Config.drawBit (s.draws + draws), sf := msb w o.r,
                                        zf := o.r = 0, pf := parity o.r }
           draws := s.draws + draws + 1 }

/-! ### The shapes of an instruction's effect

Each says that the instruction answers a next state, which one, and what it leaves unchanged. -/

/-- The instruction takes a fault that it raised in the state `u` it has reached: the rollback restores every register,
and the fault is dispatched with the instruction's own address (R504, R505). -/
def FaultsWith (i : Instr) (s u : State) (f : GuestFault) : Prop :=
  exec i s = dispatchFault faultChain f s.startEip (rollback s u)

/-- Where an access that the instruction makes in the state `u` faults, the instruction takes that fault. -/
def FaultsWhere {α : Type} (i : Instr) (s u : State) (access : Op α) : Prop :=
  ∀ f t, access.run u = .error (.fault f false) t → FaultsWith i s t f

/-- The result goes to a destination that was checked and read before (R108): `u` is the state in which it is
written, with the flags the instruction leaves. A write that faults is the instruction's fault. -/
def StoresResult (i : Instr) (s u : State) (w : Width) (dst : RM) (r : Word) : Prop :=
  (∀ t, (writeDst w dst r).run u = .ok () t →
    exec i s = .next { t with eip := s.nextEip } ∧ t.flags = u.flags ∧ SameSystem s t ∧ Wrote s t w dst r) ∧
  FaultsWhere i s u (writeDst w dst r)

/-- The value goes to an r/m operand that is only written: `u` is the state in which it is written. A write that faults
is the instruction's fault. -/
def WritesOperand (i : Instr) (s u : State) (w : Width) (dst : RM) (v : Word) : Prop :=
  (∀ t, (writeRM w dst v).run u = .ok () t →
    exec i s = .next { t with eip := s.nextEip } ∧ t.flags = s.flags ∧ SameSystem s t ∧ Wrote u t w dst v) ∧
  FaultsWhere i s u (writeRM w dst v)

/-- The value goes to a register: `u` is the state after its operands were read. -/
def LoadsRegister (i : Instr) (s u : State) (w : Width) (r : Reg) (v : Word) : Prop :=
  exec i s = .next { u with regs := s.regs.setView w r v, eip := s.nextEip } ∧ Accessed s u []

/-- The value is pushed at the operand size: `u` is the state after it was read. The stack pointer is written
after the store, at the stack's own size (R220); a store that faults is the instruction's fault. -/
def PushesValue (i : Instr) (s u : State) (z : Size) (v : Word) : Prop :=
  (∀ t, (segWrite .ss (s.pushSp z) z.width v).run u = .ok () t →
    exec i s = .next { t with regs := s.regs.setView s.ssz.width .esp (s.pushSp z), eip := s.nextEip } ∧
      Accessed s t [(s.linear .ss (s.pushSp z), z.width.bytes)] ∧ Stored s t (s.linear .ss (s.pushSp z)) z.width v) ∧
  FaultsWhere i s u (segWrite .ss (s.pushSp z) z.width v)

/-- The instruction raises a fault in the state `u` it has reached: the rollback keeps every register, and the
fault is dispatched with the instruction's own address (R504, R505). -/
def RaisesFault (i : Instr) (s u : State) (k : FaultKind) (code : Option Word) : Prop :=
  exec i s = dispatchFault faultChain { kind := k, code := code, addr := none } s.startEip (rollback s u)

/-- The stack pointer after bytes are released, at the stack's own size (R220). -/
def State.spAfter (s : State) (n : Nat) : Regs := s.regs.setView s.ssz.width .esp (s.spAdd (BitVec.ofNat 32 n))

/-- The width at which a selector is stored: the operand size in a register, 16 bits in memory (R202). -/
def selWidth (z : Size) : RM → Width
  | .reg _ => z.width
  | .mem _ => .w16

/-- One segment register was loaded with a selector, and nothing else changed. -/
structure SegmentLoaded (s t : State) (i : Seg) (sel : Half) : Prop where
  selector : (t.seg i).selector = sel
  others   : ∀ j, j ≠ i → t.seg j = s.seg j
  rest     : Accessed { s with segs := t.segs } t []

/-! ### Several pushes, several pops -/

/-- Push values one after the other. -/
def pushAll (z : Size) : List Word → Op Unit
  | [] => pure ()
  | v :: vs => do
    push z v
    pushAll z vs

/-- Pop a number of values, the first one popped first. -/
def popAll (z : Size) : Nat → Op (List Word)
  | 0 => pure []
  | n + 1 => do
    let v ← pop z
    let vs ← popAll z n
    pure (v :: vs)

/-- The linear address of the k-th value pushed, counted from 0. -/
def State.pushSlot (s : State) (z : Size) (k : Nat) : Word :=
  s.linear .ss (s.spAdd (-(BitVec.ofNat 32 ((k + 1) * z.width.bytes))))

/-- The linear address of the k-th value popped, counted from 0. -/
def State.popSlot (s : State) (z : Size) (k : Nat) : Word :=
  s.linear .ss (s.spAdd (BitVec.ofNat 32 (k * z.width.bytes)))

/-- The bytes of a value stand in RAM at a linear address after later accesses, but for bytes a device wrote since `s`:
with paging on up to bits 5 and 6, which a later walk may set where the value lies in a page table. -/
def Kept (s t : State) (lin : Word) (w : Width) (v : Word) : Prop :=
  ∀ k, k < w.bytes → ∃ p, t.physAddr (lin + BitVec.ofNat 32 k) true = some p ∧
    (regionAt t.physMap p.toNat = some .ram → s.untouched t p.toNat →
      t.mem.read p.toNat ||| 0x60 = byteAt v k ||| 0x60 ∧ (t.pg = false → t.mem.read p.toNat = byteAt v k))

/-- Values were pushed: the stack pointer moved down by all of them, at the stack's own size, they stand below the
old one, and nothing else changed (R220). -/
structure Pushed (s t : State) (z : Size) (vs : List Word) : Prop where
  frame  : Accessed { s with regs := s.regs.setView s.ssz.width .esp
                              (s.spAdd (-(BitVec.ofNat 32 (vs.length * z.width.bytes)))) } t
             ((List.range vs.length).map fun k => (s.pushSlot z k, z.width.bytes))
  values : ∀ k (h : k < vs.length), Kept s t (s.pushSlot z k) z.width vs[k]

/-- Values were popped: the stack pointer moved up, they are what memory held above the old one, and nothing else
changed (R220). -/
structure Popped (s t : State) (z : Size) (vs : List Word) : Prop where
  frame  : Accessed { s with regs := s.spAfter (vs.length * z.width.bytes) } t []
  values : ∀ k (h : k < vs.length), Loaded s t (s.popSlot z k) z.width vs[k]

/-! ### Transfers -/

/-- CS after a far transfer in real or virtual-8086 mode (R97, R98, R383). -/
def State.flatCs (s : State) (sel : Half) : SegReg := if s.realMode then s.segs.cs.loadReal sel else .v86 .cs sel

/-- CS loaded with a code descriptor at a level: the RPL is the level's (R101). -/
def codeReg (sel : Half) (d : Desc) (cpl : BitVec 2) : SegReg := .ofDesc ((sel &&& 0xFFFC) ||| cpl.setWidth 16) d

/-- The state after a transfer: CS and EIP as told, and the block ends (R360). -/
def State.goesTo (s : State) (cs : SegReg) (eip : Word) : State :=
  { s with segs := { s.segs with cs := cs }, eip := eip, inBlock := false }

/-- A string instruction with its repeat prefix: prefix, whether it looks at ZF, address size, and one element of
it (R341). -/
def repeated : Instr → Option (Rep × Bool × Size × Op Unit)
  | .movsb rep a sg => some (rep, false, a, movsBody .w8 a sg)
  | .movsw z rep a sg => some (rep, false, a, movsBody z.width a sg)
  | .cmpsb rep a sg => some (rep, true, a, cmpsBody .w8 a sg)
  | .cmpsw z rep a sg => some (rep, true, a, cmpsBody z.width a sg)
  | .stosb rep a => some (rep, false, a, stosBody .w8 a)
  | .stosw z rep a => some (rep, false, a, stosBody z.width a)
  | .lodsb rep a sg => some (rep, false, a, lodsBody .w8 a sg)
  | .lodsw z rep a sg => some (rep, false, a, lodsBody z.width a sg)
  | .scasb rep a => some (rep, true, a, scasBody .w8 a)
  | .scasw z rep a => some (rep, true, a, scasBody z.width a)
  | _ => none

end Sys2Proof.Machine
end

