-- ==== Sys2Proof/Certificates/Slice0/Obligations.lean ====
section
/-! DEFINITION. The statements for the provers. Each obligation is a `def Obligations.<Name> : Prop`; one that covers
several groups of instructions is the conjunction of the claims (`Claim.<Name>`) before it.

Every statement with a frame of Safety.lean (`Accessed`, `StoresOnly`, `SameSystem`, `Wrote`, `Pushed`, `Popped`, `Loaded`,
`Stored`, `Kept`) speaks of accesses that may meet device memory: what a device may do inside such a call, requests and
writes of memory and nothing else, is assumption log 14 (DESIGN CHOICE, unsafe), and so is it there that the A20 gate
stays. -/

open Sys2Proof Sys2Proof.Machine

/-! ### Reset and the form of the state -/

/-- R50: the state after reset. EDX is a draw that every reset repeats (U19, assumption log 7); the latches are
the model's choice (log 8) and are not stated. -/
def Obligations.ResetState : Prop :=
  let s := State.reset
  s.regs = { eax := 0, ecx := 0, edx := Config.resetEdx, ebx := 0, esp := 0, ebp := 0, esi := 0, edi := 0 } ∧
  s.eip = 0x0000FFF0 ∧ flagsValue s.flags = 0x00000002 ∧
  s.segs.cs = { selector := 0xF000, base := 0xFFFF0000, limitMin := 0, limitMax := 0xFFFF, type := 0xB, dpl := 0,
                size32 := false, readable := true, writable := true, valid := true } ∧
  (∀ i : Seg, i ≠ .cs → s.seg i =
    { selector := 0, base := 0, limitMin := 0, limitMax := 0xFFFF, type := 0x3, dpl := 0, size32 := false,
      readable := true, writable := true, valid := true }) ∧
  s.cpl = 0 ∧ s.gdtr = { base := 0, limit := 0xFFFF } ∧ s.idtr = { base := 0, limit := 0x03FF } ∧
  s.ldtr = { selector := 0, base := 0, limit := 0xFFFF, valid := false } ∧
  s.tr = { selector := 0, base := 0, limit := 0xFFFF, busy := false, type32 := true } ∧
  s.cr0 = 0x60000010 ∧ s.cr2 = 0 ∧ s.cr3 = 0 ∧ s.a20Mask = 0xFFFFFFFF ∧ s.halted = false ∧ s.shutdown = false ∧
  s.tlb = []

/-- The state after reset has the form that every step keeps. -/
def Obligations.ResetHasForm : Prop := State.reset.Inv

/-- Every step keeps the form of the state: memory and the TLB canonical, the flag word inside the capability mask
with bit 1 set, paging only with protection, the memory map inside the address space (R26, R44, R80, R444). -/
def Obligations.StepKeepsForm : Prop := ∀ s t, s.Inv → step s = .next t → t.Inv

/-- In real mode the current privilege level is 0, and every step keeps it so (R33, R444). -/
def Obligations.RealModeStaysAtLevelZero : Prop :=
  ∀ s t, (s.realMode = true → s.cpl = 0) → step s = .next t → t.realMode = true → t.cpl = 0

/-- Over one instruction, whatever it does and whatever fault it takes: CR0 changes only by MOV CR0, GDTR and IDTR only
by LGDT and LIDT, the halt state is entered by HLT only. -/
def Sys2Proof.Claim.OneInstructionWrites : Prop :=
  ∀ i s t, exec i s = .next t →
    (t.cr0 ≠ s.cr0 → ∃ cr r, i = .movToCr cr r ∧ ctrlOfNum cr = some .cr0 ∧ s.privileged = true) ∧
    (t.gdtr ≠ s.gdtr → ∃ z rm, i = .lgdt z rm ∧ s.privileged = true) ∧
    (t.idtr ≠ s.idtr → ∃ z rm, i = .lidt z rm ∧ s.privileged = true) ∧
    (t.halted ≠ s.halted → i = .hlt ∧ s.privileged = true)

/-- Over one step in whose turn the platform does not demand the reset input: what changed was changed by that
instruction, which the step fetched and ran at a level that may; only a taken interrupt leaves the halt state. -/
def Sys2Proof.Claim.OneStepWrites : Prop :=
  ∀ s t, step s = .next t → (∀ batch rest, s.events = batch :: rest → PlatformEvent.reset ∉ batch) →
    let ran (i : Instr) : Prop := s.shutdown = false ∧ s.privileged = true ∧
      ∃ b u, (s.inBlock = true ∧ b = s ∨ s.inBlock = false ∧ b = s.beginBlock) ∧ fetchInstr.run b.latch = .ok i u
    (t.cr0 ≠ s.cr0 → ∃ cr r, ran (.movToCr cr r) ∧ ctrlOfNum cr = some .cr0) ∧
    (t.gdtr ≠ s.gdtr → ∃ z rm, ran (.lgdt z rm)) ∧
    (t.idtr ≠ s.idtr → ∃ z rm, ran (.lidt z rm)) ∧
    (s.halted = false → t.halted = true → ran .hlt) ∧
    (s.halted = true → t.halted = false → s.inBlock = false ∧ s.pending ≠ [] ∧ s.flag .if_ = true)

/-- CR0 changes only by MOV CR0, GDTR and IDTR only by LGDT and LIDT, and the halt state is entered by HLT only, each at
a level that may; no fault, interrupt or task switch changes any of them. The exceptions are the reset input, which
resets them all, and a taken interrupt, which leaves the halt state. -/
def Obligations.OnlyTheirInstructionsWrite : Prop := Claim.OneInstructionWrites ∧ Claim.OneStepWrites

/-! ### Registers and flags -/

/-- R21 and R22: a write of a view changes the bits of that view and no others, of that register and no other. -/
def Obligations.RegisterViews : Prop :=
  ∀ (x : Regs) (w : Width) (r : Reg) (v : Word), w.fits v = true →
    (x.setView w r v).view w r = v ∧
    (∀ q : Reg, (w = .w8 → q ≠ Reg.byteHome r) → (w ≠ .w8 → q ≠ r) → (x.setView w r v).get q = x.get q) ∧
    (w = .w16 → (x.setView w r v).get r = (x.get r &&& 0xFFFF0000) ||| v) ∧
    (w = .w8 → (x.setView w r v).get (Reg.byteHome r) =
      if Reg.isHigh r then (x.get (Reg.byteHome r) &&& 0xFFFF00FF) ||| (v <<< 8)
      else (x.get (Reg.byteHome r) &&& 0xFFFFFF00) ||| v) ∧
    (w = .w8 → ∀ q : Reg, q ≠ r → (x.setView .w8 r v).view .w8 q = x.view .w8 q)

/-- R26: the flag word through the capability mask of the 486 class (assumption log 3): what is written with a
mask, and what is read. -/
def Obligations.FlagWordThroughMask : Prop :=
  ∀ f v m : Word,
    setFlags f v m = (f &&& ~~~(m &&& Config.capMask)) ||| (v &&& m &&& Config.capMask) ∧
    flagsValue (setFlags f v 0xFFFFFFFF) = (v &&& Config.capMask) ||| 2 ∧
    (flagsValue f).getLsbD 1 = true ∧
    (∀ g h : Flag, ∀ b, getFlag (putFlag f g b) h = if h = g then b else getFlag f h) ∧
    (∀ g b, iopl (putFlag f g b) = iopl f)

/-- R27, where the instructions write it: SF is the sign bit of the result, ZF says that it is zero and PF that its low
byte has an even number of ones, after an addition and a subtraction (R28), a logical instruction and a shift (R320),
and no flag but the six status flags is touched. -/
def Obligations.SignZeroParity : Prop :=
  ∀ (f : Word) (w : Width) (a b r : Word) (c : Bool) (s : State) (o : ShiftOut) (n : Nat),
    w.fits r = true → w.fits o.r = true →
    let szp (old new r : Word) : Prop :=
      getFlag new .sf = decide (2 ^ (w.bits - 1) ≤ r.toNat) ∧ getFlag new .zf = decide (r = 0) ∧
      (getFlag new .pf =
        !(r.getLsbD 0 ^^ r.getLsbD 1 ^^ r.getLsbD 2 ^^ r.getLsbD 3 ^^ r.getLsbD 4 ^^ r.getLsbD 5 ^^ r.getLsbD 6 ^^
          r.getLsbD 7)) ∧
      (∀ q : Flag, q ∉ [Flag.cf, .pf, .af, .zf, .sf, .of] → getFlag new q = getFlag old q) ∧ iopl new = iopl old
    szp f (putStatus f (addStatus w a b c)) (addResult w a b c) ∧
    szp f (putStatus f (subStatus w a b c)) (subResult w a b c) ∧
    szp s.flags (logicFlags s w r).flags r ∧ szp s.flags (shifted s w o n).flags o.r

/-- R28: the results and flags of addition and subtraction, as arithmetic on the operands' values: CF is the
unsigned carry or borrow, OF the signed overflow, AF the carry or borrow of bit 3, SF, ZF and PF the sign, zero and low
byte's parity of the result. -/
def Obligations.AdditionAndSubtraction : Prop :=
  ∀ (w : Width) (a b : Word) (c : Bool), w.fits a = true → w.fits b = true →
    let k := carryNat c
    let szp (t : Status) (r : Nat) : Prop := t.sf = decide (2 ^ (w.bits - 1) ≤ r) ∧ t.zf = decide (r = 0) ∧
      t.pf = !(r.testBit 0 ^^ r.testBit 1 ^^ r.testBit 2 ^^ r.testBit 3 ^^ r.testBit 4 ^^ r.testBit 5 ^^ r.testBit 6 ^^
        r.testBit 7)
    (addResult w a b c).toNat = (a.toNat + b.toNat + k) % 2 ^ w.bits ∧
    szp (addStatus w a b c) ((a.toNat + b.toNat + k) % 2 ^ w.bits) ∧
    szp (subStatus w a b c) (((a.toNat : Int) - b.toNat - k) % 2 ^ w.bits).toNat ∧
    (addStatus w a b c).cf = decide (2 ^ w.bits ≤ a.toNat + b.toNat + k) ∧
    (addStatus w a b c).of = (decide (sint w a + sint w b + k < -(2 ^ (w.bits - 1) : Int)) ||
      decide ((2 ^ (w.bits - 1) : Int) ≤ sint w a + sint w b + k)) ∧
    (addStatus w a b c).af = decide (16 ≤ a.toNat % 16 + b.toNat % 16 + k) ∧
    ((subResult w a b c).toNat : Int) = ((a.toNat : Int) - b.toNat - k) % 2 ^ w.bits ∧
    (subStatus w a b c).cf = decide (a.toNat < b.toNat + k) ∧
    (subStatus w a b c).of = (decide (sint w a - sint w b - k < -(2 ^ (w.bits - 1) : Int)) ||
      decide ((2 ^ (w.bits - 1) : Int) ≤ sint w a - sint w b - k)) ∧
    (subStatus w a b c).af = decide (a.toNat % 16 < b.toNat % 16 + k)

/-- R364: the sixteen conditions, by the bits of the flag word (R25): CF 0, PF 2, ZF 6, SF 7, OF 11. -/
def Sys2Proof.Claim.ConditionTable : Prop :=
  ∀ f : Word,
    let cf := f.getLsbD 0
    let pf := f.getLsbD 2
    let zf := f.getLsbD 6
    let sf := f.getLsbD 7
    let of := f.getLsbD 11
    condHolds f .o = of ∧ condHolds f .no = !of ∧ condHolds f .b = cf ∧ condHolds f .ae = !cf ∧
    condHolds f .e = zf ∧ condHolds f .ne = !zf ∧ condHolds f .be = (cf || zf) ∧ condHolds f .a = !(cf || zf) ∧
    condHolds f .s = sf ∧ condHolds f .ns = !sf ∧ condHolds f .p = pf ∧ condHolds f .np = !pf ∧
    condHolds f .l = (sf ^^ of) ∧ condHolds f .ge = !(sf ^^ of) ∧
    condHolds f .le = (zf || (sf ^^ of)) ∧ condHolds f .g = !(zf || (sf ^^ of))

/-- R364 after a comparison (R268): ten of them are the orders of the operands, unsigned and signed. -/
def Sys2Proof.Claim.ComparisonOrders : Prop :=
  ∀ (f : Word) (w : Width) (a b : Word), w.fits a = true → w.fits b = true →
    let g := putStatus f (subStatus w a b false)
    condHolds g .e = decide (a = b) ∧ condHolds g .ne = !decide (a = b) ∧
    condHolds g .b = decide (a.toNat < b.toNat) ∧ condHolds g .ae = decide (b.toNat ≤ a.toNat) ∧
    condHolds g .be = decide (a.toNat ≤ b.toNat) ∧ condHolds g .a = decide (b.toNat < a.toNat) ∧
    condHolds g .l = decide (sint w a < sint w b) ∧ condHolds g .ge = decide (sint w b ≤ sint w a) ∧
    condHolds g .le = decide (sint w a ≤ sint w b) ∧ condHolds g .g = decide (sint w b < sint w a)

/-- The conditions, and what they say after a comparison (R364, R268). -/
def Obligations.ConditionsAfterCompare : Prop := Claim.ConditionTable ∧ Claim.ComparisonOrders

/-! ### Arithmetic and logic -/

/-- R261, R263, R264 and R266: for every form, where the operands can be read and the destination written, ADD, ADC,
SUB and SBB complete with the result and the six flags of R28, the carry coming in for ADC and SBB, and change
nothing else. Device memory: assumption log 14. -/
def Sys2Proof.Claim.AddAndSubtractComplete : Prop :=
  ∀ (f : AluForm) (s s1 s2 : State) (a b : Word), s.Inv → (AluForm.src f).run s = .ok b s1 →
    (readDst (AluForm.width f) (AluForm.dst f)).run s1 = .ok a s2 →
    let w := AluForm.width f
    let c := s.flag .cf
    StoresResult (.add f) s (s2.putStatus (addStatus w a b false)) w (AluForm.dst f) (addResult w a b false) ∧
    StoresResult (.adc f) s (s2.putStatus (addStatus w a b c)) w (AluForm.dst f) (addResult w a b c) ∧
    StoresResult (.sub f) s (s2.putStatus (subStatus w a b false)) w (AluForm.dst f) (subResult w a b false) ∧
    StoresResult (.sbb f) s (s2.putStatus (subStatus w a b c)) w (AluForm.dst f) (subResult w a b c)

/-- R262, R265 and R267: AND, OR and XOR, for every form, whatever AF is drawn. Device memory: assumption log 14. -/
def Sys2Proof.Claim.LogicComplete : Prop :=
  ∀ (f : AluForm) (s s1 s2 : State) (a b : Word), s.Inv → (AluForm.src f).run s = .ok b s1 →
    (readDst (AluForm.width f) (AluForm.dst f)).run s1 = .ok a s2 →
    let w := AluForm.width f
    StoresResult (.and f) s (logicFlags s2 w (a &&& b)) w (AluForm.dst f) (a &&& b) ∧
    StoresResult (.or f) s (logicFlags s2 w (a ||| b)) w (AluForm.dst f) (a ||| b) ∧
    StoresResult (.xor f) s (logicFlags s2 w (a ^^^ b)) w (AluForm.dst f) (a ^^^ b)

/-- R108, R260 and R505: the source is read first, then the destination, after its write check; where one of them faults
the instruction takes that fault, with every register as it was. -/
def Sys2Proof.Claim.ArithmeticFaults : Prop :=
  ∀ (f : AluForm) (s : State) (i : Instr), i ∈ [Instr.add f, .adc f, .sub f, .sbb f, .and f, .or f, .xor f] →
    FaultsWhere i s s (AluForm.src f) ∧
    ∀ b u, (AluForm.src f).run s = .ok b u → FaultsWhere i s u (readDst (AluForm.width f) (AluForm.dst f))

/-- ADD, ADC, SUB, SBB, AND, OR and XOR complete, or take the fault of an operand (R261 to R267). -/
def Obligations.ArithmeticComplete : Prop :=
  Claim.AddAndSubtractComplete ∧ Claim.LogicComplete ∧ Claim.ArithmeticFaults

/-- R268 and R273: CMP writes the flags of the subtraction and TEST those of AND; neither writes an operand.
Device memory: assumption log 14. -/
def Sys2Proof.Claim.CompareAndTestComplete : Prop :=
  (∀ (f : AluForm) (s s1 s2 : State) (a b : Word), s.Inv → (AluForm.src f).run s = .ok b s1 →
    (readRM (AluForm.width f) (AluForm.dst f)).run s1 = .ok a s2 →
    exec (.cmp f) s = .next { s2 with flags := putStatus s.flags (subStatus (AluForm.width f) a b false)
                                      eip := s.nextEip } ∧ Accessed s s2 []) ∧
  (∀ (f : TestForm) (s s1 s2 : State) (a b : Word), s.Inv → (TestForm.src f).run s = .ok b s1 →
    (readRM (TestForm.width f) (TestForm.dst f)).run s1 = .ok a s2 →
    exec (.test f) s = .next { logicFlags s2 (TestForm.width f) (a &&& b) with eip := s.nextEip } ∧
      Accessed s s2 [])

/-- R269 to R272: INC and DEC keep the carry flag, NEG subtracts from zero, NOT writes no flag.
Device memory: assumption log 14. -/
def Sys2Proof.Claim.UnaryComplete : Prop :=
  (∀ (f : IncForm) (s s2 : State) (a : Word), s.Inv →
    (readDst (IncForm.width f) (IncForm.dst f)).run s = .ok a s2 →
    let w := IncForm.width f
    StoresResult (.inc f) s (s2.putStatus { addStatus w a 1 false with cf := s.flag .cf }) w (IncForm.dst f)
      (addResult w a 1 false) ∧
    StoresResult (.dec f) s (s2.putStatus { subStatus w a 1 false with cf := s.flag .cf }) w (IncForm.dst f)
      (subResult w a 1 false)) ∧
  (∀ (w : Width) (rm : RM) (s s2 : State) (a : Word), s.Inv → (readDst w rm).run s = .ok a s2 →
    StoresResult (.neg w rm) s (s2.putStatus (subStatus w 0 a false)) w rm (subResult w 0 a false) ∧
    StoresResult (.not w rm) s s2 w rm (trunc w (~~~a)))

/-- R108 and R505: where an operand of CMP, TEST, INC, DEC, NEG or NOT faults the instruction takes that fault, with every
register as it was. -/
def Sys2Proof.Claim.CompareAndUnaryFaults : Prop :=
  ∀ s : State,
    (∀ f : AluForm, FaultsWhere (.cmp f) s s (AluForm.src f) ∧
      ∀ b u, (AluForm.src f).run s = .ok b u → FaultsWhere (.cmp f) s u (readRM (AluForm.width f) (AluForm.dst f))) ∧
    (∀ (f : TestForm) b u, (TestForm.src f).run s = .ok b u →
      FaultsWhere (.test f) s u (readRM (TestForm.width f) (TestForm.dst f))) ∧
    (∀ f : IncForm, FaultsWhere (.inc f) s s (readDst (IncForm.width f) (IncForm.dst f)) ∧
      FaultsWhere (.dec f) s s (readDst (IncForm.width f) (IncForm.dst f))) ∧
    ∀ w rm, FaultsWhere (.neg w rm) s s (readDst w rm) ∧ FaultsWhere (.not w rm) s s (readDst w rm)

/-- CMP, TEST, INC, DEC, NEG and NOT complete, or take the fault of an operand (R268 to R273). -/
def Obligations.CompareAndUnaryComplete : Prop :=
  Claim.CompareAndTestComplete ∧ Claim.UnaryComplete ∧ Claim.CompareAndUnaryFaults

/-! ### Multiply, divide, extend -/

/-- R301 and R302: MUL and IMUL with one operand give the double-width product, its low half in the accumulator and
its high half in the register of R300 (AH, DX, EDX); every other bit of the registers stays; CF and OF say that it does not
fit in one half. Device memory: assumption log 14. -/
def Sys2Proof.Claim.MultiplyOneComplete : Prop :=
  ∀ (w : Width) (rm : RM) (s s1 : State) (b : Word), s.Inv → (readRM w rm).run s = .ok b s1 →
    let a := s.reg w .eax
    let p := a.toNat * b.toNat
    let q := sint w a * sint w b
    Accessed s s1 [] ∧
    exec (.mul w rm) s = .next { mulDraws (s1.setProduct w p) (decide (2 ^ w.bits ≤ p)) with eip := s.nextEip } ∧
    (s1.setProduct w p).dividend w = p ∧
    exec (.imul1 w rm) s = .next
      { mulDraws (s1.setProduct w (q % (2 ^ (2 * w.bits) : Int)).toNat)
          (decide (q < -(2 ^ (w.bits - 1) : Int)) || decide ((2 ^ (w.bits - 1) : Int) ≤ q)) with eip := s.nextEip } ∧
    signedDividend w ((s1.setProduct w (q % (2 ^ (2 * w.bits) : Int)).toNat).dividend w) = q ∧
    ∀ n, let t := s1.setProduct w n
      t = { s1 with regs := t.regs } ∧ (∀ r, r ≠ .eax → r ≠ .edx → t.regs.get r = s.regs.get r) ∧
      (w = .w8 → t.regs.edx = s.regs.edx ∧ t.regs.eax &&& 0xFFFF0000 = s.regs.eax &&& 0xFFFF0000) ∧
      (w = .w16 → t.regs.edx &&& 0xFFFF0000 = s.regs.edx &&& 0xFFFF0000 ∧
        t.regs.eax &&& 0xFFFF0000 = s.regs.eax &&& 0xFFFF0000)

/-- R303: IMUL with two factors writes the product truncated to the operand size into its register, in each of its
three forms. Device memory: assumption log 14. -/
def Sys2Proof.Claim.ImulTruncatedComplete : Prop :=
  ∀ (z : Size) (r : Reg) (rm : RM) (s s1 : State) (v : Word), s.Inv → (readRM z.width rm).run s = .ok v s1 →
    let w := z.width
    let done (a b : Word) : State :=
      let p := sint w a * sint w b
      { mulDraws { s1 with regs := s.regs.setView w r (BitVec.ofInt 32 (p % (2 ^ w.bits : Int))) }
          (decide (p < -(2 ^ (w.bits - 1) : Int)) || decide ((2 ^ (w.bits - 1) : Int) ≤ p)) with eip := s.nextEip }
    Accessed s s1 [] ∧
    exec (.imul2 z r rm) s = .next (done (s.reg w r) v) ∧
    (∀ imm, exec (.imul3 z r rm imm) s = .next (done v imm)) ∧
    (∀ ib : Byte, exec (.imul3b z r rm ib) s = .next (done v (sextByte w ib)))

/-- R505: where the r/m operand of MUL or IMUL faults the instruction takes that fault, with every register as it was. -/
def Sys2Proof.Claim.MultiplyFaults : Prop :=
  ∀ (rm : RM) (s : State),
    (∀ w, ∀ i ∈ [Instr.mul w rm, .imul1 w rm], FaultsWhere i s s (readRM w rm)) ∧
    ∀ (z : Size) r imm ib, ∀ i ∈ [Instr.imul2 z r rm, .imul3 z r rm imm, .imul3b z r rm ib],
      FaultsWhere i s s (readRM z.width rm)

/-- MUL and IMUL complete, in each of their forms, or take the fault of their operand (R301 to R303). -/
def Obligations.MultiplyComplete : Prop :=
  Claim.MultiplyOneComplete ∧ Claim.ImulTruncatedComplete ∧ Claim.MultiplyFaults

/-- R304: unsigned division. Where the divisor is not zero and the quotient fits, quotient times divisor plus
remainder is the dividend, the remainder is less than the divisor, and all else stays but the six flags, which are
draws; otherwise the divide error, or the fault of the operand, with every register as it was. Device memory: assumption
log 14. -/
def Obligations.DivideLaw : Prop :=
  (∀ w rm s, FaultsWhere (.div w rm) s s (readRM w rm)) ∧
  ∀ (w : Width) (rm : RM) (s s1 : State) (d : Word), s.Inv → (readRM w rm).run s = .ok d s1 →
    let n := s.dividend w
    Accessed s s1 [] ∧
    (d ≠ 0 → n / d.toNat < 2 ^ w.bits → ∃ t : State,
      exec (.div w rm) s = .next { sixDraws t with eip := s.nextEip } ∧ t = { s1 with regs := t.regs } ∧
      (t.reg w .eax).toNat * d.toNat + (t.reg w (highReg w)).toNat = n ∧ (t.reg w (highReg w)).toNat < d.toNat ∧
      (∀ r, r ≠ .eax → r ≠ .edx → t.regs.get r = s.regs.get r) ∧
      (w = .w8 → t.regs.edx = s.regs.edx ∧ t.regs.eax &&& 0xFFFF0000 = s.regs.eax &&& 0xFFFF0000) ∧
      (w = .w16 → t.regs.edx &&& 0xFFFF0000 = s.regs.edx &&& 0xFFFF0000 ∧
        t.regs.eax &&& 0xFFFF0000 = s.regs.eax &&& 0xFFFF0000)) ∧
    (d = 0 ∨ 2 ^ w.bits ≤ n / d.toNat → RaisesFault (.div w rm) s s1 .de none)

/-- R305: signed division, the quotient truncated toward zero and the remainder with the dividend's sign; all else
stays but the six flags, which are draws; the divide error for a zero divisor or a quotient that does not fit, or the
fault of the operand, with every register as it was. Device memory: assumption log 14. -/
def Obligations.SignedDivideLaw : Prop :=
  (∀ w rm s, FaultsWhere (.idiv w rm) s s (readRM w rm)) ∧
  ∀ (w : Width) (rm : RM) (s s1 : State) (v : Word), s.Inv → (readRM w rm).run s = .ok v s1 →
    let n := signedDividend w (s.dividend w)
    let d := sint w v
    let fits := -(2 ^ (w.bits - 1) : Int) ≤ n.tdiv d ∧ n.tdiv d < (2 ^ (w.bits - 1) : Int)
    Accessed s s1 [] ∧
    (d ≠ 0 → fits → ∃ t : State,
      exec (.idiv w rm) s = .next { sixDraws t with eip := s.nextEip } ∧ t = { s1 with regs := t.regs } ∧
      sint w (t.reg w .eax) = n.tdiv d ∧ sint w (t.reg w (highReg w)) = n - n.tdiv d * d ∧
      (∀ r, r ≠ .eax → r ≠ .edx → t.regs.get r = s.regs.get r) ∧
      (w = .w8 → t.regs.edx = s.regs.edx ∧ t.regs.eax &&& 0xFFFF0000 = s.regs.eax &&& 0xFFFF0000) ∧
      (w = .w16 → t.regs.edx &&& 0xFFFF0000 = s.regs.edx &&& 0xFFFF0000 ∧
        t.regs.eax &&& 0xFFFF0000 = s.regs.eax &&& 0xFFFF0000)) ∧
    (d = 0 ∨ ¬ fits → RaisesFault (.idiv w rm) s s1 .de none)

/-- R306 and R307: CBW, CWDE, CWD and CDQ extend the accumulator's sign and write no flag. -/
def Obligations.ExtendComplete : Prop :=
  ∀ s : State,
    let ax : Word := if s.regs.eax.getLsbD 7 then 0xFF00 ||| s.reg .w8 .eax else s.reg .w8 .eax
    let eax : Word := if s.regs.eax.getLsbD 15 then 0xFFFF0000 ||| s.reg .w16 .eax else s.reg .w16 .eax
    let dx : Word := if s.regs.eax.getLsbD 15 then 0xFFFF else 0
    let edx : Word := if s.regs.eax.getLsbD 31 then 0xFFFFFFFF else 0
    exec (.cbw .s16) s = .next { s with regs := s.regs.setView .w16 .eax ax, eip := s.nextEip } ∧
    exec (.cbw .s32) s = .next { s with regs := s.regs.setView .w32 .eax eax, eip := s.nextEip } ∧
    exec (.cwd .s16) s = .next { s with regs := s.regs.setView .w16 .edx dx, eip := s.nextEip } ∧
    exec (.cwd .s32) s = .next { s with regs := s.regs.setView .w32 .edx edx, eip := s.nextEip }

/-! ### Shifts and rotates -/

/-- R320: with an effective count of 0, of every width and for every raw count, none of the eight instructions
changes a register, a flag or a byte of memory; the operand is still checked for write and read. That a memory operand is
read for it, which in device memory is a call of the device, is the model's choice (assumption log 25, DESIGN CHOICE).
Device memory: assumption log 14. -/
def Sys2Proof.Claim.CountZeroChangesNothing : Prop :=
  ∀ (w : Width) (rm : RM) (c : Count) (s s1 : State) (a : Word), s.Inv → s.count c = 0 →
    (readDst w rm).run s = .ok a s1 →
    Accessed s s1 [] ∧
    ∀ i ∈ [Instr.rol w rm c, .ror w rm c, .rcl w rm c, .rcr w rm c, .shl w rm c, .sal w rm c, .shr w rm c,
      .sar w rm c], exec i s = .next { s1 with eip := s.nextEip }

/-- R320 to R324: the rotates with a count that is not 0 write the result, CF and OF, and no other flag.
Device memory: assumption log 14. -/
def Sys2Proof.Claim.RotateComplete : Prop :=
  ∀ (w : Width) (rm : RM) (c : Count) (s s1 : State) (a : Word), s.Inv → s.count c ≠ 0 →
    (readDst w rm).run s = .ok a s1 →
    let n := s.count c
    let d := Config.drawBit s1.draws
    StoresResult (.rol w rm c) s (rotated s1 (rolOut w a n d)) w rm (rolOut w a n d).r ∧
    StoresResult (.ror w rm c) s (rotated s1 (rorOut w a n d)) w rm (rorOut w a n d).r ∧
    StoresResult (.rcl w rm c) s (rotated s1 (rclOut w a (s.flag .cf) n d)) w rm (rclOut w a (s.flag .cf) n d).r ∧
    StoresResult (.rcr w rm c) s (rotated s1 (rcrOut w a (s.flag .cf) n d)) w rm (rcrOut w a (s.flag .cf) n d).r

/-- R320, R325 to R327: the shifts with a count that is not 0 write the result and the six status flags; SHL and SAL
are one instruction. Device memory: assumption log 14. -/
def Sys2Proof.Claim.ShiftComplete : Prop :=
  ∀ (w : Width) (rm : RM) (c : Count) (s s1 : State) (a : Word), s.Inv → s.count c ≠ 0 →
    (readDst w rm).run s = .ok a s1 →
    let n := s.count c
    let d := Config.drawBit s1.draws
    let e := Config.drawBit (s1.draws + 1)
    StoresResult (.shl w rm c) s (shifted s1 w (shlOut w a n d e) 2) w rm (shlOut w a n d e).r ∧
    StoresResult (.sal w rm c) s (shifted s1 w (shlOut w a n d e) 2) w rm (shlOut w a n d e).r ∧
    StoresResult (.shr w rm c) s (shifted s1 w (shrOut w a n d e) 2) w rm (shrOut w a n d e).r ∧
    StoresResult (.sar w rm c) s (shifted s1 w (sarOut w a n d) 1) w rm (sarOut w a n d).r

/-- R320, R108 and R505: where the operand faults, of every width and for every count, 0 too, the instruction takes that
fault, with every register as it was. -/
def Sys2Proof.Claim.ShiftFaults : Prop :=
  ∀ (w : Width) (rm : RM) (c : Count) (s : State), ∀ i ∈ [Instr.rol w rm c, .ror w rm c, .rcl w rm c, .rcr w rm c,
    .shl w rm c, .sal w rm c, .shr w rm c, .sar w rm c], FaultsWhere i s s (readDst w rm)

/-- The shifts and rotates complete, for every count, or take the fault of their operand (R320 to R327). -/
def Obligations.ShiftsComplete : Prop :=
  Claim.CountZeroChangesNothing ∧ Claim.RotateComplete ∧ Claim.ShiftComplete ∧ Claim.ShiftFaults

/-- R321 to R324: ROL moves each bit up by the count modulo the width and ROR down; RCL and RCR do so with CF as one bit
more on top, and RCR undoes RCL; CF of ROL is the lowest bit of the result and of ROR its highest. OF with count 1 is as
the rules say, with every other count a draw. -/
def Sys2Proof.Claim.RotateLaws : Prop :=
  ∀ (w : Width) (a : Word) (n : Nat) (cf d : Bool), w.fits a = true → 0 < n → n < 32 →
    let m := w.bits
    let rol := rolOut w a n d
    let ror := rorOut w a n d
    let rcl := rclOut w a cf n d
    let rcr := rcrOut w a cf n d
    let withCf (x : Word) (c : Bool) (j : Nat) : Bool := if j < m then x.getLsbD j else c
    w.fits rol.r = true ∧ w.fits ror.r = true ∧ w.fits rcl.r = true ∧ w.fits rcr.r = true ∧
    (∀ j, j < m → rol.r.getLsbD ((j + n) % m) = a.getLsbD j ∧ ror.r.getLsbD j = a.getLsbD ((j + n) % m)) ∧
    rol.cf = rol.r.getLsbD 0 ∧ ror.cf = ror.r.getLsbD (m - 1) ∧
    (∀ j, j ≤ m → withCf rcl.r rcl.cf ((j + n) % (m + 1)) = withCf a cf j ∧
      withCf rcr.r rcr.cf j = withCf a cf ((j + n) % (m + 1))) ∧
    (rcrOut w rcl.r rcl.cf n d).r = a ∧ (rcrOut w rcl.r rcl.cf n d).cf = cf ∧
    (n = 1 →
      rol.of = (a.getLsbD (m - 1) ^^ rol.r.getLsbD (m - 1)) ∧
      ror.of = (ror.r.getLsbD (m - 1) ^^ ror.r.getLsbD (m - 2)) ∧
      rcl.of = (rcl.r.getLsbD (m - 1) ^^ rcl.cf) ∧
      rcr.of = (rcr.r.getLsbD (m - 1) ^^ rcr.r.getLsbD (m - 2))) ∧
    (n ≠ 1 → rol.of = d ∧ ror.of = d ∧ rcl.of = d ∧ rcr.of = d)

/-- R325 to R327: SHL multiplies modulo 2^n, SHR divides and SAR rounds toward minus infinity. CF is the last bit shifted
out while the count is below the width; from there on it is a draw, of SAR the sign. OF with count 1 is as the rules say,
with every other count a draw. -/
def Sys2Proof.Claim.ShiftLaws : Prop :=
  ∀ (w : Width) (a : Word) (n : Nat) (c d : Bool), w.fits a = true → 0 < n → n < 32 →
    let m := w.bits
    let shl := shlOut w a n c d
    let shr := shrOut w a n c d
    let sar := sarOut w a n d
    shl.r.toNat = a.toNat * 2 ^ n % 2 ^ m ∧ shr.r.toNat = a.toNat / 2 ^ n ∧
    w.fits sar.r = true ∧ sint w sar.r = (sint w a).fdiv (2 ^ n) ∧
    (n < m → shl.cf = a.getLsbD (m - n) ∧ shr.cf = a.getLsbD (n - 1) ∧ sar.cf = a.getLsbD (n - 1)) ∧
    (m ≤ n → shl.cf = c ∧ shr.cf = c ∧ sar.cf = a.getLsbD (m - 1)) ∧
    (n = 1 → shl.of = (shl.r.getLsbD (m - 1) ^^ a.getLsbD (m - 1)) ∧ shr.of = a.getLsbD (m - 1) ∧ sar.of = false) ∧
    (n ≠ 1 → shl.of = d ∧ shr.of = d ∧ sar.of = d)

/-- What the results and flags of the shifts and rotates are (R321 to R327). -/
def Obligations.ShiftAndRotateLaws : Prop := Claim.RotateLaws ∧ Claim.ShiftLaws

/-! ### Data transfer -/

/-- R201: MOV, every form. A store writes the register or immediate to the destination, a load the value read to the
register, and nothing else changes; no flag is written. Where the access faults the instruction takes that fault, with
every register as it was (R200, R505). Device memory: assumption log 14. -/
def Obligations.MoveComplete : Prop :=
  (∀ (w : Width) (r : Reg) (rm : RM) (m : Moffs) (s : State),
    FaultsWhere (.movRegRm w r rm) s s (readRM w rm) ∧ FaultsWhere (.movAccMoffs w m) s s (segRead m.seg m.off w) ∧
    FaultsWhere (.movMoffsAcc w m) s s (segWrite m.seg m.off w (s.reg w .eax))) ∧
  (∀ (w : Width) (rm : RM) (r : Reg) (s : State), s.Inv → WritesOperand (.movRmReg w rm r) s s w rm (s.reg w r)) ∧
  (∀ (w : Width) (rm : RM) (imm : Word) (s : State), s.Inv → WritesOperand (.movRmImm w rm imm) s s w rm imm) ∧
  (∀ (w : Width) (r : Reg) (rm : RM) (s u : State) (v : Word), s.Inv → (readRM w rm).run s = .ok v u →
    LoadsRegister (.movRegRm w r rm) s u w r v) ∧
  (∀ (w : Width) (m : Moffs) (s u : State) (v : Word), s.Inv → (segRead m.seg m.off w).run s = .ok v u →
    LoadsRegister (.movAccMoffs w m) s u w .eax v) ∧
  (∀ (w : Width) (m : Moffs) (s t : State), s.Inv → (segWrite m.seg m.off w (s.reg w .eax)).run s = .ok () t →
    exec (.movMoffsAcc w m) s = .next { t with eip := s.nextEip } ∧
    Accessed s t [(s.linear m.seg m.off, w.bytes)] ∧ Stored s t (s.linear m.seg m.off) w (s.reg w .eax)) ∧
  (∀ (w : Width) (r : Reg) (imm : Word) (s : State),
    exec (.movRegImm w r imm) s = .next { s with regs := s.regs.setView w r imm, eip := s.nextEip })

/-- R202 and R203: MOV from a segment register stores its selector, 16 bits into memory and zero-extended into a
register; MOV to one loads that register alone, by the path of the mode. Where an access or the load faults the
instruction takes that fault, with every register as it was (R200, R505). Device memory: assumption log 14. -/
def Obligations.SegmentMovesComplete : Prop :=
  (∀ (rm : RM) (n : BitVec 3) (i : Seg) (s : State), segOfNum n = some i → i ≠ .cs →
    FaultsWhere (.movSegRm n rm) s s (readRM .w16 rm) ∧
    ∀ v u, (readRM .w16 rm).run s = .ok v u → FaultsWhere (.movSegRm n rm) s u (loadSeg i (v.setWidth 16))) ∧
  (∀ (z : Size) (rm : RM) (n : BitVec 3) (i : Seg) (s : State), s.Inv → segOfNum n = some i →
    WritesOperand (.movRmSeg z rm n) s s (selWidth z rm) rm ((s.seg i).selector.setWidth 32)) ∧
  (∀ (rm : RM) (n : BitVec 3) (i : Seg) (s u t : State) (v : Word), s.Inv → segOfNum n = some i → i ≠ .cs →
    (readRM .w16 rm).run s = .ok v u → (loadSeg i (v.setWidth 16)).run u = .ok () t →
    exec (.movSegRm n rm) s = .next { t with eip := s.nextEip } ∧ Accessed s u [] ∧
    SegmentLoaded u t i (v.setWidth 16)) ∧
  (∀ n : BitVec 3, segOfNum n = [Seg.es, .cs, .ss, .ds, .fs, .gs][n.toNat]?)

/-- R204 and R205: MOVZX and MOVSX write the value read, zero-extended or with its sign.
Device memory: assumption log 14. -/
def Sys2Proof.Claim.ExtendingLoadsComplete : Prop :=
  ∀ (z : Size) (r : Reg) (rm : RM) (s u : State) (v : Word), s.Inv →
    ((readRM .w8 rm).run s = .ok v u →
      LoadsRegister (.movzxByte z r rm) s u z.width r v ∧
      LoadsRegister (.movsxByte z r rm) s u z.width r (trunc z.width (BitVec.ofInt 32 (sint .w8 v)))) ∧
    ((readRM .w16 rm).run s = .ok v u →
      LoadsRegister (.movzxWord z r rm) s u z.width r v ∧
      LoadsRegister (.movsxWord z r rm) s u z.width r (trunc z.width (BitVec.ofInt 32 (sint .w16 v))))

/-- R206: LEA writes the offset of its memory operand, at the operand size, with no access. -/
def Sys2Proof.Claim.LeaComplete : Prop :=
  ∀ (z : Size) (r : Reg) (m : MemRef) (s : State),
    exec (.lea z r (.mem m)) s =
      .next { s with regs := s.regs.setView z.width r (trunc z.width (s.off m)), eip := s.nextEip }

/-- R166 and R167: the offsets of the address rows, as sums modulo the address size. -/
def Sys2Proof.Claim.EffectiveAddresses : Prop :=
  ∀ s : State,
    let r (x : Reg) : Nat := (s.regs.get x).toNat
    (∀ d : Half, (s.ea (.abs16 d)).toNat = d.toNat) ∧
    (∀ b (d : Disp Half), (s.ea (.based16 b d)).toNat =
      ((match b with
        | .bxsi => r .ebx + r .esi
        | .bxdi => r .ebx + r .edi
        | .bpsi => r .ebp + r .esi
        | .bpdi => r .ebp + r .edi
        | .si => r .esi
        | .di => r .edi
        | .bp => r .ebp
        | .bx => r .ebx) + (match d with
        | .none => 0
        | .d8 b => (b.signExtend 16).toNat
        | .full v => v.toNat)) % 2 ^ 16) ∧
    (∀ (b : Reg) (x : Option Reg) (c : BitVec 2) (d : Disp Word),
      let base (b : Option Reg) : Nat := match b with
        | none => 0
        | some q => r q
      let disp : Nat := match d with
        | .none => 0
        | .d8 b => (b.signExtend 32).toNat
        | .full v => v.toNat
      (s.ea (.based32 b d)).toNat = (r b + disp) % 2 ^ 32 ∧
      (s.ea (.sib b x c d)).toNat = (r b + base x * 2 ^ c.toNat + disp) % 2 ^ 32 ∧
      (∀ v, s.ea (.abs32 v) = v) ∧
      (∀ v, (s.ea (.sibAbs x c v)).toNat = (base x * 2 ^ c.toNat + v.toNat) % 2 ^ 32))

/-- R207: XCHG exchanges its operands; a memory operand is checked for write before it is read (R108).
Device memory: assumption log 14. -/
def Sys2Proof.Claim.ExchangeComplete : Prop :=
  (∀ (w : Width) (rm : RM) (r : Reg) (s u t : State) (a : Word), s.Inv → (readDst w rm).run s = .ok a u →
    (writeDst w rm (s.reg w r)).run u = .ok () t →
    exec (.xchg w rm r) s = .next { t with regs := t.regs.setView w r a, eip := s.nextEip } ∧
    t.flags = s.flags ∧ SameSystem s t ∧ Wrote s t w rm (s.reg w r)) ∧
  (∀ (z : Size) (r : Reg) (s : State),
    exec (.xchgAcc z r) s = .next { s with
      regs := (s.regs.setView z.width .eax (s.reg z.width r)).setView z.width r (s.reg z.width .eax)
      eip := s.nextEip })

/-- R108, R200 and R505: where an access of MOVZX, MOVSX or XCHG faults the instruction takes that fault, with every
register as it was. -/
def Sys2Proof.Claim.LoadAndExchangeFaults : Prop :=
  ∀ (z : Size) (w : Width) (r : Reg) (rm : RM) (s : State),
    (∀ i ∈ [Instr.movzxByte z r rm, .movsxByte z r rm], FaultsWhere i s s (readRM .w8 rm)) ∧
    (∀ i ∈ [Instr.movzxWord z r rm, .movsxWord z r rm], FaultsWhere i s s (readRM .w16 rm)) ∧
    FaultsWhere (.xchg w rm r) s s (readDst w rm) ∧
    ∀ a u, (readDst w rm).run s = .ok a u → FaultsWhere (.xchg w rm r) s u (writeDst w rm (s.reg w r))

/-- MOVZX, MOVSX, LEA and XCHG complete, or take the fault of an access, and the addresses LEA writes (R166, R167, R204 to
R207). -/
def Obligations.LoadsAndExchangesComplete : Prop :=
  Claim.ExtendingLoadsComplete ∧ Claim.LeaComplete ∧ Claim.EffectiveAddresses ∧ Claim.ExchangeComplete ∧
    Claim.LoadAndExchangeFaults

/-- R221 and R223: PUSH, every form. Device memory: assumption log 14. -/
def Sys2Proof.Claim.PushComplete : Prop :=
  ∀ (z : Size) (s : State), s.Inv →
    (∀ r, PushesValue (.pushReg z r) s s z (s.reg z.width r)) ∧
    (∀ imm, PushesValue (.pushImm z imm) s s z imm) ∧
    (∀ ib : Byte, PushesValue (.pushImm8 z ib) s s z (trunc z.width (ib.signExtend 32))) ∧
    (∀ rm v u, (readRM z.width rm).run s = .ok v u → PushesValue (.pushRm z rm) s u z v) ∧
    (∀ i, PushesValue (.pushSeg z i) s s z ((s.seg i).selector.setWidth 32))

/-- R222 and R224: POP, every form. The destination is written after the stack pointer moved, so that POP ESP leaves
the value popped, and an address with ESP is computed from the new one. Device memory: assumption log 14. -/
def Sys2Proof.Claim.PopComplete : Prop :=
  ∀ (z : Size) (s u : State) (v : Word), s.Inv → (segRead .ss s.sp z.width).run s = .ok v u →
    let moved : State := { u with regs := s.spAfter z.width.bytes }
    Accessed s u [] ∧ Loaded s u (s.linear .ss s.sp) z.width v ∧
    (∀ r, exec (.popReg z r) s = .next { moved with regs := moved.regs.setView z.width r v, eip := s.nextEip }) ∧
    (∀ rm, WritesOperand (.popRm z rm) s moved z.width rm v) ∧
    (∀ i t, (loadSeg i (v.setWidth 16)).run moved = .ok () t →
      exec (.popSeg z i) s = .next { t with eip := s.nextEip } ∧ SegmentLoaded moved t i (v.setWidth 16))

/-- R200, R220 and R505: where the operand of PUSH cannot be read, or POP cannot read the stack or load its segment register,
the instruction takes that fault, and the stack pointer and every other register are as they were. -/
def Sys2Proof.Claim.StackFaults : Prop :=
  ∀ (z : Size) (s : State),
    (∀ rm, FaultsWhere (.pushRm z rm) s s (readRM z.width rm)) ∧
    (∀ r rm i, ∀ p ∈ [Instr.popReg z r, .popRm z rm, .popSeg z i], FaultsWhere p s s (segRead .ss s.sp z.width)) ∧
    ∀ i v u, (segRead .ss s.sp z.width).run s = .ok v u →
      FaultsWhere (.popSeg z i) s { u with regs := s.spAfter z.width.bytes } (loadSeg i (v.setWidth 16))

/-- PUSH and POP complete, in each of their forms, or take the fault of an access (R200, R220 to R224, R505). -/
def Obligations.PushAndPopComplete : Prop := Claim.PushComplete ∧ Claim.PopComplete ∧ Claim.StackFaults

/-- R220 over several values: pushes and pops in a row, as calls, interrupts and their returns make them.
Device memory: assumption log 14. -/
def Obligations.StackSequences : Prop :=
  ∀ (z : Size) (vs : List Word) (s t : State), s.Inv →
    (vs.length ≤ 16 → (pushAll z vs).run s = .ok () t → Pushed s t z vs) ∧
    (∀ n, n ≤ 16 → (popAll z n).run s = .ok vs t → vs.length = n ∧ Popped s t z vs)

/-- R82, R83, R232 to R235: where the access is permitted and a device has the port, IN calls the device and writes AL
with its answer, a free value, and OUT hands the device AL. Device memory: assumption log 14. -/
def Sys2Proof.Claim.PortAccess : Prop :=
  ∀ (s u : State) (ib : Byte) (p : Half), s.Inv → (ioPermitted p).run s = .ok () u →
    ioRegistered s.ioMap p = true →
    let drawn : State := { u with draws := u.draws + 1 }
    let read : Host.Outcome State Fault Refusal := .next { drawn.deviceCall (.readIo p) with
      regs := s.regs.setView .w8 .eax ((Config.portByte u.draws p).setWidth 32), eip := s.nextEip }
    let written : Host.Outcome State Fault Refusal :=
      .next { u.deviceCall (.writeIo p ((s.reg .w8 .eax).setWidth 8)) with eip := s.nextEip }
    Accessed s u [] ∧
    (p = ib.setWidth 16 → exec (.inImm ib) s = read ∧ exec (.outImm ib) s = written) ∧
    (p = (s.reg .w16 .edx).setWidth 16 → exec .inDx s = read ∧ exec .outDx s = written)

/-- What a call of a device leaves: it is on record, the platform's next batch is used up, and no register is touched but
the A20 input, which a memory access leaves alone too. What the platform may do inside a call is the model's choice:
assumption logs 10 and 14 (DESIGN CHOICE, unsafe). -/
def Sys2Proof.Claim.DeviceCallLeaves : Prop :=
  ∀ (x : State) (c : DeviceCall),
    let y := x.deviceCall c
    y.calls = c :: x.calls ∧ y.ioEvents = x.ioEvents.tail ∧
    y = { x with pending := y.pending, a20On := y.a20On, mem := y.mem, tlb := y.tlb, ioEvents := y.ioEvents,
                 inBlock := y.inBlock, calls := y.calls } ∧
    (x.ioEvents = [] → y = { x with calls := c :: x.calls }) ∧
    ((∃ a n, c = .readMem a n) ∨ (∃ a n v, c = .writeMem a n v) → y.a20On = x.a20On ∧ y.tlb = x.tlb)

/-- R230 and R84: when a port access is permitted, when it is `#GP(0)`, and that a port without a device is refused by
its name. -/
def Sys2Proof.Claim.PortPermission : Prop :=
  ∀ (s : State) (p : Half),
    let open_ := s.realMode || (s.protMode && decide (s.cpl.toNat ≤ s.iopl.toNat))
    let gp : Stop := .fault { kind := .gp, code := some 0, addr := none } false
    (open_ = true → (ioPermitted p).run s = .ok () s) ∧
    (open_ = false → s.tr.type32 = false ∨ s.tr.limit.toNat < 103 → (ioPermitted p).run s = .error gp s) ∧
    (open_ = false → s.tr.type32 = true → 103 ≤ s.tr.limit.toNat → ∀ base u,
      (sysRead (s.tr.base + 0x66) .w16).run s = .ok base u →
      let o := base.toNat + p.toNat / 8
      (s.tr.limit.toNat < o + 1 → (ioPermitted p).run s = .error gp u) ∧
      (o + 1 ≤ s.tr.limit.toNat → ∀ bits t, (sysRead (s.tr.base + BitVec.ofNat 32 o) .w16).run u = .ok bits t →
        (ioPermitted p).run s = if bits.getLsbD (p.toNat % 8) then .error gp t else .ok () t)) ∧
    (∀ u, s.Inv → (ioPermitted p).run s = .ok () u → ioRegistered s.ioMap p = false →
      (∀ ib : Byte, p = ib.setWidth 16 →
        exec (.inImm ib) s = .refused (.unregisteredPort p) ∧ exec (.outImm ib) s = .refused (.unregisteredPort p)) ∧
      (p = (s.reg .w16 .edx).setWidth 16 →
        exec .inDx s = .refused (.unregisteredPort p) ∧ exec .outDx s = .refused (.unregisteredPort p))) ∧
    (∀ f u, (ioPermitted p).run s = .error (.fault f false) u →
      (∀ ib : Byte, p = ib.setWidth 16 → FaultsWith (.inImm ib) s u f ∧ FaultsWith (.outImm ib) s u f) ∧
      (p = (s.reg .w16 .edx).setWidth 16 → FaultsWith .inDx s u f ∧ FaultsWith .outDx s u f))

/-- IN and OUT: permitted, not permitted, and without a device (R84, R230 to R235). -/
def Obligations.PortsComplete : Prop := Claim.PortAccess ∧ Claim.DeviceCallLeaves ∧ Claim.PortPermission

/-! ### String instructions -/

/-- R342, R344 and R345 without a repeat prefix: MOVS, STOS and LODS move one element and the index registers by its
width, at the address size and by DF (R340); nothing else changes. Device memory: assumption log 14. -/
def Sys2Proof.Claim.StoreStringsComplete : Prop :=
  ∀ (w : Width) (asz : Size) (s : State), s.Inv →
    let step : Word := if s.flag .df then -(BitVec.ofNat 32 w.bytes) else BitVec.ofNat 32 w.bytes
    let next (r : Reg) : Word := trunc asz.width (s.reg asz.width r + step)
    let si := s.reg asz.width .esi
    let di := s.reg asz.width .edi
    let dst := s.linear .es di
    (∀ sg i v u t, i = Instr.movsb .none asz sg ∧ w = .w8 ∨ (∃ z : Size, i = .movsw z .none asz sg ∧ w = z.width) →
      (segRead sg si w).run s = .ok v u → (segWrite .es di w v).run u = .ok () t →
      exec i s = .next { t with
        regs := (s.regs.setView asz.width .esi (next .esi)).setView asz.width .edi (next .edi)
        eip := s.nextEip } ∧
      Accessed s t [(dst, w.bytes)] ∧ Stored s t dst w v) ∧
    (∀ i t, i = Instr.stosb .none asz ∧ w = .w8 ∨ (∃ z : Size, i = .stosw z .none asz ∧ w = z.width) →
      (segWrite .es di w (s.reg w .eax)).run s = .ok () t →
      exec i s = .next { t with regs := s.regs.setView asz.width .edi (next .edi), eip := s.nextEip } ∧
      Accessed s t [(dst, w.bytes)] ∧ Stored s t dst w (s.reg w .eax)) ∧
    (∀ sg i v u, i = Instr.lodsb .none asz sg ∧ w = .w8 ∨ (∃ z : Size, i = .lodsw z .none asz sg ∧ w = z.width) →
      (segRead sg si w).run s = .ok v u →
      exec i s = .next { u with
        regs := (s.regs.setView w .eax v).setView asz.width .esi (next .esi), eip := s.nextEip } ∧
      Accessed s u [])

/-- R343 and R346 without a repeat prefix: CMPS and SCAS write the flags of the subtraction and move the index
registers; they store nothing. Device memory: assumption log 14. -/
def Sys2Proof.Claim.CompareStringsComplete : Prop :=
  ∀ (w : Width) (asz : Size) (s : State), s.Inv →
    let step : Word := if s.flag .df then -(BitVec.ofNat 32 w.bytes) else BitVec.ofNat 32 w.bytes
    let next (r : Reg) : Word := trunc asz.width (s.reg asz.width r + step)
    let di := s.reg asz.width .edi
    (∀ sg i a b u t, i = Instr.cmpsb .none asz sg ∧ w = .w8 ∨ (∃ z : Size, i = .cmpsw z .none asz sg ∧ w = z.width) →
      (segRead sg (s.reg asz.width .esi) w).run s = .ok a u → (segRead .es di w).run u = .ok b t →
      exec i s = .next { t with
        regs := (s.regs.setView asz.width .esi (next .esi)).setView asz.width .edi (next .edi)
        flags := putStatus s.flags (subStatus w a b false), eip := s.nextEip } ∧
      Accessed s t []) ∧
    (∀ i b t, i = Instr.scasb .none asz ∧ w = .w8 ∨ (∃ z : Size, i = .scasw z .none asz ∧ w = z.width) →
      (segRead .es di w).run s = .ok b t →
      exec i s = .next { t with
        regs := s.regs.setView asz.width .edi (next .edi)
        flags := putStatus s.flags (subStatus w (s.reg w .eax) b false), eip := s.nextEip } ∧
      Accessed s t [])

/-- R340 and R505 without a repeat prefix: where the element faults the instruction takes that fault, with every register as
it was. -/
def Sys2Proof.Claim.StringFaults : Prop :=
  ∀ (i : Instr) (zf : Bool) (asz : Size) (body : Op Unit) (s : State), repeated i = some (.none, zf, asz, body) →
    FaultsWhere i s s body

/-- The string instructions without a repeat prefix complete, or take the fault of their element (R340, R342 to R346). -/
def Obligations.StringsComplete : Prop :=
  Claim.StoreStringsComplete ∧ Claim.CompareStringsComplete ∧ Claim.StringFaults

/-- R341: a repeated string instruction with count 0 does nothing; else it does one element and counts down, and then
ends, is left with EIP still at it for an interrupt or where the element wrote into the running block (R134), or goes on as
the same instruction from there; a fault in an element undoes that element only. That the mark of the running block is set
anew before each element and is gone where the element wrote into the block, and that the poll sees the requests raised
inside the element's own calls of devices, is the model's reading (assumption log 21, DEDUCED). -/
def Obligations.RepeatLaw : Prop :=
  ∀ (i : Instr) (rep : Rep) (zf : Bool) (asz : Size) (body : Op Unit) (s : State),
    s.Inv → repeated i = some (rep, zf, asz, body) → rep ≠ .none →
    let c := s.reg asz.width .ecx
    (c = 0 → exec i s = .next { s with eip := s.nextEip }) ∧
    (∀ u, c ≠ 0 → body.run { s with inBlock := true } = .ok () u →
      let t : State := { u with regs := u.regs.setView asz.width .ecx (c - 1), inBlock := s.inBlock && u.inBlock }
      let done := c = 1 ∨ (zf = true ∧ (rep = .repe ∧ u.flag .zf = false ∨ rep = .repne ∧ u.flag .zf = true))
      let due := u.pending ≠ [] ∧ u.flag .if_ = true
      let hit := u.inBlock = false
      (done → exec i s = .next { t with eip := s.nextEip }) ∧
      (¬ done → due ∨ hit → exec i s = .next { t with eip := s.startEip, inBlock := false }) ∧
      (¬ done → ¬ due → ¬ hit → exec i s = exec i t)) ∧
    (∀ f u, c ≠ 0 → body.run { s with inBlock := true } = .error (.fault f false) u → FaultsWith i s u f)

/-! ### Control transfer -/

/-- R361, R362 and R363: the near jumps. A relative target is the next instruction's address plus the displacement, at
the operand size (R171); a condition not met goes on; the block ends either way and nothing else changes. Where the operand
of JMP faults the instruction takes that fault.
Device memory: assumption log 14. -/
def Sys2Proof.Claim.NearJumps : Prop :=
  ∀ (z : Size) (s : State),
    let goes (eip : Word) : Host.Outcome State Fault Refusal := .next { s with eip := eip, inBlock := false }
    let near (disp : Word) : Word := trunc z.width (s.nextEip + disp)
    (∀ cb : Byte, exec (.jmpShort z cb) s = goes (near (cb.signExtend 32))) ∧
    (∀ cv : Word, exec (.jmpNear z cv) s = goes (near (BitVec.ofInt 32 (sint z.width cv)))) ∧
    (∀ (cc : Cond) (cb : Byte), exec (.jccShort z cc cb) s =
      goes (if condHolds s.flags cc then near (cb.signExtend 32) else s.nextEip)) ∧
    (∀ (cc : Cond) (cv : Word), exec (.jccNear z cc cv) s =
      goes (if condHolds s.flags cc then near (BitVec.ofInt 32 (sint z.width cv)) else s.nextEip)) ∧
    (∀ rm, FaultsWhere (.jmpRm z rm) s s (readRM z.width rm)) ∧
    (∀ rm v u, s.Inv → (readRM z.width rm).run s = .ok v u →
      exec (.jmpRm z rm) s = .next { u with eip := v, inBlock := false } ∧ Accessed s u [])

/-- R365 and R366: JCXZ jumps on a zero count; the LOOP instructions count down first, at the address size, and jump
while the count is not zero and, for LOOPE and LOOPNE, ZF is as they want it. -/
def Sys2Proof.Claim.CountedJumpsComplete : Prop :=
  ∀ (z asz : Size) (cb : Byte) (s : State),
    let near : Word := trunc z.width (s.nextEip + cb.signExtend 32)
    let c := s.reg asz.width .ecx
    let down : Regs := s.regs.setView asz.width .ecx (c - 1)
    let goes (b : Bool) : Word := if b then near else s.nextEip
    exec (.jcxz z asz cb) s = .next { s with eip := goes (decide (c = 0)), inBlock := false } ∧
    exec (.loop z asz cb) s = .next { s with regs := down, eip := goes (decide (c ≠ 1)), inBlock := false } ∧
    exec (.loope z asz cb) s =
      .next { s with regs := down, eip := goes (decide (c ≠ 1) && s.flag .zf), inBlock := false } ∧
    exec (.loopne z asz cb) s =
      .next { s with regs := down, eip := goes (decide (c ≠ 1) && !s.flag .zf), inBlock := false }

/-- The jumps complete, taken or not (R361 to R366). -/
def Obligations.JumpsComplete : Prop := Claim.NearJumps ∧ Claim.CountedJumpsComplete

/-- R367, R368 and R369: near CALL pushes the address of the next instruction and jumps; near RET pops its target and
releases the bytes it names. Device memory: assumption log 14. -/
def Sys2Proof.Claim.NearCallsAndReturns : Prop :=
  ∀ (z : Size) (s : State), s.Inv →
    let slot := s.linear .ss (s.pushSp z)
    let called (t : State) (eip : Word) : Host.Outcome State Fault Refusal := .next { t with
      regs := s.regs.setView s.ssz.width .esp (s.pushSp z), eip := eip, inBlock := false }
    (∀ cv t, (segWrite .ss (s.pushSp z) z.width s.nextEip).run s = .ok () t →
      exec (.callNear z cv) s = called t (trunc z.width (s.nextEip + BitVec.ofInt 32 (sint z.width cv))) ∧
      Accessed s t [(slot, z.width.bytes)] ∧ Stored s t slot z.width s.nextEip) ∧
    (∀ rm v u t, (readRM z.width rm).run s = .ok v u →
      (segWrite .ss (s.pushSp z) z.width s.nextEip).run u = .ok () t →
      exec (.callRm z rm) s = called t v ∧
      Accessed s t [(slot, z.width.bytes)] ∧ Stored s t slot z.width s.nextEip) ∧
    (∀ v u, (segRead .ss s.sp z.width).run s = .ok v u →
      Accessed s u [] ∧
      exec (.ret z) s = .next { u with regs := s.spAfter z.width.bytes, eip := v, inBlock := false } ∧
      (∀ iw : Half, exec (.retImm z iw) s =
        .next { u with regs := s.spAfter (z.width.bytes + iw.toNat), eip := v, inBlock := false }))

/-- R220 and R505: where the operand read or the push of a near CALL, or the pop of a near RET, faults the instruction takes
that fault, and the stack pointer, EIP and every other register are as they were. -/
def Sys2Proof.Claim.NearCallAndReturnFaults : Prop :=
  ∀ (z : Size) (s : State),
    (∀ cv, FaultsWhere (.callNear z cv) s s (segWrite .ss (s.pushSp z) z.width s.nextEip)) ∧
    (∀ rm, FaultsWhere (.callRm z rm) s s (readRM z.width rm) ∧
      ∀ v u, s.Inv → (readRM z.width rm).run s = .ok v u →
        FaultsWhere (.callRm z rm) s u (segWrite .ss (s.pushSp z) z.width s.nextEip)) ∧
    ∀ iw, ∀ i ∈ [Instr.ret z, .retImm z iw], FaultsWhere i s s (segRead .ss s.sp z.width)

/-- Near CALL and RET complete, or take the fault of an access (R220, R367 to R369, R505). -/
def Obligations.CallsAndReturnsComplete : Prop := Claim.NearCallsAndReturns ∧ Claim.NearCallAndReturnFaults

/-- A far JMP or CALL has its far pointer, in state `r`: the instruction holds it, or it was read from memory, the offset
first and the selector above it (R380). That the selector's address wraps at the address size is the model's reading
(assumption log 13, DEDUCED). -/
def Sys2Proof.Claim.FarTarget (k : FarKind) (i : Instr) (z : Size) (sel : Half) (off : Word) (s r : State) : Prop :=
  (i = (match k with
    | .jmp => Instr.jmpFarPtr z sel off
    | .call => .callFarPtr z sel off) ∧ r = s) ∨
  ∃ (m : MemRef) (v : State) (w : Word),
    i = (match k with
      | .jmp => Instr.jmpFarMem z (.mem m)
      | .call => .callFarMem z (.mem m)) ∧
    (segRead m.seg (s.off m) z.width).run s = .ok off v ∧
    (segRead m.seg (trunc (addrSize m.addr).width (s.off m + BitVec.ofNat 32 z.width.bytes)) .w16).run v = .ok w r ∧
    sel = w.setWidth 16

/-- R380 to R383: far JMP and CALL in real and virtual-8086 mode load CS and EIP with no check; CALL pushes CS and the
return address first, and takes the fault of a push. Device memory: assumption log 14. -/
def Sys2Proof.Claim.FlatFarTransfersComplete : Prop :=
  ∀ (k : FarKind) (i : Instr) (z : Size) (sel : Half) (off : Word) (s r : State), s.Inv → s.protMode = false →
    Claim.FarTarget k i z sel off s r →
    let back : List Word := [s.segs.cs.selector.setWidth 32, s.nextEip]
    Accessed s r [] ∧
    (k = .jmp → exec i s = .next (r.goesTo (s.flatCs sel) (trunc z.width off))) ∧
    (k = .call → FaultsWhere i s r (pushAll z back)) ∧
    (∀ t, k = .call → (pushAll z back).run r = .ok () t →
      exec i s = .next (t.goesTo (s.flatCs sel) (trunc z.width off)) ∧ Pushed r t z back)

/-- R384: far JMP and CALL to a code segment in protected mode. The level stays, and CS takes it as its RPL; CALL takes the
fault of a push.
Device memory: assumption log 14. -/
def Sys2Proof.Claim.FarCodeTransfersComplete : Prop :=
  ∀ (k : FarKind) (i : Instr) (z : Size) (sel : Half) (off : Word) (s r u : State) (d : Desc) (a : Word),
    s.Inv → s.protMode = true → Claim.FarTarget k i z sel off s r →
    nullSel sel = false → (fetchDescriptor sel).run r = .ok (some (d, a)) u →
    d.isCode = true → d.p = true → off.toNat ≤ d.limit.toNat →
    (d.conforming = true ∧ d.dpl.toNat ≤ s.cpl.toNat ∨
      d.conforming = false ∧ (rpl sel).toNat ≤ s.cpl.toNat ∧ d.dpl = s.cpl) →
    let back : List Word := [s.segs.cs.selector.setWidth 32, s.nextEip]
    let cs := codeReg sel d s.cpl
    Accessed s u [] ∧ (k = .jmp → exec i s = .next (u.goesTo cs (trunc z.width off))) ∧
    (k = .call → FaultsWhere i s u (pushAll z back)) ∧
    (∀ t, k = .call → (pushAll z back).run u = .ok () t →
      exec i s = .next (t.goesTo cs (trunc z.width off)) ∧ Pushed u t z back)

/-- R380 and R505: where the read of the far pointer faults, its offset or the selector above it (assumption log 13), a far
JMP or CALL takes that fault in every mode, with every register as it was. -/
def Sys2Proof.Claim.FarPointerFaults : Prop :=
  ∀ (z : Size) (m : MemRef) (s : State), ∀ i ∈ [Instr.jmpFarMem z (.mem m), .callFarMem z (.mem m)],
    FaultsWhere i s s (segRead m.seg (s.off m) z.width) ∧
    ∀ off v, (segRead m.seg (s.off m) z.width).run s = .ok off v → FaultsWhere i s v
      (segRead m.seg (trunc (addrSize m.addr).width (s.off m + BitVec.ofNat 32 z.width.bytes)) .w16)

/-- Far JMP and CALL complete, with the pointer in the instruction or in memory, in each mode, or take the fault of an access
(R380 to R384). -/
def Obligations.FarTransfersComplete : Prop :=
  Claim.FlatFarTransfersComplete ∧ Claim.FarCodeTransfersComplete ∧ Claim.FarPointerFaults

/-- R384 and R385: what a far JMP or CALL in protected mode turns away, in the order of the checks, and the fault of a read
of the descriptor; a call gate is refused by its name. -/
def Sys2Proof.Claim.FarSegmentChecks : Prop :=
  ∀ (k : FarKind) (i : Instr) (z : Size) (sel : Half) (off : Word) (s r : State), s.protMode = true →
    Claim.FarTarget k i z sel off s r →
    let code := some (sel.setWidth 32 &&& 0xFFFC)
    (nullSel sel = true → RaisesFault i s r .gp (some 0)) ∧
    (nullSel sel = false → FaultsWhere i s r (fetchDescriptor sel)) ∧
    (∀ u, nullSel sel = false → (fetchDescriptor sel).run r = .ok none u → RaisesFault i s u .gp code) ∧
    (∀ d a u, nullSel sel = false → (fetchDescriptor sel).run r = .ok (some (d, a)) u →
      (d.cls ∈ [DescClass.data, .ldt, .intGate16, .trapGate16, .intGate32, .trapGate32, .invalid] →
        RaisesFault i s u .gp code) ∧
      (d.cls ∈ [DescClass.callGate16, .callGate32] → exec i s = .refused .callGateTransfer) ∧
      (d.isCode = true →
        let ok := (d.conforming = true ∧ d.dpl.toNat ≤ s.cpl.toNat ∨
          d.conforming = false ∧ (rpl sel).toNat ≤ s.cpl.toNat ∧ d.dpl = s.cpl)
        (¬ ok → RaisesFault i s u .gp code) ∧
        (ok → d.p = false → RaisesFault i s u .np code) ∧
        (ok → d.p = true → d.limit.toNat < off.toNat → RaisesFault i s u .gp (some 0))))

/-- The instruction switches to a task, from state `u` on, and saves the address of the next instruction (R475, R477): it
completes as the switch does, and a fault of the switch is its own, past the commit point (R482) the incoming task's, which
returns to that task's EIP: the model's reading (assumption log 12). -/
def Sys2Proof.Claim.SwitchesTask (i : Instr) (s u : State) (sel : Half) (d : Desc) (a : Word) (op : SwitchOp) : Prop :=
  let switch := (switchToTask sel d a op s.nextEip).run u
  (∀ t, switch = .ok () t → exec i s = .next { t with inBlock := false }) ∧
  (∀ f w, switch = .error (.fault f false) w → FaultsWith i s w f) ∧
  (∀ f w, switch = .error (.fault f true) w → exec i s = dispatchFault faultChain f w.eip w) ∧
  (∀ x w, switch = .error (.refuse x) w → exec i s = .refused x)

/-- R386: far JMP and CALL to a task-state segment or a task gate in protected mode: the checks in their order, then the
task switch. -/
def Sys2Proof.Claim.FarTaskTransfers : Prop :=
  ∀ (k : FarKind) (i : Instr) (z : Size) (sel : Half) (off : Word) (s r u : State) (d : Desc) (a : Word),
    s.protMode = true → Claim.FarTarget k i z sel off s r →
    nullSel sel = false → (fetchDescriptor sel).run r = .ok (some (d, a)) u →
    let code (x : Half) : Option Word := some (x.setWidth 32 &&& 0xFFFC)
    let op : SwitchOp := match k with
      | .jmp => .jmp
      | .call => .call
    let low := d.dpl.toNat < s.cpl.toNat ∨ d.dpl.toNat < (rpl sel).toNat
    (d.cls ∈ [DescClass.tss16Avail, .tss16Busy, .tss32Avail, .tss32Busy] →
      let bad := sel.getLsbD 2 = true ∨ low ∨ d.cls = .tss16Busy ∨ d.cls = .tss32Busy
      (bad → RaisesFault i s u .gp (code sel)) ∧
      (¬ bad → d.p = false → RaisesFault i s u .np (code sel)) ∧
      (¬ bad → d.p = true → Claim.SwitchesTask i s u sel d a op)) ∧
    (d.cls = .taskGate →
      let tsel := d.gateSel
      let named := nullSel tsel = false ∧ tsel.getLsbD 2 = false
      (low → RaisesFault i s u .gp (code sel)) ∧
      (¬ low → d.p = false → RaisesFault i s u .np (code sel)) ∧
      (¬ low → d.p = true → ¬ named → RaisesFault i s u .gp (code tsel)) ∧
      (∀ v, ¬ low → d.p = true → named → (fetchDescriptor tsel).run u = .ok none v → RaisesFault i s v .gp (code tsel)) ∧
      (∀ td ta v, ¬ low → d.p = true → named → (fetchDescriptor tsel).run u = .ok (some (td, ta)) v →
        let avail := td.cls = .tss16Avail ∨ td.cls = .tss32Avail
        (¬ avail → RaisesFault i s v .gp (code tsel)) ∧
        (avail → td.p = false → RaisesFault i s v .np (code tsel)) ∧
        (avail → td.p = true → Claim.SwitchesTask i s v tsel td ta op)))

/-- What a far JMP or CALL does in protected mode where its selector names no code segment it may go to: the faults, the
refusal, the task switch (R384 to R386). -/
def Obligations.FarTransferChecks : Prop := Claim.FarSegmentChecks ∧ Claim.FarTaskTransfers

/-- R390: RETF in each mode. In protected mode it returns to a code segment of the same level, or faults by the check that
fails first; the return to an outer level is refused by its name. A fault of a pop or of the read of the descriptor is its
own, with the stack pointer and every other register as they were (R505). Device memory: assumption log 14. -/
def Obligations.FarReturnsComplete : Prop :=
  (∀ z iw s, FaultsWhere (.retf z) s s (popAll z 2) ∧ FaultsWhere (.retfImm z iw) s s (popAll z 2)) ∧
  ∀ (z : Size) (iw : Half) (s u : State) (ip cs : Word), s.Inv → (popAll z 2).run s = .ok [ip, cs] u →
    let sel : Half := cs.setWidth 16
    let code := some (sel.setWidth 32 &&& 0xFFFC)
    let released (n : Nat) : Regs := s.spAfter (2 * z.width.bytes + n)
    let goes (t : State) (g : SegReg) : Prop :=
      exec (.retf z) s = .next { t.goesTo g ip with regs := released 0 } ∧
      exec (.retfImm z iw) s = .next { t.goesTo g ip with regs := released iw.toNat }
    let faults (t : State) (k : FaultKind) (c : Option Word) : Prop :=
      RaisesFault (.retf z) s t k c ∧ RaisesFault (.retfImm z iw) s t k c
    Popped s u z [ip, cs] ∧
    (s.protMode = false → goes u (s.flatCs sel)) ∧
    (s.protMode = true → nullSel sel = true → faults u .gp (some 0)) ∧
    (s.protMode = true → nullSel sel = false →
      FaultsWhere (.retf z) s u (fetchDescriptor sel) ∧ FaultsWhere (.retfImm z iw) s u (fetchDescriptor sel)) ∧
    (∀ v, s.protMode = true → nullSel sel = false → (fetchDescriptor sel).run u = .ok none v → faults v .gp code) ∧
    (∀ d a v, s.protMode = true → nullSel sel = false → (fetchDescriptor sel).run u = .ok (some (d, a)) v →
      let fit := if d.conforming then d.dpl.toNat ≤ s.cpl.toNat else d.dpl = s.cpl
      (d.isCode = false → faults v .gp code) ∧
      (d.isCode = true → (rpl sel).toNat < s.cpl.toNat → faults v .gp code) ∧
      (d.isCode = true → s.cpl.toNat < (rpl sel).toNat →
        exec (.retf z) s = .refused .farReturnOuter ∧ exec (.retfImm z iw) s = .refused .farReturnOuter) ∧
      (d.isCode = true → rpl sel = s.cpl → ¬ fit → faults v .gp code) ∧
      (d.isCode = true → rpl sel = s.cpl → fit → d.p = false → faults v .np code) ∧
      (d.isCode = true → rpl sel = s.cpl → fit → d.p = true → goes v (codeReg sel d s.cpl) ∧ Accessed u v []))

/-! ### Interrupts and their return -/

/-- R393, R394 and R395: INT n, INT3 and INTO take the software interrupt, with the address of the next instruction to
return to; a fault while they dispatch is an ordinary fault of theirs (R510), past the commit point of a task switch the
incoming task's (R482; assumption logs 12 and 22, the model's readings); INTO without overflow goes on. -/
def Obligations.SoftwareInterrupts : Prop :=
  ∀ s : State,
    let takes (i : Instr) (n : Nat) : Prop :=
      (∀ t, (dispatch n .software none s.nextEip).run s = .ok () t → exec i s = .next { t with inBlock := false }) ∧
      (∀ f u, (dispatch n .software none s.nextEip).run s = .error (.fault f false) u → FaultsWith i s u f) ∧
      (∀ f u, (dispatch n .software none s.nextEip).run s = .error (.fault f true) u →
        exec i s = dispatchFault faultChain f u.eip u) ∧
      (∀ x u, (dispatch n .software none s.nextEip).run s = .error (.refuse x) u → exec i s = .refused x)
    takes .int3 3 ∧
    (∀ ib : Byte, s.v86Mode = false ∨ s.iopl = 3 → takes (.int ib) ib.toNat) ∧
    (s.flag .of = true → takes .into 4) ∧
    (s.flag .of = false → exec .into s = .next { s with eip := s.nextEip, inBlock := false })

/-- R522: dispatch in real mode. FLAGS, CS and IP are pushed as words, IF and TF cleared, and CS and IP loaded from the
four bytes of the vector; no error code is pushed; a vector beyond the table is `#GP(0)`.
Device memory: assumption log 14. -/
def Obligations.RealModeDispatch : Prop :=
  State.reset.idtr.base = 0 ∧
  ∀ (v : Nat) (k : DispatchKind) (code : Option Word) (ret : Word) (s : State), s.Inv → s.realMode = true →
    (s.idtr.limit.toNat < 4 * v + 3 → (dispatch v k code ret).run s =
      .error (.fault { kind := .gp, code := some 0, addr := none } false) s) ∧
    (∀ off seg u w t, 4 * v + 3 ≤ s.idtr.limit.toNat →
      (sysRead (s.idtr.base + BitVec.ofNat 32 (4 * v)) .w16).run s = .ok off u →
      (sysRead (s.idtr.base + BitVec.ofNat 32 (4 * v + 2)) .w16).run u = .ok seg w →
      let vs : List Word := [flagsValue s.flags, s.segs.cs.selector.setWidth 32, ret]
      (pushAll .s16 vs).run w = .ok () t →
      (dispatch v k code ret).run s = .ok () { t with
        flags := putFlag (putFlag s.flags .if_ false) .tf false
        segs := { s.segs with cs := { s.segs.cs with
          selector := seg.setWidth 16, base := (seg.setWidth 16 : Half).setWidth 32 <<< 4
          readable := true, writable := true, valid := true } }
        eip := off } ∧
      Accessed s w [] ∧ Pushed w t .s16 vs)

/-- The dispatch of a vector has come to a present interrupt or trap gate that it may use and to the present code segment
the gate names: the reads of R523 and R524 and every test they make up to the comparison of the levels. `x` is the state
after them. -/
def Sys2Proof.Claim.GateReached (v : Nat) (k : DispatchKind) (s x : State) (g d : Desc) : Prop :=
  ∃ (lo hi a : Word) (u w : State),
    8 * v + 7 ≤ s.idtr.limit.toNat ∧
    (sysRead (s.idtr.base + BitVec.ofNat 32 (8 * v)) .w32).run s = .ok lo u ∧
    (sysRead (s.idtr.base + BitVec.ofNat 32 (8 * v + 4)) .w32).run u = .ok hi w ∧ g = parseDesc lo hi ∧
    g.cls ∈ [DescClass.intGate16, .trapGate16, .intGate32, .trapGate32] ∧
    (k = .software → s.cpl.toNat ≤ g.dpl.toNat) ∧ g.p = true ∧
    nullSel g.gateSel = false ∧ (fetchDescriptor g.gateSel).run w = .ok (some (d, a)) x ∧
    d.isCode = true ∧ d.p = true ∧ d.dpl.toNat ≤ s.cpl.toNat

/-- R528: the flags after entry through a gate: TF, NT, RF and VM are cleared, IF by an interrupt gate, and no other. -/
def Sys2Proof.Claim.GateFlags (s : State) (g : Desc) (f : Word) : Prop :=
  (∀ q : Flag, getFlag f q =
    if q = .tf ∨ q = .nt ∨ q = .rf ∨ q = .vm ∨ (q = .if_ ∧ (g.cls = .intGate16 ∨ g.cls = .intGate32)) then false
    else getFlag s.flags q) ∧
  iopl f = iopl s.flags

/-- R523, R524 and R528: dispatch through an interrupt or trap gate at the same privilege level. The flags, CS, the
return address and an error code are pushed at the gate's size; TF, NT, RF and VM are cleared, and IF by an interrupt
gate. Device memory: assumption log 14. -/
def Sys2Proof.Claim.SameLevelEntry : Prop :=
  ∀ (v : Nat) (k : DispatchKind) (code : Option Word) (ret : Word) (s x t : State) (g d : Desc),
    s.Inv → s.protMode = true → Claim.GateReached v k s x g d → d.conforming = true ∨ d.dpl = s.cpl →
    let big := g.cls = .intGate32 ∨ g.cls = .trapGate32
    let z : Size := if big then .s32 else .s16
    let vs : List Word := [flagsValue s.flags, s.segs.cs.selector.setWidth 32, ret] ++ code.toList
    (pushAll z vs).run x = .ok () t →
    ∃ f : Word, (dispatch v k code ret).run s = .ok () { t with
        segs := { s.segs with cs := codeReg g.gateSel d s.cpl }
        eip := if big then g.gateOff else g.gateOff &&& 0xFFFF
        flags := f } ∧
      Claim.GateFlags s g f ∧ Accessed s x [] ∧ Pushed x t z vs

/-- R502, R523, R524 and R529: what a dispatch outside real mode turns away on its way to the gate and the code segment
behind it, in the order of the checks, with the error codes: the limit of the IDT, a wrong class, the gate's DPL for a
software interrupt, an absent gate, then the selector of the handler. -/
def Sys2Proof.Claim.DispatchFaults : Prop :=
  ∀ (v : Nat) (k : DispatchKind) (code : Option Word) (ret : Word) (s : State), s.realMode = false →
    let ext : Word := if k = .software then 0 else 1
    let ic : Word := BitVec.ofNat 32 (8 * v + 2) + ext
    let sc (x : Half) : Word := (x.setWidth 32 &&& 0xFFFC) + ext
    let stops (kind : FaultKind) (c : Word) (x : State) : Prop :=
      (dispatch v k code ret).run s = .error (.fault { kind := kind, code := some c, addr := none } false) x
    (s.idtr.limit.toNat < 8 * v + 7 → stops .gp ic s) ∧
    (∀ lo hi u w, 8 * v + 7 ≤ s.idtr.limit.toNat →
      (sysRead (s.idtr.base + BitVec.ofNat 32 (8 * v)) .w32).run s = .ok lo u →
      (sysRead (s.idtr.base + BitVec.ofNat 32 (8 * v + 4)) .w32).run u = .ok hi w →
      let g := parseDesc lo hi
      let handler := g.cls ∈ [DescClass.intGate16, .trapGate16, .intGate32, .trapGate32]
      let mayUse := k = .software → s.cpl.toNat ≤ g.dpl.toNat
      (¬ handler → g.cls ≠ .taskGate → stops .gp ic w) ∧
      (handler ∨ g.cls = .taskGate → ¬ mayUse → stops .gp (BitVec.ofNat 32 (8 * v + 2)) w) ∧
      (handler ∨ g.cls = .taskGate → mayUse → g.p = false → stops .np ic w) ∧
      (handler → mayUse → g.p = true →
        (nullSel g.gateSel = true → stops .gp ext w) ∧
        (∀ x, nullSel g.gateSel = false → (fetchDescriptor g.gateSel).run w = .ok none x →
          stops .gp (sc g.gateSel) x) ∧
        (∀ d a x, nullSel g.gateSel = false → (fetchDescriptor g.gateSel).run w = .ok (some (d, a)) x →
          (d.isCode = false ∨ s.cpl.toNat < d.dpl.toNat → stops .gp (sc g.gateSel) x) ∧
          (d.isCode = true → d.dpl.toNat ≤ s.cpl.toNat → d.p = false → stops .np (sc g.gateSel) x))))

/-- R527 and R483: a dispatch through a task gate: its checks, with their error codes, then the task switch, whose end is
the dispatch's; an error code is pushed as 32 bits on the incoming task's stack, and a fault of that push is past the
commit point (assumption log 12, the model's reading). Device memory: assumption log 14. -/
def Sys2Proof.Claim.TaskGateDispatch : Prop :=
  ∀ (v : Nat) (k : DispatchKind) (code : Option Word) (ret lo hi : Word) (s u w : State), s.Inv → s.realMode = false →
    8 * v + 7 ≤ s.idtr.limit.toNat →
    (sysRead (s.idtr.base + BitVec.ofNat 32 (8 * v)) .w32).run s = .ok lo u →
    (sysRead (s.idtr.base + BitVec.ofNat 32 (8 * v + 4)) .w32).run u = .ok hi w →
    let g := parseDesc lo hi
    g.cls = .taskGate → (k = .software → s.cpl.toNat ≤ g.dpl.toNat) → g.p = true →
    let sel := g.gateSel
    let sc : Word := (sel.setWidth 32 &&& 0xFFFC) + (if k = .software then 0 else 1)
    let answer := (dispatch v k code ret).run s
    let stops (kind : FaultKind) (x : State) : Prop :=
      answer = .error (.fault { kind := kind, code := some sc, addr := none } false) x
    let named := nullSel sel = false ∧ sel.getLsbD 2 = false
    (¬ named → stops .gp w) ∧
    (∀ x, named → (fetchDescriptor sel).run w = .ok none x → stops .gp x) ∧
    (∀ td ta x, named → (fetchDescriptor sel).run w = .ok (some (td, ta)) x →
      let avail := td.cls = .tss16Avail ∨ td.cls = .tss32Avail
      let switch := (switchToTask sel td ta .interrupt ret).run x
      (¬ avail → stops .gp x) ∧ (avail → td.p = false → stops .np x) ∧
      (∀ e y, avail → td.p = true → switch = .error e y → answer = .error e y) ∧
      (∀ y, avail → td.p = true → switch = .ok () y →
        (code = none → answer = .ok () y) ∧
        (∀ c t, code = some c → (pushAll .s32 [c]).run y = .ok () t → answer = .ok () t ∧ Pushed y t .s32 [c]) ∧
        (∀ c f b t, code = some c → (pushAll .s32 [c]).run y = .error (.fault f b) t →
          answer = .error (.fault f true) t)))

/-- Dispatch outside real mode: entry at the same privilege level, what is turned away, and task gates (R502, R523, R524,
R527 to R529). -/
def Obligations.GateSameLevel : Prop := Claim.SameLevelEntry ∧ Claim.DispatchFaults ∧ Claim.TaskGateDispatch

/-- The stack for level `n` was read from the task-state segment and has passed every test (R471, R525): `y` is the state
after. -/
def Sys2Proof.Claim.NewStack (n : BitVec 2) (x y : State) (nss : Half) (nesp : Word) (kd : Desc) : Prop :=
  ∃ (ss a : Word) (p q : State),
    x.tr.type32 = true ∧ 8 * n.toNat + 11 ≤ x.tr.limit.toNat ∧
    (sysRead (x.tr.base + BitVec.ofNat 32 (4 + 8 * n.toNat)) .w32).run x = .ok nesp p ∧
    (sysRead (x.tr.base + BitVec.ofNat 32 (8 + 8 * n.toNat)) .w16).run p = .ok ss q ∧ nss = ss.setWidth 16 ∧
    nullSel nss = false ∧ (fetchDescriptor nss).run q = .ok (some (kd, a)) y ∧
    rpl nss = n ∧ kd.dpl = n ∧ kd.cls = .data ∧ kd.type.getLsbD 1 = true ∧ kd.p = true

/-- R525, R471 and R528: dispatch from protected mode to a more privileged level: the stack of the TSS is taken, the
old one is pushed on it, and CPL becomes the handler's. Device memory: assumption log 14. -/
def Sys2Proof.Claim.InnerLevelEntry : Prop :=
  ∀ (v : Nat) (k : DispatchKind) (code : Option Word) (ret : Word) (s x y t : State) (g d kd : Desc) (nesp : Word)
    (nss : Half),
    s.Inv → s.protMode = true → Claim.GateReached v k s x g d → d.conforming = false → d.dpl.toNat < s.cpl.toNat →
    Claim.NewStack d.dpl x y nss nesp kd →
    let big := g.cls = .intGate32 ∨ g.cls = .trapGate32
    let z : Size := if big then .s32 else .s16
    let vs : List Word := [s.segs.ss.selector.setWidth 32, s.regs.esp, flagsValue s.flags,
      s.segs.cs.selector.setWidth 32, ret] ++ code.toList
    let inner : State := { y with
      segs := { s.segs with ss := .ofDesc nss kd }, cpl := d.dpl
      regs := s.regs.setView (if kd.db then .w32 else .w16) .esp nesp }
    (pushAll z vs).run inner = .ok () t →
    ∃ f : Word, (dispatch v k code ret).run s = .ok () { t with
        segs := { s.segs with ss := .ofDesc nss kd, cs := codeReg g.gateSel d d.dpl }
        eip := if big then g.gateOff else g.gateOff &&& 0xFFFF
        flags := f } ∧
      Claim.GateFlags s g f ∧ Accessed s y [] ∧ Pushed inner t z vs

/-- R471 and R525: what the new stack of an entry to an inner level can be turned away for, in the order of the checks; a
16-bit task-state segment is refused by its name. From virtual-8086 mode the level is 0 and the gate has 32 bits (R526). -/
def Sys2Proof.Claim.NewStackChecks : Prop :=
  ∀ (v : Nat) (k : DispatchKind) (code : Option Word) (ret : Word) (s x : State) (g d : Desc), s.realMode = false →
    Claim.GateReached v k s x g d → d.conforming = false → d.dpl.toNat < s.cpl.toNat →
    (s.v86Mode = true → d.dpl = 0 ∧ (g.cls = .intGate32 ∨ g.cls = .trapGate32)) →
    let n := d.dpl.toNat
    let ext : Word := if k = .software then 0 else 1
    let stops (kind : FaultKind) (c : Word) (y : State) : Prop :=
      (dispatch v k code ret).run s = .error (.fault { kind := kind, code := some c, addr := none } false) y
    (s.tr.type32 = false → (dispatch v k code ret).run s = .error (.refuse .tss16) x) ∧
    (s.tr.type32 = true → s.tr.limit.toNat < 8 * n + 11 → stops .ts (s.tr.selector.setWidth 32 &&& 0xFFFC) x) ∧
    (∀ nesp ss p q, s.tr.type32 = true → 8 * n + 11 ≤ s.tr.limit.toNat →
      (sysRead (s.tr.base + BitVec.ofNat 32 (4 + 8 * n)) .w32).run x = .ok nesp p →
      (sysRead (s.tr.base + BitVec.ofNat 32 (8 + 8 * n)) .w16).run p = .ok ss q →
      let nss : Half := ss.setWidth 16
      let sc : Word := (nss.setWidth 32 &&& 0xFFFC) + ext
      (nullSel nss = true → stops .ts ext q) ∧
      (∀ y, nullSel nss = false → (fetchDescriptor nss).run q = .ok none y → stops .ts sc y) ∧
      (∀ kd a y, nullSel nss = false → (fetchDescriptor nss).run q = .ok (some (kd, a)) y →
        let fit := rpl nss = d.dpl ∧ kd.dpl = d.dpl ∧ kd.cls = .data ∧ kd.type.getLsbD 1 = true
        (¬ fit → stops .ts sc y) ∧ (fit → kd.p = false → stops .ss sc y)))

/-- R526: dispatch from virtual-8086 mode. A handler of another level than 0 is `#GP`, a 16-bit gate is refused by its name;
else the level-0 stack is taken, VM leaves the flags, nine values are pushed and an error code, and ES, DS, FS and GS are
empty after it. Device memory: assumption log 14. -/
def Sys2Proof.Claim.DispatchFromV86 : Prop :=
  ∀ (v : Nat) (k : DispatchKind) (code : Option Word) (ret : Word) (s x : State) (g d : Desc),
    s.Inv → s.v86Mode = true → Claim.GateReached v k s x g d →
    let answer := (dispatch v k code ret).run s
    let sc : Word := (g.gateSel.setWidth 32 &&& 0xFFFC) + (if k = .software then 0 else 1)
    let inner := d.conforming = false ∧ d.dpl.toNat < s.cpl.toNat
    let big := g.cls = .intGate32 ∨ g.cls = .trapGate32
    (¬ inner ∨ d.dpl ≠ 0 → answer = .error (.fault { kind := .gp, code := some sc, addr := none } false) x) ∧
    (inner → d.dpl = 0 → ¬ big → answer = .error (.refuse .v86Gate16) x) ∧
    (∀ y nss nesp kd t, inner → d.dpl = 0 → big → Claim.NewStack 0 x y nss nesp kd →
      let sel (i : Seg) : Word := (s.seg i).selector.setWidth 32
      let vs : List Word := [sel .gs, sel .fs, sel .ds, sel .es, sel .ss, s.regs.esp, flagsValue s.flags, sel .cs, ret] ++
        code.toList
      let entered : State := { y with
        segs := { s.segs with ss := .ofDesc nss kd }, cpl := 0, flags := putFlag s.flags .vm false
        regs := s.regs.setView (if kd.db then .w32 else .w16) .esp nesp }
      (pushAll .s32 vs).run entered = .ok () t →
      let empty (i : Seg) : SegReg := { s.seg i with selector := 0, valid := false }
      ∃ f : Word, answer = .ok () { t with
          segs := { es := empty .es, cs := codeReg g.gateSel d 0, ss := .ofDesc nss kd, ds := empty .ds,
                    fs := empty .fs, gs := empty .gs }
          eip := g.gateOff, flags := f } ∧
        t.cpl = 0 ∧ Claim.GateFlags s g f ∧ Accessed s y [] ∧ Pushed entered t .s32 vs)

/-- Dispatch to a more privileged level: from protected mode, from virtual-8086 mode, and the checks of the new stack (R471,
R525, R526). -/
def Obligations.GateInnerLevel : Prop := Claim.InnerLevelEntry ∧ Claim.NewStackChecks ∧ Claim.DispatchFromV86

/-- R396: IRET in real and virtual-8086 mode pops IP, CS and FLAGS; VM never changes, nor IOPL in virtual-8086 mode;
RF and AC only with a 32-bit operand size. Device memory: assumption log 14. -/
def Sys2Proof.Claim.IretFlatComplete : Prop :=
  ∀ (z : Size) (s u : State) (ip cs fl : Word), s.Inv → s.protMode = false → s.v86Mode = false ∨ s.iopl = 3 →
    (popAll z 3).run s = .ok [ip, cs, fl] u →
    ∃ f : Word, exec (.iret z) s = .next { u.goesTo (s.flatCs (cs.setWidth 16)) ip with flags := f } ∧
      Popped s u z [ip, cs, fl] ∧
      (∀ q : Flag, getFlag f q =
        if q = .vm ∨ (z = .s16 ∧ (q = .rf ∨ q = .ac)) then getFlag s.flags q else fl.getLsbD q.bit) ∧
      iopl f = if s.v86Mode then iopl s.flags else fl.extractLsb' 12 2

/-- R397 at the same privilege level: IRET in protected mode pops EIP, CS and EFLAGS; IF changes only where CPL is at
most IOPL, IOPL only at CPL 0, VM never. Device memory: assumption log 14. -/
def Sys2Proof.Claim.IretSameLevelComplete : Prop :=
  ∀ (z : Size) (s u v : State) (ip cs fl : Word) (d : Desc) (a : Word), s.Inv → s.protMode = true →
    s.flag .nt = false → (popAll z 3).run s = .ok [ip, cs, fl] u →
    (z = .s16 ∨ fl.getLsbD 17 = false ∨ s.cpl ≠ 0) →
    let sel : Half := cs.setWidth 16
    nullSel sel = false → (fetchDescriptor sel).run u = .ok (some (d, a)) v → d.isCode = true → rpl sel = s.cpl →
    (if d.conforming then d.dpl.toNat ≤ s.cpl.toNat else d.dpl = s.cpl) → d.p = true →
    ∃ f : Word, exec (.iret z) s = .next { v.goesTo (codeReg sel d s.cpl) ip with flags := f } ∧
      Popped s u z [ip, cs, fl] ∧ Accessed u v [] ∧
      (∀ q : Flag, getFlag f q = if q = .vm ∨ (z = .s16 ∧ (q = .rf ∨ q = .ac)) ∨
        (q = .if_ ∧ s.iopl.toNat < s.cpl.toNat) then getFlag s.flags q else fl.getLsbD q.bit) ∧
      iopl f = if s.cpl = 0 then fl.extractLsb' 12 2 else iopl s.flags

/-- R397 and R398: IRET in protected mode to an outer level also pops the stack pointer and SS; the level and the stack
become the outer ones, IF and IOPL change by the old level, and a data segment that the new level may not use is emptied.
Device memory: assumption log 14. -/
def Sys2Proof.Claim.IretOuterLevelComplete : Prop :=
  ∀ (z : Size) (s u v w x : State) (ip cs fl nsp ssv : Word) (d kd : Desc) (a ka : Word), s.Inv → s.protMode = true →
    s.flag .nt = false → (popAll z 3).run s = .ok [ip, cs, fl] u →
    (z = .s16 ∨ fl.getLsbD 17 = false ∨ s.cpl ≠ 0) →
    let sel : Half := cs.setWidth 16
    let n := rpl sel
    nullSel sel = false → (fetchDescriptor sel).run u = .ok (some (d, a)) v → d.isCode = true →
    s.cpl.toNat < n.toNat → (if d.conforming then d.dpl.toNat ≤ n.toNat else d.dpl = n) → d.p = true →
    (popAll z 2).run v = .ok [nsp, ssv] w →
    let nss : Half := ssv.setWidth 16
    nullSel nss = false → (fetchDescriptor nss).run w = .ok (some (kd, ka)) x →
    rpl nss = n → kd.dpl = n → kd.cls = .data → kd.type.getLsbD 1 = true → kd.p = true →
    let outer (i : Seg) : SegReg :=
      let g := s.seg i
      let code := g.type.getLsbD 3 = true
      let usable := (¬ code ∨ g.type.getLsbD 1 = true) ∧
        ((code ∧ g.type.getLsbD 2 = true) ∨ max n.toNat (rpl g.selector).toNat ≤ g.dpl.toNat)
      if g.valid = true ∧ ¬ usable then { g with selector := 0, valid := false } else g
    ∃ f : Word, exec (.iret z) s = .next { x with
        regs := w.regs.setView (if kd.db then .w32 else .w16) .esp nsp
        segs := { es := outer .es, cs := codeReg sel d n, ss := .ofDesc nss kd, ds := outer .ds, fs := outer .fs,
                  gs := outer .gs }
        cpl := n, eip := ip, flags := f, inBlock := false } ∧
      Popped s u z [ip, cs, fl] ∧ Popped v w z [nsp, ssv] ∧ Accessed u v [] ∧ Accessed w x [] ∧
      (∀ q : Flag, getFlag f q = if q = .vm ∨ (z = .s16 ∧ (q = .rf ∨ q = .ac)) ∨
        (q = .if_ ∧ s.iopl.toNat < s.cpl.toNat) then getFlag s.flags q else fl.getLsbD q.bit) ∧
      iopl f = if s.cpl = 0 then fl.extractLsb' 12 2 else iopl s.flags

/-- R399: IRET at CPL 0 with a 32-bit operand size and VM set in the image pops nine values and goes to virtual-8086 mode,
with every flag of the image. Device memory: assumption log 14. -/
def Sys2Proof.Claim.IretToV86Complete : Prop :=
  ∀ (s u : State) (ip cs fl sp ss es ds fs gs : Word), s.Inv → s.protMode = true → s.flag .nt = false → s.cpl = 0 →
    (popAll .s32 9).run s = .ok [ip, cs, fl, sp, ss, es, ds, fs, gs] u → fl.getLsbD 17 = true →
    let seg (type : BitVec 4) (v : Word) : SegReg :=
      { selector := v.setWidth 16, base := (v &&& 0xFFFF) <<< 4, limitMin := 0, limitMax := 0xFFFF, type := type,
        dpl := 3, size32 := false, readable := true, writable := true, valid := true }
    ∃ f : Word, exec (.iret .s32) s = .next { u with
        regs := { s.regs with esp := sp }
        segs := { es := seg 3 es, cs := seg 0xB cs, ss := seg 3 ss, ds := seg 3 ds, fs := seg 3 fs, gs := seg 3 gs }
        cpl := 3, eip := ip &&& 0xFFFF, flags := f, inBlock := false } ∧
      Popped s u .s32 [ip, cs, fl, sp, ss, es, ds, fs, gs] ∧
      (∀ q : Flag, getFlag f q = fl.getLsbD q.bit) ∧ iopl f = fl.extractLsb' 12 2

/-- R397 with NT set: IRET returns to the task that the back link names, by a task switch, or faults by the check that
fails first. -/
def Sys2Proof.Claim.IretTaskReturn : Prop :=
  ∀ (z : Size) (s u : State) (v : Word), s.protMode = true → s.flag .nt = true →
    (sysRead s.tr.base .w16).run s = .ok v u →
    let link : Half := v.setWidth 16
    let code := some (link.setWidth 32 &&& 0xFFFC)
    let named := nullSel link = false ∧ link.getLsbD 2 = false
    (¬ named → RaisesFault (.iret z) s u .ts code) ∧
    (∀ w, named → (fetchDescriptor link).run u = .ok none w → RaisesFault (.iret z) s w .ts code) ∧
    (∀ d a w, named → (fetchDescriptor link).run u = .ok (some (d, a)) w →
      let busy := d.cls = .tss16Busy ∨ d.cls = .tss32Busy
      (¬ busy → RaisesFault (.iret z) s w .ts code) ∧ (busy → d.p = false → RaisesFault (.iret z) s w .np code) ∧
      (busy → d.p = true → Claim.SwitchesTask (.iret z) s w link d a .iret))

/-- R397 and R101: what IRET in protected mode turns away after its pops, in the order of the checks. -/
def Sys2Proof.Claim.IretChecks : Prop :=
  ∀ (z : Size) (s u : State) (ip cs fl : Word), s.protMode = true → s.flag .nt = false →
    (popAll z 3).run s = .ok [ip, cs, fl] u → (z = .s16 ∨ fl.getLsbD 17 = false ∨ s.cpl ≠ 0) →
    let sel : Half := cs.setWidth 16
    let n := rpl sel
    let code (x : Half) : Option Word := some (x.setWidth 32 &&& 0xFFFC)
    let faults (k : FaultKind) (c : Option Word) (x : State) : Prop := RaisesFault (.iret z) s x k c
    (nullSel sel = true → faults .gp (some 0) u) ∧
    (∀ v, nullSel sel = false → (fetchDescriptor sel).run u = .ok none v → faults .gp (code sel) v) ∧
    (∀ d a v, nullSel sel = false → (fetchDescriptor sel).run u = .ok (some (d, a)) v →
      let fit := d.isCode = true ∧ s.cpl.toNat ≤ n.toNat ∧ (if d.conforming then d.dpl.toNat ≤ n.toNat else d.dpl = n)
      (¬ fit → faults .gp (code sel) v) ∧ (fit → d.p = false → faults .np (code sel) v) ∧
      (∀ nsp ssv w, fit → d.p = true → n ≠ s.cpl → (popAll z 2).run v = .ok [nsp, ssv] w →
        let nss : Half := ssv.setWidth 16
        (nullSel nss = true → faults .gp (some 0) w) ∧
        (∀ x, nullSel nss = false → (fetchDescriptor nss).run w = .ok none x → faults .gp (code nss) x) ∧
        (∀ kd ka x, nullSel nss = false → (fetchDescriptor nss).run w = .ok (some (kd, ka)) x →
          let ok := rpl nss = n ∧ kd.dpl = n ∧ kd.cls = .data ∧ kd.type.getLsbD 1 = true
          (¬ ok → faults .gp (code nss) x) ∧ (ok → kd.p = false → faults .ss (code nss) x))))

/-- R396, R397, R399 and R505: where a pop of IRET, or its read of the back link, of the descriptor of CS or of SS, faults the
instruction takes that fault, and the stack pointer and every other register are as they were. -/
def Sys2Proof.Claim.IretFaults : Prop :=
  ∀ (z : Size) (s : State),
    let faults {α : Type} (u : State) (op : Op α) : Prop := FaultsWhere (.iret z) s u op
    (s.protMode = false → s.v86Mode = false ∨ s.iopl = 3 → faults s (popAll z 3)) ∧
    (s.protMode = true → s.flag .nt = true → faults s (sysRead s.tr.base .w16) ∧
      ∀ v u, (sysRead s.tr.base .w16).run s = .ok v u → nullSel (v.setWidth 16) = false → v.getLsbD 2 = false →
        faults u (fetchDescriptor (v.setWidth 16))) ∧
    (s.protMode = true → s.flag .nt = false → faults s (popAll z 3) ∧
      ∀ ip cs fl u, (popAll z 3).run s = .ok [ip, cs, fl] u →
        (z = .s32 → fl.getLsbD 17 = true → s.cpl = 0 → faults u (popAll z 6)) ∧
        (z = .s16 ∨ fl.getLsbD 17 = false ∨ s.cpl ≠ 0 →
          let sel : Half := cs.setWidth 16
          let n := rpl sel
          nullSel sel = false → faults u (fetchDescriptor sel) ∧
          ∀ d a v, (fetchDescriptor sel).run u = .ok (some (d, a)) v → d.isCode = true → s.cpl.toNat < n.toNat →
            (if d.conforming then d.dpl.toNat ≤ n.toNat else d.dpl = n) → d.p = true →
            faults v (popAll z 2) ∧
            ∀ nsp ssv w, (popAll z 2).run v = .ok [nsp, ssv] w → nullSel (ssv.setWidth 16) = false →
              faults w (fetchDescriptor (ssv.setWidth 16))))

/-- IRET: flat, to the same and to an outer privilege level, to virtual-8086 mode, to the previous task, and what it turns
away (R396 to R399). -/
def Obligations.IretComplete : Prop :=
  Claim.IretFlatComplete ∧ Claim.IretSameLevelComplete ∧ Claim.IretOuterLevelComplete ∧ Claim.IretToV86Complete ∧
    Claim.IretTaskReturn ∧ Claim.IretChecks ∧ Claim.IretFaults

/-- R180: every encoding of the list raises `#UD`, before any operand is read: the undefined group slots, the segment and
control register numbers there are none of, MOV to CS, the memory forms with a register, and the forms of protected mode
only outside it. -/
def Sys2Proof.Claim.InvalidForms : Prop :=
  ∀ (s : State) (z : Size) (rm : RM) (r : Reg) (n : BitVec 3) (op : UdOp),
    let ud (i : Instr) : Prop := RaisesFault i s s .ud none
    ud (.ud op n rm) ∧
    (n = 6 ∨ n = 7 → ud (.movRmSeg z rm n) ∧ ud (.movSegRm n rm)) ∧ (n = 1 → ud (.movSegRm n rm)) ∧
    (n ≠ 0 → n ≠ 2 → n ≠ 3 → ud (.movToCr n r) ∧ ud (.movFromCr r n)) ∧
    (∀ q, ud (.lea z r (.reg q)) ∧ ud (.jmpFarMem z (.reg q)) ∧ ud (.callFarMem z (.reg q)) ∧
      ud (.sgdt z (.reg q)) ∧ ud (.sidt z (.reg q)) ∧ ud (.lgdt z (.reg q)) ∧ ud (.lidt z (.reg q)) ∧
      ud (.invlpg (.reg q))) ∧
    (s.protMode = false →
      ud (.arpl rm r) ∧ ud (.sldt z rm) ∧ ud (.str z rm) ∧ ud (.lldt rm) ∧ ud (.ltr rm))

/-- R180 and R501: an undefined group slot takes the invalid-opcode exception, vector 6, with no error code and with
its own address to return to; where the dispatch succeeds, that is the next state. -/
def Sys2Proof.Claim.UndefinedSlotsTakeVector6 : Prop :=
  ∀ (op : UdOp) (n : BitVec 3) (rm : RM) (s t : State),
    (dispatch 6 .fault none s.startEip).run (rollback s s).latch = .ok () t →
    exec (.ud op n rm) s = .next { t with inBlock := false }

/-- The invalid-opcode exception: which forms raise it, and that an undefined slot takes it (R180, R501). -/
def Obligations.InvalidOpcodes : Prop := Claim.InvalidForms ∧ Claim.UndefinedSlotsTakeVector6

/-- R531 and R532: at another level than 0 (and not in real mode) the privileged instructions raise `#GP(0)`; so do
CLI and STI where IOPL forbids them, and PUSHF, POPF, INT n and IRET in virtual-8086 mode with an IOPL below 3. -/
def Obligations.PrivilegeFaults : Prop :=
  ∀ (s : State) (z : Size) (m : MemRef) (rm : RM) (r : Reg) (n : BitVec 3) (ib : Byte),
    let gp (i : Instr) : Prop := RaisesFault i s s .gp (some 0)
    (s.realMode = false → s.cpl ≠ 0 →
      gp .hlt ∧ gp (.lgdt z (.mem m)) ∧ gp (.lidt z (.mem m)) ∧ gp (.invlpg (.mem m)) ∧
      (n = 0 ∨ n = 2 ∨ n = 3 → gp (.movToCr n r) ∧ gp (.movFromCr r n)) ∧
      (s.protMode = true → gp (.lldt rm) ∧ gp (.ltr rm))) ∧
    ((s.protMode = true ∧ s.iopl.toNat < s.cpl.toNat ∨ s.v86Mode = true ∧ s.iopl ≠ 3) → gp .cli ∧ gp .sti) ∧
    (s.v86Mode = true → s.iopl ≠ 3 → gp (.pushf z) ∧ gp (.popf z) ∧ gp (.int ib) ∧ gp (.iret z))

/-! ### Flag control -/

/-- R410 to R416: the instructions that write one flag, that flag alone, with their encodings; CLI and STI where IOPL
allows them (R421). -/
def Sys2Proof.Claim.FlagInstructionsComplete : Prop :=
  ∀ s : State,
    let sets (i : Instr) (q : Flag) (b : Bool) : Prop := ∃ f : Word,
      exec i s = .next { s with flags := f, eip := s.nextEip } ∧ getFlag f q = b ∧ iopl f = iopl s.flags ∧
      ∀ p : Flag, p ≠ q → getFlag f p = getFlag s.flags p
    (∀ d, decode d [0xF8] = .ok .clc 1 ∧ decode d [0xF9] = .ok .stc 1 ∧ decode d [0xF5] = .ok .cmc 1 ∧
      decode d [0xFC] = .ok .cld 1 ∧ decode d [0xFD] = .ok .std 1 ∧ decode d [0xFA] = .ok .cli 1 ∧
      decode d [0xFB] = .ok .sti 1) ∧
    sets .clc .cf false ∧ sets .stc .cf true ∧ sets .cmc .cf (!s.flag .cf) ∧
    sets .cld .df false ∧ sets .std .df true ∧
    (s.realMode = true ∨ (s.v86Mode = true ∧ s.iopl = 3) ∨ (s.protMode = true ∧ s.cpl.toNat ≤ s.iopl.toNat) →
      sets .cli .if_ false ∧ sets .sti .if_ true)

/-- R417 and R418: LAHF copies SF, ZF, AF, PF and CF to AH with bits 1, 3 and 5 as 1, 0 and 0; SAHF loads them from AH
and no other flag. -/
def Sys2Proof.Claim.LahfAndSahf : Prop :=
  ∀ s : State, s.Inv →
    (∀ d, decode d [0x9F] = .ok .lahf 1 ∧ decode d [0x9E] = .ok .sahf 1) ∧
    (∃ v : Word, exec .lahf s = .next { s with regs := s.regs.setView .w8 .esp v, eip := s.nextEip } ∧
      v.toNat = 128 * (s.flag .sf).toNat + 64 * (s.flag .zf).toNat + 16 * (s.flag .af).toNat +
        4 * (s.flag .pf).toNat + 2 + (s.flag .cf).toNat) ∧
    (∃ f : Word, exec .sahf s = .next { s with flags := f, eip := s.nextEip } ∧
      (∀ q : Flag, getFlag f q =
        if q ∈ [Flag.sf, .zf, .af, .pf, .cf] then (s.reg .w8 .esp).getLsbD q.bit else getFlag s.flags q) ∧
      iopl f = iopl s.flags)

/-- The flag control instructions complete (R410 to R418). -/
def Obligations.FlagControlComplete : Prop := Claim.FlagInstructionsComplete ∧ Claim.LahfAndSahf

/-- R419: PUSHF pushes the flag image; VM and RF read as 0 in the 32-bit one. Device memory: assumption log 14. -/
def Sys2Proof.Claim.PushfComplete : Prop :=
  ∀ (z : Size) (s : State), s.Inv → s.v86Mode = false ∨ s.iopl = 3 →
    let v : Word := match z with
      | .s16 => flagsValue s.flags &&& 0xFFFF
      | .s32 => flagsValue s.flags &&& 0x00FCFFFF
    PushesValue (.pushf z) s s z v

/-- R420: POPF loads the flags this pop may touch: IF where IOPL allows it, IOPL in real mode or at CPL 0 of protected
mode, AC only with a 32-bit operand size, which clears RF; VM never. Device memory: assumption log 14. -/
def Sys2Proof.Claim.PopfComplete : Prop :=
  ∀ (z : Size) (s u : State) (v : Word), s.Inv → s.v86Mode = false ∨ s.iopl = 3 →
    (segRead .ss s.sp z.width).run s = .ok v u →
    let ifOk := s.realMode || (s.v86Mode && s.iopl = 3) || (s.protMode && decide (s.cpl.toNat ≤ s.iopl.toNat))
    let ioplOk := s.realMode || (s.protMode && decide (s.cpl = 0))
    ∃ f : Word, exec (.popf z) s =
        .next { u with regs := s.spAfter z.width.bytes, flags := f, eip := s.nextEip } ∧
      Accessed s u [] ∧
      (∀ q : Flag, getFlag f q =
        if q = .vm ∨ (q = .if_ ∧ ifOk = false) ∨ (z = .s16 ∧ (q = .rf ∨ q = .ac)) then getFlag s.flags q
        else if q = .rf then false else v.getLsbD q.bit) ∧
      iopl f = if ioplOk then v.extractLsb' 12 2 else iopl s.flags

/-- R420, R220 and R505: where the pop of POPF faults the instruction takes that fault, with every register as it was. -/
def Sys2Proof.Claim.PopfFaults : Prop :=
  ∀ (z : Size) (s : State), s.v86Mode = false ∨ s.iopl = 3 → FaultsWhere (.popf z) s s (segRead .ss s.sp z.width)

/-- PUSHF and POPF complete, or take the fault of their access (R419, R420). -/
def Obligations.PushfAndPopfComplete : Prop := Claim.PushfComplete ∧ Claim.PopfComplete ∧ Claim.PopfFaults

/-! ### System instructions -/

/-- R430, R431, R444, R445 and R448: HLT, NOP, MOV to and from a control register and INVLPG where they are permitted.
The status flags after a MOV of a control register are draws. -/
def Obligations.SystemComplete : Prop :=
  ∀ (s : State) (r : Reg) (m : MemRef),
    exec .nop s = .next { s with eip := s.nextEip } ∧
    (s.realMode = true ∨ s.cpl = 0 →
      let v := s.regs.get r
      let written (t : State) : Host.Outcome State Fault Refusal :=
        .next { sixDraws t with eip := s.nextEip, inBlock := false }
      let read (c : Word) : Host.Outcome State Fault Refusal :=
        .next { sixDraws { s with regs := s.regs.set r c } with eip := s.nextEip }
      exec .hlt s = .next { s with halted := true, eip := s.nextEip, inBlock := false } ∧
      (v.getLsbD 31 = false ∨ v.getLsbD 0 = true →
        exec (.movToCr 0 r) s =
          written { s with cr0 := v, tlb := if v.getLsbD 31 = s.cr0.getLsbD 31 then s.tlb else [] }) ∧
      (v.getLsbD 31 = true → v.getLsbD 0 = false → RaisesFault (.movToCr 0 r) s s .gp (some 0)) ∧
      exec (.movToCr 2 r) s = written { s with cr2 := v } ∧
      exec (.movToCr 3 r) s = written { s with cr3 := v, tlb := [] } ∧
      exec (.movFromCr r 0) s = read s.cr0 ∧ exec (.movFromCr r 2) s = read s.cr2 ∧
      exec (.movFromCr r 3) s = read s.cr3 ∧
      exec (.invlpg (.mem m)) s = .next { s with
        tlb := Assoc.erase ((s.linear m.seg (s.off m)).toNat / 4096) s.tlb
        eip := s.nextEip, inBlock := false })

/-- R432 to R435: LGDT and LIDT load limit and base from six bytes, 24 bits of base with a 16-bit operand size; SGDT and
SIDT store them, the sixth byte a draw with a 16-bit operand size. Where an access faults the instruction takes that fault.
Device memory: assumption log 14. -/
def Obligations.TableRegistersComplete : Prop :=
  ∀ (z : Size) (m : MemRef) (s : State), s.Inv →
    let at0 := s.off m
    let at2 := trunc (addrSize m.addr).width (s.off m + 2)
    (s.realMode = true ∨ s.cpl = 0 → ∀ i ∈ [Instr.lgdt z (.mem m), .lidt z (.mem m)],
      FaultsWhere i s s (segRead m.seg at0 .w16) ∧
      ∀ lim u, (segRead m.seg at0 .w16).run s = .ok lim u → FaultsWhere i s u (segRead m.seg at2 .w32)) ∧
    (∀ lim base u t, s.realMode = true ∨ s.cpl = 0 → (segRead m.seg at0 .w16).run s = .ok lim u →
      (segRead m.seg at2 .w32).run u = .ok base t →
      let reg : TableReg := { base := if z = .s16 then base &&& 0x00FFFFFF else base, limit := lim.setWidth 16 }
      Accessed s t [] ∧
      exec (.lgdt z (.mem m)) s = .next { t with gdtr := reg, eip := s.nextEip } ∧
      exec (.lidt z (.mem m)) s = .next { t with idtr := reg, eip := s.nextEip }) ∧
    (∀ (i : Instr) (reg : TableReg), i = .sgdt z (.mem m) ∧ reg = s.gdtr ∨ i = .sidt z (.mem m) ∧ reg = s.idtr →
      FaultsWhere i s s (segWrite m.seg at0 .w16 (reg.limit.setWidth 32)) ∧
      ∀ u, (segWrite m.seg at0 .w16 (reg.limit.setWidth 32)).run s = .ok () u →
      let drawn : State := if z = .s16 then { u with draws := u.draws + 1 } else u
      let base : Word := if z = .s16 then ((Config.drawByte u.draws).setWidth 32 <<< 24) ||| (reg.base &&& 0x00FFFFFF)
        else reg.base
      FaultsWhere i s drawn (segWrite m.seg at2 .w32 base) ∧
      ∀ t, (segWrite m.seg at2 .w32 base).run drawn = .ok () t →
      exec i s = .next { t with eip := s.nextEip } ∧
      Accessed s t [(s.linear m.seg at0, 2), (s.linear m.seg at2, 4)] ∧
      Kept s t (s.linear m.seg at0) .w16 (reg.limit.setWidth 32) ∧ Kept s t (s.linear m.seg at2) .w32 base)

/-- R436 and R437: LLDT at CPL 0 of protected mode loads LDTR from an LDT descriptor, or marks it invalid for a null
selector; SLDT stores its selector; and the faults of LLDT's checks and accesses. Device memory: assumption log 14. -/
def Sys2Proof.Claim.LdtrComplete : Prop :=
  ∀ (z : Size) (rm : RM) (s : State), s.Inv → s.protMode = true →
    WritesOperand (.sldt z rm) s s (selWidth z rm) rm (s.ldtr.selector.setWidth 32) ∧
    (s.cpl = 0 → FaultsWhere (.lldt rm) s s (readRM .w16 rm)) ∧
    (∀ v u, s.cpl = 0 → (readRM .w16 rm).run s = .ok v u →
      let sel : Half := v.setWidth 16
      let code := some (sel.setWidth 32 &&& 0xFFFC)
      Accessed s u [] ∧
      (nullSel sel = true → exec (.lldt rm) s =
        .next { u with ldtr := { s.ldtr with selector := sel, valid := false }, eip := s.nextEip }) ∧
      (nullSel sel = false → selTI sel = true → RaisesFault (.lldt rm) s u .gp code) ∧
      (nullSel sel = false → selTI sel = false → FaultsWhere (.lldt rm) s u (fetchDescriptor sel)) ∧
      (∀ t, nullSel sel = false → selTI sel = false → (fetchDescriptor sel).run u = .ok none t →
        RaisesFault (.lldt rm) s t .gp code) ∧
      (∀ d a t, nullSel sel = false → selTI sel = false → (fetchDescriptor sel).run u = .ok (some (d, a)) t →
        (d.cls ≠ .ldt → RaisesFault (.lldt rm) s t .gp code) ∧
        (d.cls = .ldt → d.p = false → RaisesFault (.lldt rm) s t .np code) ∧
        (d.cls = .ldt → d.p = true → Accessed s t [] ∧ exec (.lldt rm) s = .next { t with
          ldtr := { selector := sel, base := d.base, limit := d.limit, valid := true }, eip := s.nextEip })))

/-- R438 and R439: LTR at CPL 0 of protected mode loads the task register from an available TSS descriptor and sets the
busy bit of that descriptor in memory; STR stores its selector; and the faults of LTR's checks and accesses.
Device memory: assumption log 14. -/
def Sys2Proof.Claim.TaskRegisterComplete : Prop :=
  ∀ (z : Size) (rm : RM) (s : State), s.Inv → s.protMode = true →
    WritesOperand (.str z rm) s s (selWidth z rm) rm (s.tr.selector.setWidth 32) ∧
    (s.cpl = 0 → FaultsWhere (.ltr rm) s s (readRM .w16 rm)) ∧
    (∀ v u, s.cpl = 0 → (readRM .w16 rm).run s = .ok v u →
      let sel : Half := v.setWidth 16
      let code := some (sel.setWidth 32 &&& 0xFFFC)
      (nullSel sel = true → RaisesFault (.ltr rm) s u .gp (some 0)) ∧
      (nullSel sel = false → selTI sel = true → RaisesFault (.ltr rm) s u .gp code) ∧
      (nullSel sel = false → selTI sel = false → FaultsWhere (.ltr rm) s u (fetchDescriptor sel)) ∧
      (∀ t, nullSel sel = false → selTI sel = false → (fetchDescriptor sel).run u = .ok none t →
        RaisesFault (.ltr rm) s t .gp code) ∧
      (∀ d a t, nullSel sel = false → selTI sel = false → (fetchDescriptor sel).run u = .ok (some (d, a)) t →
        let avail := d.cls = .tss16Avail ∨ d.cls = .tss32Avail
        (¬ avail → RaisesFault (.ltr rm) s t .gp code) ∧
        (avail → d.p = false → RaisesFault (.ltr rm) s t .np code) ∧
        (avail → d.p = true → FaultsWhere (.ltr rm) s t (sysRead (a + 5) .w8) ∧
          ∀ b x, (sysRead (a + 5) .w8).run t = .ok b x → FaultsWhere (.ltr rm) s x (sysWrite (a + 5) .w8 (b ||| 2))) ∧
        (∀ b x y, avail → d.p = true → (sysRead (a + 5) .w8).run t = .ok b x →
          (sysWrite (a + 5) .w8 (b ||| 2)).run x = .ok () y →
          exec (.ltr rm) s = .next { y with
            tr := { selector := sel, base := d.base, limit := d.limit, busy := true
                    type32 := decide (d.cls = .tss32Avail) }
            eip := s.nextEip } ∧
          Accessed s y [(a + 5, 1)] ∧ Stored s y (a + 5) .w8 (b ||| 2))))

/-- LLDT, SLDT, LTR and STR complete (R436 to R439). -/
def Obligations.SystemSegmentRegistersComplete : Prop := Claim.LdtrComplete ∧ Claim.TaskRegisterComplete

/-- R446: ARPL raises the RPL of its destination to the source's where that is higher and sets ZF; else it clears ZF and
writes nothing. No other flag changes. Where the operand faults the instruction takes that fault. Device memory: assumption
log 14. -/
def Obligations.ArplComplete : Prop :=
  (∀ (rm : RM) (r : Reg) (s : State), s.protMode = true → FaultsWhere (.arpl rm r) s s (readDst .w16 rm)) ∧
  ∀ (rm : RM) (r : Reg) (s u : State) (v : Word), s.Inv → s.protMode = true → (readDst .w16 rm).run s = .ok v u →
    let src := s.reg .w16 r
    let low (x : Word) : Nat := x.toNat % 4
    let flagged (b : Bool) : State := { u with flags := putFlag s.flags .zf b }
    (low v < low src → StoresResult (.arpl rm r) s (flagged true) .w16 rm ((v &&& 0xFFFC) ||| (src &&& 3))) ∧
    (low src ≤ low v → exec (.arpl rm r) s = .next { flagged false with eip := s.nextEip } ∧ Accessed s u [])

/-! ### Segmentation -/

/-- R97 to R101 and R107: loading a segment register other than CS, in each mode. -/
def Obligations.SegmentLoads : Prop :=
  ∀ (i : Seg) (sel : Half) (s : State), i ≠ .cs →
    let old := s.seg i
    let code := sel.setWidth 32 &&& 0xFFFC
    let fault (k : FaultKind) (c : Word) : Stop := .fault { kind := k, code := some c, addr := none } false
    (s.realMode = true → (loadSeg i sel).run s = .ok () (s.setSeg i { old with
      selector := sel, base := sel.setWidth 32 <<< 4, readable := true, writable := true, valid := true })) ∧
    (s.v86Mode = true → (loadSeg i sel).run s = .ok () (s.setSeg i
      { selector := sel, base := sel.setWidth 32 <<< 4, limitMin := 0, limitMax := 0xFFFF, type := 3, dpl := 3,
        size32 := false, readable := true, writable := true, valid := true })) ∧
    (s.protMode = true →
      (nullSel sel = true → (loadSeg i sel).run s =
        if i = .ss then .error (fault .gp 0) s
        else .ok () (s.setSeg i { old with selector := sel, valid := false })) ∧
      (∀ u, nullSel sel = false → (fetchDescriptor sel).run s = .ok none u →
        (loadSeg i sel).run s = .error (fault .gp code) u) ∧
      (∀ d a u, nullSel sel = false → (fetchDescriptor sel).run s = .ok (some (d, a)) u →
        let readable := d.cls = .data ∨ (d.cls = .code ∧ d.type.getLsbD 1 = true)
        let fit := if i = .ss then rpl sel = u.cpl ∧ d.dpl = u.cpl ∧ d.cls = .data ∧ d.type.getLsbD 1 = true
          else readable ∧ ((d.cls = .code ∧ d.type.getLsbD 2 = true) ∨
            max u.cpl.toNat (rpl sel).toNat ≤ d.dpl.toNat)
        let down := d.cls = .data ∧ d.type.getLsbD 2 = true
        (¬ fit → (loadSeg i sel).run s = .error (fault .gp code) u) ∧
        (fit → d.p = false → (loadSeg i sel).run s = .error (fault (if i = .ss then .ss else .np) code) u) ∧
        (fit → d.p = true → (loadSeg i sel).run s = .ok () (u.setSeg i
          { selector := sel, base := d.base
            limitMin := if down then d.limit + 1 else 0
            limitMax := if down then (if d.db then 0xFFFFFFFF else 0xFFFF) else d.limit
            type := d.type, dpl := d.dpl, size32 := d.db, readable := true
            writable := decide (d.cls = .data) && d.type.getLsbD 1, valid := true }))))

/-- R91, R92 and R93: the fields of an entry, by its two words: base and limit, the access bits, the class by S and the
type, and the gate's selector, offset and parameter count. -/
def Sys2Proof.Claim.DescriptorFields : Prop :=
  ∀ lo hi : Word,
    let d := parseDesc lo hi
    let type := hi.toNat / 2 ^ 8 % 16
    d.base.toNat = lo.toNat / 2 ^ 16 + hi.toNat % 2 ^ 8 * 2 ^ 16 + hi.toNat / 2 ^ 24 * 2 ^ 24 ∧
    (let l20 := lo.toNat % 2 ^ 16 + hi.toNat / 2 ^ 16 % 2 ^ 4 * 2 ^ 16
     d.limit.toNat = if hi.getLsbD 23 then l20 * 4096 + 4095 else l20) ∧
    d.type.toNat = type ∧ d.s = hi.getLsbD 12 ∧ d.dpl.toNat = hi.toNat / 2 ^ 13 % 4 ∧
    d.p = hi.getLsbD 15 ∧ d.db = hi.getLsbD 22 ∧
    (hi.getLsbD 12 = true → d.cls = if hi.getLsbD 11 then .code else .data) ∧
    (hi.getLsbD 12 = false → [DescClass.invalid, .tss16Avail, .ldt, .tss16Busy, .callGate16, .taskGate, .intGate16,
      .trapGate16, .invalid, .tss32Avail, .invalid, .tss32Busy, .callGate32, .invalid, .intGate32,
      .trapGate32][type]? = some d.cls) ∧
    d.isCode = (hi.getLsbD 12 && hi.getLsbD 11) ∧ d.conforming = hi.getLsbD 10 ∧
    d.gateSel.toNat = lo.toNat / 2 ^ 16 ∧
    d.gateOff.toNat = lo.toNat % 2 ^ 16 + hi.toNat / 2 ^ 16 * 2 ^ 16 ∧ d.params.toNat = hi.toNat % 32

/-- R90 and R94: the descriptor a selector names: the eight bytes of its entry in the GDT or the LDT, inside the
table's limit; and what a null selector, its level and its table are. -/
def Sys2Proof.Claim.DescriptorRead : Prop :=
  ∀ (sel : Half) (s : State),
    let ldt := sel.getLsbD 2
    let base := if ldt then s.ldtr.base else s.gdtr.base
    let limit := if ldt then s.ldtr.limit.toNat else s.gdtr.limit.toNat
    let index := sel.toNat / 8
    nullSel sel = decide (sel.toNat < 4) ∧ (rpl sel).toNat = sel.toNat % 4 ∧ selTI sel = ldt ∧
    ((ldt = true ∧ s.ldtr.valid = false) ∨ limit < index * 8 + 7 → (fetchDescriptor sel).run s = .ok none s) ∧
    (¬ (ldt = true ∧ s.ldtr.valid = false) → index * 8 + 7 ≤ limit → ∀ lo hi u t,
      let a := base + BitVec.ofNat 32 (index * 8)
      (sysRead a .w32).run s = .ok lo u → (sysRead (a + 4) .w32).run u = .ok hi t →
      (fetchDescriptor sel).run s = .ok (some (parseDesc lo hi, a)) t)

/-- The descriptor a selector names, and its fields (R90 to R94). -/
def Obligations.DescriptorFetch : Prop := Claim.DescriptorFields ∧ Claim.DescriptorRead

/-- R102 to R105: an access through a segment register is turned away where the register is invalid, its rights forbid
it or it leaves the limits, with `#SS(0)` through SS and `#GP(0)` through any other; else it is the linear access at base
plus offset. That rights which fail through SS are `#SS(0)` is ruling D17 and R220, against R103's pseudocode: the model's
reading (assumption log 24). -/
def Obligations.SegmentChecks : Prop :=
  ∀ (i : Seg) (off v : Word) (w : Width) (s : State),
    let g := s.seg i
    let fault : Stop := .fault { kind := if i = .ss then .ss else .gp, code := some 0, addr := none } false
    let inside := g.limitMin.toNat ≤ off.toNat ∧ off.toNat + w.bytes - 1 ≤ g.limitMax.toNat
    let mayWrite := if g.type.getLsbD 3 = true then s.protMode = false else g.writable = true
    (g.valid = false →
      (segRead i off w).run s = .error fault s ∧ (segWrite i off w v).run s = .error fault s) ∧
    (g.valid = true → g.readable = false → (segRead i off w).run s = .error fault s) ∧
    (g.valid = true → ¬ mayWrite → (segWrite i off w v).run s = .error fault s) ∧
    (g.valid = true → g.readable = true → ¬ inside → (segRead i off w).run s = .error fault s) ∧
    (g.valid = true → mayWrite → ¬ inside → (segWrite i off w v).run s = .error fault s) ∧
    (g.valid = true → g.readable = true → inside →
      (segRead i off w).run s = (linRead (g.base + off) w (decide (s.cpl = 3))).run s) ∧
    (g.valid = true → mayWrite → inside →
      (segWrite i off w v).run s = (linWrite (g.base + off) w v (decide (s.cpl = 3))).run s)

/-- R177, R104 and R85: what reading an operand gives: the register's view, or the bytes memory held, lowest first.
Device memory: assumption log 14. -/
def Obligations.OperandReads : Prop :=
  ∀ (w : Width) (rm : RM) (s t : State) (v : Word), s.Inv →
    (readRM w rm).run s = .ok v t ∨ (readDst w rm).run s = .ok v t →
    Accessed s t [] ∧ w.fits v = true ∧
    match rm with
    | .reg r => v = s.reg w r
    | .mem m => Loaded s t (s.linear m.seg (s.off m)) w v

/-- R85, R86, R125 and R126: with paging off no access faults, and a value stored to RAM reads back, at any alignment. -/
def Obligations.StoreThenLoad : Prop :=
  ∀ (s : State) (lin v : Word) (w : Width) (x y : Bool), s.Inv → s.pg = false → w.fits v = true →
    ∃ t, (linWrite lin w v x).run s = .ok () t ∧ t.Inv ∧
      ((∀ k, k < w.bytes → regionAt s.physMap ((lin + BitVec.ofNat 32 k) &&& s.a20Mask).toNat = some .ram) →
        (linRead lin w y).run t = .ok v t) ∧
      ∃ u q, (linRead lin w y).run s = .ok q u

/-! ### Paging -/

/-- R115, R116 and R119: translation without paging, through a TLB entry, and the fault an entry raises, which latches
the address in CR2. A write does not use an entry whose dirty flag is clear. -/
def Obligations.TranslationFromTlb : Prop :=
  ∀ (s : State) (lin : Word) (wr us : Bool) (e : TlbEntry),
    let code : Word := 1 + (if wr then 2 else 0) + (if us then 4 else 0)
    let fault : Stop := .fault { kind := .pf, code := some code, addr := some lin } false
    let walked := (do let p ← walk lin wr us; pure (p &&& s.a20Mask) : Op Word).run s
    (s.pg = false → (translate lin wr us).run s = .ok (lin &&& s.a20Mask) s) ∧
    (s.pg = true → Assoc.get (lin.toNat / 4096) s.tlb = none → (translate lin wr us).run s = walked) ∧
    (s.pg = true → Assoc.get (lin.toNat / 4096) s.tlb = some e →
      let barred := us = true ∧ (e.supervisorOnly = true ∨ (wr = true ∧ e.readOnly = true))
      (wr = false ∨ e.dirty = true → ¬ barred →
        (translate lin wr us).run s = .ok ((e.physBase ||| (lin &&& 0xFFF)) &&& s.a20Mask) s) ∧
      (wr = false ∨ e.dirty = true → barred → (translate lin wr us).run s = .error fault { s with cr2 := lin }) ∧
      (wr = true → e.dirty = false → (translate lin wr us).run s = walked))

/-- R111 and R113: the walk of the two page tables. The entries are read through CR3; a missing entry or a right that a
user access lacks is the page fault, with its code and CR2, and then memory is as it was, but for what devices wrote if
the tables lie in device memory (assumption log 14); else the frame of the table
entry is the translation, the accessed bits are set and, by a write, the dirty bit, and the TLB takes the entry. -/
def Obligations.PageWalk : Prop :=
  ∀ (s u v : State) (lin pde pte : Word) (wr us : Bool),
    let dirAddr := ((s.cr3 &&& 0xFFFFF000) ||| ((lin >>> 22) <<< 2)) &&& s.a20Mask
    let tabAddr := ((pde &&& 0xFFFFF000) ||| (((lin >>> 12) &&& 0x3FF) <<< 2)) &&& s.a20Mask
    let code (p : Bool) : Word := (if p then 1 else 0) + (if wr then 2 else 0) + (if us then 4 else 0)
    let fault (p : Bool) : Stop := .fault { kind := .pf, code := some (code p), addr := some lin } false
    (memRead dirAddr .w32).run s = .ok pde u →
    (pde.getLsbD 0 = false → (walk lin wr us).run s = .error (fault false) { u with cr2 := lin } ∧
      ∀ a, s.untouched u a → u.mem.read a = s.mem.read a) ∧
    (pde.getLsbD 0 = true → (memRead tabAddr .w32).run u = .ok pte v →
      let writable := pde.getLsbD 1 && pte.getLsbD 1
      let userPage := pde.getLsbD 2 && pte.getLsbD 2
      let barred := us = true ∧ (userPage = false ∨ (wr = true ∧ writable = false))
      let pte' : Word := pte ||| 0x20 ||| (if wr then 0x40 else 0)
      (∀ a, s.untouched v a → v.mem.read a = s.mem.read a) ∧
      (pte.getLsbD 0 = false → (walk lin wr us).run s = .error (fault false) { v with cr2 := lin }) ∧
      (pte.getLsbD 0 = true → barred → (walk lin wr us).run s = .error (fault true) { v with cr2 := lin }) ∧
      (pte.getLsbD 0 = true → ¬ barred →
        let x := if pde.getLsbD 5 = true then v else v.memWriteBytes 4 dirAddr.toNat (pde ||| 0x20)
        let y := if pte' = pte then x else x.memWriteBytes 4 tabAddr.toNat pte'
        (walk lin wr us).run s = .ok ((pte &&& 0xFFFFF000) ||| (lin &&& 0xFFF)) { y with
          tlb := Assoc.set (lin.toNat / 4096)
            { physBase := pte &&& 0xFFFFF000, readOnly := !writable, supervisorOnly := !userPage
              dirty := pte'.getLsbD 6 } y.tlb }))

/-- R120 and R122: a translation that succeeded is repeated from the TLB, with the same address and no further effect,
for the same kind of access. -/
def Obligations.TranslationRepeats : Prop :=
  ∀ (s t : State) (lin p : Word) (wr us : Bool), s.Inv → (translate lin wr us).run s = .ok p t →
    (translate lin wr us).run t = .ok p t

/-! ### Faults -/

/-- R505: what the rollback restores, from the state at the beginning of an instruction or a dispatch: every general
register, ESP and EIP from the latches of R48, the flags, the segment registers, CPL and the system registers. Memory, the
TLB, CR2 and what devices did are not undone. -/
def Sys2Proof.Claim.RollbackRestores : Prop :=
  ∀ s0 s : State,
    let t := rollback s0 s
    (∀ r, t.regs.get r = if r = .esp then s0.startEsp else s0.regs.get r) ∧ t.eip = s0.startEip ∧ t.flags = s0.flags ∧
    t.segs = s0.segs ∧ t.cpl = s0.cpl ∧ t.gdtr = s0.gdtr ∧ t.idtr = s0.idtr ∧ t.ldtr = s0.ldtr ∧ t.tr = s0.tr ∧
    t.cr0 = s0.cr0 ∧ t.cr3 = s0.cr3 ∧ t.mem = s.mem ∧ t.tlb = s.tlb ∧ t.cr2 = s.cr2 ∧ t.pending = s.pending ∧
    t.calls = s.calls ∧ t.draws = s.draws ∧ t.inBlock = s.inBlock

/-- R505, R510 and R511: the dispatch of a fault. Where it succeeds the block ends; a second fault escalates to `#DF`, vector
8 with error code 0, when the first is contributory and the second too, or the first is a page fault and the second a
page fault or contributory; else the second is dispatched in turn. The registers are rolled back before each; a second
fault past the commit point of a task switch (R482) is handled in the incoming task instead, which is not undone, and
returns to its EIP. A fault of the dispatch of `#DF` is the shutdown. That a second fault carries EXT, what becomes of one
past the commit point, and that each dispatch latches EIP and ESP anew, are the model's readings (assumption logs 11, 12 and
22). -/
def Sys2Proof.Claim.FaultEscalation : Prop :=
  ∀ (n : Nat) (f f2 : GuestFault) (past : Bool) (ret : Word) (s t : State),
    let first := (dispatch f.kind.vector .fault f.code ret).run s.latch
    let contributory (k : FaultKind) : Prop := k ∈ [FaultKind.de, .ts, .np, .ss, .gp]
    let double := (contributory f.kind ∧ contributory f2.kind) ∨
      (f.kind = .pf ∧ (f2.kind = .pf ∨ contributory f2.kind))
    let back : State := if past then t else rollback s.latch t
    let ret2 : Word := if past then t.eip else ret
    let task : State := if past then t else s
    (first = .ok () t → dispatchFault n f ret s = .next { t with inBlock := false }) ∧
    (∀ x, first = .error (.refuse x) t → dispatchFault n f ret s = .refused x) ∧
    (first = .error (.fault f2 past) t → double → ∀ u,
      let again := (dispatch 8 .fault (some 0) ret2).run back.latch
      (again = .ok () u → dispatchFault n f ret s = .next { u with inBlock := false }) ∧
      (∀ x, again = .error (.refuse x) u → dispatchFault n f ret s = .refused x) ∧
      (∀ f3, again = .error (.fault f3 false) u →
        ∃ x : State, dispatchFault n f ret s = .next x ∧ x.shutdown = true ∧ x.regs = task.regs ∧ x.eip = task.eip ∧
          x.flags = task.flags ∧ x.segs = task.segs ∧ x.cpl = task.cpl ∧ x.ldtr = task.ldtr ∧ x.tr = task.tr ∧
          x.cr0 = task.cr0 ∧ x.cr3 = task.cr3) ∧
      (∀ f3, again = .error (.fault f3 true) u →
        dispatchFault n f ret s = .next { u with shutdown := true, inBlock := false })) ∧
    (first = .error (.fault f2 past) t → ¬ double →
      dispatchFault (n + 1) f ret s = dispatchFault n f2.withExt ret2 back)

/-- R510: the recursion ends. The model bounds the chain of faults that are handled one after the other, and a longer
bound never changes anything. -/
def Sys2Proof.Claim.FaultChainIsLongEnough : Prop :=
  ∀ (n : Nat) (f : GuestFault) (ret : Word) (s : State), faultChain ≤ n →
    dispatchFault n f ret s = dispatchFault faultChain f ret s

/-- The rollback, faults of a dispatch, and that their chain ends (R505, R510, R511). -/
def Obligations.FaultDispatch : Prop :=
  Claim.RollbackRestores ∧ Claim.FaultEscalation ∧ Claim.FaultChainIsLongEnough

/-! ### The task switch -/

/-- R477: the outgoing task's registers, CR3, the instruction pointer to return to and its flags stand in its task-state
segment; on iret NT is stripped from the flags saved. Device memory: assumption log 14. -/
def Obligations.TaskSaved : Prop :=
  ∀ (op : SwitchOp) (ret : Word) (s t : State), s.Inv → (switchStep2 op ret).run s = .ok () t →
    let fl : Word := if op = .iret then flagsValue s.flags &&& ~~~0x4000 else flagsValue s.flags
    let sel (i : Seg) : Word := (s.seg i).selector.setWidth 32
    let longs : List (Nat × Word) := [(0x1C, s.cr3), (0x20, ret), (0x24, fl), (0x28, s.regs.eax), (0x2C, s.regs.ecx),
      (0x30, s.regs.edx), (0x34, s.regs.ebx), (0x38, s.regs.esp), (0x3C, s.regs.ebp), (0x40, s.regs.esi),
      (0x44, s.regs.edi)]
    let shorts : List (Nat × Word) := [(0x48, sel .es), (0x4C, sel .cs), (0x50, sel .ss), (0x54, sel .ds),
      (0x58, sel .fs), (0x5C, sel .gs)]
    (∀ e ∈ longs, Kept s t (s.tr.base + BitVec.ofNat 32 e.1) .w32 e.2) ∧
    (∀ e ∈ shorts, Kept s t (s.tr.base + BitVec.ofNat 32 e.1) .w16 e.2) ∧
    Accessed s t ((longs.map fun e => (s.tr.base + BitVec.ofNat 32 e.1, 4)) ++
      shorts.map fun e => (s.tr.base + BitVec.ofNat 32 e.1, 2))

/-- R475, R479, R480 and R481: after a task switch the registers, CR3, EIP and flags are those of the incoming task's
image, the task register names it and is busy, NT is set by a call or an interrupt, CPL is the image's level or 3 in
virtual-8086 mode, every segment register has the image's selector, and the block ends. -/
def Sys2Proof.Claim.TaskRegistersLoaded : Prop :=
  ∀ (sel : Half) (d : Desc) (a ret : Word) (op : SwitchOp) (s t : State),
    (switchToTask sel d a op ret).run s = .ok () t →
    103 ≤ d.limit.toNat ∧ s.tr.type32 = true ∧ ∃ (u v : State) (m : TaskImage),
      (do switchStep1 op; switchStep2 op ret; switchStep3 op d : Op Unit).run s = .ok () u ∧
      (readTaskImage d.base).run u = .ok m v ∧
      t.regs = m.regs ∧ t.eip = m.eip ∧ t.cr3 = m.cr3 ∧ t.cr0 = s.cr0 ∧ t.gdtr = s.gdtr ∧ t.idtr = s.idtr ∧
      t.tr = { selector := sel, base := d.base, limit := d.limit, busy := true, type32 := true } ∧
      (∀ q : Flag, getFlag t.flags q = if q = .nt ∧ (op = .call ∨ op = .interrupt) then true else m.fl.getLsbD q.bit) ∧
      iopl t.flags = m.fl.extractLsb' 12 2 ∧
      t.cpl = (if m.fl.getLsbD 17 then 3 else rpl m.cs) ∧ t.ldtr.selector = m.ldt ∧
      t.segs.es.selector = m.es ∧ t.segs.cs.selector = m.cs ∧ t.segs.ss.selector = m.ss ∧
      t.segs.ds.selector = m.ds ∧ t.segs.fs.selector = m.fs ∧ t.segs.gs.selector = m.gs ∧ t.inBlock = false

/-- R479 and R470: the image of the incoming task is what memory holds in its task-state segment, field by field.
Device memory: assumption log 14. -/
def Sys2Proof.Claim.TaskImageRead : Prop :=
  ∀ (b : Word) (s t : State) (m : TaskImage), s.Inv → (readTaskImage b).run s = .ok m t →
    let longs : List (Nat × Word) := [(0x1C, m.cr3), (0x20, m.eip), (0x24, m.fl), (0x28, m.regs.eax), (0x2C, m.regs.ecx),
      (0x30, m.regs.edx), (0x34, m.regs.ebx), (0x38, m.regs.esp), (0x3C, m.regs.ebp), (0x40, m.regs.esi),
      (0x44, m.regs.edi)]
    let shorts : List (Nat × Half) := [(0x48, m.es), (0x4C, m.cs), (0x50, m.ss), (0x54, m.ds), (0x58, m.fs), (0x5C, m.gs),
      (0x60, m.ldt)]
    (∀ e ∈ longs, Loaded s t (b + BitVec.ofNat 32 e.1) .w32 e.2) ∧
    (∀ e ∈ shorts, Loaded s t (b + BitVec.ofNat 32 e.1) .w16 (e.2.setWidth 32)) ∧ Accessed s t []

/-- R476, R478 and R480: the busy bit of the outgoing task's descriptor is cleared by a jump or an IRET, the back link is
written and NT set by a call or an interrupt, and the incoming task's descriptor is marked busy but by an IRET; each
writes nothing else. Device memory: assumption log 14. -/
def Sys2Proof.Claim.TaskLinksWritten : Prop :=
  ∀ (op : SwitchOp) (d : Desc) (a : Word) (s t : State), s.Inv →
    let nests := op = .call ∨ op = .interrupt
    let out := s.gdtr.base + BitVec.ofNat 32 (s.tr.selector.toNat / 8 * 8) + 5
    ((switchStep1 op).run s = .ok () t →
      (nests → t = s) ∧
      (¬ nests → ∃ v u, (sysRead out .w8).run s = .ok v u ∧ Accessed s t [(out, 1)] ∧ Stored s t out .w8 (v &&& 0xFD))) ∧
    ((switchStep3 op d).run s = .ok () t →
      (nests → Accessed s t [(d.base, 2)] ∧ Stored s t d.base .w16 (s.tr.selector.setWidth 32)) ∧ (¬ nests → t = s)) ∧
    ((switchStep56 op a).run s = .ok () t →
      let s1 : State := if nests then { s with flags := putFlag s.flags .nt true } else s
      (op = .iret → t = { s with tr := { s.tr with busy := true } }) ∧
      (op ≠ .iret → ∃ v u y, (sysRead (a + 5) .w8).run s1 = .ok v u ∧ t = { y with tr := { s.tr with busy := true } } ∧
        Accessed s1 y [(a + 5, 1)] ∧ Stored s1 y (a + 5) .w8 (v ||| 2)))

/-- R482: the loads of LDTR, CS, SS and a data segment by a task switch, and that every failure is `#TS` with the
selector; and their order. In virtual-8086 mode all six are loaded by its path. -/
def Sys2Proof.Claim.TaskSegmentLoads : Prop :=
  (∀ (sel : Half) (s : State) (i : Seg),
    let ts : Stop := .fault { kind := .ts, code := some (sel.setWidth 32 &&& 0xFFFC), addr := none } false
    let inGdt := sel.getLsbD 2 = false
    (nullSel sel = true → (switchLdt sel).run s = .ok () s ∧ (switchData i sel).run s = .ok () s ∧
      (switchCs sel).run s = .error ts s ∧ (switchSs sel).run s = .error ts s) ∧
    (nullSel sel = false → ¬ inGdt → (switchLdt sel).run s = .error ts s) ∧
    (∀ u, nullSel sel = false → (fetchDescriptor sel).run s = .ok none u →
      (inGdt → (switchLdt sel).run s = .error ts u) ∧ (switchCs sel).run s = .error ts u ∧
      (switchSs sel).run s = .error ts u ∧ (switchData i sel).run s = .error ts u) ∧
    (∀ d a u, nullSel sel = false → (fetchDescriptor sel).run s = .ok (some (d, a)) u →
      let n := rpl sel
      let readable := d.cls = .data ∨ (d.cls = .code ∧ d.type.getLsbD 1 = true)
      let reached := (d.cls = .code ∧ d.type.getLsbD 2 = true) ∨ max s.cpl.toNat n.toNat ≤ d.dpl.toNat
      (inGdt → (switchLdt sel).run s = if d.cls = .ldt ∧ d.p = true then
        .ok () { u with ldtr := { u.ldtr with base := d.base, limit := d.limit, valid := true } } else .error ts u) ∧
      ((switchCs sel).run s =
        if d.isCode = true ∧ (if d.conforming then d.dpl.toNat ≤ n.toNat else d.dpl = n) ∧ d.p = true then
          .ok () { u.setSeg .cs (codeReg sel d n) with cpl := n } else .error ts u) ∧
      ((switchSs sel).run s =
        if n = s.cpl ∧ d.dpl = s.cpl ∧ d.cls = .data ∧ d.type.getLsbD 1 = true ∧ d.p = true then
          .ok () (u.setSeg .ss (.ofDesc sel d)) else .error ts u) ∧
      ((switchData i sel).run s =
        if readable ∧ reached ∧ d.p = true then .ok () (u.setSeg i (.ofDesc sel d)) else .error ts u))) ∧
  (∀ (m : TaskImage) (s : State),
    (s.flag .vm = false → (switchStep7 m).run s = (do
      switchLdt m.ldt
      switchCs m.cs
      switchSs m.ss
      switchData .es m.es
      switchData .ds m.ds
      switchData .fs m.fs
      switchData .gs m.gs : Op Unit).run s) ∧
    (∀ u, s.flag .vm = true → (switchLdt m.ldt).run s = .ok () u →
      (switchStep7 m).run s = .ok () { u with segs := { es := .v86 .es m.es, cs := .v86 .cs m.cs, ss := .v86 .ss m.ss,
                                                        ds := .v86 .ds m.ds, fs := .v86 .fs m.fs, gs := .v86 .gs m.gs } }) ∧
    (∀ e u, s.flag .vm = true → (switchLdt m.ldt).run s = .error e u → (switchStep7 m).run s = .error e u))

/-- R473, R475, R479 and R482: a 16-bit task-state segment is refused by its name and a limit below 103 is `#TS`; then the
steps in their order. A fault up to the reads of the image stops the switch as it is; from then on, with the image
loaded, a fault is marked as past the commit point (assumption log 12, the model's reading). -/
def Sys2Proof.Claim.TaskSwitchSteps : Prop :=
  ∀ (sel : Half) (d : Desc) (a ret : Word) (op : SwitchOp) (s : State),
    let answer := (switchToTask sel d a op ret).run s
    let small := d.cls = .tss16Avail ∨ d.cls = .tss16Busy ∨ s.tr.type32 = false
    let first := (do switchStep1 op; switchStep2 op ret; switchStep3 op d; readTaskImage d.base : Op TaskImage).run s
    (small → answer = .error (.refuse .tss16) s) ∧
    (¬ small → d.limit.toNat < 103 → answer =
      .error (.fault { kind := .ts, code := some (sel.setWidth 32 &&& 0xFFFC), addr := none } false) s) ∧
    (∀ e u, ¬ small → 103 ≤ d.limit.toNat → first = .error e u → answer = .error e u) ∧
    (∀ m u, ¬ small → 103 ≤ d.limit.toNat → first = .ok m u →
      let gone (i : Seg) (v : Half) : SegReg := { u.seg i with selector := v, valid := false }
      let loaded : State := { u with
        cr3 := m.cr3, tlb := [], eip := m.eip, flags := setFlags u.flags m.fl 0xFFFFFFFF, regs := m.regs
        tr := { selector := sel, base := d.base, limit := d.limit, busy := u.tr.busy, type32 := true }
        segs := { es := gone .es m.es, cs := gone .cs m.cs, ss := gone .ss m.ss, ds := gone .ds m.ds,
                  fs := gone .fs m.fs, gs := gone .gs m.gs }
        ldtr := { u.ldtr with selector := m.ldt, valid := false } }
      (∀ f b w, (switchStep56 op a).run loaded = .error (.fault f b) w → answer = .error (.fault f true) w) ∧
      (∀ w, (switchStep56 op a).run loaded = .ok () w →
        let leveled : State := { w with cpl := if m.fl.getLsbD 17 then 3 else rpl m.cs }
        (∀ f b t, (switchStep7 m).run leveled = .error (.fault f b) t → answer = .error (.fault f true) t) ∧
        (∀ t, (switchStep7 m).run leveled = .ok () t → answer = .ok () { t with inBlock := false })))

/-- The incoming task: what is read, what its registers become, the links and busy bits, the segment loads and their
faults, and the order of the steps (R473, R475, R476, R478 to R482). -/
def Obligations.TaskLoaded : Prop :=
  Claim.TaskRegistersLoaded ∧ Claim.TaskImageRead ∧ Claim.TaskLinksWritten ∧ Claim.TaskSegmentLoads ∧
    Claim.TaskSwitchSteps

/-! ### Decoding -/

/-- Decode and encode agree: for every well-formed instruction, in a code segment of either size and whatever bytes
follow, decoding its encoding gives it back, and its length, which is at most 15 (R130, R160). -/
def Obligations.DecodeEncode : Prop :=
  ∀ (i : Instr) (d : Size) (rest : List Byte), i.wf = true →
    (encode d i).length ≤ 15 ∧ decode d (encode d i ++ rest) = .ok i (encode d i).length

/-- Words written out from the encodings of the spec decode to the instructions they stand for; and some that match no
row are refused (R183, R184). -/
def Obligations.WordsDecode : Prop :=
  decode .s16 [0xB8, 0x34, 0x12] = .ok (.movRegImm .w16 .eax 0x1234) 3 ∧
  decode .s32 [0x8D, 0x44, 0x58, 0x04] = .ok (.lea .s32 .eax (.mem
    { seg := .ds, addr := .sib .eax (some .ebx) 1 (.d8 4) })) 4 ∧
  decode .s16 [0x66, 0x0F, 0xB6, 0xC3] = .ok (.movzxByte .s32 .eax (.reg .ebx)) 4 ∧
  decode .s32 [0x83, 0xC0, 0xFF] = .ok (.add (.rmImm8 .s32 (.reg .eax) 0xFF)) 3 ∧
  decode .s16 [0xF6, 0xFB] = .ok (.idiv .w8 (.reg .ebx)) 2 ∧
  decode .s16 [0xD1, 0xF8] = .ok (.sar .w16 (.reg .eax) .one) 2 ∧
  decode .s16 [0xF3, 0xA4] = .ok (.movsb .repe .s16 .ds) 2 ∧
  decode .s16 [0x9A, 0x00, 0x00, 0x00, 0x20] = .ok (.callFarPtr .s16 0x2000 0) 5 ∧
  decode .s32 [0xCF] = .ok (.iret .s32) 1 ∧ decode .s16 [0xFA] = .ok .cli 1 ∧
  decode .s32 [0x0F, 0x22, 0xD8] = .ok (.movToCr 3 .eax) 3 ∧
  decode .s32 [0x0F, 0x01, 0x38] = .ok (.invlpg (.mem { seg := .ds, addr := .based32 .eax .none })) 3 ∧
  decode .s16 [0x60] = .unadmitted ∧ decode .s16 [0xD8, 0xC0] = .unadmitted ∧ decode .s16 [0xF6, 0xC8] = .unadmitted

/-! ### The step -/

/-- The step of state `s` fetches an instruction, from state `b` on: a block runs, or the machine, not halted and with no
interrupt to take, begins one. That one step is one instruction of the block, with its mark, is the model's own (assumption
log 9), and that the paragraphs of a block are found by a look-ahead where it begins (log 18). -/
def Sys2Proof.Claim.Fetches (s b : State) : Prop :=
  s.shutdown = false ∧ ∃ c : State, b = { c with startEip := s.eip, startEsp := s.regs.esp } ∧
    ((s.inBlock = true ∧ c = s) ∨ (s.inBlock = false ∧ s.halted = false ∧ (s.pending = [] ∨ s.flag .if_ = false) ∧
      c = { s with cycles := 0, inBlock := true
                   blockParas := blockAhead s.blockPlan { s with cycles := 0, blockParas := [] } }))

/-- R24, R130 and R520: where the bytes at EIP can be fetched and decode to the end, the step is `exec` of that
instruction with `nextEIP` behind it, then the charge of its cycles and the end of its block, if it is the end; bytes that
decode to no row are refused by name. The model's own: one step is one instruction of the block, with the mark of the
running block and its end (assumption log 9, DESIGN CHOICE); the refusal comes at the byte that settles it, with the
bytes read so far (log 17, DEDUCED); the paragraphs of a block are found by a look-ahead where it begins (log 18, DESIGN
CHOICE). -/
def Sys2Proof.Claim.StepRunsInstruction : Prop :=
  ∀ (s b u : State) (bs : List Byte) (i : Instr), Claim.Fetches s b → (fetchBytes bs.length 0).run b = .ok bs u →
    ((decInstr s.codeSize).run bs = .ok i [] →
      step s = onNext (fun t => { t with cycles := t.cycles + Config.insnCycles i }.finish)
        (exec i { u with nextEip := s.codeAdd s.eip bs.length })) ∧
    ((decInstr s.codeSize).run bs = .unadmitted → (∀ n, n < bs.length → (decInstr s.codeSize).run (bs.take n) = .more) →
      step s = .refused (.unadmitted bs))

/-- R130, R505, R506 and R520: where the bytes fetched so far are no instruction yet and the next one faults, the step
dispatches that fault: nothing is executed, the registers are as they were and the address to return to is that of the
instruction's first byte. That such a step charges no cycles is the model's choice (assumption log 19). -/
def Sys2Proof.Claim.StepTakesFetchFault : Prop :=
  ∀ (s b u t : State) (bs : List Byte) (f : GuestFault), Claim.Fetches s b →
    (fetchBytes bs.length 0).run b = .ok bs u → (decInstr s.codeSize).run bs = .more →
    (fetchByte bs.length).run u = .error (.fault f false) t →
    step s = onNext State.finish (dispatchFault faultChain f s.eip (rollback b t))

/-- A step runs the instruction its bytes decode to, or takes the fault of its fetch (R24, R130, R506, R520). -/
def Obligations.StepRunsDecoded : Prop := Claim.StepRunsInstruction ∧ Claim.StepTakesFetchFault

/-- R130: with paging off and the code bytes in RAM inside the limits, the fetch reads memory at CS base plus EIP, the
offset wrapping at the segment's size, and only notes the paragraphs (R133). -/
def Sys2Proof.Claim.FetchSucceeds : Prop :=
  ∀ (n : Nat) (s : State), s.pg = false → n ≤ 15 →
    let off (k : Nat) : Word := if s.segs.cs.size32 then s.startEip + BitVec.ofNat 32 k
      else (s.startEip + BitVec.ofNat 32 k) &&& 0xFFFF
    let phys (k : Nat) : Nat := ((s.segs.cs.base + off k) &&& s.a20Mask).toNat
    (∀ k, k < n → s.segs.cs.limitMin.toNat ≤ (off k).toNat ∧ (off k).toNat ≤ s.segs.cs.limitMax.toNat ∧
      regionAt s.physMap (phys k) = some .ram) →
    ∃ t, (fetchBytes n 0).run s = .ok ((List.range n).map fun k => s.mem.read (phys k)) t ∧
      t = { s with blockParas := t.blockParas }

/-- R130 and R506: a 16th byte is `#GP(0)`, and so is a byte outside the limits of CS, before any walk and with no effect;
inside them the fault of the translation, for a read at the current level, is the fetch's; and of several bytes the first
that faults gives the fault. -/
def Sys2Proof.Claim.FetchFaults : Prop :=
  ∀ (k : Nat) (s : State),
    let off : Word := if s.segs.cs.size32 then s.startEip + BitVec.ofNat 32 k
      else (s.startEip + BitVec.ofNat 32 k) &&& 0xFFFF
    let gp : Stop := .fault { kind := .gp, code := some 0, addr := none } false
    let inside := s.segs.cs.limitMin.toNat ≤ off.toNat ∧ off.toNat ≤ s.segs.cs.limitMax.toNat
    (15 ≤ k → (fetchByte k).run s = .error gp s) ∧
    (k < 15 → ¬ inside → (fetchByte k).run s = .error gp s) ∧
    (∀ e u, k < 15 → inside → (translate (s.segs.cs.base + off) false (decide (s.cpl = 3))).run s = .error e u →
      (fetchByte k).run s = .error e u) ∧
    (∀ n bs u e t, k < n → (fetchBytes k 0).run s = .ok bs u → (fetchByte k).run u = .error e t →
      (fetchBytes n 0).run s = .error e t)

/-- The fetch reads the code bytes of memory, or faults (R130, R506). -/
def Obligations.FetchReadsMemory : Prop := Claim.FetchSucceeds ∧ Claim.FetchFaults

/-- R520, R507 and R542: at a block boundary a pending request with IF set is taken before anything else: it leaves the
halt state, the first request is acknowledged and its vector dispatched with EIP as the return address. In the halt
state without one, the step only charges the idle cost. -/
def Sys2Proof.Claim.InterruptsAndHalt : Prop :=
  ∀ (s : State), s.shutdown = false → s.inBlock = false →
    let b : State := { s with cycles := 0, blockParas := [] }
    (∀ v rest t, s.flag .if_ = true → s.pending = v :: rest →
      (dispatch v.toNat .external none s.eip).run
        { b with halted := false, pending := rest, startEip := s.eip, startEsp := s.regs.esp } = .ok () t →
      step s = .next { t with cycles := t.cycles + Config.intAckCycles }.updateClock) ∧
    (s.halted = true → s.pending = [] ∨ s.flag .if_ = false →
      step s = .next { b with cycles := Config.haltIdleCycles }.updateClock)

/-- R510 and R520: where the dispatch of an external interrupt faults, the fault is dispatched with EXT set in its error
code, the registers as they were and EIP as the return address, or, past the commit point of a task switch, in the
incoming task (R482). That a page fault's code has no EXT bit and what address is saved past the commit point are the
model's readings (assumption logs 11 and 12). -/
def Sys2Proof.Claim.InterruptThatFaults : Prop :=
  ∀ (s u : State) (v : Byte) (rest : List Byte) (f : GuestFault) (past : Bool), s.shutdown = false → s.inBlock = false →
    s.flag .if_ = true → s.pending = v :: rest →
    let b : State := { s with cycles := 0, blockParas := [], halted := false, pending := rest, startEip := s.eip,
                              startEsp := s.regs.esp }
    let g : GuestFault := if f.kind = .pf then f else { f with code := f.code.map fun c => c ||| 1 }
    let charged (o : Host.Outcome State Fault Refusal) : Host.Outcome State Fault Refusal :=
      onNext (fun t => { t with cycles := t.cycles + Config.intAckCycles }.updateClock) o
    (dispatch v.toNat .external none s.eip).run b = .error (.fault f past) u →
    step s = charged (if past then dispatchFault faultChain g u.eip u
      else dispatchFault faultChain g s.eip (rollback b u))

/-- R511, R547 and R570: in shutdown there is no next state unless the platform demands the reset input, which puts every
register of the core at its reset value and leaves memory alone. That the demand comes in the platform's next turn, and that
EDX, a draw, is the same after this reset as after any other, are the model's choices (assumption logs 10 and 7, DESIGN
CHOICE, unsafe). -/
def Sys2Proof.Claim.ShutdownAndReset : Prop :=
  ∀ s : State, s.shutdown = true →
    ((∀ batch rest, s.events = batch :: rest → PlatformEvent.reset ∉ batch) → step s = .fault .shutdown) ∧
    (∀ batch rest, s.events = batch :: rest → PlatformEvent.reset ∈ batch → ∃ t, step s = .next t ∧
      t.shutdown = false ∧ t.events = rest) ∧
    (∀ before rest, s.events = (before ++ [.reset]) :: rest → ∃ t, step s = .next t ∧
      let r := State.reset
      t.regs = r.regs ∧ t.eip = r.eip ∧ t.flags = r.flags ∧ t.segs = r.segs ∧ t.cpl = r.cpl ∧ t.gdtr = r.gdtr ∧
      t.idtr = r.idtr ∧ t.ldtr = r.ldtr ∧ t.tr = r.tr ∧ t.cr0 = r.cr0 ∧ t.cr2 = r.cr2 ∧ t.cr3 = r.cr3 ∧
      t.a20Mask = r.a20Mask ∧ t.shutdown = false ∧ t.halted = false ∧ t.tlb = [] ∧ (before = [] → t.mem = s.mem))

/-- Interrupts, the halt state, shutdown and the reset input (R510, R511, R520, R547). -/
def Obligations.InterruptsHaltShutdown : Prop :=
  Claim.InterruptsAndHalt ∧ Claim.InterruptThatFaults ∧ Claim.ShutdownAndReset
end

