-- ==== Sys2Proof/Laws/Op.lean ====
section
/-! SUPPORT. How operations run: what each way of building one does to a state, and relations between the state
before and the state after that hold however the operation ends. -/

namespace Sys2Proof.Machine

/-! ### Running -/

theorem run_bind_ok {α β : Type} {x : Op α} {f : α → Op β} {s t : State} {a : α} (h : x.run s = .ok a t) :
    (x >>= f).run s = (f a).run t := by
  simp [EStateM.run_bind, h]

theorem run_bind_error {α β : Type} {x : Op α} {f : α → Op β} {s t : State} {e : Stop}
    (h : x.run s = .error e t) : (x >>= f).run s = .error e t := by
  simp [EStateM.run_bind, h]

theorem run_bind_inv {α β : Type} {x : Op α} {f : α → Op β} {s u : State} {b : β}
    (h : (x >>= f).run s = .ok b u) : ∃ a t, x.run s = .ok a t ∧ (f a).run t = .ok b u := by
  rw [EStateM.run_bind] at h
  split at h
  · exact ⟨_, _, ‹_›, h⟩
  · cases h

@[simp] theorem run_require_true (k : FaultKind) (c : Word) (s : State) : (require true k c).run s = .ok () s := rfl

@[simp] theorem run_require_false (k : FaultKind) (c : Word) (s : State) :
    (require false k c).run s = .error (.fault { kind := k, code := some c, addr := none } false) s := rfl

theorem run_require (ok : Bool) (k : FaultKind) (c : Word) (s : State) :
    (require ok k c).run s =
      if ok then .ok () s else .error (.fault { kind := k, code := some c, addr := none } false) s := by
  cases ok <;> rfl

@[simp] theorem run_readReg (w : Width) (r : Reg) (s : State) : (readReg w r).run s = .ok (s.reg w r) s := rfl

@[simp] theorem run_writeReg (w : Width) (r : Reg) (v : Word) (s : State) :
    (writeReg w r v).run s = .ok () (s.setReg w r v) := rfl

@[simp] theorem run_advance (s : State) : advance.run s = .ok () s.advance := rfl

@[simp] theorem run_jumpTo (v : Word) (s : State) : (jumpTo v).run s = .ok () (s.setEip v) := rfl

@[simp] theorem run_endBlock (s : State) : endBlock.run s = .ok () s.endBlock := rfl

@[simp] theorem run_putFlagOp (f : Flag) (v : Bool) (s : State) :
    (putFlagOp f v).run s = .ok () (s.putFlag f v) := rfl

@[simp] theorem run_putStatusOp (t : Status) (s : State) : (putStatusOp t).run s = .ok () (s.putStatus t) := rfl

@[simp] theorem run_drawBit (s : State) :
    drawBit.run s = .ok (Config.drawBit s.draws) { s with draws := s.draws + 1 } := rfl

@[simp] theorem run_get (s : State) : (get : Op State).run s = .ok s s := rfl

@[simp] theorem run_modify (f : State → State) (s : State) : (modify f : Op Unit).run s = .ok () (f s) := rfl

@[simp] theorem run_op_pure {α : Type} (a : α) (s : State) : (pure a : Op α).run s = .ok a s := rfl

@[simp] theorem run_raise {α : Type} (k : FaultKind) (c : Option Word) (s : State) :
    (raise k c : Op α).run s = .error (.fault { kind := k, code := c, addr := none } false) s := rfl

@[simp] theorem run_refuse {α : Type} (r : Refusal) (s : State) :
    (refuse r : Op α).run s = .error (.refuse r) s := rfl

@[simp] theorem run_setCpl (c : BitVec 2) (s : State) : (setCpl c).run s = .ok () { s with cpl := c } := rfl

/-! ### Settling -/

theorem run_of_ok {op : Op Unit} {s t : State} (h : op.run s = .ok () t) : run op s = .next t := by
  unfold run
  rw [h]
  rfl

theorem run_of_fault {op : Op Unit} {s t : State} {f : GuestFault} (h : op.run s = .error (.fault f false) t) :
    run op s = dispatchFault faultChain f s.startEip (rollback s t) := by
  unfold run
  rw [h]
  rfl

theorem run_of_refuse {op : Op Unit} {s t : State} {r : Refusal} (h : op.run s = .error (.refuse r) t) :
    run op s = .refused r := by
  unfold run
  rw [h]
  rfl

/-! ### Relations between before and after -/

/-- The state after, whether the operation ended or stopped. -/
def after {α : Type} : EStateM.Result Stop State α → State
  | .ok _ t => t
  | .error _ t => t

/-- A relation holds between the state before and the state after. -/
def Op.Rel {α : Type} (R : State → State → Prop) (x : Op α) : Prop := ∀ s, R s (after (x.run s))

/-- A relation that operations can be composed under. -/
structure Preorder (R : State → State → Prop) : Prop where
  refl  : ∀ s, R s s
  trans : ∀ s t u, R s t → R t u → R s u

variable {R : State → State → Prop} {α β : Type}

theorem Op.rel_ofOk {x : Op α} (h : Op.Rel R x) {s t : State} {a : α} (e : x.run s = .ok a t) : R s t := by
  have := h s
  rwa [e] at this

theorem Op.rel_ofError {x : Op α} (h : Op.Rel R x) {s t : State} {e : Stop} (he : x.run s = .error e t) :
    R s t := by
  have := h s
  rwa [he] at this

theorem Op.rel_pure (p : Preorder R) (a : α) : Op.Rel R (pure a : Op α) := fun s => p.refl s

theorem Op.rel_bind (p : Preorder R) {x : Op α} {f : α → Op β} (hx : Op.Rel R x) (hf : ∀ a, Op.Rel R (f a)) :
    Op.Rel R (x >>= f) := by
  intro s
  cases e : x.run s with
  | ok a t => rw [run_bind_ok e]; exact p.trans _ _ _ ((Op.rel_ofOk hx) e) (hf a t)
  | error r t => rw [run_bind_error e]; exact Op.rel_ofError hx e

theorem Op.rel_get (p : Preorder R) : Op.Rel R (get : Op State) := fun s => p.refl s

/-- An operation that begins by looking at the state: the rest may use what it saw. -/
theorem Op.rel_getBind {f : State → Op β} (hf : ∀ s, R s (after ((f s).run s))) :
    Op.Rel R ((get : Op State) >>= f) := by
  intro s
  rw [run_bind_ok (run_get s)]
  exact hf s

theorem Op.rel_modify {f : State → State} (h : ∀ s, R s (f s)) : Op.Rel R (modify f : Op Unit) := h

theorem Op.rel_raise (p : Preorder R) (k : FaultKind) (c : Option Word) : Op.Rel R (raise k c : Op α) :=
  fun s => p.refl s

theorem Op.rel_refuse (p : Preorder R) (r : Refusal) : Op.Rel R (refuse r : Op α) := fun s => p.refl s

theorem Op.rel_require (p : Preorder R) (ok : Bool) (k : FaultKind) (c : Word) : Op.Rel R (require ok k c) := by
  cases ok
  · exact Op.rel_raise p _ _
  · exact Op.rel_pure p _

theorem Op.rel_ite {c : Prop} [Decidable c] {x y : Op α} (hx : Op.Rel R x) (hy : Op.Rel R y) :
    Op.Rel R (if c then x else y) := by
  split
  · exact hx
  · exact hy

theorem Op.rel_mono {Q : State → State → Prop} {x : Op α} (h : Op.Rel R x) (hq : ∀ s t, R s t → Q s t) :
    Op.Rel Q x := fun s => hq _ _ (h s)

end Sys2Proof.Machine
end

