-- ==== Sys2Proof/Laws/State.lean ====
section
/-! SUPPORT. One lemma per field per state update, each true by definition, so that no proof unfolds a record
update. The updates built from these (`putFlag`, `loadFlags`, `putStatus`, `advance`, `setSp`) come last. -/

namespace Sys2Proof.Machine

@[simp] theorem State.setReg_regs (s : State) (w : Width) (r : Reg) (v : Word) : (s.setReg w r v).regs = s.regs.setView w r v := rfl
@[simp] theorem State.setReg_eip (s : State) (w : Width) (r : Reg) (v : Word) : (s.setReg w r v).eip = s.eip := rfl
@[simp] theorem State.setReg_flags (s : State) (w : Width) (r : Reg) (v : Word) : (s.setReg w r v).flags = s.flags := rfl
@[simp] theorem State.setReg_segs (s : State) (w : Width) (r : Reg) (v : Word) : (s.setReg w r v).segs = s.segs := rfl
@[simp] theorem State.setReg_cpl (s : State) (w : Width) (r : Reg) (v : Word) : (s.setReg w r v).cpl = s.cpl := rfl
@[simp] theorem State.setReg_gdtr (s : State) (w : Width) (r : Reg) (v : Word) : (s.setReg w r v).gdtr = s.gdtr := rfl
@[simp] theorem State.setReg_idtr (s : State) (w : Width) (r : Reg) (v : Word) : (s.setReg w r v).idtr = s.idtr := rfl
@[simp] theorem State.setReg_ldtr (s : State) (w : Width) (r : Reg) (v : Word) : (s.setReg w r v).ldtr = s.ldtr := rfl
@[simp] theorem State.setReg_tr (s : State) (w : Width) (r : Reg) (v : Word) : (s.setReg w r v).tr = s.tr := rfl
@[simp] theorem State.setReg_cr0 (s : State) (w : Width) (r : Reg) (v : Word) : (s.setReg w r v).cr0 = s.cr0 := rfl
@[simp] theorem State.setReg_cr2 (s : State) (w : Width) (r : Reg) (v : Word) : (s.setReg w r v).cr2 = s.cr2 := rfl
@[simp] theorem State.setReg_cr3 (s : State) (w : Width) (r : Reg) (v : Word) : (s.setReg w r v).cr3 = s.cr3 := rfl
@[simp] theorem State.setReg_a20On (s : State) (w : Width) (r : Reg) (v : Word) : (s.setReg w r v).a20On = s.a20On := rfl
@[simp] theorem State.setReg_halted (s : State) (w : Width) (r : Reg) (v : Word) : (s.setReg w r v).halted = s.halted := rfl
@[simp] theorem State.setReg_shutdown (s : State) (w : Width) (r : Reg) (v : Word) : (s.setReg w r v).shutdown = s.shutdown := rfl
@[simp] theorem State.setReg_tlb (s : State) (w : Width) (r : Reg) (v : Word) : (s.setReg w r v).tlb = s.tlb := rfl
@[simp] theorem State.setReg_startEip (s : State) (w : Width) (r : Reg) (v : Word) : (s.setReg w r v).startEip = s.startEip := rfl
@[simp] theorem State.setReg_startEsp (s : State) (w : Width) (r : Reg) (v : Word) : (s.setReg w r v).startEsp = s.startEsp := rfl
@[simp] theorem State.setReg_nextEip (s : State) (w : Width) (r : Reg) (v : Word) : (s.setReg w r v).nextEip = s.nextEip := rfl
@[simp] theorem State.setReg_inBlock (s : State) (w : Width) (r : Reg) (v : Word) : (s.setReg w r v).inBlock = s.inBlock := rfl
@[simp] theorem State.setReg_blockParas (s : State) (w : Width) (r : Reg) (v : Word) : (s.setReg w r v).blockParas = s.blockParas := rfl
@[simp] theorem State.setReg_blockPlan (s : State) (w : Width) (r : Reg) (v : Word) : (s.setReg w r v).blockPlan = s.blockPlan := rfl
@[simp] theorem State.setReg_cycles (s : State) (w : Width) (r : Reg) (v : Word) : (s.setReg w r v).cycles = s.cycles := rfl
@[simp] theorem State.setReg_mem (s : State) (w : Width) (r : Reg) (v : Word) : (s.setReg w r v).mem = s.mem := rfl
@[simp] theorem State.setReg_physMap (s : State) (w : Width) (r : Reg) (v : Word) : (s.setReg w r v).physMap = s.physMap := rfl
@[simp] theorem State.setReg_ioMap (s : State) (w : Width) (r : Reg) (v : Word) : (s.setReg w r v).ioMap = s.ioMap := rfl
@[simp] theorem State.setReg_pending (s : State) (w : Width) (r : Reg) (v : Word) : (s.setReg w r v).pending = s.pending := rfl
@[simp] theorem State.setReg_clock (s : State) (w : Width) (r : Reg) (v : Word) : (s.setReg w r v).clock = s.clock := rfl
@[simp] theorem State.setReg_events (s : State) (w : Width) (r : Reg) (v : Word) : (s.setReg w r v).events = s.events := rfl
@[simp] theorem State.setReg_ioEvents (s : State) (w : Width) (r : Reg) (v : Word) : (s.setReg w r v).ioEvents = s.ioEvents := rfl
@[simp] theorem State.setReg_calls (s : State) (w : Width) (r : Reg) (v : Word) : (s.setReg w r v).calls = s.calls := rfl
@[simp] theorem State.setReg_draws (s : State) (w : Width) (r : Reg) (v : Word) : (s.setReg w r v).draws = s.draws := rfl

@[simp] theorem State.setSeg_regs (s : State) (i : Seg) (g : SegReg) : (s.setSeg i g).regs = s.regs := rfl
@[simp] theorem State.setSeg_eip (s : State) (i : Seg) (g : SegReg) : (s.setSeg i g).eip = s.eip := rfl
@[simp] theorem State.setSeg_flags (s : State) (i : Seg) (g : SegReg) : (s.setSeg i g).flags = s.flags := rfl
@[simp] theorem State.setSeg_segs (s : State) (i : Seg) (g : SegReg) : (s.setSeg i g).segs = s.segs.set i g := rfl
@[simp] theorem State.setSeg_cpl (s : State) (i : Seg) (g : SegReg) : (s.setSeg i g).cpl = s.cpl := rfl
@[simp] theorem State.setSeg_gdtr (s : State) (i : Seg) (g : SegReg) : (s.setSeg i g).gdtr = s.gdtr := rfl
@[simp] theorem State.setSeg_idtr (s : State) (i : Seg) (g : SegReg) : (s.setSeg i g).idtr = s.idtr := rfl
@[simp] theorem State.setSeg_ldtr (s : State) (i : Seg) (g : SegReg) : (s.setSeg i g).ldtr = s.ldtr := rfl
@[simp] theorem State.setSeg_tr (s : State) (i : Seg) (g : SegReg) : (s.setSeg i g).tr = s.tr := rfl
@[simp] theorem State.setSeg_cr0 (s : State) (i : Seg) (g : SegReg) : (s.setSeg i g).cr0 = s.cr0 := rfl
@[simp] theorem State.setSeg_cr2 (s : State) (i : Seg) (g : SegReg) : (s.setSeg i g).cr2 = s.cr2 := rfl
@[simp] theorem State.setSeg_cr3 (s : State) (i : Seg) (g : SegReg) : (s.setSeg i g).cr3 = s.cr3 := rfl
@[simp] theorem State.setSeg_a20On (s : State) (i : Seg) (g : SegReg) : (s.setSeg i g).a20On = s.a20On := rfl
@[simp] theorem State.setSeg_halted (s : State) (i : Seg) (g : SegReg) : (s.setSeg i g).halted = s.halted := rfl
@[simp] theorem State.setSeg_shutdown (s : State) (i : Seg) (g : SegReg) : (s.setSeg i g).shutdown = s.shutdown := rfl
@[simp] theorem State.setSeg_tlb (s : State) (i : Seg) (g : SegReg) : (s.setSeg i g).tlb = s.tlb := rfl
@[simp] theorem State.setSeg_startEip (s : State) (i : Seg) (g : SegReg) : (s.setSeg i g).startEip = s.startEip := rfl
@[simp] theorem State.setSeg_startEsp (s : State) (i : Seg) (g : SegReg) : (s.setSeg i g).startEsp = s.startEsp := rfl
@[simp] theorem State.setSeg_nextEip (s : State) (i : Seg) (g : SegReg) : (s.setSeg i g).nextEip = s.nextEip := rfl
@[simp] theorem State.setSeg_inBlock (s : State) (i : Seg) (g : SegReg) : (s.setSeg i g).inBlock = s.inBlock := rfl
@[simp] theorem State.setSeg_blockParas (s : State) (i : Seg) (g : SegReg) : (s.setSeg i g).blockParas = s.blockParas := rfl
@[simp] theorem State.setSeg_blockPlan (s : State) (i : Seg) (g : SegReg) : (s.setSeg i g).blockPlan = s.blockPlan := rfl
@[simp] theorem State.setSeg_cycles (s : State) (i : Seg) (g : SegReg) : (s.setSeg i g).cycles = s.cycles := rfl
@[simp] theorem State.setSeg_mem (s : State) (i : Seg) (g : SegReg) : (s.setSeg i g).mem = s.mem := rfl
@[simp] theorem State.setSeg_physMap (s : State) (i : Seg) (g : SegReg) : (s.setSeg i g).physMap = s.physMap := rfl
@[simp] theorem State.setSeg_ioMap (s : State) (i : Seg) (g : SegReg) : (s.setSeg i g).ioMap = s.ioMap := rfl
@[simp] theorem State.setSeg_pending (s : State) (i : Seg) (g : SegReg) : (s.setSeg i g).pending = s.pending := rfl
@[simp] theorem State.setSeg_clock (s : State) (i : Seg) (g : SegReg) : (s.setSeg i g).clock = s.clock := rfl
@[simp] theorem State.setSeg_events (s : State) (i : Seg) (g : SegReg) : (s.setSeg i g).events = s.events := rfl
@[simp] theorem State.setSeg_ioEvents (s : State) (i : Seg) (g : SegReg) : (s.setSeg i g).ioEvents = s.ioEvents := rfl
@[simp] theorem State.setSeg_calls (s : State) (i : Seg) (g : SegReg) : (s.setSeg i g).calls = s.calls := rfl
@[simp] theorem State.setSeg_draws (s : State) (i : Seg) (g : SegReg) : (s.setSeg i g).draws = s.draws := rfl

@[simp] theorem State.setEip_regs (s : State) (v : Word) : (s.setEip v).regs = s.regs := rfl
@[simp] theorem State.setEip_eip (s : State) (v : Word) : (s.setEip v).eip = v := rfl
@[simp] theorem State.setEip_flags (s : State) (v : Word) : (s.setEip v).flags = s.flags := rfl
@[simp] theorem State.setEip_segs (s : State) (v : Word) : (s.setEip v).segs = s.segs := rfl
@[simp] theorem State.setEip_cpl (s : State) (v : Word) : (s.setEip v).cpl = s.cpl := rfl
@[simp] theorem State.setEip_gdtr (s : State) (v : Word) : (s.setEip v).gdtr = s.gdtr := rfl
@[simp] theorem State.setEip_idtr (s : State) (v : Word) : (s.setEip v).idtr = s.idtr := rfl
@[simp] theorem State.setEip_ldtr (s : State) (v : Word) : (s.setEip v).ldtr = s.ldtr := rfl
@[simp] theorem State.setEip_tr (s : State) (v : Word) : (s.setEip v).tr = s.tr := rfl
@[simp] theorem State.setEip_cr0 (s : State) (v : Word) : (s.setEip v).cr0 = s.cr0 := rfl
@[simp] theorem State.setEip_cr2 (s : State) (v : Word) : (s.setEip v).cr2 = s.cr2 := rfl
@[simp] theorem State.setEip_cr3 (s : State) (v : Word) : (s.setEip v).cr3 = s.cr3 := rfl
@[simp] theorem State.setEip_a20On (s : State) (v : Word) : (s.setEip v).a20On = s.a20On := rfl
@[simp] theorem State.setEip_halted (s : State) (v : Word) : (s.setEip v).halted = s.halted := rfl
@[simp] theorem State.setEip_shutdown (s : State) (v : Word) : (s.setEip v).shutdown = s.shutdown := rfl
@[simp] theorem State.setEip_tlb (s : State) (v : Word) : (s.setEip v).tlb = s.tlb := rfl
@[simp] theorem State.setEip_startEip (s : State) (v : Word) : (s.setEip v).startEip = s.startEip := rfl
@[simp] theorem State.setEip_startEsp (s : State) (v : Word) : (s.setEip v).startEsp = s.startEsp := rfl
@[simp] theorem State.setEip_nextEip (s : State) (v : Word) : (s.setEip v).nextEip = s.nextEip := rfl
@[simp] theorem State.setEip_inBlock (s : State) (v : Word) : (s.setEip v).inBlock = s.inBlock := rfl
@[simp] theorem State.setEip_blockParas (s : State) (v : Word) : (s.setEip v).blockParas = s.blockParas := rfl
@[simp] theorem State.setEip_blockPlan (s : State) (v : Word) : (s.setEip v).blockPlan = s.blockPlan := rfl
@[simp] theorem State.setEip_cycles (s : State) (v : Word) : (s.setEip v).cycles = s.cycles := rfl
@[simp] theorem State.setEip_mem (s : State) (v : Word) : (s.setEip v).mem = s.mem := rfl
@[simp] theorem State.setEip_physMap (s : State) (v : Word) : (s.setEip v).physMap = s.physMap := rfl
@[simp] theorem State.setEip_ioMap (s : State) (v : Word) : (s.setEip v).ioMap = s.ioMap := rfl
@[simp] theorem State.setEip_pending (s : State) (v : Word) : (s.setEip v).pending = s.pending := rfl
@[simp] theorem State.setEip_clock (s : State) (v : Word) : (s.setEip v).clock = s.clock := rfl
@[simp] theorem State.setEip_events (s : State) (v : Word) : (s.setEip v).events = s.events := rfl
@[simp] theorem State.setEip_ioEvents (s : State) (v : Word) : (s.setEip v).ioEvents = s.ioEvents := rfl
@[simp] theorem State.setEip_calls (s : State) (v : Word) : (s.setEip v).calls = s.calls := rfl
@[simp] theorem State.setEip_draws (s : State) (v : Word) : (s.setEip v).draws = s.draws := rfl

@[simp] theorem State.setFlagWord_regs (s : State) (f : Word) : (s.setFlagWord f).regs = s.regs := rfl
@[simp] theorem State.setFlagWord_eip (s : State) (f : Word) : (s.setFlagWord f).eip = s.eip := rfl
@[simp] theorem State.setFlagWord_flags (s : State) (f : Word) : (s.setFlagWord f).flags = f := rfl
@[simp] theorem State.setFlagWord_segs (s : State) (f : Word) : (s.setFlagWord f).segs = s.segs := rfl
@[simp] theorem State.setFlagWord_cpl (s : State) (f : Word) : (s.setFlagWord f).cpl = s.cpl := rfl
@[simp] theorem State.setFlagWord_gdtr (s : State) (f : Word) : (s.setFlagWord f).gdtr = s.gdtr := rfl
@[simp] theorem State.setFlagWord_idtr (s : State) (f : Word) : (s.setFlagWord f).idtr = s.idtr := rfl
@[simp] theorem State.setFlagWord_ldtr (s : State) (f : Word) : (s.setFlagWord f).ldtr = s.ldtr := rfl
@[simp] theorem State.setFlagWord_tr (s : State) (f : Word) : (s.setFlagWord f).tr = s.tr := rfl
@[simp] theorem State.setFlagWord_cr0 (s : State) (f : Word) : (s.setFlagWord f).cr0 = s.cr0 := rfl
@[simp] theorem State.setFlagWord_cr2 (s : State) (f : Word) : (s.setFlagWord f).cr2 = s.cr2 := rfl
@[simp] theorem State.setFlagWord_cr3 (s : State) (f : Word) : (s.setFlagWord f).cr3 = s.cr3 := rfl
@[simp] theorem State.setFlagWord_a20On (s : State) (f : Word) : (s.setFlagWord f).a20On = s.a20On := rfl
@[simp] theorem State.setFlagWord_halted (s : State) (f : Word) : (s.setFlagWord f).halted = s.halted := rfl
@[simp] theorem State.setFlagWord_shutdown (s : State) (f : Word) : (s.setFlagWord f).shutdown = s.shutdown := rfl
@[simp] theorem State.setFlagWord_tlb (s : State) (f : Word) : (s.setFlagWord f).tlb = s.tlb := rfl
@[simp] theorem State.setFlagWord_startEip (s : State) (f : Word) : (s.setFlagWord f).startEip = s.startEip := rfl
@[simp] theorem State.setFlagWord_startEsp (s : State) (f : Word) : (s.setFlagWord f).startEsp = s.startEsp := rfl
@[simp] theorem State.setFlagWord_nextEip (s : State) (f : Word) : (s.setFlagWord f).nextEip = s.nextEip := rfl
@[simp] theorem State.setFlagWord_inBlock (s : State) (f : Word) : (s.setFlagWord f).inBlock = s.inBlock := rfl
@[simp] theorem State.setFlagWord_blockParas (s : State) (f : Word) : (s.setFlagWord f).blockParas = s.blockParas := rfl
@[simp] theorem State.setFlagWord_blockPlan (s : State) (f : Word) : (s.setFlagWord f).blockPlan = s.blockPlan := rfl
@[simp] theorem State.setFlagWord_cycles (s : State) (f : Word) : (s.setFlagWord f).cycles = s.cycles := rfl
@[simp] theorem State.setFlagWord_mem (s : State) (f : Word) : (s.setFlagWord f).mem = s.mem := rfl
@[simp] theorem State.setFlagWord_physMap (s : State) (f : Word) : (s.setFlagWord f).physMap = s.physMap := rfl
@[simp] theorem State.setFlagWord_ioMap (s : State) (f : Word) : (s.setFlagWord f).ioMap = s.ioMap := rfl
@[simp] theorem State.setFlagWord_pending (s : State) (f : Word) : (s.setFlagWord f).pending = s.pending := rfl
@[simp] theorem State.setFlagWord_clock (s : State) (f : Word) : (s.setFlagWord f).clock = s.clock := rfl
@[simp] theorem State.setFlagWord_events (s : State) (f : Word) : (s.setFlagWord f).events = s.events := rfl
@[simp] theorem State.setFlagWord_ioEvents (s : State) (f : Word) : (s.setFlagWord f).ioEvents = s.ioEvents := rfl
@[simp] theorem State.setFlagWord_calls (s : State) (f : Word) : (s.setFlagWord f).calls = s.calls := rfl
@[simp] theorem State.setFlagWord_draws (s : State) (f : Word) : (s.setFlagWord f).draws = s.draws := rfl

@[simp] theorem State.endBlock_regs (s : State) : (s.endBlock).regs = s.regs := rfl
@[simp] theorem State.endBlock_eip (s : State) : (s.endBlock).eip = s.eip := rfl
@[simp] theorem State.endBlock_flags (s : State) : (s.endBlock).flags = s.flags := rfl
@[simp] theorem State.endBlock_segs (s : State) : (s.endBlock).segs = s.segs := rfl
@[simp] theorem State.endBlock_cpl (s : State) : (s.endBlock).cpl = s.cpl := rfl
@[simp] theorem State.endBlock_gdtr (s : State) : (s.endBlock).gdtr = s.gdtr := rfl
@[simp] theorem State.endBlock_idtr (s : State) : (s.endBlock).idtr = s.idtr := rfl
@[simp] theorem State.endBlock_ldtr (s : State) : (s.endBlock).ldtr = s.ldtr := rfl
@[simp] theorem State.endBlock_tr (s : State) : (s.endBlock).tr = s.tr := rfl
@[simp] theorem State.endBlock_cr0 (s : State) : (s.endBlock).cr0 = s.cr0 := rfl
@[simp] theorem State.endBlock_cr2 (s : State) : (s.endBlock).cr2 = s.cr2 := rfl
@[simp] theorem State.endBlock_cr3 (s : State) : (s.endBlock).cr3 = s.cr3 := rfl
@[simp] theorem State.endBlock_a20On (s : State) : (s.endBlock).a20On = s.a20On := rfl
@[simp] theorem State.endBlock_halted (s : State) : (s.endBlock).halted = s.halted := rfl
@[simp] theorem State.endBlock_shutdown (s : State) : (s.endBlock).shutdown = s.shutdown := rfl
@[simp] theorem State.endBlock_tlb (s : State) : (s.endBlock).tlb = s.tlb := rfl
@[simp] theorem State.endBlock_startEip (s : State) : (s.endBlock).startEip = s.startEip := rfl
@[simp] theorem State.endBlock_startEsp (s : State) : (s.endBlock).startEsp = s.startEsp := rfl
@[simp] theorem State.endBlock_nextEip (s : State) : (s.endBlock).nextEip = s.nextEip := rfl
@[simp] theorem State.endBlock_inBlock (s : State) : (s.endBlock).inBlock = false := rfl
@[simp] theorem State.endBlock_blockParas (s : State) : (s.endBlock).blockParas = s.blockParas := rfl
@[simp] theorem State.endBlock_blockPlan (s : State) : (s.endBlock).blockPlan = s.blockPlan := rfl
@[simp] theorem State.endBlock_cycles (s : State) : (s.endBlock).cycles = s.cycles := rfl
@[simp] theorem State.endBlock_mem (s : State) : (s.endBlock).mem = s.mem := rfl
@[simp] theorem State.endBlock_physMap (s : State) : (s.endBlock).physMap = s.physMap := rfl
@[simp] theorem State.endBlock_ioMap (s : State) : (s.endBlock).ioMap = s.ioMap := rfl
@[simp] theorem State.endBlock_pending (s : State) : (s.endBlock).pending = s.pending := rfl
@[simp] theorem State.endBlock_clock (s : State) : (s.endBlock).clock = s.clock := rfl
@[simp] theorem State.endBlock_events (s : State) : (s.endBlock).events = s.events := rfl
@[simp] theorem State.endBlock_ioEvents (s : State) : (s.endBlock).ioEvents = s.ioEvents := rfl
@[simp] theorem State.endBlock_calls (s : State) : (s.endBlock).calls = s.calls := rfl
@[simp] theorem State.endBlock_draws (s : State) : (s.endBlock).draws = s.draws := rfl

@[simp] theorem State.setNextEip_regs (s : State) (n : Nat) : (s.setNextEip n).regs = s.regs := rfl
@[simp] theorem State.setNextEip_eip (s : State) (n : Nat) : (s.setNextEip n).eip = s.eip := rfl
@[simp] theorem State.setNextEip_flags (s : State) (n : Nat) : (s.setNextEip n).flags = s.flags := rfl
@[simp] theorem State.setNextEip_segs (s : State) (n : Nat) : (s.setNextEip n).segs = s.segs := rfl
@[simp] theorem State.setNextEip_cpl (s : State) (n : Nat) : (s.setNextEip n).cpl = s.cpl := rfl
@[simp] theorem State.setNextEip_gdtr (s : State) (n : Nat) : (s.setNextEip n).gdtr = s.gdtr := rfl
@[simp] theorem State.setNextEip_idtr (s : State) (n : Nat) : (s.setNextEip n).idtr = s.idtr := rfl
@[simp] theorem State.setNextEip_ldtr (s : State) (n : Nat) : (s.setNextEip n).ldtr = s.ldtr := rfl
@[simp] theorem State.setNextEip_tr (s : State) (n : Nat) : (s.setNextEip n).tr = s.tr := rfl
@[simp] theorem State.setNextEip_cr0 (s : State) (n : Nat) : (s.setNextEip n).cr0 = s.cr0 := rfl
@[simp] theorem State.setNextEip_cr2 (s : State) (n : Nat) : (s.setNextEip n).cr2 = s.cr2 := rfl
@[simp] theorem State.setNextEip_cr3 (s : State) (n : Nat) : (s.setNextEip n).cr3 = s.cr3 := rfl
@[simp] theorem State.setNextEip_a20On (s : State) (n : Nat) : (s.setNextEip n).a20On = s.a20On := rfl
@[simp] theorem State.setNextEip_halted (s : State) (n : Nat) : (s.setNextEip n).halted = s.halted := rfl
@[simp] theorem State.setNextEip_shutdown (s : State) (n : Nat) : (s.setNextEip n).shutdown = s.shutdown := rfl
@[simp] theorem State.setNextEip_tlb (s : State) (n : Nat) : (s.setNextEip n).tlb = s.tlb := rfl
@[simp] theorem State.setNextEip_startEip (s : State) (n : Nat) : (s.setNextEip n).startEip = s.startEip := rfl
@[simp] theorem State.setNextEip_startEsp (s : State) (n : Nat) : (s.setNextEip n).startEsp = s.startEsp := rfl
@[simp] theorem State.setNextEip_nextEip (s : State) (n : Nat) : (s.setNextEip n).nextEip = s.codeAdd s.startEip n := rfl
@[simp] theorem State.setNextEip_inBlock (s : State) (n : Nat) : (s.setNextEip n).inBlock = s.inBlock := rfl
@[simp] theorem State.setNextEip_blockParas (s : State) (n : Nat) : (s.setNextEip n).blockParas = s.blockParas := rfl
@[simp] theorem State.setNextEip_blockPlan (s : State) (n : Nat) : (s.setNextEip n).blockPlan = s.blockPlan := rfl
@[simp] theorem State.setNextEip_cycles (s : State) (n : Nat) : (s.setNextEip n).cycles = s.cycles := rfl
@[simp] theorem State.setNextEip_mem (s : State) (n : Nat) : (s.setNextEip n).mem = s.mem := rfl
@[simp] theorem State.setNextEip_physMap (s : State) (n : Nat) : (s.setNextEip n).physMap = s.physMap := rfl
@[simp] theorem State.setNextEip_ioMap (s : State) (n : Nat) : (s.setNextEip n).ioMap = s.ioMap := rfl
@[simp] theorem State.setNextEip_pending (s : State) (n : Nat) : (s.setNextEip n).pending = s.pending := rfl
@[simp] theorem State.setNextEip_clock (s : State) (n : Nat) : (s.setNextEip n).clock = s.clock := rfl
@[simp] theorem State.setNextEip_events (s : State) (n : Nat) : (s.setNextEip n).events = s.events := rfl
@[simp] theorem State.setNextEip_ioEvents (s : State) (n : Nat) : (s.setNextEip n).ioEvents = s.ioEvents := rfl
@[simp] theorem State.setNextEip_calls (s : State) (n : Nat) : (s.setNextEip n).calls = s.calls := rfl
@[simp] theorem State.setNextEip_draws (s : State) (n : Nat) : (s.setNextEip n).draws = s.draws := rfl

@[simp] theorem State.charge_regs (s : State) (n : Nat) : (s.charge n).regs = s.regs := rfl
@[simp] theorem State.charge_eip (s : State) (n : Nat) : (s.charge n).eip = s.eip := rfl
@[simp] theorem State.charge_flags (s : State) (n : Nat) : (s.charge n).flags = s.flags := rfl
@[simp] theorem State.charge_segs (s : State) (n : Nat) : (s.charge n).segs = s.segs := rfl
@[simp] theorem State.charge_cpl (s : State) (n : Nat) : (s.charge n).cpl = s.cpl := rfl
@[simp] theorem State.charge_gdtr (s : State) (n : Nat) : (s.charge n).gdtr = s.gdtr := rfl
@[simp] theorem State.charge_idtr (s : State) (n : Nat) : (s.charge n).idtr = s.idtr := rfl
@[simp] theorem State.charge_ldtr (s : State) (n : Nat) : (s.charge n).ldtr = s.ldtr := rfl
@[simp] theorem State.charge_tr (s : State) (n : Nat) : (s.charge n).tr = s.tr := rfl
@[simp] theorem State.charge_cr0 (s : State) (n : Nat) : (s.charge n).cr0 = s.cr0 := rfl
@[simp] theorem State.charge_cr2 (s : State) (n : Nat) : (s.charge n).cr2 = s.cr2 := rfl
@[simp] theorem State.charge_cr3 (s : State) (n : Nat) : (s.charge n).cr3 = s.cr3 := rfl
@[simp] theorem State.charge_a20On (s : State) (n : Nat) : (s.charge n).a20On = s.a20On := rfl
@[simp] theorem State.charge_halted (s : State) (n : Nat) : (s.charge n).halted = s.halted := rfl
@[simp] theorem State.charge_shutdown (s : State) (n : Nat) : (s.charge n).shutdown = s.shutdown := rfl
@[simp] theorem State.charge_tlb (s : State) (n : Nat) : (s.charge n).tlb = s.tlb := rfl
@[simp] theorem State.charge_startEip (s : State) (n : Nat) : (s.charge n).startEip = s.startEip := rfl
@[simp] theorem State.charge_startEsp (s : State) (n : Nat) : (s.charge n).startEsp = s.startEsp := rfl
@[simp] theorem State.charge_nextEip (s : State) (n : Nat) : (s.charge n).nextEip = s.nextEip := rfl
@[simp] theorem State.charge_inBlock (s : State) (n : Nat) : (s.charge n).inBlock = s.inBlock := rfl
@[simp] theorem State.charge_blockParas (s : State) (n : Nat) : (s.charge n).blockParas = s.blockParas := rfl
@[simp] theorem State.charge_blockPlan (s : State) (n : Nat) : (s.charge n).blockPlan = s.blockPlan := rfl
@[simp] theorem State.charge_cycles (s : State) (n : Nat) : (s.charge n).cycles = s.cycles + n := rfl
@[simp] theorem State.charge_mem (s : State) (n : Nat) : (s.charge n).mem = s.mem := rfl
@[simp] theorem State.charge_physMap (s : State) (n : Nat) : (s.charge n).physMap = s.physMap := rfl
@[simp] theorem State.charge_ioMap (s : State) (n : Nat) : (s.charge n).ioMap = s.ioMap := rfl
@[simp] theorem State.charge_pending (s : State) (n : Nat) : (s.charge n).pending = s.pending := rfl
@[simp] theorem State.charge_clock (s : State) (n : Nat) : (s.charge n).clock = s.clock := rfl
@[simp] theorem State.charge_events (s : State) (n : Nat) : (s.charge n).events = s.events := rfl
@[simp] theorem State.charge_ioEvents (s : State) (n : Nat) : (s.charge n).ioEvents = s.ioEvents := rfl
@[simp] theorem State.charge_calls (s : State) (n : Nat) : (s.charge n).calls = s.calls := rfl
@[simp] theorem State.charge_draws (s : State) (n : Nat) : (s.charge n).draws = s.draws := rfl

@[simp] theorem State.latch_regs (s : State) : (s.latch).regs = s.regs := rfl
@[simp] theorem State.latch_eip (s : State) : (s.latch).eip = s.eip := rfl
@[simp] theorem State.latch_flags (s : State) : (s.latch).flags = s.flags := rfl
@[simp] theorem State.latch_segs (s : State) : (s.latch).segs = s.segs := rfl
@[simp] theorem State.latch_cpl (s : State) : (s.latch).cpl = s.cpl := rfl
@[simp] theorem State.latch_gdtr (s : State) : (s.latch).gdtr = s.gdtr := rfl
@[simp] theorem State.latch_idtr (s : State) : (s.latch).idtr = s.idtr := rfl
@[simp] theorem State.latch_ldtr (s : State) : (s.latch).ldtr = s.ldtr := rfl
@[simp] theorem State.latch_tr (s : State) : (s.latch).tr = s.tr := rfl
@[simp] theorem State.latch_cr0 (s : State) : (s.latch).cr0 = s.cr0 := rfl
@[simp] theorem State.latch_cr2 (s : State) : (s.latch).cr2 = s.cr2 := rfl
@[simp] theorem State.latch_cr3 (s : State) : (s.latch).cr3 = s.cr3 := rfl
@[simp] theorem State.latch_a20On (s : State) : (s.latch).a20On = s.a20On := rfl
@[simp] theorem State.latch_halted (s : State) : (s.latch).halted = s.halted := rfl
@[simp] theorem State.latch_shutdown (s : State) : (s.latch).shutdown = s.shutdown := rfl
@[simp] theorem State.latch_tlb (s : State) : (s.latch).tlb = s.tlb := rfl
@[simp] theorem State.latch_startEip (s : State) : (s.latch).startEip = s.eip := rfl
@[simp] theorem State.latch_startEsp (s : State) : (s.latch).startEsp = s.regs.esp := rfl
@[simp] theorem State.latch_nextEip (s : State) : (s.latch).nextEip = s.nextEip := rfl
@[simp] theorem State.latch_inBlock (s : State) : (s.latch).inBlock = s.inBlock := rfl
@[simp] theorem State.latch_blockParas (s : State) : (s.latch).blockParas = s.blockParas := rfl
@[simp] theorem State.latch_blockPlan (s : State) : (s.latch).blockPlan = s.blockPlan := rfl
@[simp] theorem State.latch_cycles (s : State) : (s.latch).cycles = s.cycles := rfl
@[simp] theorem State.latch_mem (s : State) : (s.latch).mem = s.mem := rfl
@[simp] theorem State.latch_physMap (s : State) : (s.latch).physMap = s.physMap := rfl
@[simp] theorem State.latch_ioMap (s : State) : (s.latch).ioMap = s.ioMap := rfl
@[simp] theorem State.latch_pending (s : State) : (s.latch).pending = s.pending := rfl
@[simp] theorem State.latch_clock (s : State) : (s.latch).clock = s.clock := rfl
@[simp] theorem State.latch_events (s : State) : (s.latch).events = s.events := rfl
@[simp] theorem State.latch_ioEvents (s : State) : (s.latch).ioEvents = s.ioEvents := rfl
@[simp] theorem State.latch_calls (s : State) : (s.latch).calls = s.calls := rfl
@[simp] theorem State.latch_draws (s : State) : (s.latch).draws = s.draws := rfl

@[simp] theorem State.beginStep_regs (s : State) : (s.beginStep).regs = s.regs := rfl
@[simp] theorem State.beginStep_eip (s : State) : (s.beginStep).eip = s.eip := rfl
@[simp] theorem State.beginStep_flags (s : State) : (s.beginStep).flags = s.flags := rfl
@[simp] theorem State.beginStep_segs (s : State) : (s.beginStep).segs = s.segs := rfl
@[simp] theorem State.beginStep_cpl (s : State) : (s.beginStep).cpl = s.cpl := rfl
@[simp] theorem State.beginStep_gdtr (s : State) : (s.beginStep).gdtr = s.gdtr := rfl
@[simp] theorem State.beginStep_idtr (s : State) : (s.beginStep).idtr = s.idtr := rfl
@[simp] theorem State.beginStep_ldtr (s : State) : (s.beginStep).ldtr = s.ldtr := rfl
@[simp] theorem State.beginStep_tr (s : State) : (s.beginStep).tr = s.tr := rfl
@[simp] theorem State.beginStep_cr0 (s : State) : (s.beginStep).cr0 = s.cr0 := rfl
@[simp] theorem State.beginStep_cr2 (s : State) : (s.beginStep).cr2 = s.cr2 := rfl
@[simp] theorem State.beginStep_cr3 (s : State) : (s.beginStep).cr3 = s.cr3 := rfl
@[simp] theorem State.beginStep_a20On (s : State) : (s.beginStep).a20On = s.a20On := rfl
@[simp] theorem State.beginStep_halted (s : State) : (s.beginStep).halted = s.halted := rfl
@[simp] theorem State.beginStep_shutdown (s : State) : (s.beginStep).shutdown = s.shutdown := rfl
@[simp] theorem State.beginStep_tlb (s : State) : (s.beginStep).tlb = s.tlb := rfl
@[simp] theorem State.beginStep_startEip (s : State) : (s.beginStep).startEip = s.startEip := rfl
@[simp] theorem State.beginStep_startEsp (s : State) : (s.beginStep).startEsp = s.startEsp := rfl
@[simp] theorem State.beginStep_nextEip (s : State) : (s.beginStep).nextEip = s.nextEip := rfl
@[simp] theorem State.beginStep_inBlock (s : State) : (s.beginStep).inBlock = s.inBlock := rfl
@[simp] theorem State.beginStep_blockParas (s : State) : (s.beginStep).blockParas = [] := rfl
@[simp] theorem State.beginStep_blockPlan (s : State) : (s.beginStep).blockPlan = s.blockPlan := rfl
@[simp] theorem State.beginStep_cycles (s : State) : (s.beginStep).cycles = 0 := rfl
@[simp] theorem State.beginStep_mem (s : State) : (s.beginStep).mem = s.mem := rfl
@[simp] theorem State.beginStep_physMap (s : State) : (s.beginStep).physMap = s.physMap := rfl
@[simp] theorem State.beginStep_ioMap (s : State) : (s.beginStep).ioMap = s.ioMap := rfl
@[simp] theorem State.beginStep_pending (s : State) : (s.beginStep).pending = s.pending := rfl
@[simp] theorem State.beginStep_clock (s : State) : (s.beginStep).clock = s.clock := rfl
@[simp] theorem State.beginStep_events (s : State) : (s.beginStep).events = s.events := rfl
@[simp] theorem State.beginStep_ioEvents (s : State) : (s.beginStep).ioEvents = s.ioEvents := rfl
@[simp] theorem State.beginStep_calls (s : State) : (s.beginStep).calls = s.calls := rfl
@[simp] theorem State.beginStep_draws (s : State) : (s.beginStep).draws = s.draws := rfl

@[simp] theorem State.beginBlock_regs (s : State) : (s.beginBlock).regs = s.regs := rfl
@[simp] theorem State.beginBlock_eip (s : State) : (s.beginBlock).eip = s.eip := rfl
@[simp] theorem State.beginBlock_flags (s : State) : (s.beginBlock).flags = s.flags := rfl
@[simp] theorem State.beginBlock_segs (s : State) : (s.beginBlock).segs = s.segs := rfl
@[simp] theorem State.beginBlock_cpl (s : State) : (s.beginBlock).cpl = s.cpl := rfl
@[simp] theorem State.beginBlock_gdtr (s : State) : (s.beginBlock).gdtr = s.gdtr := rfl
@[simp] theorem State.beginBlock_idtr (s : State) : (s.beginBlock).idtr = s.idtr := rfl
@[simp] theorem State.beginBlock_ldtr (s : State) : (s.beginBlock).ldtr = s.ldtr := rfl
@[simp] theorem State.beginBlock_tr (s : State) : (s.beginBlock).tr = s.tr := rfl
@[simp] theorem State.beginBlock_cr0 (s : State) : (s.beginBlock).cr0 = s.cr0 := rfl
@[simp] theorem State.beginBlock_cr2 (s : State) : (s.beginBlock).cr2 = s.cr2 := rfl
@[simp] theorem State.beginBlock_cr3 (s : State) : (s.beginBlock).cr3 = s.cr3 := rfl
@[simp] theorem State.beginBlock_a20On (s : State) : (s.beginBlock).a20On = s.a20On := rfl
@[simp] theorem State.beginBlock_halted (s : State) : (s.beginBlock).halted = s.halted := rfl
@[simp] theorem State.beginBlock_shutdown (s : State) : (s.beginBlock).shutdown = s.shutdown := rfl
@[simp] theorem State.beginBlock_tlb (s : State) : (s.beginBlock).tlb = s.tlb := rfl
@[simp] theorem State.beginBlock_startEip (s : State) : (s.beginBlock).startEip = s.startEip := rfl
@[simp] theorem State.beginBlock_startEsp (s : State) : (s.beginBlock).startEsp = s.startEsp := rfl
@[simp] theorem State.beginBlock_nextEip (s : State) : (s.beginBlock).nextEip = s.nextEip := rfl
@[simp] theorem State.beginBlock_inBlock (s : State) : (s.beginBlock).inBlock = true := rfl
@[simp] theorem State.beginBlock_blockParas (s : State) : (s.beginBlock).blockParas = blockAhead s.blockPlan s.beginStep := rfl
@[simp] theorem State.beginBlock_blockPlan (s : State) : (s.beginBlock).blockPlan = s.blockPlan := rfl
@[simp] theorem State.beginBlock_cycles (s : State) : (s.beginBlock).cycles = 0 := rfl
@[simp] theorem State.beginBlock_mem (s : State) : (s.beginBlock).mem = s.mem := rfl
@[simp] theorem State.beginBlock_physMap (s : State) : (s.beginBlock).physMap = s.physMap := rfl
@[simp] theorem State.beginBlock_ioMap (s : State) : (s.beginBlock).ioMap = s.ioMap := rfl
@[simp] theorem State.beginBlock_pending (s : State) : (s.beginBlock).pending = s.pending := rfl
@[simp] theorem State.beginBlock_clock (s : State) : (s.beginBlock).clock = s.clock := rfl
@[simp] theorem State.beginBlock_events (s : State) : (s.beginBlock).events = s.events := rfl
@[simp] theorem State.beginBlock_ioEvents (s : State) : (s.beginBlock).ioEvents = s.ioEvents := rfl
@[simp] theorem State.beginBlock_calls (s : State) : (s.beginBlock).calls = s.calls := rfl
@[simp] theorem State.beginBlock_draws (s : State) : (s.beginBlock).draws = s.draws := rfl

@[simp] theorem State.stillIn_regs (s s0 : State) : (s.stillIn s0).regs = s.regs := rfl
@[simp] theorem State.stillIn_eip (s s0 : State) : (s.stillIn s0).eip = s.eip := rfl
@[simp] theorem State.stillIn_flags (s s0 : State) : (s.stillIn s0).flags = s.flags := rfl
@[simp] theorem State.stillIn_segs (s s0 : State) : (s.stillIn s0).segs = s.segs := rfl
@[simp] theorem State.stillIn_cpl (s s0 : State) : (s.stillIn s0).cpl = s.cpl := rfl
@[simp] theorem State.stillIn_gdtr (s s0 : State) : (s.stillIn s0).gdtr = s.gdtr := rfl
@[simp] theorem State.stillIn_idtr (s s0 : State) : (s.stillIn s0).idtr = s.idtr := rfl
@[simp] theorem State.stillIn_ldtr (s s0 : State) : (s.stillIn s0).ldtr = s.ldtr := rfl
@[simp] theorem State.stillIn_tr (s s0 : State) : (s.stillIn s0).tr = s.tr := rfl
@[simp] theorem State.stillIn_cr0 (s s0 : State) : (s.stillIn s0).cr0 = s.cr0 := rfl
@[simp] theorem State.stillIn_cr2 (s s0 : State) : (s.stillIn s0).cr2 = s.cr2 := rfl
@[simp] theorem State.stillIn_cr3 (s s0 : State) : (s.stillIn s0).cr3 = s.cr3 := rfl
@[simp] theorem State.stillIn_a20On (s s0 : State) : (s.stillIn s0).a20On = s.a20On := rfl
@[simp] theorem State.stillIn_halted (s s0 : State) : (s.stillIn s0).halted = s.halted := rfl
@[simp] theorem State.stillIn_shutdown (s s0 : State) : (s.stillIn s0).shutdown = s.shutdown := rfl
@[simp] theorem State.stillIn_tlb (s s0 : State) : (s.stillIn s0).tlb = s.tlb := rfl
@[simp] theorem State.stillIn_startEip (s s0 : State) : (s.stillIn s0).startEip = s.startEip := rfl
@[simp] theorem State.stillIn_startEsp (s s0 : State) : (s.stillIn s0).startEsp = s.startEsp := rfl
@[simp] theorem State.stillIn_nextEip (s s0 : State) : (s.stillIn s0).nextEip = s.nextEip := rfl
@[simp] theorem State.stillIn_inBlock (s s0 : State) : (s.stillIn s0).inBlock = (s0.inBlock && s.inBlock) := rfl
@[simp] theorem State.stillIn_blockParas (s s0 : State) : (s.stillIn s0).blockParas = s.blockParas := rfl
@[simp] theorem State.stillIn_blockPlan (s s0 : State) : (s.stillIn s0).blockPlan = s.blockPlan := rfl
@[simp] theorem State.stillIn_cycles (s s0 : State) : (s.stillIn s0).cycles = s.cycles := rfl
@[simp] theorem State.stillIn_mem (s s0 : State) : (s.stillIn s0).mem = s.mem := rfl
@[simp] theorem State.stillIn_physMap (s s0 : State) : (s.stillIn s0).physMap = s.physMap := rfl
@[simp] theorem State.stillIn_ioMap (s s0 : State) : (s.stillIn s0).ioMap = s.ioMap := rfl
@[simp] theorem State.stillIn_pending (s s0 : State) : (s.stillIn s0).pending = s.pending := rfl
@[simp] theorem State.stillIn_clock (s s0 : State) : (s.stillIn s0).clock = s.clock := rfl
@[simp] theorem State.stillIn_events (s s0 : State) : (s.stillIn s0).events = s.events := rfl
@[simp] theorem State.stillIn_ioEvents (s s0 : State) : (s.stillIn s0).ioEvents = s.ioEvents := rfl
@[simp] theorem State.stillIn_calls (s s0 : State) : (s.stillIn s0).calls = s.calls := rfl
@[simp] theorem State.stillIn_draws (s s0 : State) : (s.stillIn s0).draws = s.draws := rfl

@[simp] theorem State.flushTlb_regs (s : State) : (s.flushTlb).regs = s.regs := rfl
@[simp] theorem State.flushTlb_eip (s : State) : (s.flushTlb).eip = s.eip := rfl
@[simp] theorem State.flushTlb_flags (s : State) : (s.flushTlb).flags = s.flags := rfl
@[simp] theorem State.flushTlb_segs (s : State) : (s.flushTlb).segs = s.segs := rfl
@[simp] theorem State.flushTlb_cpl (s : State) : (s.flushTlb).cpl = s.cpl := rfl
@[simp] theorem State.flushTlb_gdtr (s : State) : (s.flushTlb).gdtr = s.gdtr := rfl
@[simp] theorem State.flushTlb_idtr (s : State) : (s.flushTlb).idtr = s.idtr := rfl
@[simp] theorem State.flushTlb_ldtr (s : State) : (s.flushTlb).ldtr = s.ldtr := rfl
@[simp] theorem State.flushTlb_tr (s : State) : (s.flushTlb).tr = s.tr := rfl
@[simp] theorem State.flushTlb_cr0 (s : State) : (s.flushTlb).cr0 = s.cr0 := rfl
@[simp] theorem State.flushTlb_cr2 (s : State) : (s.flushTlb).cr2 = s.cr2 := rfl
@[simp] theorem State.flushTlb_cr3 (s : State) : (s.flushTlb).cr3 = s.cr3 := rfl
@[simp] theorem State.flushTlb_a20On (s : State) : (s.flushTlb).a20On = s.a20On := rfl
@[simp] theorem State.flushTlb_halted (s : State) : (s.flushTlb).halted = s.halted := rfl
@[simp] theorem State.flushTlb_shutdown (s : State) : (s.flushTlb).shutdown = s.shutdown := rfl
@[simp] theorem State.flushTlb_tlb (s : State) : (s.flushTlb).tlb = [] := rfl
@[simp] theorem State.flushTlb_startEip (s : State) : (s.flushTlb).startEip = s.startEip := rfl
@[simp] theorem State.flushTlb_startEsp (s : State) : (s.flushTlb).startEsp = s.startEsp := rfl
@[simp] theorem State.flushTlb_nextEip (s : State) : (s.flushTlb).nextEip = s.nextEip := rfl
@[simp] theorem State.flushTlb_inBlock (s : State) : (s.flushTlb).inBlock = s.inBlock := rfl
@[simp] theorem State.flushTlb_blockParas (s : State) : (s.flushTlb).blockParas = s.blockParas := rfl
@[simp] theorem State.flushTlb_blockPlan (s : State) : (s.flushTlb).blockPlan = s.blockPlan := rfl
@[simp] theorem State.flushTlb_cycles (s : State) : (s.flushTlb).cycles = s.cycles := rfl
@[simp] theorem State.flushTlb_mem (s : State) : (s.flushTlb).mem = s.mem := rfl
@[simp] theorem State.flushTlb_physMap (s : State) : (s.flushTlb).physMap = s.physMap := rfl
@[simp] theorem State.flushTlb_ioMap (s : State) : (s.flushTlb).ioMap = s.ioMap := rfl
@[simp] theorem State.flushTlb_pending (s : State) : (s.flushTlb).pending = s.pending := rfl
@[simp] theorem State.flushTlb_clock (s : State) : (s.flushTlb).clock = s.clock := rfl
@[simp] theorem State.flushTlb_events (s : State) : (s.flushTlb).events = s.events := rfl
@[simp] theorem State.flushTlb_ioEvents (s : State) : (s.flushTlb).ioEvents = s.ioEvents := rfl
@[simp] theorem State.flushTlb_calls (s : State) : (s.flushTlb).calls = s.calls := rfl
@[simp] theorem State.flushTlb_draws (s : State) : (s.flushTlb).draws = s.draws := rfl

@[simp] theorem State.writeCr3_regs (s : State) (v : Word) : (s.writeCr3 v).regs = s.regs := rfl
@[simp] theorem State.writeCr3_eip (s : State) (v : Word) : (s.writeCr3 v).eip = s.eip := rfl
@[simp] theorem State.writeCr3_flags (s : State) (v : Word) : (s.writeCr3 v).flags = s.flags := rfl
@[simp] theorem State.writeCr3_segs (s : State) (v : Word) : (s.writeCr3 v).segs = s.segs := rfl
@[simp] theorem State.writeCr3_cpl (s : State) (v : Word) : (s.writeCr3 v).cpl = s.cpl := rfl
@[simp] theorem State.writeCr3_gdtr (s : State) (v : Word) : (s.writeCr3 v).gdtr = s.gdtr := rfl
@[simp] theorem State.writeCr3_idtr (s : State) (v : Word) : (s.writeCr3 v).idtr = s.idtr := rfl
@[simp] theorem State.writeCr3_ldtr (s : State) (v : Word) : (s.writeCr3 v).ldtr = s.ldtr := rfl
@[simp] theorem State.writeCr3_tr (s : State) (v : Word) : (s.writeCr3 v).tr = s.tr := rfl
@[simp] theorem State.writeCr3_cr0 (s : State) (v : Word) : (s.writeCr3 v).cr0 = s.cr0 := rfl
@[simp] theorem State.writeCr3_cr2 (s : State) (v : Word) : (s.writeCr3 v).cr2 = s.cr2 := rfl
@[simp] theorem State.writeCr3_cr3 (s : State) (v : Word) : (s.writeCr3 v).cr3 = v := rfl
@[simp] theorem State.writeCr3_a20On (s : State) (v : Word) : (s.writeCr3 v).a20On = s.a20On := rfl
@[simp] theorem State.writeCr3_halted (s : State) (v : Word) : (s.writeCr3 v).halted = s.halted := rfl
@[simp] theorem State.writeCr3_shutdown (s : State) (v : Word) : (s.writeCr3 v).shutdown = s.shutdown := rfl
@[simp] theorem State.writeCr3_tlb (s : State) (v : Word) : (s.writeCr3 v).tlb = [] := rfl
@[simp] theorem State.writeCr3_startEip (s : State) (v : Word) : (s.writeCr3 v).startEip = s.startEip := rfl
@[simp] theorem State.writeCr3_startEsp (s : State) (v : Word) : (s.writeCr3 v).startEsp = s.startEsp := rfl
@[simp] theorem State.writeCr3_nextEip (s : State) (v : Word) : (s.writeCr3 v).nextEip = s.nextEip := rfl
@[simp] theorem State.writeCr3_inBlock (s : State) (v : Word) : (s.writeCr3 v).inBlock = s.inBlock := rfl
@[simp] theorem State.writeCr3_blockParas (s : State) (v : Word) : (s.writeCr3 v).blockParas = s.blockParas := rfl
@[simp] theorem State.writeCr3_blockPlan (s : State) (v : Word) : (s.writeCr3 v).blockPlan = s.blockPlan := rfl
@[simp] theorem State.writeCr3_cycles (s : State) (v : Word) : (s.writeCr3 v).cycles = s.cycles := rfl
@[simp] theorem State.writeCr3_mem (s : State) (v : Word) : (s.writeCr3 v).mem = s.mem := rfl
@[simp] theorem State.writeCr3_physMap (s : State) (v : Word) : (s.writeCr3 v).physMap = s.physMap := rfl
@[simp] theorem State.writeCr3_ioMap (s : State) (v : Word) : (s.writeCr3 v).ioMap = s.ioMap := rfl
@[simp] theorem State.writeCr3_pending (s : State) (v : Word) : (s.writeCr3 v).pending = s.pending := rfl
@[simp] theorem State.writeCr3_clock (s : State) (v : Word) : (s.writeCr3 v).clock = s.clock := rfl
@[simp] theorem State.writeCr3_events (s : State) (v : Word) : (s.writeCr3 v).events = s.events := rfl
@[simp] theorem State.writeCr3_ioEvents (s : State) (v : Word) : (s.writeCr3 v).ioEvents = s.ioEvents := rfl
@[simp] theorem State.writeCr3_calls (s : State) (v : Word) : (s.writeCr3 v).calls = s.calls := rfl
@[simp] theorem State.writeCr3_draws (s : State) (v : Word) : (s.writeCr3 v).draws = s.draws := rfl

@[simp] theorem State.shutDown_regs (s : State) : (s.shutDown).regs = s.regs := rfl
@[simp] theorem State.shutDown_eip (s : State) : (s.shutDown).eip = s.eip := rfl
@[simp] theorem State.shutDown_flags (s : State) : (s.shutDown).flags = s.flags := rfl
@[simp] theorem State.shutDown_segs (s : State) : (s.shutDown).segs = s.segs := rfl
@[simp] theorem State.shutDown_cpl (s : State) : (s.shutDown).cpl = s.cpl := rfl
@[simp] theorem State.shutDown_gdtr (s : State) : (s.shutDown).gdtr = s.gdtr := rfl
@[simp] theorem State.shutDown_idtr (s : State) : (s.shutDown).idtr = s.idtr := rfl
@[simp] theorem State.shutDown_ldtr (s : State) : (s.shutDown).ldtr = s.ldtr := rfl
@[simp] theorem State.shutDown_tr (s : State) : (s.shutDown).tr = s.tr := rfl
@[simp] theorem State.shutDown_cr0 (s : State) : (s.shutDown).cr0 = s.cr0 := rfl
@[simp] theorem State.shutDown_cr2 (s : State) : (s.shutDown).cr2 = s.cr2 := rfl
@[simp] theorem State.shutDown_cr3 (s : State) : (s.shutDown).cr3 = s.cr3 := rfl
@[simp] theorem State.shutDown_a20On (s : State) : (s.shutDown).a20On = s.a20On := rfl
@[simp] theorem State.shutDown_halted (s : State) : (s.shutDown).halted = s.halted := rfl
@[simp] theorem State.shutDown_shutdown (s : State) : (s.shutDown).shutdown = true := rfl
@[simp] theorem State.shutDown_tlb (s : State) : (s.shutDown).tlb = s.tlb := rfl
@[simp] theorem State.shutDown_startEip (s : State) : (s.shutDown).startEip = s.startEip := rfl
@[simp] theorem State.shutDown_startEsp (s : State) : (s.shutDown).startEsp = s.startEsp := rfl
@[simp] theorem State.shutDown_nextEip (s : State) : (s.shutDown).nextEip = s.nextEip := rfl
@[simp] theorem State.shutDown_inBlock (s : State) : (s.shutDown).inBlock = false := rfl
@[simp] theorem State.shutDown_blockParas (s : State) : (s.shutDown).blockParas = s.blockParas := rfl
@[simp] theorem State.shutDown_blockPlan (s : State) : (s.shutDown).blockPlan = s.blockPlan := rfl
@[simp] theorem State.shutDown_cycles (s : State) : (s.shutDown).cycles = s.cycles := rfl
@[simp] theorem State.shutDown_mem (s : State) : (s.shutDown).mem = s.mem := rfl
@[simp] theorem State.shutDown_physMap (s : State) : (s.shutDown).physMap = s.physMap := rfl
@[simp] theorem State.shutDown_ioMap (s : State) : (s.shutDown).ioMap = s.ioMap := rfl
@[simp] theorem State.shutDown_pending (s : State) : (s.shutDown).pending = s.pending := rfl
@[simp] theorem State.shutDown_clock (s : State) : (s.shutDown).clock = s.clock := rfl
@[simp] theorem State.shutDown_events (s : State) : (s.shutDown).events = s.events := rfl
@[simp] theorem State.shutDown_ioEvents (s : State) : (s.shutDown).ioEvents = s.ioEvents := rfl
@[simp] theorem State.shutDown_calls (s : State) : (s.shutDown).calls = s.calls := rfl
@[simp] theorem State.shutDown_draws (s : State) : (s.shutDown).draws = s.draws := rfl

/-! ### Updates built from the ones above -/

@[simp] theorem State.putFlag_def (s : State) (f : Flag) (v : Bool) :
    s.putFlag f v = s.setFlagWord (Sys2Proof.Machine.putFlag s.flags f v) := rfl

@[simp] theorem State.loadFlags_def (s : State) (v m : Word) :
    s.loadFlags v m = s.setFlagWord (setFlags s.flags v m) := rfl

@[simp] theorem State.putStatus_def (s : State) (t : Status) :
    s.putStatus t = s.setFlagWord (Sys2Proof.Machine.putStatus s.flags t) := rfl

@[simp] theorem State.advance_def (s : State) : s.advance = s.setEip s.nextEip := rfl

@[simp] theorem State.setSp_def (s : State) (v : Word) : s.setSp v = s.setReg s.ssz.width .esp v := rfl

/-! ### Reading what was written -/

@[simp] theorem Segs.get_set (x : Segs) (i : Seg) (g : SegReg) : (x.set i g).get i = g := by
  cases i <;> rfl

theorem Segs.get_set_other (x : Segs) (i j : Seg) (g : SegReg) (h : j ≠ i) : (x.set i g).get j = x.get j := by
  cases i <;> cases j <;> first | rfl | exact absurd rfl h

@[simp] theorem Regs.get_set (x : Regs) (r : Reg) (v : Word) : (x.set r v).get r = v := by
  cases r <;> rfl

theorem Regs.get_set_other (x : Regs) (r q : Reg) (v : Word) (h : q ≠ r) : (x.set r v).get q = x.get q := by
  cases r <;> cases q <;> first | rfl | exact absurd rfl h

end Sys2Proof.Machine
end

