-- ==== Sys2Proof/Laws/Memory.lean ====
section
/-! SUPPORT. Lists of pairs with rising keys, memory as such a list, and what the memory contract does. -/

namespace Sys2Proof.Machine

/-! ### Rising keys -/

theorem Assoc.get_set {α : Type} (k : Nat) (v : α) (l : List (Nat × α)) : Assoc.get k (Assoc.set k v l) = some v := by
  induction l with
  | nil => simp [Assoc.set, Assoc.get]
  | cons h t ih =>
    obtain ⟨k', v'⟩ := h
    simp only [Assoc.set]
    split
    · simp [Assoc.get]
    · split
      · simp [Assoc.get]
      · rw [Assoc.get, if_neg (by omega), ih]

theorem Assoc.get_set_other {α : Type} (k j : Nat) (v : α) (l : List (Nat × α)) (h : j ≠ k) :
    Assoc.get j (Assoc.set k v l) = Assoc.get j l := by
  induction l with
  | nil => simp [Assoc.set, Assoc.get, h.symm]
  | cons p t ih =>
    obtain ⟨k', v'⟩ := p
    simp only [Assoc.set]
    split
    · rw [Assoc.get, if_neg (by omega)]
    · split
      · rename_i e
        subst e
        rw [Assoc.get, if_neg (by omega), Assoc.get, if_neg (by omega)]
      · rw [Assoc.get, Assoc.get, ih]

theorem Assoc.get_none {α : Type} (k : Nat) (l : List (Nat × α)) (h : ∀ c ∈ l, c.1 ≠ k) : Assoc.get k l = none := by
  induction l with
  | nil => rfl
  | cons p t ih =>
    obtain ⟨k', v'⟩ := p
    rw [Assoc.get, if_neg (by have := h (k', v') (by simp); simpa using this)]
    exact ih fun c hc => h c (by simp [hc])

theorem Assoc.get_erase {α : Type} (k : Nat) (l : List (Nat × α)) (r : Assoc.Rising l) :
    Assoc.get k (Assoc.erase k l) = none := by
  induction l with
  | nil => rfl
  | cons p t ih =>
    obtain ⟨k', v'⟩ := p
    rw [Assoc.Rising, List.pairwise_cons] at r
    simp only [Assoc.erase]
    split
    · rename_i e
      subst e
      exact Assoc.get_none _ _ fun c hc => by have := r.1 c hc; simp at this; omega
    · rw [Assoc.get, if_neg (by omega)]
      exact ih r.2

theorem Assoc.get_erase_other {α : Type} (k j : Nat) (l : List (Nat × α)) (h : j ≠ k) :
    Assoc.get j (Assoc.erase k l) = Assoc.get j l := by
  induction l with
  | nil => rfl
  | cons p t ih =>
    obtain ⟨k', v'⟩ := p
    simp only [Assoc.erase]
    split
    · rename_i e
      subst e
      rw [Assoc.get, if_neg (by omega)]
    · rw [Assoc.get, Assoc.get, ih]

theorem Assoc.mem_set {α : Type} (k : Nat) (v : α) (l : List (Nat × α)) (c : Nat × α) (h : c ∈ Assoc.set k v l) :
    c = (k, v) ∨ c ∈ l := by
  induction l with
  | nil => simpa [Assoc.set] using h
  | cons p t ih =>
    obtain ⟨k', v'⟩ := p
    simp only [Assoc.set] at h
    split at h
    · simpa using h
    · split at h
      · rename_i e
        subst e
        rcases List.mem_cons.1 h with h | h
        · exact .inl h
        · exact .inr (List.mem_cons_of_mem _ h)
      · rcases List.mem_cons.1 h with h | h
        · exact .inr (h ▸ List.mem_cons_self)
        · exact (ih h).imp id (List.mem_cons_of_mem _)

theorem Assoc.mem_erase {α : Type} (k : Nat) (l : List (Nat × α)) (c : Nat × α) (h : c ∈ Assoc.erase k l) : c ∈ l := by
  induction l with
  | nil => exact h
  | cons p t ih =>
    obtain ⟨k', v'⟩ := p
    simp only [Assoc.erase] at h
    split at h
    · exact List.mem_cons_of_mem _ h
    · rcases List.mem_cons.1 h with h | h
      · exact h ▸ List.mem_cons_self
      · exact List.mem_cons_of_mem _ (ih h)

theorem Assoc.rising_set {α : Type} (k : Nat) (v : α) (l : List (Nat × α)) (r : Assoc.Rising l) :
    Assoc.Rising (Assoc.set k v l) := by
  induction l with
  | nil => simp [Assoc.set, Assoc.Rising]
  | cons p t ih =>
    obtain ⟨k', v'⟩ := p
    have r0 := r
    rw [Assoc.Rising, List.pairwise_cons] at r
    simp only [Assoc.set]
    split
    · rename_i lt
      rw [Assoc.Rising, List.pairwise_cons]
      refine ⟨fun c hc => ?_, r0⟩
      rcases List.mem_cons.1 hc with hc | hc
      · subst hc; exact lt
      · exact Nat.lt_trans lt (r.1 c hc)
    · split
      · rename_i e
        subst e
        rw [Assoc.Rising, List.pairwise_cons]
        exact r
      · rw [Assoc.Rising, List.pairwise_cons]
        refine ⟨fun c hc => ?_, ih r.2⟩
        rcases Assoc.mem_set _ _ _ _ hc with hc | hc
        · subst hc; simp only; omega
        · exact r.1 c hc

theorem Assoc.rising_erase {α : Type} (k : Nat) (l : List (Nat × α)) (r : Assoc.Rising l) :
    Assoc.Rising (Assoc.erase k l) := by
  induction l with
  | nil => exact r
  | cons p t ih =>
    obtain ⟨k', v'⟩ := p
    rw [Assoc.Rising, List.pairwise_cons] at r
    simp only [Assoc.erase]
    split
    · exact r.2
    · rw [Assoc.Rising, List.pairwise_cons]
      exact ⟨fun c hc => r.1 c (Assoc.mem_erase _ _ _ hc), ih r.2⟩

/-! ### Memory -/

/-- A read after a write to the same address gives the byte written. -/
theorem Memory.read_write (m : Memory) (a : Nat) (v : Byte) (h : Memory.wf m) : (m.write a v).read a = v := by
  unfold Memory.write
  split
  · rename_i e
    rw [Memory.read, Assoc.get_erase _ _ h.1, e]
    rfl
  · rw [Memory.read, Assoc.get_set]
    rfl

/-- A write leaves every other address alone. -/
theorem Memory.read_write_other (m : Memory) (a b : Nat) (v : Byte) (h : b ≠ a) : (m.write a v).read b = m.read b := by
  unfold Memory.write
  split
  · rw [Memory.read, Assoc.get_erase_other _ _ _ h]
    rfl
  · rw [Memory.read, Assoc.get_set_other _ _ _ _ h]
    rfl

/-- A write keeps the canonical form. -/
theorem Memory.wf_write (m : Memory) (a : Nat) (v : Byte) (h : Memory.wf m) (ha : a < 2 ^ 32) :
    Memory.wf (m.write a v) := by
  unfold Memory.write
  split
  · exact ⟨Assoc.rising_erase _ _ h.1, fun c hc => h.2 c (Assoc.mem_erase _ _ _ hc)⟩
  · refine ⟨Assoc.rising_set _ _ _ h.1, fun c hc => ?_⟩
    rcases Assoc.mem_set _ _ _ _ hc with e | hc
    · subst e; exact ⟨ha, ‹_›⟩
    · exact h.2 c hc

theorem Memory.wf_nil : Memory.wf [] := ⟨List.Pairwise.nil, fun c hc => by cases hc⟩

/-- Equal bytes everywhere make equal memories: the form is canonical. -/
theorem Memory.get_of_read (m : Memory) (a : Nat) (h : Memory.wf m) :
    Assoc.get a m = if m.read a = Config.unlistedByte then none else some (m.read a) := by
  have key : ∀ v, Assoc.get a m = some v → v ≠ Config.unlistedByte := by
    intro v hv
    have : (a, v) ∈ m := by
      clear h
      induction m with
      | nil => cases hv
      | cons p t ih =>
        obtain ⟨k', v'⟩ := p
        rw [Assoc.get] at hv
        split at hv
        · rename_i e
          cases hv
          subst e
          exact List.mem_cons_self
        · exact List.mem_cons_of_mem _ (ih hv)
    exact (h.2 _ this).2
  unfold Memory.read
  cases e : Assoc.get a m with
  | none => simp
  | some v => simp [key v e]

/-! ### What a device wrote -/

theorem State.usedEvents_of {s t : State} {x : List (List PlatformEvent)} (h : s.ioEvents = x ++ t.ioEvents) :
    s.usedEvents t = x := by
  unfold State.usedEvents
  rw [h, List.length_append, Nat.add_sub_cancel, List.take_left]

theorem State.untouched_of {s t : State} {x : List (List PlatformEvent)} (h : s.ioEvents = x ++ t.ioEvents) (a : Nat) :
    s.untouched t a ↔ ∀ batch ∈ x, ∀ p v, PlatformEvent.memWrite p v ∈ batch → p.toNat ≠ a := by
  unfold State.untouched
  rw [State.usedEvents_of h]

/-- Only the batches not used up yet matter. -/
theorem State.untouched_congr {s s' t t' : State} (h : s.ioEvents = s'.ioEvents) (h' : t.ioEvents = t'.ioEvents)
    (a : Nat) : s.untouched t a ↔ s'.untouched t' a := by
  unfold State.untouched State.usedEvents
  rw [h, h']

theorem State.untouched_same {s t : State} (h : t.ioEvents = s.ioEvents) (a : Nat) : s.untouched t a := by
  rw [State.untouched_of (x := []) (by rw [h]; rfl)]
  exact fun _ h => nomatch h

theorem State.untouched_trans {s t u : State} (h1 : t.ioEvents <:+ s.ioEvents) (h2 : u.ioEvents <:+ t.ioEvents)
    (a : Nat) : s.untouched u a ↔ s.untouched t a ∧ t.untouched u a := by
  obtain ⟨x, hx⟩ := h1
  obtain ⟨y, hy⟩ := h2
  rw [State.untouched_of hx.symm, State.untouched_of hy.symm,
    State.untouched_of (x := x ++ y) (by rw [List.append_assoc, hy, hx])]
  simp only [List.mem_append]
  exact ⟨fun h => ⟨fun b hb => h b (.inl hb), fun b hb => h b (.inr hb)⟩, fun h b hb => hb.elim (h.1 b) (h.2 b)⟩

/-! ### The relation of an access -/

/-- Nothing but memory, the TLB, CR2, the draws, the end of the block and a device's own reaction has changed:
all that a read, a write or a page walk can do. -/
def OnlyMemory (s t : State) : Prop :=
  t = { s with mem := t.mem, tlb := t.tlb, cr2 := t.cr2, draws := t.draws, inBlock := t.inBlock,
               pending := t.pending, ioEvents := t.ioEvents, calls := t.calls }

theorem onlyMemory_preorder : Preorder OnlyMemory where
  refl _ := rfl
  trans s t u h1 h2 := by
    unfold OnlyMemory at *
    rw [h1] at h2
    exact h2

theorem OnlyMemory.physMap {s t : State} (h : OnlyMemory s t) : t.physMap = s.physMap := by
  unfold OnlyMemory at h
  rw [h]

/-! ### Well-formed memory is kept -/

/-- The memory map lies in the address space, and memory keeps its canonical form. -/
def MemOk (s : State) : Prop := Memory.wf s.mem ∧ MapOk s.physMap

/-- An operation keeps memory well-formed. -/
def KeepsMem (s t : State) : Prop := MemOk s → MemOk t

theorem keepsMem_preorder : Preorder KeepsMem where
  refl _ h := h
  trans _ _ _ h1 h2 h := h2 (h1 h)

theorem regionAt_lt {m : List Region} {a : Nat} {k : RegionKind} (h : MapOk m) (e : regionAt m a = some k) :
    a < 2 ^ 32 := by
  unfold regionAt at e
  cases f : m.find? (·.holds a) with
  | none => rw [f] at e; cases e
  | some r =>
    have hm := List.mem_of_find?_eq_some f
    have hr := List.find?_some f
    have := h r hm
    simp only [Region.holds, Bool.and_eq_true, decide_eq_true_eq] at hr
    omega

/-! ### Stores -/

/-- What a store of a byte can do: it ends the block, and it writes RAM. -/
theorem State.memWriteByte_eq (s : State) (a : Nat) (v : Byte) :
    s.memWriteByte a v = { s with inBlock := (s.memWriteByte a v).inBlock
                                  mem := if regionAt s.physMap a = some .ram then s.mem.write a v else s.mem } := by
  have h : (s.invalidate a) = { s with inBlock := (s.invalidate a).inBlock } := by
    unfold State.invalidate
    split <;> rfl
  unfold State.memWriteByte State.storeByte
  rw [h]
  simp only
  split <;> rename_i e <;> simp [e]

theorem State.memWriteByte_mem (s : State) (a : Nat) (v : Byte) :
    (s.memWriteByte a v).mem = if regionAt s.physMap a = some .ram then s.mem.write a v else s.mem := by
  rw [State.memWriteByte_eq]

theorem State.memWriteByte_tlb (s : State) (a : Nat) (v : Byte) : (s.memWriteByte a v).tlb = s.tlb := by
  rw [State.memWriteByte_eq]

theorem State.memWriteByte_cr2 (s : State) (a : Nat) (v : Byte) : (s.memWriteByte a v).cr2 = s.cr2 := by
  rw [State.memWriteByte_eq]

theorem State.memWriteByte_ioEvents (s : State) (a : Nat) (v : Byte) :
    (s.memWriteByte a v).ioEvents = s.ioEvents := by
  rw [State.memWriteByte_eq]

theorem State.memWriteByte_only (s : State) (a : Nat) (v : Byte) : OnlyMemory s (s.memWriteByte a v) := by
  unfold OnlyMemory
  rw [State.memWriteByte_eq]

theorem State.memWriteByte_keeps (s : State) (a : Nat) (v : Byte) : KeepsMem s (s.memWriteByte a v) := by
  intro h
  rw [State.memWriteByte_eq]
  refine ⟨?_, h.2⟩
  show Memory.wf (if regionAt s.physMap a = some .ram then s.mem.write a v else s.mem)
  split
  · rename_i e
    exact Memory.wf_write _ _ _ h.1 (regionAt_lt h.2 e)
  · exact h.1

/-- What a store of some bytes can do: it ends the block, and it writes RAM. -/
theorem State.storeBytes_eq (s : State) (n a : Nat) (v : Word) :
    s.storeBytes n a v = { s with inBlock := (s.storeBytes n a v).inBlock, mem := (s.storeBytes n a v).mem } := by
  induction n generalizing s a v with
  | zero => rfl
  | succ n ih =>
    have h1 : s.memWriteByte a (v.setWidth 8) = { s with inBlock := (s.memWriteByte a (v.setWidth 8)).inBlock
                                                         mem := (s.memWriteByte a (v.setWidth 8)).mem } := by
      rw [State.memWriteByte_mem]
      exact s.memWriteByte_eq _ _
    have h2 := ih (s.memWriteByte a (v.setWidth 8)) (a + 1) (v >>> 8)
    rw [State.storeBytes]
    generalize s.memWriteByte a (v.setWidth 8) = t at h1 h2 ⊢
    rw [h1] at h2 ⊢
    exact h2

theorem State.storeBytes_only (s : State) (n a : Nat) (v : Word) : OnlyMemory s (s.storeBytes n a v) := by
  unfold OnlyMemory
  rw [State.storeBytes_eq]

theorem State.storeBytes_physMap (s : State) (n a : Nat) (v : Word) : (s.storeBytes n a v).physMap = s.physMap := by
  rw [State.storeBytes_eq]

theorem State.memWriteByte_physMap (s : State) (a : Nat) (v : Byte) : (s.memWriteByte a v).physMap = s.physMap := by
  rw [State.memWriteByte_eq]

theorem State.storeBytes_keeps (s : State) (n a : Nat) (v : Word) : KeepsMem s (s.storeBytes n a v) := by
  induction n generalizing s a v with
  | zero => exact id
  | succ n ih => exact keepsMem_preorder.trans _ _ _ (s.memWriteByte_keeps a _) (ih _ _ _)

/-- A store leaves every byte outside it alone. -/
theorem State.storeBytes_other (s : State) (n a b : Nat) (v : Word) (h : b < a ∨ a + n ≤ b) :
    (s.storeBytes n a v).mem.read b = s.mem.read b := by
  induction n generalizing s a v with
  | zero => rfl
  | succ n ih =>
    rw [State.storeBytes, ih _ _ _ (by omega), State.memWriteByte_mem]
    split
    · exact Memory.read_write_other _ _ _ _ (by omega)
    · rfl

/-- Only RAM is stored to. -/
theorem State.storeBytes_not_ram (s : State) (n a b : Nat) (v : Word) (h : regionAt s.physMap b ≠ some .ram) :
    (s.storeBytes n a v).mem.read b = s.mem.read b := by
  induction n generalizing s a v with
  | zero => rfl
  | succ n ih =>
    rw [State.storeBytes, ih _ _ _ (by rwa [State.memWriteByte_physMap]), State.memWriteByte_mem]
    split
    · rename_i e
      exact Memory.read_write_other _ _ _ _ fun hb => h (hb ▸ e)
    · rfl

/-- A byte stored to RAM is read back (R81, R85). -/
theorem State.storeBytes_stored (s : State) (n a k : Nat) (v : Word) (hw : MemOk s) (hk : k < n)
    (hr : regionAt s.physMap (a + k) = some .ram) :
    (s.storeBytes n a v).mem.read (a + k) = (v >>> (8 * k)).setWidth 8 := by
  induction n generalizing s a v k with
  | zero => omega
  | succ n ih =>
    rw [State.storeBytes]
    cases k with
    | zero =>
      rw [State.storeBytes_other _ _ _ _ _ (by omega), State.memWriteByte_mem,
        if_pos (by simpa using hr), Nat.add_zero, Memory.read_write _ _ _ hw.1]
      simp
    | succ k =>
      have := ih (s.memWriteByte a (v.setWidth 8)) (a + 1) k (v >>> 8) (s.memWriteByte_keeps a _ hw) (by omega)
        (by rw [State.memWriteByte_physMap]; rwa [show a + (k + 1) = a + 1 + k by omega] at hr)
      rw [show a + (k + 1) = a + 1 + k by omega, this]
      congr 1
      rw [show 8 * (k + 1) = 8 + 8 * k by omega, BitVec.shiftRight_add]

/-! ### What a device does inside a memory access -/

/-- What a device can do inside a memory access: requests, and writes of memory (assumption log 14). -/
structure ByDevice (s t : State) : Prop where
  only   : OnlyMemory s t
  tlb    : t.tlb = s.tlb
  cr2    : t.cr2 = s.cr2
  keeps  : KeepsMem s t
  events : t.ioEvents <:+ s.ioEvents
  mem    : ∀ a, s.untouched t a → t.mem.read a = s.mem.read a

theorem byDevice_preorder : Preorder ByDevice where
  refl s := ⟨rfl, rfl, rfl, id, List.suffix_rfl, fun _ _ => rfl⟩
  trans s t u h1 h2 :=
    ⟨onlyMemory_preorder.trans _ _ _ h1.only h2.only, h2.tlb.trans h1.tlb, h2.cr2.trans h1.cr2,
      keepsMem_preorder.trans _ _ _ h1.keeps h2.keeps, h2.events.trans h1.events, fun a h => by
        obtain ⟨a1, a2⟩ := (State.untouched_trans h1.events h2.events a).1 h
        exact (h2.mem a a2).trans (h1.mem a a1)⟩

/-- The events of one batch that a memory access admits. -/
theorem events_insideMemory (l : List PlatformEvent) (s : State) (h : ∀ e ∈ l, insideMemory e = true) :
    OnlyMemory s (l.foldl State.applyEvent s) ∧ (l.foldl State.applyEvent s).tlb = s.tlb ∧
      (l.foldl State.applyEvent s).cr2 = s.cr2 ∧ (l.foldl State.applyEvent s).ioEvents = s.ioEvents ∧
      KeepsMem s (l.foldl State.applyEvent s) ∧
      ∀ a, (∀ p v, PlatformEvent.memWrite p v ∈ l → p.toNat ≠ a) →
        (l.foldl State.applyEvent s).mem.read a = s.mem.read a := by
  induction l generalizing s with
  | nil => exact ⟨rfl, rfl, rfl, rfl, id, fun _ _ => rfl⟩
  | cons e l ih =>
    have he := h e List.mem_cons_self
    obtain ⟨i1, i2, i3, i4, i5, i6⟩ := ih (s.applyEvent e) fun e' m => h e' (List.mem_cons_of_mem _ m)
    have key : OnlyMemory s (s.applyEvent e) ∧ (s.applyEvent e).tlb = s.tlb ∧ (s.applyEvent e).cr2 = s.cr2 ∧
        (s.applyEvent e).ioEvents = s.ioEvents ∧ KeepsMem s (s.applyEvent e) ∧
        ∀ a, (∀ p v, e = .memWrite p v → p.toNat ≠ a) → (s.applyEvent e).mem.read a = s.mem.read a := by
      cases e with
      | requests v => exact ⟨rfl, rfl, rfl, rfl, id, fun _ _ => rfl⟩
      | setA20 on => cases he
      | tlbDrop p => cases he
      | reset => cases he
      | memWrite p v =>
        have o := s.memWriteByte_only p.toNat v
        refine ⟨o, s.memWriteByte_tlb _ _, s.memWriteByte_cr2 _ _, s.memWriteByte_ioEvents _ _,
          s.memWriteByte_keeps _ _, fun a ha => ?_⟩
        show (s.memWriteByte p.toNat v).mem.read a = _
        rw [State.memWriteByte_mem]
        split
        · exact Memory.read_write_other _ _ _ _ (ha p v rfl).symm
        · rfl
    obtain ⟨k1, k2, k3, k4, k5, k6⟩ := key
    refine ⟨onlyMemory_preorder.trans _ _ _ k1 i1, i2.trans k2, i3.trans k3, i4.trans k4,
      keepsMem_preorder.trans _ _ _ k5 i5, fun a ha => ?_⟩
    exact (i6 a fun p v m => ha p v (List.mem_cons_of_mem _ m)).trans (k6 a fun p v q => ha p v (by rw [q]; exact List.mem_cons_self))

/-- A call of a device through its memory. -/
theorem State.deviceCall_mem (s : State) {c : DeviceCall} (hc : c.admits = insideMemory) :
    ByDevice s (s.deviceCall c) := by
  unfold State.deviceCall
  simp only
  split
  · exact ⟨rfl, rfl, rfl, id, List.suffix_rfl, fun _ _ => rfl⟩
  · rename_i batch rest e
    obtain ⟨i1, i2, i3, i4, i5, i6⟩ := events_insideMemory (batch.filter c.admits)
      { s with calls := c :: s.calls, ioEvents := rest } fun e m => by rw [← hc]; exact (List.mem_filter.1 m).2
    refine ⟨onlyMemory_preorder.trans _ { s with calls := c :: s.calls, ioEvents := rest } _ rfl i1, i2, i3, i5,
      ⟨[batch], by rw [i4, e]; rfl⟩, fun a ha => i6 a fun p v m => ?_⟩
    rw [State.untouched_of (x := [batch]) (by rw [i4, e]; rfl)] at ha
    exact ha batch List.mem_cons_self p v (List.mem_filter.1 m).1

/-! ### The accesses -/

theorem State.memWriteBytes_byDevice (s : State) (n a : Nat) (v : Word) :
    ByDevice (s.storeBytes n a v) (s.memWriteBytes n a v) := by
  unfold State.memWriteBytes
  simp only
  split
  · exact State.deviceCall_mem _ rfl
  · exact byDevice_preorder.refl _

theorem State.memWriteBytes_events (s : State) (n a : Nat) (v : Word) :
    (s.memWriteBytes n a v).ioEvents <:+ s.ioEvents := by
  have := (s.memWriteBytes_byDevice n a v).events
  rwa [s.storeBytes_eq] at this

theorem State.memWriteBytes_untouched (s : State) (n a : Nat) (v : Word) (b : Nat) :
    s.untouched (s.memWriteBytes n a v) b ↔ (s.storeBytes n a v).untouched (s.memWriteBytes n a v) b :=
  State.untouched_congr (by rw [s.storeBytes_eq]) rfl b

theorem State.memWriteBytes_only (s : State) (n a : Nat) (v : Word) : OnlyMemory s (s.memWriteBytes n a v) :=
  onlyMemory_preorder.trans _ _ _ (s.storeBytes_only n a v) (s.memWriteBytes_byDevice n a v).only

theorem State.memWriteBytes_keeps (s : State) (n a : Nat) (v : Word) : KeepsMem s (s.memWriteBytes n a v) :=
  keepsMem_preorder.trans _ _ _ (s.storeBytes_keeps n a v) (s.memWriteBytes_byDevice n a v).keeps

theorem State.memWriteBytes_tlb (s : State) (n a : Nat) (v : Word) : (s.memWriteBytes n a v).tlb = s.tlb := by
  rw [(s.memWriteBytes_byDevice n a v).tlb, s.storeBytes_eq]

theorem State.memWriteBytes_cr2 (s : State) (n a : Nat) (v : Word) : (s.memWriteBytes n a v).cr2 = s.cr2 := by
  rw [(s.memWriteBytes_byDevice n a v).cr2, s.storeBytes_eq]

/-- A write leaves every byte outside it alone, but for what a device wrote inside it. -/
theorem State.memWriteBytes_other (s : State) (n a b : Nat) (v : Word) (h : b < a ∨ a + n ≤ b)
    (hu : s.untouched (s.memWriteBytes n a v) b) : (s.memWriteBytes n a v).mem.read b = s.mem.read b := by
  rw [(s.memWriteBytes_byDevice n a v).mem b ((s.memWriteBytes_untouched n a v b).1 hu), State.storeBytes_other _ _ _ _ _ h]

/-- A byte stored to RAM is read back (R81, R85). -/
theorem State.memWriteBytes_stored (s : State) (n a k : Nat) (v : Word) (hw : MemOk s) (hk : k < n)
    (hr : regionAt s.physMap (a + k) = some .ram) (hu : s.untouched (s.memWriteBytes n a v) (a + k)) :
    (s.memWriteBytes n a v).mem.read (a + k) = (v >>> (8 * k)).setWidth 8 := by
  rw [(s.memWriteBytes_byDevice n a v).mem _ ((s.memWriteBytes_untouched n a v _).1 hu),
    State.storeBytes_stored _ _ _ _ _ hw hk hr]

/-- The bytes of a read (R80, R85). -/
theorem State.readBytes_spec (s : State) (x : Word) (n a : Nat) (hn : n ≤ 4) (k : Nat) (hk : k < n)
    (hr : regionAt s.physMap (a + k) = some .ram ∨ regionAt s.physMap (a + k) = some .rom) :
    ((s.readBytes x n a) >>> (8 * k)).setWidth 8 = s.mem.read (a + k) := by
  induction n generalizing a x k with
  | zero => omega
  | succ n ih =>
    rw [State.readBytes]
    cases k with
    | zero =>
      rw [Nat.add_zero] at hr
      rw [show a + 0 = a from rfl]
      have hv : s.readByte (x.setWidth 8) a = s.mem.read a := by
        unfold State.readByte
        rcases hr with hr | hr <;> rw [hr]
      rw [← hv]
      ext i hi
      simp only [Nat.mul_zero, BitVec.ushiftRight_zero, BitVec.getElem_setWidth, BitVec.getLsbD_or,
        BitVec.getLsbD_setWidth, BitVec.getLsbD_shiftLeft]
      have h8 : i < 8 := hi
      simp [h8, show i < 32 by omega]
    | succ k =>
      have := ih (x >>> 8) (a + 1) (by omega) k (by omega) (by rw [show a + 1 + k = a + (k + 1) by omega]; exact hr)
      rw [show a + 1 + k = a + (k + 1) by omega] at this
      rw [← this]
      ext i hi
      simp only [BitVec.getElem_setWidth, BitVec.getLsbD_ushiftRight, BitVec.getLsbD_or,
        BitVec.getLsbD_setWidth, BitVec.getLsbD_shiftLeft]
      have h8 : i < 8 := hi
      have h1 : ¬ 8 * (k + 1) + i < 8 := by omega
      have h2 : 8 * (k + 1) + i < 32 := by omega
      have h3 : (s.readByte (x.setWidth 8) a).getLsbD (8 * (k + 1) + i) = false :=
        BitVec.getLsbD_of_ge _ _ (by omega)
      rw [h3]
      simp [h1, h2, show 8 * (k + 1) + i - 8 = 8 * k + i by omega]

theorem fits_cons {n : Nat} {b : Byte} {rest : Word} (h : rest.toNat < 2 ^ (8 * n)) :
    (b.setWidth 32 ||| (rest <<< 8)).toNat < 2 ^ (8 * (n + 1)) := by
  rw [BitVec.toNat_or, BitVec.toNat_shiftLeft]
  apply Nat.or_lt_two_pow
  · have := b.isLt
    have e : (2 : Nat) ^ 8 ≤ 2 ^ (8 * (n + 1)) := Nat.pow_le_pow_right (by decide) (by omega)
    simp only [BitVec.toNat_setWidth]
    omega
  · refine Nat.lt_of_le_of_lt (Nat.mod_le _ _) ?_
    rw [Nat.shiftLeft_eq, show 8 * (n + 1) = 8 * n + 8 by omega, Nat.pow_add]
    exact Nat.mul_lt_mul_of_pos_right h (by decide)

theorem State.readBytes_fits (s : State) (x : Word) (n a : Nat) : (s.readBytes x n a).toNat < 2 ^ (8 * n) := by
  induction n generalizing a x with
  | zero => exact Nat.zero_lt_one
  | succ n ih => exact fits_cons (ih _ _)

/-- A physical read never stops; its value is the bytes held where RAM or ROM is, and a device does only what it may
do inside the access (R80, R85, R86). -/
theorem memRead_spec (a : Word) (w : Width) (s : State) : ∃ v t, (memRead a w).run s = .ok v t ∧ ByDevice s t ∧
    v.toNat < 2 ^ (8 * w.bytes) ∧
    ∀ k, k < w.bytes → (regionAt s.physMap (a.toNat + k) = some .ram ∨ regionAt s.physMap (a.toNat + k) = some .rom) →
      (v >>> (8 * k)).setWidth 8 = s.mem.read (a.toNat + k) := by
  have hn : w.bytes ≤ 4 := by cases w <;> decide
  unfold memRead
  rw [run_bind_ok (run_get s)]
  split
  · refine ⟨_, _, rfl, ?_, s.readBytes_fits _ _ _, s.readBytes_spec _ _ _ hn⟩
    have h0 : ByDevice s { s with draws := s.draws + 1 } :=
      ⟨rfl, rfl, rfl, id, List.suffix_rfl, fun _ _ => rfl⟩
    exact byDevice_preorder.trans _ _ _ h0 (State.deviceCall_mem _ rfl)
  · exact ⟨_, _, rfl, byDevice_preorder.refl s, s.readBytes_fits _ _ _, s.readBytes_spec _ _ _ hn⟩

end Sys2Proof.Machine
end

