-- ==== Sys2Proof/Laws/Access.lean ====
section
/-! SUPPORT. What reads, writes and page walks can do, once for each shared operation: `ReadRel` for those that
store nothing of their own, `AccessRel` for those that do. -/

namespace Sys2Proof.Machine

/-! ### The two relations -/

/-- Only memory and what goes with it has changed, and the form of the state is kept. -/
structure AccessRel (s t : State) : Prop where
  only   : OnlyMemory s t
  inv    : s.Inv → t.Inv
  events : t.ioEvents <:+ s.ioEvents

/-- A byte agrees up to the accessed and dirty bits of page-table entries, bits 5 and 6 of a byte (R110, R113), unless
a device wrote it. -/
def AdSame (s t : State) : Prop := ∀ a, s.untouched t a → t.mem.read a ||| 0x60 = s.mem.read a ||| 0x60

/-- Nothing was stored but accessed and dirty bits and what a device wrote; with paging off, only the latter, and the
TLB stays. -/
structure ReadRel (s t : State) : Prop where
  access : AccessRel s t
  ad     : s.Inv → AdSame s t
  flat   : s.pg = false → (∀ a, s.untouched t a → t.mem.read a = s.mem.read a) ∧ t.tlb = s.tlb

theorem OnlyMemory.pg {s t : State} (h : OnlyMemory s t) : t.pg = s.pg := by
  unfold OnlyMemory at h
  rw [h]
  rfl

theorem accessRel_preorder : Preorder AccessRel where
  refl _ := ⟨rfl, id, List.suffix_rfl⟩
  trans s t u h1 h2 :=
    ⟨onlyMemory_preorder.trans s t u h1.only h2.only, fun h => h2.inv (h1.inv h), h2.events.trans h1.events⟩

theorem AdSame.trans {s t u : State} (e1 : t.ioEvents <:+ s.ioEvents) (e2 : u.ioEvents <:+ t.ioEvents)
    (h1 : AdSame s t) (h2 : AdSame t u) : AdSame s u := fun a h => by
  obtain ⟨a1, a2⟩ := (State.untouched_trans e1 e2 a).1 h
  exact (h2 a a2).trans (h1 a a1)

theorem readRel_preorder : Preorder ReadRel where
  refl s := ⟨accessRel_preorder.refl s, fun _ _ _ => rfl, fun _ => ⟨fun _ _ => rfl, rfl⟩⟩
  trans s t u h1 h2 := by
    refine ⟨accessRel_preorder.trans s t u h1.access h2.access, fun h =>
      AdSame.trans h1.access.events h2.access.events (h1.ad h) (h2.ad (h1.access.inv h)), fun h => ?_⟩
    have f1 := h1.flat h
    have f2 := h2.flat (h1.access.only.pg.trans h)
    refine ⟨fun a ha => ?_, f2.2.trans f1.2⟩
    obtain ⟨a1, a2⟩ := (State.untouched_trans h1.access.events h2.access.events a).1 ha
    exact (f2.1 a a2).trans (f1.1 a a1)

theorem ReadRel.toAccess {s t : State} (h : ReadRel s t) : AccessRel s t := h.access

theorem State.inv_of_mem {s t : State} (o : OnlyMemory s t) (k : KeepsMem s t) (ht : t.tlb = s.tlb) (i : s.Inv) :
    t.Inv := by
  have i' := i
  obtain ⟨m, tl, f, p, mp⟩ := i
  have := k ⟨m, mp⟩
  unfold OnlyMemory at o
  refine ⟨this.1, ht ▸ tl, ?_, ?_, this.2⟩
  · rw [o]; exact f
  · rw [o]; exact p

/-- What a device does inside a memory access stores nothing of the core's. -/
theorem ByDevice.toRead {s t : State} (h : ByDevice s t) : ReadRel s t :=
  ⟨⟨h.only, State.inv_of_mem h.only h.keeps h.tlb, h.events⟩, fun _ a ha => by rw [h.mem a ha],
    fun _ => ⟨h.mem, h.tlb⟩⟩

/-! ### Physical accesses -/

theorem memRead_rel (a : Word) (w : Width) : Op.Rel ReadRel (memRead a w) := by
  intro s
  obtain ⟨v, t, e, d, -⟩ := memRead_spec a w s
  rw [e]
  exact d.toRead

theorem State.memWriteBytes_access (s : State) (n a : Nat) (v : Word) : AccessRel s (s.memWriteBytes n a v) :=
  ⟨s.memWriteBytes_only n a v,
    State.inv_of_mem (s.memWriteBytes_only n a v) (s.memWriteBytes_keeps n a v) (s.memWriteBytes_tlb n a v),
    s.memWriteBytes_events n a v⟩

theorem memWrite_rel (a : Word) (w : Width) (v : Word) : Op.Rel AccessRel (memWrite a w v) :=
  Op.rel_modify fun s => s.memWriteBytes_access _ _ _

/-! ### The walk -/

theorem or_bits_byte (x m : Word) (k : Nat) (hm : m = 0x20 ∨ m = 0x60 ∨ m = 0) :
    (((x ||| m) >>> (8 * k)).setWidth 8 : Byte) ||| 0x60 = (x >>> (8 * k)).setWidth 8 ||| 0x60 := by
  have key : ((m >>> (8 * k)).setWidth 8 : Byte) ||| 0x60 = 0x60 := by
    cases k with
    | zero => rcases hm with h | h | h <;> subst h <;> decide
    | succ k =>
      have : m >>> (8 * (k + 1)) = 0 := by
        rw [show 8 * (k + 1) = 8 + 8 * k by omega, BitVec.shiftRight_add]
        have : m >>> 8 = 0 := by rcases hm with h | h | h <;> subst h <;> decide
        rw [this]
        simp
      rw [this]
      decide
  rw [BitVec.ushiftRight_or_distrib, BitVec.setWidth_or, BitVec.or_assoc, key]

theorem run_setEntryBits (a old new : Word) (s : State) :
    (setEntryBits a old new).run s = .ok () (if new = old then s else s.memWriteBytes 4 a.toNat new) := by
  unfold setEntryBits
  split <;> rfl

/-- Writing an entry back with bits 5 and 6 set, seen from an earlier state `s0` in which the entry was read: a byte no
device wrote since is what it was up to those bits. -/
theorem entry_ad (s0 s : State) (e0 : s.ioEvents <:+ s0.ioEvents) (h0 : AdSame s0 s) (hw : MemOk s) (a old m : Word)
    (hm : m = 0x20 ∨ m = 0x60 ∨ m = 0)
    (h : ∀ k, k < 4 → regionAt s.physMap (a.toNat + k) = some .ram → s0.untouched s (a.toNat + k) →
      (old >>> (8 * k)).setWidth 8 ||| 0x60 = s0.mem.read (a.toNat + k) ||| 0x60) :
    AdSame s0 (if old ||| m = old then s else s.memWriteBytes 4 a.toNat (old ||| m)) := by
  split
  · exact h0
  · intro b hb
    have e1 := s.memWriteBytes_events 4 a.toNat (old ||| m)
    obtain ⟨b0, b1⟩ := (State.untouched_trans e0 e1 b).1 hb
    by_cases hout : b < a.toNat ∨ a.toNat + 4 ≤ b
    · rw [State.memWriteBytes_other _ _ _ _ _ hout b1]
      exact h0 b b0
    · obtain ⟨k, hk, rfl⟩ : ∃ k, k < 4 ∧ b = a.toNat + k := ⟨b - a.toNat, by omega, by omega⟩
      by_cases hr : regionAt s.physMap (a.toNat + k) = some .ram
      · rw [State.memWriteBytes_stored _ _ _ _ _ hw hk hr b1, or_bits_byte _ _ _ hm]
        exact h k hk hr b0
      · rw [(s.memWriteBytes_byDevice 4 a.toNat (old ||| m)).mem _ ((s.memWriteBytes_untouched _ _ _ _).1 b1),
          State.storeBytes_not_ram _ _ _ _ _ hr]
        exact h0 _ b0

theorem pageFault_rel {α : Type} (lin : Word) (p w u : Bool) : Op.Rel ReadRel (pageFault lin p w u : Op α) := fun _ =>
  ⟨⟨rfl, fun i => ⟨i.mem, i.tlb, i.flags, i.paging, i.map⟩, List.suffix_rfl⟩, fun _ _ _ => rfl,
    fun _ => ⟨fun _ _ => rfl, rfl⟩⟩

theorem fillTlb_access (s : State) (lin : Word) (e : TlbEntry) (he : e.physBase &&& 0xFFF = 0) :
    AccessRel s (s.fillTlb lin e) := by
  refine ⟨rfl, fun i => ⟨i.mem, ⟨Assoc.rising_set _ _ _ i.tlb.1, fun c hc => ?_⟩, i.flags, i.paging, i.map⟩,
    List.suffix_rfl⟩
  rcases Assoc.mem_set _ _ _ _ hc with e' | hc
  · subst e'
    refine ⟨?_, he⟩
    simp only [pageOf]
    have := lin.isLt
    omega
  · exact i.tlb.2 c hc

theorem base_aligned (x : Word) : (x &&& 0xFFFFF000) &&& 0xFFF = 0 := by
  rw [BitVec.and_assoc]
  simp

theorem setEntry_access (s : State) (a old new : Word) :
    AccessRel s (if new = old then s else s.memWriteBytes 4 a.toNat new) := by
  split
  · exact accessRel_preorder.refl s
  · exact s.memWriteBytes_access _ _ _

theorem walk_rel (lin : Word) (isWrite isUser : Bool) (s : State) (hp : s.pg = true) :
    ReadRel s (after ((walk lin isWrite isUser).run s)) := by
  unfold walk
  rw [run_bind_ok (run_get s)]
  obtain ⟨pde, t1, e1, d1, -, b1⟩ := memRead_spec (pdeAddr s lin) .w32 s
  rw [run_bind_ok e1]
  have r1 := d1.toRead
  split
  · exact readRel_preorder.trans _ _ _ r1 (pageFault_rel _ _ _ _ _)
  · obtain ⟨pte, t2, e2, d2, -, b2⟩ := memRead_spec (pteAddr s pde lin) .w32 t1
    rw [run_bind_ok e2]
    have r2 : ReadRel s t2 := readRel_preorder.trans _ _ _ r1 d2.toRead
    have d12 := byDevice_preorder.trans _ _ _ d1 d2
    simp only
    split
    · exact readRel_preorder.trans _ _ _ r2 (pageFault_rel _ _ _ _ _)
    · split
      · exact readRel_preorder.trans _ _ _ r2 (pageFault_rel _ _ _ _ _)
      · split
        · exact readRel_preorder.trans _ _ _ r2 (pageFault_rel _ _ _ _ _)
        · rw [run_bind_ok (run_setEntryBits _ _ _ _), run_bind_ok (run_setEntryBits _ _ _ _),
            run_bind_ok (run_modify _ _)]
          have a3 := setEntry_access t2 (pdeAddr s lin) pde (pde ||| 0x20)
          have ad3 : s.Inv → AdSame s (if pde ||| 0x20 = pde then t2 else
              t2.memWriteBytes 4 (pdeAddr s lin).toNat (pde ||| 0x20)) := fun i => by
            have i2 := r2.access.inv i
            refine entry_ad s t2 r2.access.events (r2.ad i) ⟨i2.mem, i2.map⟩ _ _ _ (.inl rfl) fun k hk hr _ => ?_
            rw [b1 k hk (.inl (d12.only.physMap ▸ hr))]
          generalize (if pde ||| 0x20 = pde then t2 else t2.memWriteBytes 4 (pdeAddr s lin).toNat (pde ||| 0x20)) = t3
            at a3 ad3 ⊢
          have a4 := setEntry_access t3 (pteAddr s pde lin) pte (pte ||| 0x20 ||| (if isWrite = true then 0x40 else 0))
          have hor : pte ||| 0x20 ||| (if isWrite = true then 0x40 else 0) =
              pte ||| (if isWrite = true then 0x60 else 0x20) := by
            split <;> simp [BitVec.or_assoc]
          rw [hor] at a4 ⊢
          have a23 := accessRel_preorder.trans _ _ _ r2.access a3
          have ad4 : s.Inv → AdSame s (if pte ||| (if isWrite = true then 0x60 else 0x20) = pte then t3 else
              t3.memWriteBytes 4 (pteAddr s pde lin).toNat (pte ||| (if isWrite = true then 0x60 else 0x20))) :=
              fun i => by
            have i3 := a23.inv i
            refine entry_ad s t3 a23.events (ad3 i) ⟨i3.mem, i3.map⟩ _ _ _ (by split <;> simp) fun k hk hr hu => ?_
            have e13 : t3.ioEvents <:+ t1.ioEvents := a3.events.trans d2.events
            have u1 := ((State.untouched_trans d1.events e13 _).1 hu).1
            rw [b2 k hk (.inl (by rw [d1.only.physMap, ← a23.only.physMap]; exact hr)), d1.mem _ u1]
          generalize (if pte ||| (if isWrite = true then 0x60 else 0x20) = pte then t3 else
              t3.memWriteBytes 4 (pteAddr s pde lin).toNat (pte ||| (if isWrite = true then 0x60 else 0x20))) = t4
            at a4 ad4 ⊢
          have a5 := fillTlb_access t4 lin ⟨pte &&& 0xFFFFF000, !(pde.getLsbD 1 && pte.getLsbD 1),
            !(pde.getLsbD 2 && pte.getLsbD 2), (pte ||| (if isWrite = true then 0x60 else 0x20)).getLsbD 6⟩
            (base_aligned pte)
          exact ⟨accessRel_preorder.trans _ _ _ (accessRel_preorder.trans _ _ _ a23 a4) a5, fun i => ad4 i,
            by simp [hp]⟩

/-! ### Translation and linear accesses -/

theorem translate_rel (lin : Word) (isWrite isUser : Bool) : Op.Rel ReadRel (translate lin isWrite isUser) := by
  intro s
  unfold translate
  rw [run_bind_ok (run_get s)]
  split
  · exact readRel_preorder.refl s
  · rename_i hp
    split
    · split
      · exact pageFault_rel _ _ _ _ s
      · split
        · exact pageFault_rel _ _ _ _ s
        · exact readRel_preorder.refl s
    · have := walk_rel lin isWrite isUser s (by simpa using hp)
      cases e : (walk lin isWrite isUser).run s with
      | ok p t => rw [run_bind_ok e]; rw [e] at this; exact this
      | error r t => rw [run_bind_error e]; rw [e] at this; exact this

theorem linReadBytes_rel (u : Bool) (n : Nat) (lin : Word) : Op.Rel ReadRel (linReadBytes u n lin) := by
  induction n generalizing lin with
  | zero => exact Op.rel_pure readRel_preorder _
  | succ n ih =>
    exact Op.rel_bind readRel_preorder (translate_rel _ _ _) fun _ => Op.rel_bind readRel_preorder (memRead_rel _ _)
      fun _ => Op.rel_bind readRel_preorder (ih _) fun _ => Op.rel_pure readRel_preorder _

/-- A linear read stores nothing but accessed bits. -/
theorem linRead_rel (lin : Word) (w : Width) (u : Bool) : Op.Rel ReadRel (linRead lin w u) :=
  Op.rel_ite (Op.rel_bind readRel_preorder (translate_rel _ _ _) fun _ => memRead_rel _ _) (linReadBytes_rel _ _ _)

theorem translate_access (lin : Word) (w u : Bool) : Op.Rel AccessRel (translate lin w u) :=
  Op.rel_mono (translate_rel lin w u) fun _ _ => ReadRel.toAccess

theorem linWriteBytes_rel (u : Bool) (n : Nat) (lin v : Word) : Op.Rel AccessRel (linWriteBytes u n lin v) := by
  induction n generalizing lin v with
  | zero => exact Op.rel_pure accessRel_preorder _
  | succ n ih =>
    exact Op.rel_bind accessRel_preorder (translate_access _ _ _) fun _ =>
      Op.rel_bind accessRel_preorder (memWrite_rel _ _ _) fun _ => ih _ _

/-- A linear write changes memory and what goes with it only. -/
theorem linWrite_rel (lin : Word) (w : Width) (v : Word) (u : Bool) : Op.Rel AccessRel (linWrite lin w v u) :=
  Op.rel_ite (Op.rel_bind accessRel_preorder (translate_access _ _ _) fun _ => memWrite_rel _ _ _)
    (linWriteBytes_rel _ _ _ _)

theorem linRead_access (lin : Word) (w : Width) (u : Bool) : Op.Rel AccessRel (linRead lin w u) :=
  Op.rel_mono (linRead_rel lin w u) fun _ _ => ReadRel.toAccess

/-! ### Access through a segment -/

theorem segCheck_rel (i : Seg) (off : Word) (n : Nat) (k : AccessKind) : Op.Rel ReadRel (segCheck i off n k) :=
  Op.rel_bind readRel_preorder (Op.rel_get readRel_preorder) fun _ =>
    Op.rel_bind readRel_preorder (Op.rel_require readRel_preorder _ _ _) fun _ =>
      Op.rel_bind readRel_preorder (Op.rel_require readRel_preorder _ _ _) fun _ =>
        Op.rel_require readRel_preorder _ _ _

theorem segCheck_access (i : Seg) (off : Word) (n : Nat) (k : AccessKind) : Op.Rel AccessRel (segCheck i off n k) :=
  Op.rel_mono (segCheck_rel i off n k) fun _ _ => ReadRel.toAccess

theorem segRead_rel (i : Seg) (off : Word) (w : Width) : Op.Rel ReadRel (segRead i off w) :=
  Op.rel_bind readRel_preorder (segCheck_rel _ _ _ _) fun _ =>
    Op.rel_bind readRel_preorder (Op.rel_get readRel_preorder) fun _ => linRead_rel _ _ _

theorem segReadForWrite_rel (i : Seg) (off : Word) (w : Width) : Op.Rel ReadRel (segReadForWrite i off w) :=
  Op.rel_bind readRel_preorder (segCheck_rel _ _ _ _) fun _ =>
    Op.rel_bind readRel_preorder (Op.rel_get readRel_preorder) fun _ => linRead_rel _ _ _

theorem segWriteBack_rel (i : Seg) (off : Word) (w : Width) (v : Word) : Op.Rel AccessRel (segWriteBack i off w v) :=
  Op.rel_bind accessRel_preorder (Op.rel_get accessRel_preorder) fun _ => linWrite_rel _ _ _ _

theorem segWrite_rel (i : Seg) (off : Word) (w : Width) (v : Word) : Op.Rel AccessRel (segWrite i off w v) :=
  Op.rel_bind accessRel_preorder (segCheck_access _ _ _ _) fun _ =>
    Op.rel_bind accessRel_preorder (Op.rel_get accessRel_preorder) fun _ => linWrite_rel _ _ _ _

theorem segRead_access (i : Seg) (off : Word) (w : Width) : Op.Rel AccessRel (segRead i off w) :=
  Op.rel_mono (segRead_rel i off w) fun _ _ => ReadRel.toAccess

/-- `SysRead` (R127). -/
theorem sysRead_rel (lin : Word) (w : Width) : Op.Rel ReadRel (sysRead lin w) := linRead_rel _ _ _

theorem sysRead_access (lin : Word) (w : Width) : Op.Rel AccessRel (sysRead lin w) := linRead_access _ _ _

theorem sysWrite_rel (lin : Word) (w : Width) (v : Word) : Op.Rel AccessRel (sysWrite lin w v) := linWrite_rel _ _ _ _

/-- `FetchDescriptor` reads only (R94). -/
theorem fetchDescriptor_rel (sel : Half) : Op.Rel ReadRel (fetchDescriptor sel) := by
  refine Op.rel_bind readRel_preorder (Op.rel_get readRel_preorder) fun s => ?_
  refine Op.rel_ite (Op.rel_pure readRel_preorder _) (Op.rel_ite (Op.rel_pure readRel_preorder _) ?_)
  exact Op.rel_bind readRel_preorder (sysRead_rel _ _) fun _ => Op.rel_bind readRel_preorder (sysRead_rel _ _)
    fun _ => Op.rel_pure readRel_preorder _

theorem fetchDescOr_rel (sel : Half) (k : FaultKind) (c : Word) : Op.Rel ReadRel (fetchDescOr sel k c) := by
  refine Op.rel_bind readRel_preorder (fetchDescriptor_rel sel) fun x => ?_
  cases x with
  | none => exact Op.rel_raise readRel_preorder _ _
  | some x => exact Op.rel_pure readRel_preorder _

theorem fetchDescOr_access (sel : Half) (k : FaultKind) (c : Word) : Op.Rel AccessRel (fetchDescOr sel k c) :=
  Op.rel_mono (fetchDescOr_rel sel k c) fun _ _ => ReadRel.toAccess

end Sys2Proof.Machine
end

