-- ==== Sys2Proof/Laws/Decode.lean ====
section
/-! SUPPORT. How decoders read bytes: the bind law, and the agreement of the reader over a list with the fetch
unit. -/

namespace Sys2Proof

/-- A decoder that goes on with another reads the first one's bytes first. -/
theorem Dec.run_bind {α β : Type} (d : Dec α) (f : α → Dec β) (bs : List Byte) : (d.bind f).run bs =
    match d.run bs with
    | .ok a rest => (f a).run rest
    | .unadmitted => .unadmitted
    | .more => .more := by
  induction d generalizing bs with
  | ret a => rfl
  | unadmitted => rfl
  | byte k ih =>
    cases bs with
    | nil => rfl
    | cons b bs => exact ih b bs

theorem Dec.run_map {α β : Type} (f : α → β) (d : Dec α) (bs : List Byte) : (d.map f).run bs =
    match d.run bs with
    | .ok a rest => .ok (f a) rest
    | .unadmitted => .unadmitted
    | .more => .more := Dec.run_bind _ _ _

/-- A decoder that ends leaves later bytes alone. -/
theorem Dec.run_append {α : Type} {d : Dec α} {bs rest : List Byte} {a : α} (h : d.run bs = .ok a rest)
    (more : List Byte) : d.run (bs ++ more) = .ok a (rest ++ more) := by
  induction d generalizing bs with
  | ret x =>
    cases h
    rfl
  | unadmitted => cases h
  | byte k ih =>
    cases bs with
    | nil => cases h
    | cons b bs => exact ih b h

namespace Machine

/-- The fetch unit reads what the decoder reads, byte after byte (R130, R506): where the bytes can be fetched and
decode to the end, they are the instruction. -/
theorem runFetch_of_fetchBytes {α : Type} {d : Dec α} {n k : Nat} {bs : List Byte} {pre : List Byte} {a : α}
    {s t : State} (hf : (fetchBytes n k).run s = .ok bs t) (hd : d.run bs = .ok a []) :
    (runFetch d k pre).run s = .ok (a, k + n) t := by
  induction d generalizing n k bs pre s with
  | ret x =>
    cases hd
    cases n with
    | zero => cases hf; rfl
    | succ n =>
      unfold fetchBytes at hf
      rw [EStateM.run_bind] at hf
      split at hf
      · rw [EStateM.run_bind] at hf
        split at hf
        · cases hf
        · cases hf
      · cases hf
  | unadmitted => cases hd
  | byte f ih =>
    cases n with
    | zero =>
      cases hf
      cases hd
    | succ n =>
      unfold fetchBytes at hf
      rw [EStateM.run_bind] at hf
      split at hf
      · rename_i b u hb
        rw [EStateM.run_bind] at hf
        split at hf
        · rename_i rest v hr
          cases hf
          have := ih b (pre := pre ++ [b]) hr hd
          unfold runFetch
          rw [EStateM.run_bind, hb]
          show (runFetch (f b) (k + 1) (pre ++ [b])).run u = _
          rw [this]
          congr 2
          omega
        · cases hf
      · cases hf

end Machine

end Sys2Proof
end

