-- ==== Sys2Proof/Laws/Effect.lean ====
section
/-! SUPPORT. What a read or a write that succeeds has done: `Effect s t l` says that `t` is `s` but for memory in
the linear ranges `l`, the TLB, and what a device did. -/

namespace Sys2Proof.Machine

/-! ### The relation -/

/-- Where a write of a page has gone stays where it has gone. -/
def Persists (s t : State) : Prop := ∀ lin p, s.physAddr lin true = some p → t.physAddr lin true = some p

/-- The effect of accesses that succeeded: stores to the ranges, and nothing else. -/
structure Effect (s t : State) (l : Ranges) : Prop where
  only   : OnlyMemory s t
  cr2    : t.cr2 = s.cr2
  inv    : s.Inv → t.Inv
  events : t.ioEvents <:+ s.ioEvents
  stores : s.Inv → StoresOnly s t l
  keeps  : Persists s t

theorem OnlyMemory.fields {s t : State} (h : OnlyMemory s t) : t.regs = s.regs ∧ t.flags = s.flags ∧
    t.eip = s.eip ∧ t.nextEip = s.nextEip ∧ t.segs = s.segs ∧ t.cpl = s.cpl ∧ t.gdtr = s.gdtr ∧ t.idtr = s.idtr ∧
    t.ldtr = s.ldtr ∧ t.tr = s.tr ∧ t.cr0 = s.cr0 ∧ t.cr3 = s.cr3 ∧ t.a20On = s.a20On ∧ t.halted = s.halted ∧
    t.shutdown = s.shutdown ∧ t.physMap = s.physMap ∧ t.ioMap = s.ioMap ∧ t.startEip = s.startEip ∧
    t.startEsp = s.startEsp := by
  unfold OnlyMemory at h
  rw [h]
  exact ⟨rfl, rfl, rfl, rfl, rfl, rfl, rfl, rfl, rfl, rfl, rfl, rfl, rfl, rfl, rfl, rfl, rfl, rfl, rfl⟩

theorem OnlyMemory.a20 {s t : State} (h : OnlyMemory s t) : t.a20Mask = s.a20Mask := by
  unfold OnlyMemory at h
  rw [h]
  rfl

/-- Physical addresses depend on the TLB, CR0 and the gate only. -/
theorem State.physAddr_congr {s t : State} (o : OnlyMemory s t) (ht : t.tlb = s.tlb) (lin : Word) (w : Bool) :
    t.physAddr lin w = s.physAddr lin w := by
  unfold State.physAddr State.tlbHit
  rw [o.pg, ht, o.a20]

theorem Effect.system {s t : State} {l : Ranges} (h : Effect s t l) : SameSystem s t := by
  obtain ⟨-, -, -, -, a, b, c, d, e, f, g, i, j, k, m, -⟩ := h.only.fields
  exact ⟨a, b, c, d, e, f, g, h.cr2, i, j, k, m⟩

theorem StoresOnly.refl (s : State) (l : Ranges) : StoresOnly s s l := fun _ _ _ => ⟨rfl, fun _ => rfl⟩

theorem Effect.refl (s : State) : Effect s s [] :=
  ⟨rfl, rfl, id, List.suffix_rfl, fun _ => StoresOnly.refl s [], fun _ _ h => h⟩

/-- Nothing is stored outside one of two lists of ranges. -/
theorem StoresOnly.trans {s t u : State} {l m : Ranges} (hp : t.pg = s.pg) (k : Persists t u)
    (e1 : t.ioEvents <:+ s.ioEvents) (e2 : u.ioEvents <:+ t.ioEvents) (h1 : StoresOnly s t l)
    (h2 : StoresOnly t u m) : StoresOnly s u (l ++ m) := by
  intro a ha hu
  obtain ⟨u1, u2⟩ := (State.untouched_trans e1 e2 a.toNat).1 hu
  have hl : t.outside l a := fun r hr j hj e => ha r (List.mem_append_left _ hr) j hj (k _ _ e)
  have hm : u.outside m a := fun r hr => ha r (List.mem_append_right _ hr)
  have a1 := h1 a hl u1
  have a2 := h2 a hm u2
  exact ⟨a2.1.trans a1.1, fun p => (a2.2 (hp.trans p)).trans (a1.2 p)⟩

theorem Effect.trans {s t u : State} {l m : Ranges} (h1 : Effect s t l) (h2 : Effect t u m) : Effect s u (l ++ m) :=
  ⟨onlyMemory_preorder.trans _ _ _ h1.only h2.only, h2.cr2.trans h1.cr2, fun h => h2.inv (h1.inv h),
    h2.events.trans h1.events, fun h => StoresOnly.trans h1.only.pg h2.keeps h1.events h2.events (h1.stores h) (h2.stores (h1.inv h)),
    fun lin p h => h2.keeps lin p (h1.keeps lin p h)⟩

/-- What a device does inside a memory access. -/
theorem ByDevice.toEffect {s t : State} (d : ByDevice s t) : Effect s t [] :=
  ⟨d.only, d.cr2, d.toRead.access.inv, d.events, fun _ a _ hu => by rw [d.mem _ hu]; exact ⟨rfl, fun _ => rfl⟩,
    fun lin p h => (State.physAddr_congr d.only d.tlb lin true).trans h⟩

/-- A physical read that ends: always, and its value is the bytes held. -/
theorem memRead_effect {a : Word} {w : Width} {s t : State} {v : Word} (h : (memRead a w).run s = .ok v t) :
    ByDevice s t ∧
    ∀ k, k < w.bytes → (regionAt s.physMap (a.toNat + k) = some .ram ∨ regionAt s.physMap (a.toNat + k) = some .rom) →
      byteAt v k = s.mem.read (a.toNat + k) := by
  obtain ⟨v', t', e, d, -, b⟩ := memRead_spec a w s
  rw [e] at h
  injection h with h1 h2
  subst h1 h2
  exact ⟨d, b⟩

/-! ### Page walks and translation -/

theorem walk_ok {lin : Word} {w u : Bool} {s t : State} {p : Word} (h : (walk lin w u).run s = .ok p t) :
    ∃ e, t.tlb = Assoc.set (pageOf lin) e s.tlb ∧ p = e.physBase ||| (lin &&& 0xFFF) ∧ (w = true → e.dirty = true) ∧
      t.cr2 = s.cr2 := by
  unfold walk at h
  rw [run_bind_ok (run_get s)] at h
  obtain ⟨pde, t1, e1, h⟩ := run_bind_inv h
  obtain ⟨d1, -⟩ := memRead_effect e1
  split at h
  · cases h
  · obtain ⟨pte, t2, e2, h⟩ := run_bind_inv h
    obtain ⟨d2, -⟩ := memRead_effect e2
    simp only at h
    split at h
    · cases h
    · split at h
      · cases h
      · split at h
        · cases h
        · rw [run_bind_ok (run_setEntryBits _ _ _ _)] at h
          have c3 : ∀ (x y : Word) (a : Nat) (z : State),
              (if x = y then z else z.memWriteBytes 4 a x).cr2 = z.cr2 := by
            intro x y a z
            split
            · rfl
            · exact z.memWriteBytes_cr2 _ _ _
          have t3 : ∀ (x y : Word) (a : Nat) (z : State),
              (if x = y then z else z.memWriteBytes 4 a x).tlb = z.tlb := by
            intro x y a z
            split
            · rfl
            · exact z.memWriteBytes_tlb _ _ _
          rw [run_bind_ok (run_setEntryBits _ _ _ _), run_bind_ok (run_modify _ _)] at h
          cases h
          refine ⟨⟨pte &&& 0xFFFFF000, !(pde.getLsbD 1 && pte.getLsbD 1), !(pde.getLsbD 2 && pte.getLsbD 2),
            (pte ||| 0x20 ||| (if w then 0x40 else 0)).getLsbD 6⟩, ?_, rfl, ?_, ?_⟩
          · simp only [State.fillTlb, t3, d2.tlb, d1.tlb]
          · intro hw
            subst hw
            simp
          · simp only [State.fillTlb, c3, d2.cr2, d1.cr2]

theorem State.tlbHit_set {s t : State} {lin lin' : Word} {e : TlbEntry} (h : t.tlb = Assoc.set (pageOf lin) e s.tlb)
    (w : Bool) : t.tlbHit lin' w =
      if pageOf lin' = pageOf lin then (if !w || e.dirty then some e else none) else s.tlbHit lin' w := by
  unfold State.tlbHit
  rw [h]
  split
  · rename_i hp
    rw [hp, Assoc.get_set]
    rfl
  · rename_i hp
    rw [Assoc.get_set_other _ _ _ _ hp]

/-- Translation that succeeds: where it goes is what the state after it says. -/
theorem translate_ok {lin : Word} {w u : Bool} {s t : State} {p : Word} (h : (translate lin w u).run s = .ok p t) :
    Effect s t [] ∧ t.physAddr lin w = some p ∧ (s.pg = false → t = s) := by
  have rel := Op.rel_ofOk (translate_rel lin w u) h
  have only := rel.access.only
  unfold translate at h
  rw [run_bind_ok (run_get s)] at h
  split at h
  · rename_i hp
    have hp : s.pg = false := by simpa using hp
    cases h
    exact ⟨Effect.refl s, by simp [State.physAddr, hp], fun _ => rfl⟩
  · rename_i hp
    have hp : s.pg = true := by simpa using hp
    split at h
    · rename_i e he
      split at h
      · cases h
      · split at h
        · cases h
        · cases h
          exact ⟨Effect.refl s, by simp [State.physAddr, hp, he], fun _ => rfl⟩
    · rename_i he
      obtain ⟨q, t', e1, h⟩ := run_bind_inv h
      cases h
      obtain ⟨e, tl, hq, hd, c⟩ := walk_ok e1
      have hit := fun lin' => State.tlbHit_set (s := s) (t := t) (lin := lin) (lin' := lin') tl
      refine ⟨⟨only, c, rel.access.inv, rel.access.events, fun i a _ hu => ⟨rel.ad i _ hu, fun h => by simp [hp] at h⟩,
        ?_⟩, ?_, by simp [hp]⟩
      · intro lin' p' h'
        unfold State.physAddr at h' ⊢
        rw [only.pg, hp, if_pos rfl, only.a20, hit]
        rw [hp, if_pos rfl] at h'
        split
        · rename_i hpg
          have : s.tlbHit lin' true = none := by
            unfold State.tlbHit at he ⊢
            rw [hpg]
            cases g : Assoc.get (pageOf lin) s.tlb with
            | none => rfl
            | some x =>
              rw [g] at he
              cases w <;> simp_all
          rw [this] at h'
          cases h'
        · exact h'
      · unfold State.physAddr
        rw [only.pg, hp, if_pos rfl, only.a20, hit, if_pos rfl]
        have : (!w || e.dirty) = true := by
          cases w
          · rfl
          · simpa using hd rfl
        simp [this, hq]

/-! ### The bytes of an aligned access lie together -/

theorem add_eq_or (x k : Word) (h : x &&& k = 0) : x + k = x ||| k := BitVec.add_eq_or_of_and_eq_zero x k h

/-- The low bits of an aligned address are clear. -/
theorem aligned_low {lin : Word} {w : Width} (h : aligned lin w = true) {k : Nat} (hk : k < w.bytes) :
    lin &&& BitVec.ofNat 32 k = 0 := by
  unfold aligned at h
  have h : lin.toNat % w.bytes = 0 := by simpa using h
  apply BitVec.eq_of_getLsbD_eq
  intro i hi
  rw [BitVec.getLsbD_and, BitVec.getLsbD_ofNat]
  simp only [hi, decide_true, Bool.true_and, BitVec.ofNat_eq_ofNat, BitVec.getLsbD_zero]
  by_cases h2 : i < 2
  · rw [BitVec.getLsbD, Nat.testBit_eq_decide_div_mod_eq, Nat.testBit_eq_decide_div_mod_eq, ← Bool.decide_and,
      decide_eq_false_iff_not]
    cases w <;> simp only [Width.bytes] at * <;>
      (obtain rfl | rfl : i = 0 ∨ i = 1 := by omega) <;> omega
  · have : k.testBit i = false := by
      apply Nat.testBit_lt_two_pow
      have : (4 : Nat) ≤ 2 ^ i := Nat.pow_le_pow_right (i := 2) (n := 2) (by decide) (by omega)
      cases w <;> simp only [Width.bytes] at hk <;> omega
    rw [this, Bool.and_false]

theorem getLsbD_of_lt {x : Word} (hx : x.toNat < 4096) {i : Nat} (h : ¬ i < 12) : x.getLsbD i = false := by
  rw [BitVec.getLsbD]
  apply Nat.testBit_lt_two_pow
  have : (4096 : Nat) ≤ 2 ^ i := Nat.pow_le_pow_right (i := 12) (n := 2) (by decide) (by omega)
  omega

/-- An address keeps the low bits that the page offset has clear. -/
theorem and_low_of {lin p x : Word} (h : ∀ i, i < 12 → p.getLsbD i = true → lin.getLsbD i = true)
    (hl : lin &&& x = 0) (hx : x.toNat < 4096) : p &&& x = 0 := by
  apply BitVec.eq_of_getLsbD_eq
  intro i _
  have hl := congrArg (fun y => BitVec.getLsbD y i) hl
  simp only [BitVec.getLsbD_and, BitVec.ofNat_eq_ofNat, BitVec.getLsbD_zero] at hl ⊢
  by_cases h12 : i < 12
  · cases hp : p.getLsbD i
    · rfl
    · rw [h i h12 hp] at hl
      simpa using hl
  · rw [getLsbD_of_lt hx h12, Bool.and_false]

theorem Assoc.mem_of_get {α : Type} {k : Nat} {v : α} {l : List (Nat × α)} (h : Assoc.get k l = some v) :
    (k, v) ∈ l := by
  induction l with
  | nil => cases h
  | cons c l ih =>
    obtain ⟨k', v'⟩ := c
    unfold Assoc.get at h
    split at h
    · rename_i e
      cases h
      rw [e]
      exact List.mem_cons_self
    · exact List.mem_cons_of_mem _ (ih h)

/-- The page offset of a physical address is the linear one's, as far as the A20 mask lets it. -/
theorem physAddr_low {s : State} {lin p : Word} {b : Bool} (i : s.Inv) (h : s.physAddr lin b = some p) {x : Word}
    (hl : lin &&& x = 0) (hx : x.toNat < 4096) : p &&& x = 0 := by
  unfold State.physAddr at h
  split at h
  · cases e : s.tlbHit lin b with
    | none => rw [e] at h; cases h
    | some y =>
      rw [e] at h
      have hy : y.physBase &&& 0xFFF = 0 := by
        unfold State.tlbHit at e
        rw [Option.filter_eq_some_iff] at e
        exact (i.tlb.2 _ (Assoc.mem_of_get e.1)).2
      have h : (y.physBase ||| lin &&& 0xFFF) &&& s.a20Mask = p := by simpa using h
      refine and_low_of (lin := lin) (fun j hj hp => ?_) hl hx
      rw [← h] at hp
      have hy := congrArg (fun y => BitVec.getLsbD y j) hy
      simp only [BitVec.getLsbD_and, BitVec.getLsbD_or, BitVec.ofNat_eq_ofNat, BitVec.getLsbD_zero] at hy hp
      have h4 : (4095#32).getLsbD j = true := by
        have : ∀ j, j < 12 → (4095#32).getLsbD j = true := by decide
        exact this j hj
      rw [h4] at hy hp
      simp only [Bool.and_true] at hy
      rw [hy] at hp
      simp only [Bool.and_true, Bool.false_or, Bool.and_eq_true] at hp
      exact hp.1
  · have h : lin &&& s.a20Mask = p := by simpa using h
    refine and_low_of (lin := lin) (fun j hj hp => ?_) hl hx
    rw [← h, BitVec.getLsbD_and, Bool.and_eq_true] at hp
    exact hp.1

theorem toNat_mod_of_low {p : Word} {w : Width} (h : ∀ k, k < w.bytes → p &&& BitVec.ofNat 32 k = 0) :
    p.toNat % w.bytes = 0 := by
  cases w with
  | w8 => exact Nat.mod_one _
  | w16 =>
    have := congrArg BitVec.toNat (h 1 (by decide))
    rw [BitVec.toNat_and] at this
    have e := Nat.and_two_pow_sub_one_eq_mod p.toNat 1
    simp only [Width.bytes]
    simpa using e.symm.trans this
  | w32 =>
    have := congrArg BitVec.toNat (h 3 (by decide))
    rw [BitVec.toNat_and] at this
    have e := Nat.and_two_pow_sub_one_eq_mod p.toNat 2
    simp only [Width.bytes]
    simpa using e.symm.trans this

theorem width_bytes_dvd (w : Width) : w.bytes = 1 ∨ w.bytes = 2 ∨ w.bytes = 4 := by
  cases w <;> simp [Width.bytes]

/-- The bytes of an aligned access go to consecutive physical addresses. -/
theorem physAddr_next {s : State} {lin : Word} {w : Width} {b : Bool} {p : Word} (i : s.Inv)
    (ha : aligned lin w = true) (h : s.physAddr lin b = some p) {k : Nat} (hk : k < w.bytes) :
    s.physAddr (lin + BitVec.ofNat 32 k) b = some (p + BitVec.ofNat 32 k) ∧
      (p + BitVec.ofNat 32 k).toNat = p.toNat + k := by
  have k4 : k < 4 := by cases w <;> simp only [Width.bytes] at hk <;> omega
  have kn : (BitVec.ofNat 32 k).toNat = k := by simp; omega
  have hl := aligned_low ha hk
  have kA : (BitVec.ofNat 32 k) &&& s.a20Mask = BitVec.ofNat 32 k := by
    unfold State.a20Mask a20Mask
    obtain rfl | rfl | rfl | rfl : k = 0 ∨ k = 1 ∨ k = 2 ∨ k = 3 := by omega
    all_goals split <;> decide
  have kF : (BitVec.ofNat 32 k) &&& 0xFFF = BitVec.ofNat 32 k := by
    obtain rfl | rfl | rfl | rfl : k = 0 ∨ k = 1 ∨ k = 2 ∨ k = 3 := by omega
    all_goals decide
  have small : ∀ j, j < w.bytes → (BitVec.ofNat 32 j).toNat < 4096 := by
    intro j hj
    have := width_bytes_dvd w
    simp
    omega
  have lows : ∀ j, j < w.bytes → p &&& BitVec.ofNat 32 j = 0 := fun j hj =>
    physAddr_low i h (aligned_low ha hj) (small j hj)
  have low := lows k hk
  have hp := toNat_mod_of_low lows
  have hlin : lin.toNat % w.bytes = 0 := by simpa [aligned] using ha
  have wb := width_bytes_dvd w
  have pg : pageOf (lin ||| BitVec.ofNat 32 k) = pageOf lin := by
    unfold pageOf
    rw [← add_eq_or _ _ hl, BitVec.toNat_add, kn]
    have := lin.isLt
    rcases wb with wb | wb | wb <;> rw [wb] at hlin hk <;> omega
  refine ⟨?_, ?_⟩
  · rw [add_eq_or _ _ low, add_eq_or _ _ hl]
    unfold State.physAddr at h ⊢
    split
    · rename_i hp
      rw [if_pos hp] at h
      have : s.tlbHit (lin ||| BitVec.ofNat 32 k) b = s.tlbHit lin b := by
        unfold State.tlbHit
        rw [pg]
      rw [this]
      cases e : s.tlbHit lin b with
      | none => rw [e] at h; cases h
      | some x =>
        rw [e] at h
        have h : (x.physBase ||| lin &&& 0xFFF) &&& s.a20Mask = p := by simpa using h
        rw [← h]
        have e1 : (lin ||| BitVec.ofNat 32 k) &&& 0xFFF = lin &&& 0xFFF ||| BitVec.ofNat 32 k := by
          rw [BitVec.and_or_distrib_right, kF]
        show some ((x.physBase ||| (lin ||| BitVec.ofNat 32 k) &&& 0xFFF) &&& s.a20Mask) = some _
        rw [e1, ← BitVec.or_assoc, BitVec.and_or_distrib_right, kA]
    · rename_i hp
      rw [if_neg hp] at h
      have h : lin &&& s.a20Mask = p := by simpa using h
      rw [BitVec.and_or_distrib_right, kA, h]
  · rw [BitVec.toNat_add, kn]
    have := p.isLt
    rcases wb with wb | wb | wb <;> rw [wb] at hp hk <;> omega

/-- The page offset of a physical address is the linear one's. -/
theorem physAddr_offset {s : State} {lin p : Word} {b : Bool} (i : s.Inv) (h : s.physAddr lin b = some p) :
    p &&& 0xFFF = lin &&& 0xFFF := by
  have m : s.a20Mask &&& 0xFFF = 0xFFF := by
    unfold State.a20Mask a20Mask
    split <;> decide
  unfold State.physAddr at h
  split at h
  · cases e : s.tlbHit lin b with
    | none => rw [e] at h; cases h
    | some y =>
      rw [e] at h
      have hy : y.physBase &&& 0xFFF = 0 := by
        unfold State.tlbHit at e
        rw [Option.filter_eq_some_iff] at e
        exact (i.tlb.2 _ (Assoc.mem_of_get e.1)).2
      have h : (y.physBase ||| lin &&& 0xFFF) &&& s.a20Mask = p := by simpa using h
      rw [← h, BitVec.and_assoc, m, BitVec.and_or_distrib_right, hy, BitVec.and_assoc]
      simp
  · have h : lin &&& s.a20Mask = p := by simpa using h
    rw [← h, BitVec.and_assoc, m]

/-- Bytes less than a page apart go to different physical addresses. -/
theorem physAddr_ne {s : State} {lin p q : Word} {b c : Bool} {k : Nat} (i : s.Inv) (hk : 0 < k) (hk' : k < 4096)
    (h : s.physAddr lin b = some p) (h' : s.physAddr (lin + BitVec.ofNat 32 k) c = some q) : p ≠ q := by
  intro e
  subst e
  have e := (physAddr_offset i h).symm.trans (physAddr_offset i h')
  have e := congrArg BitVec.toNat e
  have f : ∀ x : Word, (x &&& 0xFFF).toNat = x.toNat % 4096 := fun x => by
    rw [BitVec.toNat_and]
    exact Nat.and_two_pow_sub_one_eq_mod x.toNat 12
  rw [f, f, BitVec.toNat_add, BitVec.toNat_ofNat] at e
  omega

/-! ### Linear writes -/

theorem Effect.mono {s t : State} {l m : Ranges} (h : Effect s t m) (e : ∀ a, t.outside l a → t.outside m a) :
    Effect s t l :=
  ⟨h.only, h.cr2, h.inv, h.events, fun i a ha => h.stores i a (e a ha), h.keeps⟩

/-- A store at a physical address a linear one is translated to. -/
theorem memWriteBytes_effect {s : State} {lin p : Word} {n : Nat} (v : Word)
    (hp : s.Inv → ∀ k, k < n → s.physAddr (lin + BitVec.ofNat 32 k) true = some (p + BitVec.ofNat 32 k) ∧
      (p + BitVec.ofNat 32 k).toNat = p.toNat + k) :
    Effect s (s.memWriteBytes n p.toNat v) [(lin, n)] := by
  have o := s.memWriteBytes_only n p.toNat v
  have tl := s.memWriteBytes_tlb n p.toNat v
  refine ⟨o, s.memWriteBytes_cr2 _ _ _, (s.memWriteBytes_access n p.toNat v).inv, s.memWriteBytes_events n p.toNat v,
    fun i a ha hu => ?_,
    fun lin' q h => (State.physAddr_congr o tl lin' true).trans h⟩
  have : a.toNat < p.toNat ∨ p.toNat + n ≤ a.toNat := by
    by_cases c : a.toNat < p.toNat ∨ p.toNat + n ≤ a.toNat
    · exact c
    · exfalso
      have hk : a.toNat - p.toNat < n := by omega
      have := ha (lin, n) (List.mem_cons_self) _ hk
      rw [State.physAddr_congr o tl] at this
      apply this
      obtain ⟨e1, e2⟩ := hp i _ hk
      rw [e1]
      congr 1
      apply BitVec.eq_of_toNat_eq
      omega
  rw [s.memWriteBytes_other n p.toNat a.toNat v this hu]
  exact ⟨rfl, fun _ => rfl⟩

/-- A byte as it was stored, at least up to the accessed and dirty bits a later walk may set. -/
def StoredUpTo (s t : State) (lin : Word) (n : Nat) (v : Word) : Prop :=
  ∀ k, k < n → ∃ p, t.physAddr (lin + BitVec.ofNat 32 k) true = some p ∧
    (regionAt t.physMap p.toNat = some .ram → s.untouched t p.toNat →
      t.mem.read p.toNat ||| 0x60 = byteAt v k ||| 0x60 ∧ (t.pg = false → t.mem.read p.toNat = byteAt v k))

theorem byteAt_shift (v : Word) (k : Nat) : byteAt (v >>> 8) k = byteAt v (k + 1) := by
  unfold byteAt
  rw [show 8 * (k + 1) = 8 + 8 * k by omega, BitVec.shiftRight_add]

theorem add_ofNat_succ (x : Word) (k : Nat) : x + 1 + BitVec.ofNat 32 k = x + BitVec.ofNat 32 (k + 1) := by
  apply BitVec.eq_of_toNat_eq
  simp [BitVec.toNat_add, BitVec.toNat_ofNat]
  omega

theorem linWriteBytes_effect {u : Bool} {n : Nat} {lin v : Word} {s t : State} (hn : n ≤ 4)
    (h : (linWriteBytes u n lin v).run s = .ok () t) :
    Effect s t [(lin, n)] ∧ (s.Inv → StoredUpTo s t lin n v) := by
  induction n generalizing lin v s with
  | zero =>
    have e : s = t := by injection h
    rw [← e]
    exact ⟨(Effect.refl s).mono fun a _ r hr => (nomatch hr), fun _ k hk => by omega⟩
  | succ n ih =>
    unfold linWriteBytes at h
    obtain ⟨p, t1, e1, h⟩ := run_bind_inv h
    obtain ⟨f1, a1, -⟩ := translate_ok e1
    have e2 : (memWrite p .w8 (v &&& 0xFF)).run t1 = .ok () (t1.memWriteBytes 1 p.toNat (v &&& 0xFF)) := rfl
    rw [run_bind_ok e2] at h
    have f2 : Effect t1 (t1.memWriteBytes 1 p.toNat (v &&& 0xFF)) [(lin, 1)] := by
      refine memWriteBytes_effect _ fun _ k hk => ?_
      obtain rfl : k = 0 := by omega
      simpa using a1
    obtain ⟨f3, b3⟩ := ih (by omega) h
    have f12 := f1.trans f2
    refine ⟨(f12.trans f3).mono fun a ha r hr k hk => ?_, fun i k hk => ?_⟩
    · simp only [List.nil_append, List.cons_append, List.mem_cons, List.not_mem_nil, or_false] at hr
      rcases hr with rfl | rfl
      · exact ha (lin, n + 1) List.mem_cons_self k (by simp only at hk ⊢; omega)
      · rw [add_ofNat_succ]
        exact ha (lin, n + 1) List.mem_cons_self (k + 1) (by simp only at hk ⊢; omega)
    · have i1 := f1.inv i
      have i2 := f12.inv i
      have i3 := f3.inv i2
      cases k with
      | succ k =>
        obtain ⟨q, hq, hs⟩ := b3 i2 k (by omega)
        refine ⟨q, by rw [← add_ofNat_succ]; exact hq, fun hr hu => ?_⟩
        rw [← byteAt_shift]
        exact hs hr ((State.untouched_trans f12.events f3.events _).1 hu).2
      | zero =>
        have a2 := f2.keeps lin p a1
        have a3 := f3.keeps lin p a2
        refine ⟨p, by simpa using a3, fun hr hu => ?_⟩
        obtain ⟨u12, u3⟩ := (State.untouched_trans f12.events f3.events _).1 hu
        have u2 := ((State.untouched_trans f1.events f2.events _).1 u12).2
        have out : t.outside [(lin + 1, n)] p := by
          intro r hr k hk
          simp only [List.mem_cons, List.not_mem_nil, or_false] at hr
          subst hr
          rw [add_ofNat_succ]
          intro e
          exact physAddr_ne i3 (k := k + 1) (by omega) (by simp only at hk; omega) a3 e rfl
        have st := f3.stores i2 p out u3
        have pm : t.physMap = t1.physMap := f3.only.physMap.trans f2.only.physMap
        have hv : (t1.memWriteBytes 1 p.toNat (v &&& 0xFF)).mem.read p.toNat = byteAt v 0 := by
          rw [pm] at hr
          have := State.memWriteBytes_stored t1 1 p.toNat 0 (v &&& 0xFF) ⟨i1.mem, i1.map⟩ (by omega) hr u2
          rw [Nat.add_zero] at this
          rw [this]
          unfold byteAt
          rw [Nat.mul_zero, BitVec.ushiftRight_zero, BitVec.ushiftRight_zero, BitVec.setWidth_and]
          exact BitVec.and_allOnes
        rw [hv] at st
        exact ⟨st.1, fun hp => st.2 (by rw [← f3.only.pg]; exact hp)⟩

/-- A linear write that succeeds stores the value at the linear address and does nothing else (R126). -/
theorem linWrite_effect {u : Bool} {w : Width} {lin v : Word} {s t : State}
    (h : (linWrite lin w v u).run s = .ok () t) : Effect s t [(lin, w.bytes)] ∧ (s.Inv → Stored s t lin w v) := by
  unfold linWrite at h
  split at h
  · rename_i ha
    obtain ⟨p, t1, e1, h⟩ := run_bind_inv h
    obtain ⟨f1, a1, -⟩ := translate_ok e1
    have e2 : (memWrite p w v).run t1 = .ok () (t1.memWriteBytes w.bytes p.toNat v) := rfl
    rw [e2] at h
    cases h
    have f2 : Effect t1 (t1.memWriteBytes w.bytes p.toNat v) [(lin, w.bytes)] :=
      memWriteBytes_effect v fun i k hk => physAddr_next i ha a1 hk
    refine ⟨f1.trans f2, fun i k hk => ?_⟩
    have i1 := f1.inv i
    obtain ⟨n1, n2⟩ := physAddr_next i1 ha a1 hk
    refine ⟨_, f2.keeps _ _ n1, fun hr hu => ?_⟩
    rw [f2.only.physMap] at hr
    have hu := ((State.untouched_trans f1.events f2.events _).1 hu).2
    rw [n2] at hr hu ⊢
    have := State.memWriteBytes_stored t1 w.bytes p.toNat k v ⟨i1.mem, i1.map⟩ hk hr hu
    rw [this]
    exact ⟨rfl, fun _ => rfl⟩
  · rename_i ha
    obtain ⟨f, b⟩ := linWriteBytes_effect (by cases w <;> decide) h
    refine ⟨f, fun i k hk => ?_⟩
    obtain ⟨p, hp, hs⟩ := b i k hk
    refine ⟨p, hp, fun hr hu => ⟨(hs hr hu).1, fun c => (hs hr hu).2 ?_⟩⟩
    rcases c with c | c
    · exact c
    · exact absurd c ha

/-! ### Linear reads -/

theorem width_bits (w : Width) : w.bits = 8 * w.bytes := by cases w <;> rfl

theorem memRead_fits {a : Word} {w : Width} {s t : State} {v : Word} (h : (memRead a w).run s = .ok v t) :
    w.fits v = true := by
  obtain ⟨v', t', e, -, f, -⟩ := memRead_spec a w s
  rw [e] at h
  injection h with h1 h2
  subst h1
  simp [Width.fits, width_bits, f]

/-- A read that translates leaves every read translation as it was. -/
theorem translate_read_keeps {lin : Word} {u : Bool} {s t : State} {p : Word}
    (h : (translate lin false u).run s = .ok p t) {lin' q : Word} (hq : s.physAddr lin' false = some q) :
    t.physAddr lin' false = some q := by
  have only := (Op.rel_ofOk (translate_rel lin false u) h).access.only
  unfold translate at h
  rw [run_bind_ok (run_get s)] at h
  split at h
  · cases h
    exact hq
  · rename_i hp
    have hp : s.pg = true := by simpa using hp
    split at h
    · split at h
      · cases h
      · split at h
        · cases h
        · cases h
          exact hq
    · rename_i he
      obtain ⟨q', t', e1, h⟩ := run_bind_inv h
      cases h
      obtain ⟨e, tl, -, -, -⟩ := walk_ok e1
      have hit := State.tlbHit_set (s := s) (t := t) (lin := lin) (lin' := lin') tl
      unfold State.physAddr at hq ⊢
      rw [only.pg, hp, if_pos rfl, only.a20, hit]
      rw [hp, if_pos rfl] at hq
      split
      · rename_i hpg
        have : s.tlbHit lin' false = none := by
          unfold State.tlbHit at he ⊢
          rw [hpg]
          exact he
        rw [this] at hq
        cases hq
      · exact hq

/-- A value as the bytes a state holds, up to the accessed and dirty bits. -/
def LoadedUpTo (s t : State) (lin : Word) (n : Nat) (v : Word) : Prop :=
  v.toNat < 2 ^ (8 * n) ∧ ∀ k, k < n → ∃ p, t.physAddr (lin + BitVec.ofNat 32 k) false = some p ∧
    (regionAt s.physMap p.toNat = some .ram ∨ regionAt s.physMap p.toNat = some .rom → s.untouched t p.toNat →
      byteAt v k ||| 0x60 = s.mem.read p.toNat ||| 0x60 ∧ (s.pg = false → byteAt v k = s.mem.read p.toNat))

theorem byteAt_cons_zero (b rest : Word) : byteAt (b ||| (rest <<< 8)) 0 = byteAt b 0 := by
  unfold byteAt
  ext i _
  simp

theorem byteAt_cons_succ (b : Word) (rest : Word) (k : Nat) (hb : b.toNat < 256) (hk : 8 * k + 16 ≤ 32) :
    byteAt (b ||| (rest <<< 8)) (k + 1) = byteAt rest k := by
  unfold byteAt
  ext i hi
  have h8 : i < 8 := hi
  have h1 : ¬ 8 * (k + 1) + i < 8 := by omega
  have h2 : 8 * (k + 1) + i < 32 := by omega
  have h3 : b.getLsbD (8 * (k + 1) + i) = false := by
    rw [BitVec.getLsbD]
    apply Nat.testBit_lt_two_pow
    have : (256 : Nat) ≤ 2 ^ (8 * (k + 1) + i) := Nat.pow_le_pow_right (i := 8) (n := 2) (by decide) (by omega)
    omega
  simp only [BitVec.getElem_setWidth, BitVec.getLsbD_ushiftRight, BitVec.getLsbD_or, BitVec.getLsbD_shiftLeft, h3]
  simp [h1, h2, show 8 * (k + 1) + i - 8 = 8 * k + i by omega]

theorem outside_nil (t : State) (a : Word) : t.outside [] a := fun r hr => by cases hr

theorem linReadBytes_effect {u : Bool} {n : Nat} {lin v : Word} {s t : State} (hn : n ≤ 4)
    (h : (linReadBytes u n lin).run s = .ok v t) :
    Effect s t [] ∧ (∀ l q, s.physAddr l false = some q → t.physAddr l false = some q) ∧
      (s.Inv → LoadedUpTo s t lin n v) := by
  induction n generalizing lin v s t with
  | zero =>
    cases h
    exact ⟨Effect.refl _, fun _ _ h => h, fun _ => ⟨by decide, fun k hk => by omega⟩⟩
  | succ n ih =>
    unfold linReadBytes at h
    obtain ⟨p, t1, e1, h⟩ := run_bind_inv h
    obtain ⟨b, t2, e2, h⟩ := run_bind_inv h
    obtain ⟨r, t3, e3, h⟩ := run_bind_inv h
    cases h
    obtain ⟨f1, a1, -⟩ := translate_ok e1
    obtain ⟨d2, b2⟩ := memRead_effect e2
    have f2 := d2.toEffect
    obtain ⟨f3, k3, b3⟩ := ih (by omega) e3
    have hb : b.toNat < 256 := by
      have := memRead_fits e2
      exact of_decide_eq_true this
    have c2 : ∀ l, t2.physAddr l false = t1.physAddr l false := fun l => State.physAddr_congr d2.only d2.tlb l false
    refine ⟨(f1.trans f2).trans f3, fun l q hq => k3 l q (by rw [c2]; exact translate_read_keeps e1 hq), fun i => ?_⟩
    have i1 := f1.inv i
    have i2 := f2.inv i1
    obtain ⟨lt3, b3⟩ := b3 i2
    refine ⟨?_, fun k hk => ?_⟩
    · have e : b = (b.setWidth 8).setWidth 32 := by
        apply BitVec.eq_of_toNat_eq
        simp only [BitVec.toNat_setWidth]
        omega
      rw [e]
      exact fits_cons lt3
    · cases k with
      | zero =>
        refine ⟨p, ?_, fun hr hu => ?_⟩
        · have := k3 lin p (by rw [c2]; exact a1)
          simpa using this
        · rw [byteAt_cons_zero]
          have := b2 0 (by decide) (by rw [f1.only.physMap]; simpa using hr)
          rw [Nat.add_zero] at this
          rw [this]
          have u1 := ((State.untouched_trans f1.events (f3.events.trans f2.events) _).1 hu).1
          exact f1.stores i p (outside_nil _ _) u1
      | succ k =>
        obtain ⟨q, hq, hs⟩ := b3 k (by omega)
        refine ⟨q, by rw [← add_ofNat_succ]; exact hq, fun hr hu => ?_⟩
        rw [byteAt_cons_succ _ _ _ hb (by omega)]
        have f12 := f1.trans f2
        obtain ⟨u12, u3⟩ := (State.untouched_trans f12.events f3.events _).1 hu
        have hs := hs (by rw [f12.only.physMap]; exact hr) u3
        have st := f12.stores i q (outside_nil _ _) u12
        exact ⟨hs.1.trans st.1, fun hp => (hs.2 (by rw [f12.only.pg]; exact hp)).trans (st.2 hp)⟩

/-- A linear read that succeeds gives the bytes held and stores nothing (R125). -/
theorem linRead_effect {u : Bool} {w : Width} {lin v : Word} {s t : State}
    (h : (linRead lin w u).run s = .ok v t) : Effect s t [] ∧ (s.Inv → Loaded s t lin w v) := by
  unfold linRead at h
  split at h
  · rename_i ha
    obtain ⟨p, t1, e1, h⟩ := run_bind_inv h
    obtain ⟨f1, a1, -⟩ := translate_ok e1
    obtain ⟨d2, b2⟩ := memRead_effect h
    have f2 := d2.toEffect
    refine ⟨f1.trans f2, fun i => ⟨memRead_fits h, fun k hk => ?_⟩⟩
    have i1 := f1.inv i
    obtain ⟨n1, n2⟩ := physAddr_next i1 ha a1 hk
    refine ⟨_, (State.physAddr_congr d2.only d2.tlb _ false).trans n1, fun hr hu => ?_⟩
    rw [← f1.only.physMap] at hr
    have hu := ((State.untouched_trans f1.events f2.events _).1 hu).1
    have st := f1.stores i (p + BitVec.ofNat 32 k) (outside_nil _ _) hu
    rw [n2] at hr st ⊢
    rw [b2 k hk hr]
    exact st
  · obtain ⟨f, -, b⟩ := linReadBytes_effect (by cases w <;> decide) h
    refine ⟨f, fun i => ?_⟩
    obtain ⟨lt, b⟩ := b i
    exact ⟨by simp [Width.fits, width_bits, lt], b⟩

end Sys2Proof.Machine
end

