-- ==== Sys2Proof/Laws/Keeps.lean ====
section
/-! SUPPORT. What every operation of the core keeps, however it ends: the form of the state, CR0, the two
descriptor-table registers, the halt state and what the platform will do between steps. -/

namespace Sys2Proof.Machine

/-! ### Flag words keep their form (R26) -/

/-- `setValue` writes no bit outside the capability mask (R26). -/
theorem flagsOk_setFlags {f : Word} (h : FlagsOk f) (v m : Word) : FlagsOk (setFlags f v m) := by
  unfold FlagsOk at *
  rw [← h]
  unfold setFlags setFlagsCap
  apply BitVec.eq_of_getLsbD_eq
  intro i hi
  simp only [BitVec.getLsbD_and, BitVec.getLsbD_or, BitVec.getLsbD_not, hi, decide_true, Bool.true_and]
  cases Config.capMask.getLsbD i <;> simp

theorem flagsOk_putFlag {f : Word} (h : FlagsOk f) (g : Flag) (v : Bool) : FlagsOk (putFlag f g v) :=
  flagsOk_setFlags h _ _

theorem flagsOk_putStatus {f : Word} (h : FlagsOk f) (t : Status) : FlagsOk (putStatus f t) :=
  flagsOk_putFlag (flagsOk_putFlag (flagsOk_putFlag (flagsOk_putFlag (flagsOk_putFlag (flagsOk_putFlag h
    _ _) _ _) _ _) _ _) _ _) _ _

theorem flagsOk_real {f : Word} (h : FlagsOk f) : FlagsOk (realEntryFlags f) :=
  flagsOk_putFlag (flagsOk_putFlag h _ _) _ _

theorem flagsOk_gate {f : Word} (h : FlagsOk f) (b : Bool) : FlagsOk (gateEntryFlags b f) := by
  unfold gateEntryFlags
  have := flagsOk_putFlag (flagsOk_putFlag (flagsOk_putFlag (flagsOk_putFlag h .tf false) .nt false) .rf false)
    .vm false
  simp only
  split
  · exact flagsOk_putFlag this _ _
  · exact this

/-! ### The relation -/

/-- What no operation but the instructions that write them changes. -/
structure Keeps (s t : State) : Prop where
  inv      : s.Inv → t.Inv
  cr0      : t.cr0 = s.cr0
  gdtr     : t.gdtr = s.gdtr
  idtr     : t.idtr = s.idtr
  halted   : t.halted = s.halted
  events   : t.events = s.events

theorem kp : Preorder Keeps where
  refl _ := ⟨id, rfl, rfl, rfl, rfl, rfl⟩
  trans _ _ _ h1 h2 := ⟨fun i => h2.inv (h1.inv i), h2.cr0.trans h1.cr0, h2.gdtr.trans h1.gdtr,
    h2.idtr.trans h1.idtr, h2.halted.trans h1.halted, h2.events.trans h1.events⟩

theorem AccessRel.keeps {s t : State} (h : AccessRel s t) : Keeps s t := by
  refine ⟨h.inv, ?_, ?_, ?_, ?_, ?_⟩ <;> (have o := h.only; unfold OnlyMemory at o; rw [o])

theorem Keeps.flagWord (s : State) {f : Word} (h : FlagsOk s.flags → FlagsOk f) : Keeps s (s.setFlagWord f) :=
  ⟨fun i => ⟨i.mem, i.tlb, h i.flags, i.paging, i.map⟩, rfl, rfl, rfl, rfl, rfl⟩

/-- An operation keeps what `Keeps` says. -/
abbrev KeepsAll {α : Type} (x : Op α) : Prop := Op.Rel Keeps x

@[simp] theorem keeps_pure {α : Type} (a : α) : KeepsAll (pure a : Op α) := Op.rel_pure kp a
@[simp] theorem keeps_get : KeepsAll (get : Op State) := Op.rel_get kp
@[simp] theorem keeps_raise {α : Type} (k : FaultKind) (c : Option Word) : KeepsAll (raise k c : Op α) :=
  Op.rel_raise kp k c
@[simp] theorem keeps_raiseUD {α : Type} : KeepsAll (raiseUD : Op α) := Op.rel_raise kp _ _
@[simp] theorem keeps_raiseDE {α : Type} : KeepsAll (raiseDE : Op α) := Op.rel_raise kp _ _
@[simp] theorem keeps_raiseGP0 {α : Type} : KeepsAll (raiseGP0 : Op α) := Op.rel_raise kp _ _
@[simp] theorem keeps_refuse {α : Type} (r : Refusal) : KeepsAll (refuse r : Op α) := Op.rel_refuse kp r
@[simp] theorem keeps_require (ok : Bool) (k : FaultKind) (c : Word) : KeepsAll (require ok k c) :=
  Op.rel_require kp ok k c
@[simp] theorem keeps_requireUD (ok : Bool) : KeepsAll (requireUD ok) := by
  cases ok
  · exact Op.rel_raise kp _ _
  · exact Op.rel_pure kp _

theorem keeps_bind {α β : Type} {x : Op α} {f : α → Op β} (hx : KeepsAll x) (hf : ∀ a, KeepsAll (f a)) :
    KeepsAll (x >>= f) := Op.rel_bind kp hx hf

theorem keeps_ite {α : Type} {c : Prop} [Decidable c] {x y : Op α} (hx : KeepsAll x) (hy : KeepsAll y) :
    KeepsAll (if c then x else y) := Op.rel_ite hx hy

theorem keeps_modify {f : State → State} (h : ∀ s, Keeps s (f s)) : KeepsAll (modify f : Op Unit) := h

/-! ### The leaves -/

@[simp] theorem keeps_nextDraw : KeepsAll nextDraw := fun _ =>
  ⟨fun i => ⟨i.mem, i.tlb, i.flags, i.paging, i.map⟩, rfl, rfl, rfl, rfl, rfl⟩
@[simp] theorem keeps_drawBit : KeepsAll drawBit := keeps_bind keeps_nextDraw fun _ => keeps_pure _
@[simp] theorem keeps_readReg (w : Width) (r : Reg) : KeepsAll (readReg w r) := fun s => kp.refl s
@[simp] theorem keeps_writeReg (w : Width) (r : Reg) (v : Word) : KeepsAll (writeReg w r v) := fun _ =>
  ⟨fun i => ⟨i.mem, i.tlb, i.flags, i.paging, i.map⟩, rfl, rfl, rfl, rfl, rfl⟩
@[simp] theorem keeps_advance : KeepsAll advance := fun _ =>
  ⟨fun i => ⟨i.mem, i.tlb, i.flags, i.paging, i.map⟩, rfl, rfl, rfl, rfl, rfl⟩
@[simp] theorem keeps_jumpTo (v : Word) : KeepsAll (jumpTo v) := fun _ =>
  ⟨fun i => ⟨i.mem, i.tlb, i.flags, i.paging, i.map⟩, rfl, rfl, rfl, rfl, rfl⟩
@[simp] theorem keeps_endBlock : KeepsAll endBlock := fun _ =>
  ⟨fun i => ⟨i.mem, i.tlb, i.flags, i.paging, i.map⟩, rfl, rfl, rfl, rfl, rfl⟩
@[simp] theorem keeps_setCpl (c : BitVec 2) : KeepsAll (setCpl c) := fun _ =>
  ⟨fun i => ⟨i.mem, i.tlb, i.flags, i.paging, i.map⟩, rfl, rfl, rfl, rfl, rfl⟩
@[simp] theorem keeps_putStatusOp (t : Status) : KeepsAll (putStatusOp t) := fun s =>
  Keeps.flagWord s fun h => flagsOk_putStatus h t
@[simp] theorem keeps_putFlagOp (f : Flag) (v : Bool) : KeepsAll (putFlagOp f v) := fun s =>
  Keeps.flagWord s fun h => flagsOk_putFlag h f v
@[simp] theorem keeps_drawFlag (f : Flag) : KeepsAll (drawFlag f) := keeps_bind keeps_drawBit fun _ => keeps_putFlagOp _ _
@[simp] theorem keeps_loadFlags (v m : Word) : KeepsAll (modify (·.loadFlags v m) : Op Unit) := fun s =>
  Keeps.flagWord s fun h => flagsOk_setFlags h v m
@[simp] theorem keeps_realEntry : KeepsAll (mapFlags realEntryFlags) := fun s =>
  Keeps.flagWord s flagsOk_real
@[simp] theorem keeps_gateEntry (b : Bool) : KeepsAll (mapFlags (gateEntryFlags b)) := fun s =>
  Keeps.flagWord s fun h => flagsOk_gate h b
@[simp] theorem keeps_setSp (v : Word) : KeepsAll (modify (·.setSp v) : Op Unit) := fun _ =>
  ⟨fun i => ⟨i.mem, i.tlb, i.flags, i.paging, i.map⟩, rfl, rfl, rfl, rfl, rfl⟩
@[simp] theorem keeps_setSeg (i : Seg) (f : State → SegReg) : KeepsAll (modify fun s => s.setSeg i (f s) : Op Unit) :=
  fun _ => ⟨fun i => ⟨i.mem, i.tlb, i.flags, i.paging, i.map⟩, rfl, rfl, rfl, rfl, rfl⟩
@[simp] theorem keeps_releaseStack (iw : Half) : KeepsAll (releaseStack iw) := fun _ =>
  ⟨fun i => ⟨i.mem, i.tlb, i.flags, i.paging, i.map⟩, rfl, rfl, rfl, rfl, rfl⟩

@[simp] theorem keeps_linRead (lin : Word) (w : Width) (u : Bool) : KeepsAll (linRead lin w u) :=
  Op.rel_mono (linRead_access lin w u) fun _ _ => AccessRel.keeps
@[simp] theorem keeps_translate (lin : Word) (w u : Bool) : KeepsAll (translate lin w u) :=
  Op.rel_mono (translate_access lin w u) fun _ _ => AccessRel.keeps
@[simp] theorem keeps_memRead (a : Word) (w : Width) : KeepsAll (memRead a w) :=
  Op.rel_mono (memRead_rel a w) fun _ _ h => h.access.keeps
@[simp] theorem keeps_linWrite (lin : Word) (w : Width) (v : Word) (u : Bool) : KeepsAll (linWrite lin w v u) :=
  Op.rel_mono (linWrite_rel lin w v u) fun _ _ => AccessRel.keeps
@[simp] theorem keeps_segRead (i : Seg) (off : Word) (w : Width) : KeepsAll (segRead i off w) :=
  Op.rel_mono (segRead_access i off w) fun _ _ => AccessRel.keeps
@[simp] theorem keeps_segReadForWrite (i : Seg) (off : Word) (w : Width) : KeepsAll (segReadForWrite i off w) :=
  Op.rel_mono (segReadForWrite_rel i off w) fun _ _ h => h.access.keeps
@[simp] theorem keeps_segWrite (i : Seg) (off : Word) (w : Width) (v : Word) : KeepsAll (segWrite i off w v) :=
  Op.rel_mono (segWrite_rel i off w v) fun _ _ => AccessRel.keeps
@[simp] theorem keeps_segWriteBack (i : Seg) (off : Word) (w : Width) (v : Word) :
    KeepsAll (segWriteBack i off w v) := Op.rel_mono (segWriteBack_rel i off w v) fun _ _ => AccessRel.keeps
@[simp] theorem keeps_sysRead (lin : Word) (w : Width) : KeepsAll (sysRead lin w) := keeps_linRead _ _ _
@[simp] theorem keeps_sysWrite (lin : Word) (w : Width) (v : Word) : KeepsAll (sysWrite lin w v) :=
  keeps_linWrite _ _ _ _
@[simp] theorem keeps_fetchDescriptor (sel : Half) : KeepsAll (fetchDescriptor sel) :=
  Op.rel_mono (fetchDescriptor_rel sel) fun _ _ h => h.access.keeps
@[simp] theorem keeps_fetchDescOr (sel : Half) (k : FaultKind) (c : Word) : KeepsAll (fetchDescOr sel k c) :=
  Op.rel_mono (fetchDescOr_access sel k c) fun _ _ => AccessRel.keeps

/-- A change of registers, segments, the level, LDTR, TR, EIP and the block only. -/
theorem keeps_plain (f : State → State)
    (h : ∀ s, (f s).mem = s.mem ∧ (f s).tlb = s.tlb ∧ (f s).flags = s.flags ∧ (f s).physMap = s.physMap ∧
      (f s).cr0 = s.cr0 ∧ (f s).gdtr = s.gdtr ∧ (f s).idtr = s.idtr ∧ (f s).halted = s.halted ∧
      (f s).events = s.events) : KeepsAll (modify f : Op Unit) := fun s => by
  obtain ⟨h1, h2, h3, h4, h5, h6, h7, h8, h9⟩ := h s
  exact ⟨fun i => ⟨h1 ▸ i.mem, h2 ▸ i.tlb, h3 ▸ i.flags, h5 ▸ i.paging, h4 ▸ i.map⟩, h5, h6, h7, h8, h9⟩

/-! ### Operands and the stack -/

@[simp] theorem keeps_readRM (w : Width) (rm : RM) : KeepsAll (readRM w rm) := by
  unfold readRM
  repeat' first
    | with_reducible refine keeps_bind ?_ fun _ => ?_
    | with_reducible refine keeps_ite ?_ ?_
    | (simp; done)
    | exact keeps_plain _ fun _ => ⟨rfl, rfl, rfl, rfl, rfl, rfl, rfl, rfl, rfl⟩
    | exact keeps_loadFlags _ _
    | split

@[simp] theorem keeps_writeRM (w : Width) (rm : RM) (v : Word) : KeepsAll (writeRM w rm v) := by
  unfold writeRM
  repeat' first
    | with_reducible refine keeps_bind ?_ fun _ => ?_
    | with_reducible refine keeps_ite ?_ ?_
    | (simp; done)
    | exact keeps_plain _ fun _ => ⟨rfl, rfl, rfl, rfl, rfl, rfl, rfl, rfl, rfl⟩
    | exact keeps_loadFlags _ _
    | split

@[simp] theorem keeps_readDst (w : Width) (rm : RM) : KeepsAll (readDst w rm) := by
  unfold readDst
  repeat' first
    | with_reducible refine keeps_bind ?_ fun _ => ?_
    | with_reducible refine keeps_ite ?_ ?_
    | (simp; done)
    | exact keeps_plain _ fun _ => ⟨rfl, rfl, rfl, rfl, rfl, rfl, rfl, rfl, rfl⟩
    | exact keeps_loadFlags _ _
    | split

@[simp] theorem keeps_writeDst (w : Width) (rm : RM) (v : Word) : KeepsAll (writeDst w rm v) := by
  unfold writeDst
  repeat' first
    | with_reducible refine keeps_bind ?_ fun _ => ?_
    | with_reducible refine keeps_ite ?_ ?_
    | (simp; done)
    | exact keeps_plain _ fun _ => ⟨rfl, rfl, rfl, rfl, rfl, rfl, rfl, rfl, rfl⟩
    | exact keeps_loadFlags _ _
    | split

@[simp] theorem keeps_memOperand (rm : RM) : KeepsAll (memOperand rm) := by
  unfold memOperand
  repeat' first
    | with_reducible refine keeps_bind ?_ fun _ => ?_
    | with_reducible refine keeps_ite ?_ ?_
    | (simp; done)
    | exact keeps_plain _ fun _ => ⟨rfl, rfl, rfl, rfl, rfl, rfl, rfl, rfl, rfl⟩
    | exact keeps_loadFlags _ _
    | split

@[simp] theorem keeps_storeSelector (z : Size) (rm : RM) (sel : Half) : KeepsAll (storeSelector z rm sel) := by
  unfold storeSelector
  repeat' first
    | with_reducible refine keeps_bind ?_ fun _ => ?_
    | with_reducible refine keeps_ite ?_ ?_
    | (simp; done)
    | exact keeps_plain _ fun _ => ⟨rfl, rfl, rfl, rfl, rfl, rfl, rfl, rfl, rfl⟩
    | exact keeps_loadFlags _ _
    | split

@[simp] theorem keeps_readFarPtr (z : Size) (m : MemRef) : KeepsAll (readFarPtr z m) := by
  unfold readFarPtr
  repeat' first
    | with_reducible refine keeps_bind ?_ fun _ => ?_
    | with_reducible refine keeps_ite ?_ ?_
    | (simp; done)
    | exact keeps_plain _ fun _ => ⟨rfl, rfl, rfl, rfl, rfl, rfl, rfl, rfl, rfl⟩
    | exact keeps_loadFlags _ _
    | split

@[simp] theorem keeps_AluForm_src (f : AluForm) : KeepsAll (AluForm.src f) := by
  unfold AluForm.src
  repeat' first
    | with_reducible refine keeps_bind ?_ fun _ => ?_
    | with_reducible refine keeps_ite ?_ ?_
    | (simp; done)
    | exact keeps_plain _ fun _ => ⟨rfl, rfl, rfl, rfl, rfl, rfl, rfl, rfl, rfl⟩
    | exact keeps_loadFlags _ _
    | split

@[simp] theorem keeps_TestForm_src (f : TestForm) : KeepsAll (TestForm.src f) := by
  unfold TestForm.src
  repeat' first
    | with_reducible refine keeps_bind ?_ fun _ => ?_
    | with_reducible refine keeps_ite ?_ ?_
    | (simp; done)
    | exact keeps_plain _ fun _ => ⟨rfl, rfl, rfl, rfl, rfl, rfl, rfl, rfl, rfl⟩
    | exact keeps_loadFlags _ _
    | split

@[simp] theorem keeps_push (z : Size) (v : Word) : KeepsAll (push z v) := by
  unfold push
  repeat' first
    | with_reducible refine keeps_bind ?_ fun _ => ?_
    | with_reducible refine keeps_ite ?_ ?_
    | (simp; done)
    | exact keeps_plain _ fun _ => ⟨rfl, rfl, rfl, rfl, rfl, rfl, rfl, rfl, rfl⟩
    | exact keeps_loadFlags _ _
    | split

@[simp] theorem keeps_pop (z : Size) : KeepsAll (pop z) := by
  unfold pop
  repeat' first
    | with_reducible refine keeps_bind ?_ fun _ => ?_
    | with_reducible refine keeps_ite ?_ ?_
    | (simp; done)
    | exact keeps_plain _ fun _ => ⟨rfl, rfl, rfl, rfl, rfl, rfl, rfl, rfl, rfl⟩
    | exact keeps_loadFlags _ _
    | split

@[simp] theorem keeps_popSel (z : Size) : KeepsAll (popSel z) := by
  unfold popSel
  repeat' first
    | with_reducible refine keeps_bind ?_ fun _ => ?_
    | with_reducible refine keeps_ite ?_ ?_
    | (simp; done)
    | exact keeps_plain _ fun _ => ⟨rfl, rfl, rfl, rfl, rfl, rfl, rfl, rfl, rfl⟩
    | exact keeps_loadFlags _ _
    | split

@[simp] theorem keeps_push16 (v : Half) : KeepsAll (push16 v) := by
  unfold push16
  repeat' first
    | with_reducible refine keeps_bind ?_ fun _ => ?_
    | with_reducible refine keeps_ite ?_ ?_
    | (simp; done)
    | exact keeps_plain _ fun _ => ⟨rfl, rfl, rfl, rfl, rfl, rfl, rfl, rfl, rfl⟩
    | exact keeps_loadFlags _ _
    | split

@[simp] theorem keeps_pushSel (z : Size) (v : Half) : KeepsAll (pushSel z v) := by
  unfold pushSel
  repeat' first
    | with_reducible refine keeps_bind ?_ fun _ => ?_
    | with_reducible refine keeps_ite ?_ ?_
    | (simp; done)
    | exact keeps_plain _ fun _ => ⟨rfl, rfl, rfl, rfl, rfl, rfl, rfl, rfl, rfl⟩
    | exact keeps_loadFlags _ _
    | split

@[simp] theorem keeps_pushError (z : Size) (c : Option Word) : KeepsAll (pushError z c) := by
  unfold pushError
  repeat' first
    | with_reducible refine keeps_bind ?_ fun _ => ?_
    | with_reducible refine keeps_ite ?_ ?_
    | (simp; done)
    | exact keeps_plain _ fun _ => ⟨rfl, rfl, rfl, rfl, rfl, rfl, rfl, rfl, rfl⟩
    | exact keeps_loadFlags _ _
    | split

@[simp] theorem keeps_requirePrivilege : KeepsAll requirePrivilege := by
  unfold requirePrivilege
  repeat' first
    | with_reducible refine keeps_bind ?_ fun _ => ?_
    | with_reducible refine keeps_ite ?_ ?_
    | (simp; done)
    | exact keeps_plain _ fun _ => ⟨rfl, rfl, rfl, rfl, rfl, rfl, rfl, rfl, rfl⟩
    | exact keeps_loadFlags _ _
    | split

@[simp] theorem keeps_ioPermitted (port : Half) : KeepsAll (ioPermitted port) := by
  unfold ioPermitted
  repeat' first
    | with_reducible refine keeps_bind ?_ fun _ => ?_
    | with_reducible refine keeps_ite ?_ ?_
    | (simp; done)
    | exact keeps_plain _ fun _ => ⟨rfl, rfl, rfl, rfl, rfl, rfl, rfl, rfl, rfl⟩
    | exact keeps_loadFlags _ _
    | split

/-! ### Segments -/

@[simp] theorem keeps_loadSegReal (i : Seg) (sel : Half) : KeepsAll (loadSegReal i sel) := by
  unfold loadSegReal
  repeat' first
    | with_reducible refine keeps_bind ?_ fun _ => ?_
    | with_reducible refine keeps_ite ?_ ?_
    | (simp; done)
    | exact keeps_plain _ fun _ => ⟨rfl, rfl, rfl, rfl, rfl, rfl, rfl, rfl, rfl⟩
    | exact keeps_loadFlags _ _
    | split

@[simp] theorem keeps_loadSegV86 (i : Seg) (sel : Half) : KeepsAll (loadSegV86 i sel) := by
  unfold loadSegV86
  repeat' first
    | with_reducible refine keeps_bind ?_ fun _ => ?_
    | with_reducible refine keeps_ite ?_ ?_
    | (simp; done)
    | exact keeps_plain _ fun _ => ⟨rfl, rfl, rfl, rfl, rfl, rfl, rfl, rfl, rfl⟩
    | exact keeps_loadFlags _ _
    | split

@[simp] theorem keeps_copyDescriptor (i : Seg) (sel : Half) (d : Desc) : KeepsAll (copyDescriptor i sel d) := by
  unfold copyDescriptor
  repeat' first
    | with_reducible refine keeps_bind ?_ fun _ => ?_
    | with_reducible refine keeps_ite ?_ ?_
    | (simp; done)
    | exact keeps_plain _ fun _ => ⟨rfl, rfl, rfl, rfl, rfl, rfl, rfl, rfl, rfl⟩
    | exact keeps_loadFlags _ _
    | split

@[simp] theorem keeps_loadSegProt (i : Seg) (sel : Half) : KeepsAll (loadSegProt i sel) := by
  unfold loadSegProt
  repeat' first
    | with_reducible refine keeps_bind ?_ fun _ => ?_
    | with_reducible refine keeps_ite ?_ ?_
    | (simp; done)
    | exact keeps_plain _ fun _ => ⟨rfl, rfl, rfl, rfl, rfl, rfl, rfl, rfl, rfl⟩
    | exact keeps_loadFlags _ _
    | split

@[simp] theorem keeps_loadSS (sel : Half) (c : BitVec 2) : KeepsAll (loadSS sel c) := by
  unfold loadSS
  repeat' first
    | with_reducible refine keeps_bind ?_ fun _ => ?_
    | with_reducible refine keeps_ite ?_ ?_
    | (simp; done)
    | exact keeps_plain _ fun _ => ⟨rfl, rfl, rfl, rfl, rfl, rfl, rfl, rfl, rfl⟩
    | exact keeps_loadFlags _ _
    | split

@[simp] theorem keeps_loadCS (sel : Half) (d : Desc) (c : BitVec 2) : KeepsAll (loadCS sel d c) := by
  unfold loadCS
  repeat' first
    | with_reducible refine keeps_bind ?_ fun _ => ?_
    | with_reducible refine keeps_ite ?_ ?_
    | (simp; done)
    | exact keeps_plain _ fun _ => ⟨rfl, rfl, rfl, rfl, rfl, rfl, rfl, rfl, rfl⟩
    | exact keeps_loadFlags _ _
    | split

@[simp] theorem keeps_loadSeg (i : Seg) (sel : Half) : KeepsAll (loadSeg i sel) := by
  unfold loadSeg
  repeat' first
    | with_reducible refine keeps_bind ?_ fun _ => ?_
    | with_reducible refine keeps_ite ?_ ?_
    | (simp; done)
    | exact keeps_plain _ fun _ => ⟨rfl, rfl, rfl, rfl, rfl, rfl, rfl, rfl, rfl⟩
    | exact keeps_loadFlags _ _
    | split

/-! ### The task switch -/

@[simp] theorem keeps_tssRead (b : Word) (off : Nat) (w : Width) : KeepsAll (tssRead b off w) := by
  unfold tssRead
  repeat' first
    | with_reducible refine keeps_bind ?_ fun _ => ?_
    | with_reducible refine keeps_ite ?_ ?_
    | (simp; done)
    | exact keeps_plain _ fun _ => ⟨rfl, rfl, rfl, rfl, rfl, rfl, rfl, rfl, rfl⟩
    | exact keeps_loadFlags _ _
    | split

@[simp] theorem keeps_tssWrite (b : Word) (off : Nat) (w : Width) (v : Word) : KeepsAll (tssWrite b off w v) := by
  unfold tssWrite
  repeat' first
    | with_reducible refine keeps_bind ?_ fun _ => ?_
    | with_reducible refine keeps_ite ?_ ?_
    | (simp; done)
    | exact keeps_plain _ fun _ => ⟨rfl, rfl, rfl, rfl, rfl, rfl, rfl, rfl, rfl⟩
    | exact keeps_loadFlags _ _
    | split

@[simp] theorem keeps_tssStack (l : Nat) : KeepsAll (tssStack l) := by
  unfold tssStack
  repeat' first
    | with_reducible refine keeps_bind ?_ fun _ => ?_
    | with_reducible refine keeps_ite ?_ ?_
    | (simp; done)
    | exact keeps_plain _ fun _ => ⟨rfl, rfl, rfl, rfl, rfl, rfl, rfl, rfl, rfl⟩
    | exact keeps_loadFlags _ _
    | split

@[simp] theorem keeps_putBusyBit (a : Word) (on : Bool) : KeepsAll (putBusyBit a on) := by
  unfold putBusyBit
  repeat' first
    | with_reducible refine keeps_bind ?_ fun _ => ?_
    | with_reducible refine keeps_ite ?_ ?_
    | (simp; done)
    | exact keeps_plain _ fun _ => ⟨rfl, rfl, rfl, rfl, rfl, rfl, rfl, rfl, rfl⟩
    | exact keeps_loadFlags _ _
    | split

@[simp] theorem keeps_switchStep1 (o : SwitchOp) : KeepsAll (switchStep1 o) := by
  unfold switchStep1
  repeat' first
    | with_reducible refine keeps_bind ?_ fun _ => ?_
    | with_reducible refine keeps_ite ?_ ?_
    | (simp; done)
    | exact keeps_plain _ fun _ => ⟨rfl, rfl, rfl, rfl, rfl, rfl, rfl, rfl, rfl⟩
    | exact keeps_loadFlags _ _
    | split

@[simp] theorem keeps_switchStep2 (o : SwitchOp) (ret : Word) : KeepsAll (switchStep2 o ret) := by
  unfold switchStep2
  repeat' first
    | with_reducible refine keeps_bind ?_ fun _ => ?_
    | with_reducible refine keeps_ite ?_ ?_
    | (simp; done)
    | exact keeps_plain _ fun _ => ⟨rfl, rfl, rfl, rfl, rfl, rfl, rfl, rfl, rfl⟩
    | exact keeps_loadFlags _ _
    | split

@[simp] theorem keeps_switchStep3 (o : SwitchOp) (d : Desc) : KeepsAll (switchStep3 o d) := by
  unfold switchStep3
  repeat' first
    | with_reducible refine keeps_bind ?_ fun _ => ?_
    | with_reducible refine keeps_ite ?_ ?_
    | (simp; done)
    | exact keeps_plain _ fun _ => ⟨rfl, rfl, rfl, rfl, rfl, rfl, rfl, rfl, rfl⟩
    | exact keeps_loadFlags _ _
    | split

@[simp] theorem keeps_tssSel (b : Word) (off : Nat) : KeepsAll (tssSel b off) := by
  unfold tssSel
  repeat' first
    | with_reducible refine keeps_bind ?_ fun _ => ?_
    | with_reducible refine keeps_ite ?_ ?_
    | (simp; done)
    | exact keeps_plain _ fun _ => ⟨rfl, rfl, rfl, rfl, rfl, rfl, rfl, rfl, rfl⟩
    | exact keeps_loadFlags _ _
    | split

@[simp] theorem keeps_readTaskImage (b : Word) : KeepsAll (readTaskImage b) := by
  unfold readTaskImage
  repeat' first
    | with_reducible refine keeps_bind ?_ fun _ => ?_
    | with_reducible refine keeps_ite ?_ ?_
    | (simp; done)
    | exact keeps_plain _ fun _ => ⟨rfl, rfl, rfl, rfl, rfl, rfl, rfl, rfl, rfl, rfl⟩
    | exact keeps_loadFlags _ _
    | split

@[simp] theorem keeps_loadTask (sel : Half) (d : Desc) (t : TaskImage) :
    KeepsAll (modify (·.loadTask sel d t) : Op Unit) := fun _ =>
  ⟨fun i => ⟨i.mem, ⟨List.Pairwise.nil, fun _ h => nomatch h⟩, flagsOk_setFlags i.flags _ _, i.paging, i.map⟩, rfl,
    rfl, rfl, rfl, rfl⟩

@[simp] theorem keeps_switchStep56 (o : SwitchOp) (a : Word) : KeepsAll (switchStep56 o a) := by
  unfold switchStep56
  repeat' first
    | with_reducible refine keeps_bind ?_ fun _ => ?_
    | with_reducible refine keeps_ite ?_ ?_
    | (simp; done)
    | exact keeps_plain _ fun _ => ⟨rfl, rfl, rfl, rfl, rfl, rfl, rfl, rfl, rfl⟩
    | exact keeps_loadFlags _ _
    | split

@[simp] theorem keeps_switchCpl (t : TaskImage) : KeepsAll (switchCpl t) := by
  unfold switchCpl
  repeat' first
    | with_reducible refine keeps_bind ?_ fun _ => ?_
    | with_reducible refine keeps_ite ?_ ?_
    | (simp; done)
    | exact keeps_plain _ fun _ => ⟨rfl, rfl, rfl, rfl, rfl, rfl, rfl, rfl, rfl⟩
    | exact keeps_loadFlags _ _
    | split

@[simp] theorem keeps_requireTs (ok : Bool) (sel : Half) : KeepsAll (requireTs ok sel) := by
  unfold requireTs
  repeat' first
    | with_reducible refine keeps_bind ?_ fun _ => ?_
    | with_reducible refine keeps_ite ?_ ?_
    | (simp; done)
    | exact keeps_plain _ fun _ => ⟨rfl, rfl, rfl, rfl, rfl, rfl, rfl, rfl, rfl⟩
    | exact keeps_loadFlags _ _
    | split

@[simp] theorem keeps_fetchDescTs (sel : Half) : KeepsAll (fetchDescTs sel) := by
  unfold fetchDescTs
  repeat' first
    | with_reducible refine keeps_bind ?_ fun _ => ?_
    | with_reducible refine keeps_ite ?_ ?_
    | (simp; done)
    | exact keeps_plain _ fun _ => ⟨rfl, rfl, rfl, rfl, rfl, rfl, rfl, rfl, rfl⟩
    | exact keeps_loadFlags _ _
    | split

@[simp] theorem keeps_switchLdt (sel : Half) : KeepsAll (switchLdt sel) := by
  unfold switchLdt
  repeat' first
    | with_reducible refine keeps_bind ?_ fun _ => ?_
    | with_reducible refine keeps_ite ?_ ?_
    | (simp; done)
    | exact keeps_plain _ fun _ => ⟨rfl, rfl, rfl, rfl, rfl, rfl, rfl, rfl, rfl⟩
    | exact keeps_loadFlags _ _
    | split

@[simp] theorem keeps_switchCs (sel : Half) : KeepsAll (switchCs sel) := by
  unfold switchCs
  repeat' first
    | with_reducible refine keeps_bind ?_ fun _ => ?_
    | with_reducible refine keeps_ite ?_ ?_
    | (simp; done)
    | exact keeps_plain _ fun _ => ⟨rfl, rfl, rfl, rfl, rfl, rfl, rfl, rfl, rfl⟩
    | exact keeps_loadFlags _ _
    | split

@[simp] theorem keeps_switchSs (sel : Half) : KeepsAll (switchSs sel) := by
  unfold switchSs
  repeat' first
    | with_reducible refine keeps_bind ?_ fun _ => ?_
    | with_reducible refine keeps_ite ?_ ?_
    | (simp; done)
    | exact keeps_plain _ fun _ => ⟨rfl, rfl, rfl, rfl, rfl, rfl, rfl, rfl, rfl⟩
    | exact keeps_loadFlags _ _
    | split

@[simp] theorem keeps_switchData (i : Seg) (sel : Half) : KeepsAll (switchData i sel) := by
  unfold switchData
  repeat' first
    | with_reducible refine keeps_bind ?_ fun _ => ?_
    | with_reducible refine keeps_ite ?_ ?_
    | (simp; done)
    | exact keeps_plain _ fun _ => ⟨rfl, rfl, rfl, rfl, rfl, rfl, rfl, rfl, rfl⟩
    | exact keeps_loadFlags _ _
    | split

@[simp] theorem keeps_switchStep7 (t : TaskImage) : KeepsAll (switchStep7 t) := by
  unfold switchStep7
  repeat' first
    | with_reducible refine keeps_bind ?_ fun _ => ?_
    | with_reducible refine keeps_ite ?_ ?_
    | (simp; done)
    | exact keeps_plain _ fun _ => ⟨rfl, rfl, rfl, rfl, rfl, rfl, rfl, rfl, rfl⟩
    | exact keeps_loadFlags _ _
    | split

/-- Marking the faults of an operation changes no state. -/
theorem after_pastCommit {α : Type} (x : Op α) (s : State) : after ((pastCommit x).run s) = after (x.run s) := by
  unfold pastCommit EStateM.run
  cases h : x s with
  | ok a t => simp only [h]
  | error e t => cases e <;> simp only [h] <;> rfl

theorem keeps_pastCommit {α : Type} {x : Op α} (h : KeepsAll x) : KeepsAll (pastCommit x) := fun s => by
  rw [after_pastCommit]
  exact h s

@[simp] theorem keeps_switchToTask (sel : Half) (d : Desc) (a : Word) (o : SwitchOp) (ret : Word) : KeepsAll (switchToTask sel d a o ret) := by
  unfold switchToTask
  repeat' first
    | with_reducible refine keeps_bind ?_ fun _ => ?_
    | with_reducible refine keeps_ite ?_ ?_
    | with_reducible refine keeps_pastCommit ?_
    | (simp; done)
    | exact keeps_plain _ fun _ => ⟨rfl, rfl, rfl, rfl, rfl, rfl, rfl, rfl, rfl⟩
    | exact keeps_loadFlags _ _
    | split

/-! ### Dispatch -/

@[simp] theorem keeps_dispatchReal (v : Nat) (ret : Word) : KeepsAll (dispatchReal v ret) := by
  unfold dispatchReal
  repeat' first
    | with_reducible refine keeps_bind ?_ fun _ => ?_
    | with_reducible refine keeps_ite ?_ ?_
    | (simp; done)
    | exact keeps_plain _ fun _ => ⟨rfl, rfl, rfl, rfl, rfl, rfl, rfl, rfl, rfl⟩
    | exact keeps_loadFlags _ _
    | split

@[simp] theorem keeps_innerStack (k : DispatchKind) (n : BitVec 2) : KeepsAll (innerStack k n) := by
  unfold innerStack
  repeat' first
    | with_reducible refine keeps_bind ?_ fun _ => ?_
    | with_reducible refine keeps_ite ?_ ?_
    | (simp; done)
    | exact keeps_plain _ fun _ => ⟨rfl, rfl, rfl, rfl, rfl, rfl, rfl, rfl, rfl⟩
    | exact keeps_loadFlags _ _
    | split

@[simp] theorem keeps_enterStack (nss : Half) (d : Desc) (n : BitVec 2) (nesp : Word) : KeepsAll (enterStack nss d n nesp) := by
  unfold enterStack
  repeat' first
    | with_reducible refine keeps_bind ?_ fun _ => ?_
    | with_reducible refine keeps_ite ?_ ?_
    | (simp; done)
    | exact keeps_plain _ fun _ => ⟨rfl, rfl, rfl, rfl, rfl, rfl, rfl, rfl, rfl⟩
    | exact keeps_loadFlags _ _
    | split

@[simp] theorem keeps_dispatchInner (k : DispatchKind) (g d : Desc) (c : Option Word) (ret : Word) : KeepsAll (dispatchInner k g d c ret) := by
  unfold dispatchInner
  repeat' first
    | with_reducible refine keeps_bind ?_ fun _ => ?_
    | with_reducible refine keeps_ite ?_ ?_
    | (simp; done)
    | exact keeps_plain _ fun _ => ⟨rfl, rfl, rfl, rfl, rfl, rfl, rfl, rfl, rfl⟩
    | exact keeps_loadFlags _ _
    | split

@[simp] theorem keeps_clearSeg (i : Seg) : KeepsAll (clearSeg i) := by
  unfold clearSeg
  repeat' first
    | with_reducible refine keeps_bind ?_ fun _ => ?_
    | with_reducible refine keeps_ite ?_ ?_
    | (simp; done)
    | exact keeps_plain _ fun _ => ⟨rfl, rfl, rfl, rfl, rfl, rfl, rfl, rfl, rfl⟩
    | exact keeps_loadFlags _ _
    | split

@[simp] theorem keeps_dispatchV86 (k : DispatchKind) (g d : Desc) (c : Option Word) (ret : Word) : KeepsAll (dispatchV86 k g d c ret) := by
  unfold dispatchV86
  repeat' first
    | with_reducible refine keeps_bind ?_ fun _ => ?_
    | with_reducible refine keeps_ite ?_ ?_
    | (simp; done)
    | exact keeps_plain _ fun _ => ⟨rfl, rfl, rfl, rfl, rfl, rfl, rfl, rfl, rfl⟩
    | exact keeps_loadFlags _ _
    | split

@[simp] theorem keeps_dispatchSame (k : DispatchKind) (g d : Desc) (c : Option Word) (ret : Word) : KeepsAll (dispatchSame k g d c ret) := by
  unfold dispatchSame
  repeat' first
    | with_reducible refine keeps_bind ?_ fun _ => ?_
    | with_reducible refine keeps_ite ?_ ?_
    | (simp; done)
    | exact keeps_plain _ fun _ => ⟨rfl, rfl, rfl, rfl, rfl, rfl, rfl, rfl, rfl⟩
    | exact keeps_loadFlags _ _
    | split

@[simp] theorem keeps_dispatchGate (k : DispatchKind) (g : Desc) (c : Option Word) (ret : Word) : KeepsAll (dispatchGate k g c ret) := by
  unfold dispatchGate
  repeat' first
    | with_reducible refine keeps_bind ?_ fun _ => ?_
    | with_reducible refine keeps_ite ?_ ?_
    | (simp; done)
    | exact keeps_plain _ fun _ => ⟨rfl, rfl, rfl, rfl, rfl, rfl, rfl, rfl, rfl⟩
    | exact keeps_loadFlags _ _
    | split

@[simp] theorem keeps_dispatchTask (k : DispatchKind) (g : Desc) (c : Option Word) (ret : Word) : KeepsAll (dispatchTask k g c ret) := by
  unfold dispatchTask
  repeat' first
    | with_reducible refine keeps_bind ?_ fun _ => ?_
    | with_reducible refine keeps_ite ?_ ?_
    | with_reducible refine keeps_pastCommit ?_
    | (simp; done)
    | exact keeps_plain _ fun _ => ⟨rfl, rfl, rfl, rfl, rfl, rfl, rfl, rfl, rfl⟩
    | exact keeps_loadFlags _ _
    | split

@[simp] theorem keeps_dispatchProt (v : Nat) (k : DispatchKind) (c : Option Word) (ret : Word) : KeepsAll (dispatchProt v k c ret) := by
  unfold dispatchProt
  repeat' first
    | with_reducible refine keeps_bind ?_ fun _ => ?_
    | with_reducible refine keeps_ite ?_ ?_
    | (simp; done)
    | exact keeps_plain _ fun _ => ⟨rfl, rfl, rfl, rfl, rfl, rfl, rfl, rfl, rfl⟩
    | exact keeps_loadFlags _ _
    | split

@[simp] theorem keeps_dispatch (v : Nat) (k : DispatchKind) (c : Option Word) (ret : Word) : KeepsAll (dispatch v k c ret) := by
  unfold dispatch
  repeat' first
    | with_reducible refine keeps_bind ?_ fun _ => ?_
    | with_reducible refine keeps_ite ?_ ?_
    | (simp; done)
    | exact keeps_plain _ fun _ => ⟨rfl, rfl, rfl, rfl, rfl, rfl, rfl, rfl, rfl⟩
    | exact keeps_loadFlags _ _
    | split

/-! ### Far transfers and returns -/

@[simp] theorem keeps_pushFarReturn (z : Size) (k : FarKind) : KeepsAll (pushFarReturn z k) := by
  unfold pushFarReturn
  repeat' first
    | with_reducible refine keeps_bind ?_ fun _ => ?_
    | with_reducible refine keeps_ite ?_ ?_
    | (simp; done)
    | exact keeps_plain _ fun _ => ⟨rfl, rfl, rfl, rfl, rfl, rfl, rfl, rfl, rfl⟩
    | exact keeps_loadFlags _ _
    | split

@[simp] theorem keeps_loadCsFlat (sel : Half) : KeepsAll (loadCsFlat sel) := by
  unfold loadCsFlat
  repeat' first
    | with_reducible refine keeps_bind ?_ fun _ => ?_
    | with_reducible refine keeps_ite ?_ ?_
    | (simp; done)
    | exact keeps_plain _ fun _ => ⟨rfl, rfl, rfl, rfl, rfl, rfl, rfl, rfl, rfl⟩
    | exact keeps_loadFlags _ _
    | split

@[simp] theorem keeps_farFlat (z : Size) (k : FarKind) (sel : Half) (off : Word) : KeepsAll (farFlat z k sel off) := by
  unfold farFlat
  repeat' first
    | with_reducible refine keeps_bind ?_ fun _ => ?_
    | with_reducible refine keeps_ite ?_ ?_
    | (simp; done)
    | exact keeps_plain _ fun _ => ⟨rfl, rfl, rfl, rfl, rfl, rfl, rfl, rfl, rfl⟩
    | exact keeps_loadFlags _ _
    | split

@[simp] theorem keeps_farCode (z : Size) (k : FarKind) (sel : Half) (off : Word) (d : Desc) : KeepsAll (farCode z k sel off d) := by
  unfold farCode
  repeat' first
    | with_reducible refine keeps_bind ?_ fun _ => ?_
    | with_reducible refine keeps_ite ?_ ?_
    | (simp; done)
    | exact keeps_plain _ fun _ => ⟨rfl, rfl, rfl, rfl, rfl, rfl, rfl, rfl, rfl⟩
    | exact keeps_loadFlags _ _
    | split

@[simp] theorem keeps_farTss (k : FarKind) (sel : Half) (d : Desc) (a : Word) : KeepsAll (farTss k sel d a) := by
  unfold farTss
  repeat' first
    | with_reducible refine keeps_bind ?_ fun _ => ?_
    | with_reducible refine keeps_ite ?_ ?_
    | (simp; done)
    | exact keeps_plain _ fun _ => ⟨rfl, rfl, rfl, rfl, rfl, rfl, rfl, rfl, rfl⟩
    | exact keeps_loadFlags _ _
    | split

@[simp] theorem keeps_farTaskGate (k : FarKind) (sel : Half) (d : Desc) : KeepsAll (farTaskGate k sel d) := by
  unfold farTaskGate
  repeat' first
    | with_reducible refine keeps_bind ?_ fun _ => ?_
    | with_reducible refine keeps_ite ?_ ?_
    | (simp; done)
    | exact keeps_plain _ fun _ => ⟨rfl, rfl, rfl, rfl, rfl, rfl, rfl, rfl, rfl⟩
    | exact keeps_loadFlags _ _
    | split

@[simp] theorem keeps_farProt (z : Size) (k : FarKind) (sel : Half) (off : Word) : KeepsAll (farProt z k sel off) := by
  unfold farProt
  repeat' first
    | with_reducible refine keeps_bind ?_ fun _ => ?_
    | with_reducible refine keeps_ite ?_ ?_
    | (simp; done)
    | exact keeps_plain _ fun _ => ⟨rfl, rfl, rfl, rfl, rfl, rfl, rfl, rfl, rfl⟩
    | exact keeps_loadFlags _ _
    | split

@[simp] theorem keeps_farTransfer (z : Size) (k : FarKind) (sel : Half) (off : Word) : KeepsAll (farTransfer z k sel off) := by
  unfold farTransfer
  repeat' first
    | with_reducible refine keeps_bind ?_ fun _ => ?_
    | with_reducible refine keeps_ite ?_ ?_
    | (simp; done)
    | exact keeps_plain _ fun _ => ⟨rfl, rfl, rfl, rfl, rfl, rfl, rfl, rfl, rfl⟩
    | exact keeps_loadFlags _ _
    | split

@[simp] theorem keeps_retfProt (cs : Half) : KeepsAll (retfProt cs) := by
  unfold retfProt
  repeat' first
    | with_reducible refine keeps_bind ?_ fun _ => ?_
    | with_reducible refine keeps_ite ?_ ?_
    | (simp; done)
    | exact keeps_plain _ fun _ => ⟨rfl, rfl, rfl, rfl, rfl, rfl, rfl, rfl, rfl⟩
    | exact keeps_loadFlags _ _
    | split

@[simp] theorem keeps_farReturn (z : Size) (iw : Half) : KeepsAll (farReturn z iw) := by
  unfold farReturn
  repeat' first
    | with_reducible refine keeps_bind ?_ fun _ => ?_
    | with_reducible refine keeps_ite ?_ ?_
    | (simp; done)
    | exact keeps_plain _ fun _ => ⟨rfl, rfl, rfl, rfl, rfl, rfl, rfl, rfl, rfl⟩
    | exact keeps_loadFlags _ _
    | split

@[simp] theorem keeps_iretFlat (z : Size) : KeepsAll (iretFlat z) := by
  unfold iretFlat
  repeat' first
    | with_reducible refine keeps_bind ?_ fun _ => ?_
    | with_reducible refine keeps_ite ?_ ?_
    | (simp; done)
    | exact keeps_plain _ fun _ => ⟨rfl, rfl, rfl, rfl, rfl, rfl, rfl, rfl, rfl⟩
    | exact keeps_loadFlags _ _
    | split

@[simp] theorem keeps_iretTask : KeepsAll iretTask := by
  unfold iretTask
  repeat' first
    | with_reducible refine keeps_bind ?_ fun _ => ?_
    | with_reducible refine keeps_ite ?_ ?_
    | (simp; done)
    | exact keeps_plain _ fun _ => ⟨rfl, rfl, rfl, rfl, rfl, rfl, rfl, rfl, rfl⟩
    | exact keeps_loadFlags _ _
    | split

@[simp] theorem keeps_validateOuter (i : Seg) : KeepsAll (validateOuter i) := by
  unfold validateOuter
  repeat' first
    | with_reducible refine keeps_bind ?_ fun _ => ?_
    | with_reducible refine keeps_ite ?_ ?_
    | (simp; done)
    | exact keeps_plain _ fun _ => ⟨rfl, rfl, rfl, rfl, rfl, rfl, rfl, rfl, rfl⟩
    | exact keeps_loadFlags _ _
    | split

@[simp] theorem keeps_iretV86 (eip : Word) (cs : Half) (fl : Word) : KeepsAll (iretV86 eip cs fl) := by
  unfold iretV86
  repeat' first
    | with_reducible refine keeps_bind ?_ fun _ => ?_
    | with_reducible refine keeps_ite ?_ ?_
    | (simp; done)
    | exact keeps_plain _ fun _ => ⟨rfl, rfl, rfl, rfl, rfl, rfl, rfl, rfl, rfl⟩
    | exact keeps_loadFlags _ _
    | split

@[simp] theorem keeps_iretOuter (z : Size) (eip : Word) (cs : Half) (fl : Word) (d : Desc) : KeepsAll (iretOuter z eip cs fl d) := by
  unfold iretOuter
  repeat' first
    | with_reducible refine keeps_bind ?_ fun _ => ?_
    | with_reducible refine keeps_ite ?_ ?_
    | (simp; done)
    | exact keeps_plain _ fun _ => ⟨rfl, rfl, rfl, rfl, rfl, rfl, rfl, rfl, rfl⟩
    | exact keeps_loadFlags _ _
    | split

@[simp] theorem keeps_iretProtCs (z : Size) (eip : Word) (cs : Half) (fl : Word) : KeepsAll (iretProtCs z eip cs fl) := by
  unfold iretProtCs
  repeat' first
    | with_reducible refine keeps_bind ?_ fun _ => ?_
    | with_reducible refine keeps_ite ?_ ?_
    | (simp; done)
    | exact keeps_plain _ fun _ => ⟨rfl, rfl, rfl, rfl, rfl, rfl, rfl, rfl, rfl⟩
    | exact keeps_loadFlags _ _
    | split

@[simp] theorem keeps_iretProt (z : Size) : KeepsAll (iretProt z) := by
  unfold iretProt
  repeat' first
    | with_reducible refine keeps_bind ?_ fun _ => ?_
    | with_reducible refine keeps_ite ?_ ?_
    | (simp; done)
    | exact keeps_plain _ fun _ => ⟨rfl, rfl, rfl, rfl, rfl, rfl, rfl, rfl, rfl⟩
    | exact keeps_loadFlags _ _
    | split

@[simp] theorem keeps_interruptReturn (z : Size) : KeepsAll (interruptReturn z) := by
  unfold interruptReturn
  repeat' first
    | with_reducible refine keeps_bind ?_ fun _ => ?_
    | with_reducible refine keeps_ite ?_ ?_
    | (simp; done)
    | exact keeps_plain _ fun _ => ⟨rfl, rfl, rfl, rfl, rfl, rfl, rfl, rfl, rfl⟩
    | exact keeps_loadFlags _ _
    | split

end Sys2Proof.Machine
end

