-- ==== Sys2Proof/Laws/Exec.lean ====
section
/-! SUPPORT. What every instruction keeps, through the rollback and the dispatch of the faults it raises. -/

namespace Sys2Proof.Machine

/-- A relation to every next state of an outcome. -/
def OutRel (R : State → State → Prop) (s : State) (o : Host.Outcome State Fault Refusal) : Prop :=
  ∀ t, o = .next t → R s t

theorem Keeps.latch (s : State) : Keeps s s.latch :=
  ⟨fun i => ⟨i.mem, i.tlb, i.flags, i.paging, i.map⟩, rfl, rfl, rfl, rfl, rfl⟩

theorem Keeps.endBlock (s : State) : Keeps s s.endBlock :=
  ⟨fun i => ⟨i.mem, i.tlb, i.flags, i.paging, i.map⟩, rfl, rfl, rfl, rfl, rfl⟩

theorem Keeps.shutDown (s : State) : Keeps s s.shutDown :=
  ⟨fun i => ⟨i.mem, i.tlb, i.flags, i.paging, i.map⟩, rfl, rfl, rfl, rfl, rfl⟩

theorem Keeps.rollback {s t : State} (h : Keeps s t) : Keeps s (rollback s t) :=
  ⟨fun i => ⟨(h.inv i).mem, (h.inv i).tlb, i.flags, i.paging, (h.inv i).map⟩, rfl, rfl, rfl, h.halted, h.events⟩

theorem Keeps.afterFault {s t : State} (h : Keeps s t) (ret : Word) (past : Bool) :
    Keeps s (afterFault s t ret past).1 := by
  cases past
  · exact h.rollback
  · exact h

theorem dispatchDouble_keeps (ret : Word) (s : State) : OutRel Keeps s (dispatchDouble ret s) := by
  intro t h
  have d := keeps_dispatch 8 .fault (some 0) ret s.latch
  have l := Keeps.latch s
  unfold dispatchDouble at h
  split at h
  · rename_i e
    rw [e] at d
    cases h
    exact kp.trans _ _ _ l (kp.trans _ _ _ d (Keeps.endBlock _))
  · cases h
  · rename_i e
    rw [e] at d
    cases h
    exact kp.trans _ _ _ l (kp.trans _ _ _ (Keeps.afterFault d _ _) (Keeps.shutDown _))

theorem dispatchFault_keeps (n : Nat) (f : GuestFault) (ret : Word) (s : State) :
    OutRel Keeps s (dispatchFault n f ret s) := by
  induction n generalizing f ret s with
  | zero =>
    intro t h
    have d := keeps_dispatch f.kind.vector .fault f.code ret s.latch
    have l := Keeps.latch s
    unfold dispatchFault at h
    split at h
    · rename_i e
      rw [e] at d
      cases h
      exact kp.trans _ _ _ l (kp.trans _ _ _ d (Keeps.endBlock _))
    · cases h
    · rename_i e
      rw [e] at d
      have a := kp.trans _ _ _ l (Keeps.afterFault d ret ‹_›)
      simp only at h
      split at h
      · exact kp.trans _ _ _ a (dispatchDouble_keeps _ _ _ h)
      · cases h
        exact kp.trans _ _ _ a (Keeps.shutDown _)
  | succ n ih =>
    intro t h
    have d := keeps_dispatch f.kind.vector .fault f.code ret s.latch
    have l := Keeps.latch s
    unfold dispatchFault at h
    split at h
    · rename_i e
      rw [e] at d
      cases h
      exact kp.trans _ _ _ l (kp.trans _ _ _ d (Keeps.endBlock _))
    · cases h
    · rename_i e
      rw [e] at d
      have a := kp.trans _ _ _ l (Keeps.afterFault d ret ‹_›)
      simp only at h
      split at h
      · exact kp.trans _ _ _ a (dispatchDouble_keeps _ _ _ h)
      · exact kp.trans _ _ _ a (ih _ _ _ _ h)

theorem dispatchExternal_keeps (v : Byte) (s : State) : OutRel Keeps s (dispatchExternal v s) := by
  intro t h
  have d := keeps_dispatch v.toNat .external none s.eip s.latch
  have l := Keeps.latch s
  unfold dispatchExternal at h
  split at h
  · rename_i e
    rw [e] at d
    cases h
    exact kp.trans _ _ _ l d
  · cases h
  · rename_i e
    rw [e] at d
    have a := kp.trans _ _ _ l (Keeps.afterFault d s.eip ‹_›)
    exact kp.trans _ _ _ a (dispatchFault_keeps _ _ _ _ _ h)

/-- An instruction's own effect `R` and the entry its fault makes. -/
theorem settle_keeps {s : State} {r : EStateM.Result Stop State Unit} (h : Keeps s (after r)) :
    OutRel Keeps s (settle s r) := by
  intro t e
  unfold settle at e
  split at e
  · cases e
    exact h
  · cases e
  · exact kp.trans _ _ _ (Keeps.afterFault h _ _) (dispatchFault_keeps _ _ _ _ _ e)

theorem run_keeps {op : Op Unit} (h : KeepsAll op) (s : State) : OutRel Keeps s (run op s) := settle_keeps (h s)

/-- A fault leaves no effect of the instruction behind but on memory; what it dispatches keeps the rest. -/
theorem run_next {op : Op Unit} {s t : State} (h : run op s = .next t) :
    op.run s = .ok () t ∨ (∃ e u, op.run s = .error e u ∧ settle s (.error e u) = .next t) := by
  unfold run at h
  cases e : op.run s with
  | ok a u =>
    rw [e] at h
    unfold settle at h
    cases h
    exact .inl rfl
  | error e' u =>
    rw [e] at h
    exact .inr ⟨e', u, rfl, h⟩

/-! ### The shared parts of the instructions -/

theorem keeps_modifyRM {w : Width} {rm : RM} {f : Word → Op (Option Word)} (h : ∀ a, KeepsAll (f a)) :
    KeepsAll (modifyRM w rm f) := by
  unfold modifyRM
  refine keeps_bind (keeps_readDst w rm) fun a => keeps_bind (h a) fun r => ?_
  split
  · exact keeps_bind (keeps_writeDst _ _ _) fun _ => keeps_pure _
  · exact keeps_pure _

theorem keeps_storing {f : Word → Op Word} (h : ∀ a, KeepsAll (f a)) (a : Word) : KeepsAll (storing f a) :=
  keeps_bind (h a) fun _ => keeps_pure _

theorem keeps_aluStore {g : BinOp} (h : ∀ w a b, KeepsAll (g w a b)) (f : AluForm) : KeepsAll (aluStore g f) :=
  keeps_bind (keeps_AluForm_src f) fun _ =>
    keeps_bind (keeps_modifyRM fun _ => keeps_storing (fun _ => h _ _ _) _) fun _ => keeps_advance

theorem keeps_aluCompare {g : BinOp} (h : ∀ w a b, KeepsAll (g w a b)) (f : AluForm) : KeepsAll (aluCompare g f) :=
  keeps_bind (keeps_AluForm_src f) fun _ => keeps_bind (keeps_readRM _ _) fun _ => keeps_bind (h _ _ _) fun _ =>
    keeps_advance

theorem keeps_unaryStore {w : Width} {rm : RM} {g : Word → Op Word} (h : ∀ a, KeepsAll (g a)) :
    KeepsAll (unaryStore w rm g) :=
  keeps_bind (keeps_modifyRM fun _ => keeps_storing h _) fun _ => keeps_advance

theorem keeps_keepingCarry {x : Op Word} (h : KeepsAll x) : KeepsAll (keepingCarry x) :=
  keeps_bind keeps_get fun _ => keeps_bind h fun _ => keeps_bind (keeps_putFlagOp _ _) fun _ => keeps_pure _

theorem keeps_shiftStore {w : Width} {rm : RM} {c : Count} {f : Nat → Word → Op Word} (h : ∀ n a, KeepsAll (f n a)) :
    KeepsAll (shiftStore w rm c f) :=
  keeps_bind keeps_get fun _ => keeps_bind
    (keeps_modifyRM fun _ => keeps_ite (keeps_pure _) (keeps_storing (fun _ => h _ _) _)) fun _ => keeps_advance

@[simp] theorem keeps_addOp (w : Width) (a b : Word) : KeepsAll (addOp w a b) := by
  unfold addOp
  repeat' first
    | with_reducible refine keeps_bind ?_ fun _ => ?_
    | with_reducible refine keeps_ite ?_ ?_
    | (simp; done)
    | exact keeps_plain _ fun _ => ⟨rfl, rfl, rfl, rfl, rfl, rfl, rfl, rfl, rfl⟩
    | exact keeps_loadFlags _ _
    | split

@[simp] theorem keeps_adcOp (w : Width) (a b : Word) : KeepsAll (adcOp w a b) := by
  unfold adcOp
  repeat' first
    | with_reducible refine keeps_bind ?_ fun _ => ?_
    | with_reducible refine keeps_ite ?_ ?_
    | (simp; done)
    | exact keeps_plain _ fun _ => ⟨rfl, rfl, rfl, rfl, rfl, rfl, rfl, rfl, rfl⟩
    | exact keeps_loadFlags _ _
    | split

@[simp] theorem keeps_subOp (w : Width) (a b : Word) : KeepsAll (subOp w a b) := by
  unfold subOp
  repeat' first
    | with_reducible refine keeps_bind ?_ fun _ => ?_
    | with_reducible refine keeps_ite ?_ ?_
    | (simp; done)
    | exact keeps_plain _ fun _ => ⟨rfl, rfl, rfl, rfl, rfl, rfl, rfl, rfl, rfl⟩
    | exact keeps_loadFlags _ _
    | split

@[simp] theorem keeps_sbbOp (w : Width) (a b : Word) : KeepsAll (sbbOp w a b) := by
  unfold sbbOp
  repeat' first
    | with_reducible refine keeps_bind ?_ fun _ => ?_
    | with_reducible refine keeps_ite ?_ ?_
    | (simp; done)
    | exact keeps_plain _ fun _ => ⟨rfl, rfl, rfl, rfl, rfl, rfl, rfl, rfl, rfl⟩
    | exact keeps_loadFlags _ _
    | split

@[simp] theorem keeps_logicOp (w : Width) (r : Word) : KeepsAll (logicOp w r) := by
  unfold logicOp
  repeat' first
    | with_reducible refine keeps_bind ?_ fun _ => ?_
    | with_reducible refine keeps_ite ?_ ?_
    | (simp; done)
    | exact keeps_plain _ fun _ => ⟨rfl, rfl, rfl, rfl, rfl, rfl, rfl, rfl, rfl⟩
    | exact keeps_loadFlags _ _
    | split

@[simp] theorem keeps_mulFlags (b : Bool) : KeepsAll (mulFlags b) := by
  unfold mulFlags
  repeat' first
    | with_reducible refine keeps_bind ?_ fun _ => ?_
    | with_reducible refine keeps_ite ?_ ?_
    | (simp; done)
    | exact keeps_plain _ fun _ => ⟨rfl, rfl, rfl, rfl, rfl, rfl, rfl, rfl, rfl⟩
    | exact keeps_loadFlags _ _
    | split

@[simp] theorem keeps_drawStatus : KeepsAll drawStatus := by
  unfold drawStatus
  repeat' first
    | with_reducible refine keeps_bind ?_ fun _ => ?_
    | with_reducible refine keeps_ite ?_ ?_
    | (simp; done)
    | exact keeps_plain _ fun _ => ⟨rfl, rfl, rfl, rfl, rfl, rfl, rfl, rfl, rfl⟩
    | exact keeps_loadFlags _ _
    | split

@[simp] theorem keeps_setQuotient (w : Width) (q r : Word) : KeepsAll (modify (·.setQuotient w q r) : Op Unit) := fun _ => by
  cases w <;> exact ⟨fun i => ⟨i.mem, i.tlb, i.flags, i.paging, i.map⟩, rfl, rfl, rfl, rfl, rfl⟩

@[simp] theorem keeps_setProduct (w : Width) (p : Nat) : KeepsAll (modify (·.setProduct w p) : Op Unit) := fun _ => by
  cases w <;> exact ⟨fun i => ⟨i.mem, i.tlb, i.flags, i.paging, i.map⟩, rfl, rfl, rfl, rfl, rfl⟩

@[simp] theorem keeps_finishDivide (w : Width) (x : Option (Word × Word)) : KeepsAll (finishDivide w x) := by
  unfold finishDivide
  repeat' first
    | with_reducible refine keeps_bind ?_ fun _ => ?_
    | with_reducible refine keeps_ite ?_ ?_
    | (simp; done)
    | exact keeps_plain _ fun _ => ⟨rfl, rfl, rfl, rfl, rfl, rfl, rfl, rfl, rfl⟩
    | exact keeps_loadFlags _ _
    | split

@[simp] theorem keeps_imulStore (w : Width) (r : Reg) (a b : Word) : KeepsAll (imulStore w r a b) := by
  unfold imulStore
  repeat' first
    | with_reducible refine keeps_bind ?_ fun _ => ?_
    | with_reducible refine keeps_ite ?_ ?_
    | (simp; done)
    | exact keeps_plain _ fun _ => ⟨rfl, rfl, rfl, rfl, rfl, rfl, rfl, rfl, rfl⟩
    | exact keeps_loadFlags _ _
    | split

@[simp] theorem keeps_rotateFlags (o : ShiftOut) : KeepsAll (rotateFlags o) := by
  unfold rotateFlags
  repeat' first
    | with_reducible refine keeps_bind ?_ fun _ => ?_
    | with_reducible refine keeps_ite ?_ ?_
    | (simp; done)
    | exact keeps_plain _ fun _ => ⟨rfl, rfl, rfl, rfl, rfl, rfl, rfl, rfl, rfl⟩
    | exact keeps_loadFlags _ _
    | split

@[simp] theorem keeps_shiftFlags (w : Width) (o : ShiftOut) : KeepsAll (shiftFlags w o) := by
  unfold shiftFlags
  repeat' first
    | with_reducible refine keeps_bind ?_ fun _ => ?_
    | with_reducible refine keeps_ite ?_ ?_
    | (simp; done)
    | exact keeps_plain _ fun _ => ⟨rfl, rfl, rfl, rfl, rfl, rfl, rfl, rfl, rfl⟩
    | exact keeps_loadFlags _ _
    | split

@[simp] theorem keeps_shlOp (w : Width) (n : Nat) (a : Word) : KeepsAll (shlOp w n a) := by
  unfold shlOp
  repeat' first
    | with_reducible refine keeps_bind ?_ fun _ => ?_
    | with_reducible refine keeps_ite ?_ ?_
    | (simp; done)
    | exact keeps_plain _ fun _ => ⟨rfl, rfl, rfl, rfl, rfl, rfl, rfl, rfl, rfl⟩
    | exact keeps_loadFlags _ _
    | split

theorem State.applyEvent_keeps (s : State) (e : PlatformEvent) (h : insidePort e = true) :
    Keeps s (s.applyEvent e) := by
  cases e with
  | requests v => exact ⟨fun i => ⟨i.mem, i.tlb, i.flags, i.paging, i.map⟩, rfl, rfl, rfl, rfl, rfl⟩
  | setA20 b => exact ⟨fun i => ⟨i.mem, i.tlb, i.flags, i.paging, i.map⟩, rfl, rfl, rfl, rfl, rfl⟩
  | memWrite a v => 
    exact AccessRel.keeps ⟨s.memWriteByte_only _ _, State.inv_of_mem (s.memWriteByte_only _ _)
      (s.memWriteByte_keeps _ _) (s.memWriteByte_tlb _ _), ⟨[], (s.memWriteByte_ioEvents _ _).symm ▸ rfl⟩⟩
  | tlbDrop p =>
    exact ⟨fun i => ⟨i.mem, ⟨Assoc.rising_erase _ _ i.tlb.1, fun c hc => i.tlb.2 c (Assoc.mem_erase _ _ _ hc)⟩,
      i.flags, i.paging, i.map⟩, rfl, rfl, rfl, rfl, rfl⟩
  | reset => cases h

theorem State.foldl_events_keeps (l : List PlatformEvent) (s : State) (h : ∀ e ∈ l, insidePort e = true) :
    Keeps s (l.foldl State.applyEvent s) := by
  induction l generalizing s with
  | nil => exact kp.refl s
  | cons e l ih =>
    exact kp.trans _ _ _ (s.applyEvent_keeps e (h e List.mem_cons_self))
      (ih _ fun x hx => h x (List.mem_cons_of_mem _ hx))

theorem DeviceCall.insidePort_of_admits {c : DeviceCall} {e : PlatformEvent} (h : c.admits e = true) :
    insidePort e = true := by
  cases c <;> cases e <;> first | rfl | exact h

theorem State.deviceCall_keeps (s : State) (c : DeviceCall) : Keeps s (s.deviceCall c) := by
  unfold State.deviceCall
  simp only
  split
  · exact ⟨fun i => ⟨i.mem, i.tlb, i.flags, i.paging, i.map⟩, rfl, rfl, rfl, rfl, rfl⟩
  · rename_i batch rest _
    have h : Keeps s { s with calls := c :: s.calls, ioEvents := rest } :=
      ⟨fun i => ⟨i.mem, i.tlb, i.flags, i.paging, i.map⟩, rfl, rfl, rfl, rfl, rfl⟩
    exact kp.trans _ _ _ h (State.foldl_events_keeps _ _ fun e he =>
      DeviceCall.insidePort_of_admits (List.mem_filter.mp he).2)

@[simp] theorem keeps_deviceCall (c : DeviceCall) : KeepsAll (modify (·.deviceCall c) : Op Unit) := fun s =>
  State.deviceCall_keeps s c

@[simp] theorem keeps_requirePort (p : Half) : KeepsAll (requirePort p) := by
  unfold requirePort
  repeat' first
    | with_reducible refine keeps_bind ?_ fun _ => ?_
    | with_reducible refine keeps_ite ?_ ?_
    | (simp; done)
    | exact keeps_plain _ fun _ => ⟨rfl, rfl, rfl, rfl, rfl, rfl, rfl, rfl, rfl⟩
    | exact keeps_loadFlags _ _
    | split

@[simp] theorem keeps_ioRead8 (p : Half) : KeepsAll (ioRead8 p) := by
  unfold ioRead8
  repeat' first
    | with_reducible refine keeps_bind ?_ fun _ => ?_
    | with_reducible refine keeps_ite ?_ ?_
    | (simp; done)
    | exact keeps_plain _ fun _ => ⟨rfl, rfl, rfl, rfl, rfl, rfl, rfl, rfl, rfl⟩
    | exact keeps_loadFlags _ _
    | split

@[simp] theorem keeps_ioWrite8 (p : Half) (v : Byte) : KeepsAll (ioWrite8 p v) := by
  unfold ioWrite8
  repeat' first
    | with_reducible refine keeps_bind ?_ fun _ => ?_
    | with_reducible refine keeps_ite ?_ ?_
    | (simp; done)
    | exact keeps_plain _ fun _ => ⟨rfl, rfl, rfl, rfl, rfl, rfl, rfl, rfl, rfl⟩
    | exact keeps_loadFlags _ _
    | split

@[simp] theorem keeps_inPort (p : Half) : KeepsAll (inPort p) := by
  unfold inPort
  repeat' first
    | with_reducible refine keeps_bind ?_ fun _ => ?_
    | with_reducible refine keeps_ite ?_ ?_
    | (simp; done)
    | exact keeps_plain _ fun _ => ⟨rfl, rfl, rfl, rfl, rfl, rfl, rfl, rfl, rfl⟩
    | exact keeps_loadFlags _ _
    | split

@[simp] theorem keeps_outPort (p : Half) : KeepsAll (outPort p) := by
  unfold outPort
  repeat' first
    | with_reducible refine keeps_bind ?_ fun _ => ?_
    | with_reducible refine keeps_ite ?_ ?_
    | (simp; done)
    | exact keeps_plain _ fun _ => ⟨rfl, rfl, rfl, rfl, rfl, rfl, rfl, rfl, rfl⟩
    | exact keeps_loadFlags _ _
    | split

@[simp] theorem keeps_dxPort : KeepsAll dxPort := by
  unfold dxPort
  repeat' first
    | with_reducible refine keeps_bind ?_ fun _ => ?_
    | with_reducible refine keeps_ite ?_ ?_
    | (simp; done)
    | exact keeps_plain _ fun _ => ⟨rfl, rfl, rfl, rfl, rfl, rfl, rfl, rfl, rfl⟩
    | exact keeps_loadFlags _ _
    | split

@[simp] theorem keeps_moveIndex (asz : Size) (w : Width) (r : Reg) : KeepsAll (moveIndex asz w r) := by
  unfold moveIndex
  repeat' first
    | with_reducible refine keeps_bind ?_ fun _ => ?_
    | with_reducible refine keeps_ite ?_ ?_
    | (simp; done)
    | exact keeps_plain _ fun _ => ⟨rfl, rfl, rfl, rfl, rfl, rfl, rfl, rfl, rfl⟩
    | exact keeps_loadFlags _ _
    | split

@[simp] theorem keeps_sourceElement (asz : Size) (w : Width) (g : Seg) : KeepsAll (sourceElement asz w g) := by
  unfold sourceElement
  repeat' first
    | with_reducible refine keeps_bind ?_ fun _ => ?_
    | with_reducible refine keeps_ite ?_ ?_
    | (simp; done)
    | exact keeps_plain _ fun _ => ⟨rfl, rfl, rfl, rfl, rfl, rfl, rfl, rfl, rfl⟩
    | exact keeps_loadFlags _ _
    | split

@[simp] theorem keeps_destElement (asz : Size) (w : Width) : KeepsAll (destElement asz w) := by
  unfold destElement
  repeat' first
    | with_reducible refine keeps_bind ?_ fun _ => ?_
    | with_reducible refine keeps_ite ?_ ?_
    | (simp; done)
    | exact keeps_plain _ fun _ => ⟨rfl, rfl, rfl, rfl, rfl, rfl, rfl, rfl, rfl⟩
    | exact keeps_loadFlags _ _
    | split

@[simp] theorem keeps_storeElement (asz : Size) (w : Width) (v : Word) : KeepsAll (storeElement asz w v) := by
  unfold storeElement
  repeat' first
    | with_reducible refine keeps_bind ?_ fun _ => ?_
    | with_reducible refine keeps_ite ?_ ?_
    | (simp; done)
    | exact keeps_plain _ fun _ => ⟨rfl, rfl, rfl, rfl, rfl, rfl, rfl, rfl, rfl⟩
    | exact keeps_loadFlags _ _
    | split

@[simp] theorem keeps_movsBody (w : Width) (asz : Size) (g : Seg) : KeepsAll (movsBody w asz g) := by
  unfold movsBody
  repeat' first
    | with_reducible refine keeps_bind ?_ fun _ => ?_
    | with_reducible refine keeps_ite ?_ ?_
    | (simp; done)
    | exact keeps_plain _ fun _ => ⟨rfl, rfl, rfl, rfl, rfl, rfl, rfl, rfl, rfl⟩
    | exact keeps_loadFlags _ _
    | split

@[simp] theorem keeps_cmpsBody (w : Width) (asz : Size) (g : Seg) : KeepsAll (cmpsBody w asz g) := by
  unfold cmpsBody
  repeat' first
    | with_reducible refine keeps_bind ?_ fun _ => ?_
    | with_reducible refine keeps_ite ?_ ?_
    | (simp; done)
    | exact keeps_plain _ fun _ => ⟨rfl, rfl, rfl, rfl, rfl, rfl, rfl, rfl, rfl⟩
    | exact keeps_loadFlags _ _
    | split

@[simp] theorem keeps_stosBody (w : Width) (asz : Size) : KeepsAll (stosBody w asz) := by
  unfold stosBody
  repeat' first
    | with_reducible refine keeps_bind ?_ fun _ => ?_
    | with_reducible refine keeps_ite ?_ ?_
    | (simp; done)
    | exact keeps_plain _ fun _ => ⟨rfl, rfl, rfl, rfl, rfl, rfl, rfl, rfl, rfl⟩
    | exact keeps_loadFlags _ _
    | split

@[simp] theorem keeps_lodsBody (w : Width) (asz : Size) (g : Seg) : KeepsAll (lodsBody w asz g) := by
  unfold lodsBody
  repeat' first
    | with_reducible refine keeps_bind ?_ fun _ => ?_
    | with_reducible refine keeps_ite ?_ ?_
    | (simp; done)
    | exact keeps_plain _ fun _ => ⟨rfl, rfl, rfl, rfl, rfl, rfl, rfl, rfl, rfl⟩
    | exact keeps_loadFlags _ _
    | split

@[simp] theorem keeps_scasBody (w : Width) (asz : Size) : KeepsAll (scasBody w asz) := by
  unfold scasBody
  repeat' first
    | with_reducible refine keeps_bind ?_ fun _ => ?_
    | with_reducible refine keeps_ite ?_ ?_
    | (simp; done)
    | exact keeps_plain _ fun _ => ⟨rfl, rfl, rfl, rfl, rfl, rfl, rfl, rfl, rfl⟩
    | exact keeps_loadFlags _ _
    | split

theorem repLoop_keeps {rep : Rep} {z : Bool} {asz : Size} {body : Op Unit} (h : KeepsAll body) (n : Nat) (s : State) :
    OutRel Keeps s (repLoop rep z asz body n s) := by
  have dec : ∀ t : State, Keeps t (t.decCount asz) := fun _ =>
    ⟨fun i => ⟨i.mem, i.tlb, i.flags, i.paging, i.map⟩, rfl, rfl, rfl, rfl, rfl⟩
  have adv : ∀ t : State, Keeps t t.advance := fun _ =>
    ⟨fun i => ⟨i.mem, i.tlb, i.flags, i.paging, i.map⟩, rfl, rfl, rfl, rfl, rfl⟩
  have res : ∀ t : State, Keeps t t.resumeHere := fun _ =>
    ⟨fun i => ⟨i.mem, i.tlb, i.flags, i.paging, i.map⟩, rfl, rfl, rfl, rfl, rfl⟩
  have start : ∀ t : State, Keeps t { t with inBlock := true } := fun _ =>
    ⟨fun i => ⟨i.mem, i.tlb, i.flags, i.paging, i.map⟩, rfl, rfl, rfl, rfl, rfl⟩
  have still : ∀ t t0 : State, Keeps t (t.stillIn t0) := fun _ _ =>
    ⟨fun i => ⟨i.mem, i.tlb, i.flags, i.paging, i.map⟩, rfl, rfl, rfl, rfl, rfl⟩
  induction n generalizing s with
  | zero =>
    intro t e
    cases e
    exact adv s
  | succ n ih =>
    intro t e
    unfold repLoop at e
    have b := kp.trans _ _ _ (start s) (h { s with inBlock := true })
    split at e
    · rename_i h1
      rw [h1] at b
      have b2 := kp.trans _ _ _ b (kp.trans _ _ _ (dec _) (still _ s))
      simp only at e
      split at e
      · cases e
        exact kp.trans _ _ _ b2 (adv _)
      · split at e
        · cases e
          exact kp.trans _ _ _ b2 (adv _)
        · split at e
          · cases e
            exact kp.trans _ _ _ b2 (res _)
          · split at e
            · cases e
              exact kp.trans _ _ _ b2 (res _)
            · exact kp.trans _ _ _ b2 (ih _ _ e)
    · rename_i h1
      rw [h1] at b
      exact settle_keeps b _ e

theorem stringRun_keeps {rep : Rep} {z : Bool} {asz : Size} {body : Op Unit} (h : KeepsAll body) (s : State) :
    OutRel Keeps s (stringRun rep z asz body s) := by
  cases rep with
  | none => exact run_keeps (keeps_bind h fun _ => keeps_advance) s
  | repe => exact repLoop_keeps h _ s
  | repne => exact repLoop_keeps h _ s

@[simp] theorem keeps_jumpRel (z : Size) (d : Word) : KeepsAll (jumpRel z d) := by
  unfold jumpRel
  repeat' first
    | with_reducible refine keeps_bind ?_ fun _ => ?_
    | with_reducible refine keeps_ite ?_ ?_
    | (simp; done)
    | exact keeps_plain _ fun _ => ⟨rfl, rfl, rfl, rfl, rfl, rfl, rfl, rfl, rfl⟩
    | exact keeps_loadFlags _ _
    | split

@[simp] theorem keeps_branch (b : Bool) (z : Size) (d : Word) : KeepsAll (branch b z d) := by
  unfold branch
  repeat' first
    | with_reducible refine keeps_bind ?_ fun _ => ?_
    | with_reducible refine keeps_ite ?_ ?_
    | (simp; done)
    | exact keeps_plain _ fun _ => ⟨rfl, rfl, rfl, rfl, rfl, rfl, rfl, rfl, rfl⟩
    | exact keeps_loadFlags _ _
    | split

@[simp] theorem keeps_loopStep (z asz : Size) (cb : Byte) (f : Bool → Bool) : KeepsAll (loopStep z asz cb f) := by
  unfold loopStep
  repeat' first
    | with_reducible refine keeps_bind ?_ fun _ => ?_
    | with_reducible refine keeps_ite ?_ ?_
    | (simp; done)
    | exact keeps_plain _ fun _ => ⟨rfl, rfl, rfl, rfl, rfl, rfl, rfl, rfl, rfl⟩
    | exact keeps_loadFlags _ _
    | split

@[simp] theorem keeps_pushReturn (z : Size) : KeepsAll (pushReturn z) := by
  unfold pushReturn
  repeat' first
    | with_reducible refine keeps_bind ?_ fun _ => ?_
    | with_reducible refine keeps_ite ?_ ?_
    | (simp; done)
    | exact keeps_plain _ fun _ => ⟨rfl, rfl, rfl, rfl, rfl, rfl, rfl, rfl, rfl⟩
    | exact keeps_loadFlags _ _
    | split

@[simp] theorem keeps_nearReturn (z : Size) (iw : Half) : KeepsAll (nearReturn z iw) := by
  unfold nearReturn
  repeat' first
    | with_reducible refine keeps_bind ?_ fun _ => ?_
    | with_reducible refine keeps_ite ?_ ?_
    | (simp; done)
    | exact keeps_plain _ fun _ => ⟨rfl, rfl, rfl, rfl, rfl, rfl, rfl, rfl, rfl⟩
    | exact keeps_loadFlags _ _
    | split

@[simp] theorem keeps_softInt (v : Nat) : KeepsAll (softInt v) := by
  unfold softInt
  repeat' first
    | with_reducible refine keeps_bind ?_ fun _ => ?_
    | with_reducible refine keeps_ite ?_ ?_
    | (simp; done)
    | exact keeps_plain _ fun _ => ⟨rfl, rfl, rfl, rfl, rfl, rfl, rfl, rfl, rfl⟩
    | exact keeps_loadFlags _ _
    | split

@[simp] theorem keeps_flagStore (f : Flag) (v : Bool) : KeepsAll (flagStore f v) := by
  unfold flagStore
  repeat' first
    | with_reducible refine keeps_bind ?_ fun _ => ?_
    | with_reducible refine keeps_ite ?_ ?_
    | (simp; done)
    | exact keeps_plain _ fun _ => ⟨rfl, rfl, rfl, rfl, rfl, rfl, rfl, rfl, rfl⟩
    | exact keeps_loadFlags _ _
    | split

@[simp] theorem keeps_readTableReg (z : Size) (m : MemRef) : KeepsAll (readTableReg z m) := by
  unfold readTableReg
  repeat' first
    | with_reducible refine keeps_bind ?_ fun _ => ?_
    | with_reducible refine keeps_ite ?_ ?_
    | (simp; done)
    | exact keeps_plain _ fun _ => ⟨rfl, rfl, rfl, rfl, rfl, rfl, rfl, rfl, rfl⟩
    | exact keeps_loadFlags _ _
    | split

@[simp] theorem keeps_storedBase (z : Size) (b : Word) : KeepsAll (storedBase z b) := by
  unfold storedBase
  repeat' first
    | with_reducible refine keeps_bind ?_ fun _ => ?_
    | with_reducible refine keeps_ite ?_ ?_
    | (simp; done)
    | exact keeps_plain _ fun _ => ⟨rfl, rfl, rfl, rfl, rfl, rfl, rfl, rfl, rfl⟩
    | exact keeps_loadFlags _ _
    | split

@[simp] theorem keeps_writeTableReg (z : Size) (m : MemRef) (x : TableReg) : KeepsAll (writeTableReg z m x) := by
  unfold writeTableReg
  repeat' first
    | with_reducible refine keeps_bind ?_ fun _ => ?_
    | with_reducible refine keeps_ite ?_ ?_
    | (simp; done)
    | exact keeps_plain _ fun _ => ⟨rfl, rfl, rfl, rfl, rfl, rfl, rfl, rfl, rfl⟩
    | exact keeps_loadFlags _ _
    | split

@[simp] theorem keeps_requireProtected : KeepsAll requireProtected := by
  unfold requireProtected
  repeat' first
    | with_reducible refine keeps_bind ?_ fun _ => ?_
    | with_reducible refine keeps_ite ?_ ?_
    | (simp; done)
    | exact keeps_plain _ fun _ => ⟨rfl, rfl, rfl, rfl, rfl, rfl, rfl, rfl, rfl⟩
    | exact keeps_loadFlags _ _
    | split

@[simp] theorem keeps_requireCpl0 : KeepsAll requireCpl0 := by
  unfold requireCpl0
  repeat' first
    | with_reducible refine keeps_bind ?_ fun _ => ?_
    | with_reducible refine keeps_ite ?_ ?_
    | (simp; done)
    | exact keeps_plain _ fun _ => ⟨rfl, rfl, rfl, rfl, rfl, rfl, rfl, rfl, rfl⟩
    | exact keeps_loadFlags _ _
    | split

@[simp] theorem keeps_loadLdtr (sel : Half) : KeepsAll (loadLdtr sel) := by
  unfold loadLdtr
  repeat' first
    | with_reducible refine keeps_bind ?_ fun _ => ?_
    | with_reducible refine keeps_ite ?_ ?_
    | (simp; done)
    | exact keeps_plain _ fun _ => ⟨rfl, rfl, rfl, rfl, rfl, rfl, rfl, rfl, rfl⟩
    | exact keeps_loadFlags _ _
    | split

@[simp] theorem keeps_loadTr (sel : Half) : KeepsAll (loadTr sel) := by
  unfold loadTr
  repeat' first
    | with_reducible refine keeps_bind ?_ fun _ => ?_
    | with_reducible refine keeps_ite ?_ ?_
    | (simp; done)
    | exact keeps_plain _ fun _ => ⟨rfl, rfl, rfl, rfl, rfl, rfl, rfl, rfl, rfl⟩
    | exact keeps_loadFlags _ _
    | split

@[simp] theorem keeps_flushPage (f : State → Word) : KeepsAll (modify fun s => s.flushPage (f s) : Op Unit) :=
  fun _ => ⟨fun i => ⟨i.mem, ⟨Assoc.rising_erase _ _ i.tlb.1, fun c hc => i.tlb.2 c (Assoc.mem_erase _ _ _ hc)⟩,
    i.flags, i.paging, i.map⟩, rfl, rfl, rfl, rfl, rfl⟩

/-! ### The instructions -/

/-- The instructions that write CR0, a descriptor-table register, or the halt state. -/
def writesSystem : Instr → Bool
  | .movToCr _ _ => true
  | .lgdt _ _ => true
  | .lidt _ _ => true
  | .hlt => true
  | _ => false

/-- Every other instruction keeps them, and the form of the state, whatever fault it takes. -/
theorem exec_keeps (i : Instr) (s : State) (h : writesSystem i = false) : OutRel Keeps s (exec i s) := by
  cases i <;> first
    | exact Bool.noConfusion h
    | (refine stringRun_keeps ?_ s; simp; done)
    | ((try simp only [exec, execCbw, execClc, execCld, execCmc, execCwd, execJmpNear, execJmpShort,
         execLahf, execMovRegImm, execNop, execSahf, execStc, execStd, execUd, execXchgAcc])
       refine run_keeps ?_ s
       repeat' first
        | with_reducible refine keeps_aluStore (fun _ _ _ => ?_) _
        | with_reducible refine keeps_aluCompare (fun _ _ _ => ?_) _
        | with_reducible refine keeps_unaryStore fun _ => ?_
        | with_reducible refine keeps_shiftStore fun _ _ => ?_
        | with_reducible refine keeps_keepingCarry ?_
        | with_reducible refine keeps_modifyRM fun _ => ?_
        | with_reducible refine keeps_bind ?_ fun _ => ?_
        | with_reducible refine keeps_ite ?_ ?_
        | (simp; done)
        | exact keeps_plain _ fun _ => ⟨rfl, rfl, rfl, rfl, rfl, rfl, rfl, rfl, rfl⟩
        | exact keeps_loadFlags _ _
        | split)
    | exact run_keeps (keeps_bind (keeps_memOperand _) fun _ => keeps_bind keeps_requirePrivilege fun _ =>
        keeps_bind (keeps_flushPage _) fun _ => keeps_bind keeps_advance fun _ => keeps_endBlock) s

end Sys2Proof.Machine
end

