-- ==== Sys2Proof/Laws/Flags.lean ====
section
/-! SUPPORT. Reading a flag word that was written, bit by bit (R25, R26). -/

namespace Sys2Proof.Machine

theorem Flag.mask_bit (g : Flag) (i : Nat) (hi : i < 32) : g.mask.getLsbD i = decide (i = g.bit) := by
  have : ∀ i, i < 32 → g.mask.getLsbD i = decide (i = g.bit) := by cases g <;> decide
  exact this i hi

theorem Flag.capMask_bit (g : Flag) : Config.capMask.getLsbD g.bit = true := by cases g <;> decide

theorem Flag.bit_lt (g : Flag) : g.bit < 32 := by cases g <;> decide

/-- Different flags have different bits (R25). -/
theorem Flag.bit_inj (g h : Flag) (e : g.bit = h.bit) : g = h := by
  cases g <;> cases h <;> first | rfl | exact absurd e (by decide)

/-- `setValue`, bit by bit (R26). -/
theorem setFlags_bit (f v m : Word) (i : Nat) (hi : i < 32) : (setFlags f v m).getLsbD i =
    if m.getLsbD i && Config.capMask.getLsbD i then v.getLsbD i else f.getLsbD i := by
  unfold setFlags setFlagsCap
  simp only [BitVec.getLsbD_and, BitVec.getLsbD_or, BitVec.getLsbD_not, hi, decide_true, Bool.true_and]
  cases m.getLsbD i <;> cases Config.capMask.getLsbD i <;> simp

/-- Writing a flag writes its bit and no other (R26). -/
theorem putFlag_bit (f : Word) (g : Flag) (v : Bool) (i : Nat) (hi : i < 32) :
    (putFlag f g v).getLsbD i = if i = g.bit then v else f.getLsbD i := by
  unfold putFlag
  rw [setFlags_bit _ _ _ _ hi, Flag.mask_bit g i hi]
  by_cases e : i = g.bit
  · subst e
    rw [Flag.capMask_bit]
    cases v
    · simp
    · have := Flag.mask_bit g g.bit hi
      simp [this]
  · simp [e]

@[simp] theorem getFlag_putFlag (f : Word) (g : Flag) (v : Bool) : getFlag (putFlag f g v) g = v := by
  unfold getFlag
  rw [putFlag_bit _ _ _ _ g.bit_lt, if_pos rfl]

theorem getFlag_putFlag_other (f : Word) (g h : Flag) (v : Bool) (e : h ≠ g) :
    getFlag (putFlag f g v) h = getFlag f h := by
  unfold getFlag
  rw [putFlag_bit _ _ _ _ h.bit_lt, if_neg fun c => e (Flag.bit_inj _ _ c)]

/-- The six status flags (R27, R28). -/
def Flag.isStatus : Flag → Bool
  | .cf => true | .pf => true | .af => true | .zf => true | .sf => true | .of => true
  | .tf => false | .if_ => false | .df => false | .nt => false | .rf => false | .vm => false | .ac => false

/-- Writing the status flags, bit by bit. -/
theorem putStatus_bit (f : Word) (t : Status) (i : Nat) (hi : i < 32) : (putStatus f t).getLsbD i =
    if i = 11 then t.of else if i = 7 then t.sf else if i = 6 then t.zf else if i = 4 then t.af
    else if i = 2 then t.pf else if i = 0 then t.cf else f.getLsbD i := by
  unfold putStatus
  simp only [putFlag_bit _ _ _ _ hi, Flag.bit]
  rfl

@[simp] theorem getFlag_putStatus_cf (f : Word) (t : Status) : getFlag (putStatus f t) .cf = t.cf := by
  unfold getFlag; rw [putStatus_bit _ _ _ (by decide)]; rfl
@[simp] theorem getFlag_putStatus_pf (f : Word) (t : Status) : getFlag (putStatus f t) .pf = t.pf := by
  unfold getFlag; rw [putStatus_bit _ _ _ (by decide)]; rfl
@[simp] theorem getFlag_putStatus_af (f : Word) (t : Status) : getFlag (putStatus f t) .af = t.af := by
  unfold getFlag; rw [putStatus_bit _ _ _ (by decide)]; rfl
@[simp] theorem getFlag_putStatus_zf (f : Word) (t : Status) : getFlag (putStatus f t) .zf = t.zf := by
  unfold getFlag; rw [putStatus_bit _ _ _ (by decide)]; rfl
@[simp] theorem getFlag_putStatus_sf (f : Word) (t : Status) : getFlag (putStatus f t) .sf = t.sf := by
  unfold getFlag; rw [putStatus_bit _ _ _ (by decide)]; rfl
@[simp] theorem getFlag_putStatus_of (f : Word) (t : Status) : getFlag (putStatus f t) .of = t.of := by
  unfold getFlag; rw [putStatus_bit _ _ _ (by decide)]; rfl

theorem getFlag_putStatus_other (f : Word) (t : Status) (g : Flag) (h : g.isStatus = false) :
    getFlag (putStatus f t) g = getFlag f g := by
  unfold getFlag
  rw [putStatus_bit _ _ _ g.bit_lt]
  cases g <;> first | exact Bool.noConfusion h | rfl

/-- The I/O privilege level is none of the status flags. -/
theorem iopl_putStatus (f : Word) (t : Status) : iopl (putStatus f t) = iopl f := by
  unfold iopl
  apply BitVec.eq_of_getLsbD_eq
  intro i hi
  simp only [BitVec.getLsbD_extractLsb', hi, decide_true, Bool.true_and]
  rw [putStatus_bit _ _ _ (by omega)]
  simp only [show ¬ 12 + i = 11 by omega, show ¬ 12 + i = 7 by omega, show ¬ 12 + i = 6 by omega,
    show ¬ 12 + i = 4 by omega, show ¬ 12 + i = 2 by omega, show ¬ 12 + i = 0 by omega, if_false]

end Sys2Proof.Machine
end

