-- ==== Sys2Proof/Laws/Operand.lean ====
section
/-! SUPPORT. What the operand operations do when they succeed: access through a segment, r/m operands, the
stack. -/

namespace Sys2Proof.Machine

theorem Effect.accessed {s t : State} {l : Ranges} (h : Effect s t l) (i : s.Inv) : Accessed s t l := by
  obtain ⟨a, b, c, d, -⟩ := h.only.fields
  exact ⟨a, b, c, d, h.system, h.stores i, h.events⟩

theorem run_require_inv {ok : Bool} {k : FaultKind} {c : Word} {s t : State}
    (h : (require ok k c).run s = .ok () t) : ok = true ∧ t = s := by
  cases ok
  · cases h
  · cases h
    exact ⟨rfl, rfl⟩

/-- `SegCheck` changes nothing and has tested validity, rights and limits (R103). -/
theorem segCheck_ok {i : Seg} {off : Word} {n : Nat} {k : AccessKind} {s t : State}
    (h : (segCheck i off n k).run s = .ok () t) :
    t = s ∧ (s.seg i).valid = true ∧ (s.seg i).rightsOk s.protMode k = true ∧ (s.seg i).inLimit off n = true := by
  unfold segCheck at h
  rw [run_bind_ok (run_get s)] at h
  obtain ⟨_, s1, h1, k1⟩ := run_bind_inv h
  obtain ⟨c1, rfl⟩ := run_require_inv h1
  obtain ⟨_, s2, h2, k2⟩ := run_bind_inv k1
  obtain ⟨c2, rfl⟩ := run_require_inv h2
  obtain ⟨c3, rfl⟩ := run_require_inv k2
  exact ⟨rfl, c1, c2, c3⟩

/-- `SegCheck` passes when its three tests do. -/
theorem run_segCheck {i : Seg} {off : Word} {n : Nat} {k : AccessKind} {s : State} (h1 : (s.seg i).valid = true)
    (h2 : (s.seg i).rightsOk s.protMode k = true) (h3 : (s.seg i).inLimit off n = true) :
    (segCheck i off n k).run s = .ok () s := by
  unfold segCheck
  rw [run_bind_ok (run_get s)]
  simp only [h1, h2, h3]
  rfl

theorem segRead_ok {i : Seg} {off v : Word} {w : Width} {s t : State} (h : (segRead i off w).run s = .ok v t) :
    Effect s t [] ∧ (s.Inv → Loaded s t (s.linear i off) w v) := by
  unfold segRead at h
  obtain ⟨_, s1, h1, h2⟩ := run_bind_inv h
  obtain ⟨rfl, -⟩ := segCheck_ok h1
  rw [run_bind_ok (run_get _)] at h2
  exact linRead_effect h2

theorem segReadForWrite_ok {i : Seg} {off v : Word} {w : Width} {s t : State}
    (h : (segReadForWrite i off w).run s = .ok v t) :
    Effect s t [] ∧ (s.Inv → Loaded s t (s.linear i off) w v) := by
  unfold segReadForWrite at h
  obtain ⟨_, s1, h1, h2⟩ := run_bind_inv h
  obtain ⟨rfl, -⟩ := segCheck_ok h1
  rw [run_bind_ok (run_get _)] at h2
  exact linRead_effect h2

theorem segWriteBack_ok {i : Seg} {off v : Word} {w : Width} {s t : State}
    (h : (segWriteBack i off w v).run s = .ok () t) :
    Effect s t [(s.linear i off, w.bytes)] ∧ (s.Inv → Stored s t (s.linear i off) w v) := by
  unfold segWriteBack at h
  rw [run_bind_ok (run_get _)] at h
  exact linWrite_effect h

theorem segWrite_ok {i : Seg} {off v : Word} {w : Width} {s t : State}
    (h : (segWrite i off w v).run s = .ok () t) :
    Effect s t [(s.linear i off, w.bytes)] ∧ (s.Inv → Stored s t (s.linear i off) w v) := by
  unfold segWrite at h
  obtain ⟨_, s1, h1, h2⟩ := run_bind_inv h
  obtain ⟨rfl, -⟩ := segCheck_ok h1
  rw [run_bind_ok (run_get _)] at h2
  exact linWrite_effect h2

/-! ### Values fit their widths -/

theorem fits_and (w : Width) (x : Word) : w.fits (trunc w x) = true := by
  unfold Width.fits trunc mask
  have : (x &&& (match w with | .w8 => 0xFF | .w16 => 0xFFFF | .w32 => 0xFFFFFFFF : Word)).toNat ≤
      (match w with | .w8 => 0xFF | .w16 => 0xFFFF | .w32 => 0xFFFFFFFF : Word).toNat := by
    rw [BitVec.toNat_and]
    exact Nat.and_le_right
  cases w <;> simp [Width.bits] at this ⊢ <;> omega

theorem fits_view (x : Regs) (w : Width) (r : Reg) : w.fits (x.view w r) = true := by
  cases w with
  | w8 =>
    unfold Regs.view
    simp only
    split
    · exact fits_and .w8 _
    · exact fits_and .w8 _
  | w16 => exact fits_and .w16 _
  | w32 => simp [Width.fits, Width.bits, (x.view .w32 r).isLt]

/-- An operand read stores nothing, and its value is the register's view or the bytes held (R177). -/
theorem readRM_ok {w : Width} {rm : RM} {v : Word} {s t : State} (h : (readRM w rm).run s = .ok v t) :
    Effect s t [] ∧ (s.Inv → w.fits v = true) := by
  cases rm with
  | reg r =>
    cases h
    exact ⟨Effect.refl _, fun _ => fits_view _ _ _⟩
  | mem m =>
    unfold readRM at h
    rw [run_bind_ok (run_get _)] at h
    exact ⟨(segRead_ok h).1, fun i => ((segRead_ok h).2 i).1⟩

theorem readDst_ok {w : Width} {rm : RM} {v : Word} {s t : State} (h : (readDst w rm).run s = .ok v t) :
    Effect s t [] ∧ (s.Inv → w.fits v = true) := by
  cases rm with
  | reg r =>
    cases h
    exact ⟨Effect.refl _, fun _ => fits_view _ _ _⟩
  | mem m =>
    unfold readDst at h
    rw [run_bind_ok (run_get _)] at h
    exact ⟨(segReadForWrite_ok h).1, fun i => ((segReadForWrite_ok h).2 i).1⟩

/-- What an operand write changes besides memory: the register it names. -/
structure WriteEffect (s t : State) (w : Width) (rm : RM) (v : Word) : Prop where
  regs   : t.regs = match rm with | .reg r => s.regs.setView w r v | .mem _ => s.regs
  flags  : t.flags = s.flags
  eip    : t.eip = s.eip
  nextEip : t.nextEip = s.nextEip
  system : SameSystem s t
  draws  : s.Inv → t.Inv
  wrote  : s.Inv → Wrote s t w rm v

theorem WriteEffect.ofReg (s : State) (w : Width) (r : Reg) (v : Word) :
    WriteEffect s (s.setReg w r v) w (.reg r) v :=
  ⟨rfl, rfl, rfl, rfl, ⟨rfl, rfl, rfl, rfl, rfl, rfl, rfl, rfl, rfl, rfl, rfl, rfl⟩,
    fun i => ⟨i.mem, i.tlb, i.flags, i.paging, i.map⟩, fun _ => ⟨rfl, fun _ _ _ => ⟨rfl, fun _ => rfl⟩⟩⟩

theorem writeRM_ok {w : Width} {rm : RM} {v : Word} {s t : State} (h : (writeRM w rm v).run s = .ok () t) :
    WriteEffect s t w rm v := by
  cases rm with
  | reg r =>
    cases h
    exact WriteEffect.ofReg _ _ _ _
  | mem m =>
    unfold writeRM at h
    rw [run_bind_ok (run_get _)] at h
    obtain ⟨e, st⟩ := segWrite_ok h
    obtain ⟨a, b, c, d, -⟩ := e.only.fields
    exact ⟨a, b, c, d, e.system, e.inv, fun i => ⟨a, e.stores i, st i⟩⟩

theorem writeDst_ok {w : Width} {rm : RM} {v : Word} {s t : State} (h : (writeDst w rm v).run s = .ok () t) :
    WriteEffect s t w rm v := by
  cases rm with
  | reg r =>
    cases h
    exact WriteEffect.ofReg _ _ _ _
  | mem m =>
    unfold writeDst at h
    rw [run_bind_ok (run_get _)] at h
    obtain ⟨e, st⟩ := segWriteBack_ok h
    obtain ⟨a, b, c, d, -⟩ := e.only.fields
    exact ⟨a, b, c, d, e.system, e.inv, fun i => ⟨a, e.stores i, st i⟩⟩

/-! ### The stack (R220) -/

/-- `Push_n`: the store, then the stack pointer. -/
theorem push_ok {z : Size} {v : Word} {s t : State} (h : (push z v).run s = .ok () t) :
    ∃ u, (segWrite .ss (s.pushSp z) z.width v).run s = .ok () u ∧ t = u.setSp (s.pushSp z) := by
  unfold push at h
  rw [run_bind_ok (run_get _)] at h
  obtain ⟨_, u, h1, h⟩ := run_bind_inv h
  cases h
  exact ⟨u, h1, rfl⟩

theorem run_push {z : Size} {v : Word} {s u : State} (h : (segWrite .ss (s.pushSp z) z.width v).run s = .ok () u) :
    (push z v).run s = .ok () (u.setSp (s.pushSp z)) := by
  unfold push
  rw [run_bind_ok (run_get _), run_bind_ok h]
  rfl

theorem pop_ok {z : Size} {v : Word} {s t : State} (h : (pop z).run s = .ok v t) :
    ∃ u, (segRead .ss s.sp z.width).run s = .ok v u ∧ t = u.setSp (s.spAdd (BitVec.ofNat 32 z.width.bytes)) := by
  unfold pop at h
  rw [run_bind_ok (run_get _)] at h
  obtain ⟨v', u, h1, h⟩ := run_bind_inv h
  cases h
  exact ⟨u, h1, rfl⟩

theorem run_pop {z : Size} {v : Word} {s u : State} (h : (segRead .ss s.sp z.width).run s = .ok v u) :
    (pop z).run s = .ok v (u.setSp (s.spAdd (BitVec.ofNat 32 z.width.bytes))) := by
  unfold pop
  rw [run_bind_ok (run_get _), run_bind_ok h]
  rfl

theorem run_popSel {z : Size} {v : Word} {s t : State} (h : (pop z).run s = .ok v t) :
    (popSel z).run s = .ok (v.setWidth 16) t := by
  unfold popSel
  rw [run_bind_ok h]
  rfl

end Sys2Proof.Machine
end

