-- ==== Sys2Proof/Laws/Step.lean ====
section
/-! SUPPORT. The parts of a step: fetching, the end of an instruction, the platform's turn, and what they keep. -/

namespace Sys2Proof.Machine

/-- The form of the state is kept. -/
def KeepsInv (s t : State) : Prop := s.Inv → t.Inv


theorem keepsInv_plain {s t : State} (h : t.mem = s.mem ∧ t.tlb = s.tlb ∧ t.flags = s.flags ∧ t.physMap = s.physMap ∧
      t.cr0 = s.cr0) : KeepsInv s t := by
  obtain ⟨h1, h2, h3, h4, h5⟩ := h
  exact fun i => ⟨h1 ▸ i.mem, h2 ▸ i.tlb, h3 ▸ i.flags, h5 ▸ i.paging, h4 ▸ i.map⟩

theorem resetCore_keepsInv (s : State) : KeepsInv s s.resetCore := fun i =>
  ⟨i.mem, ⟨List.Pairwise.nil, fun _ h => nomatch h⟩, by show FlagsOk 0x00000002; unfold FlagsOk; decide, by show PagingOk 0x60000010; unfold PagingOk; decide, i.map⟩

theorem applyEvent_keepsInv (s : State) (e : PlatformEvent) : KeepsInv s (s.applyEvent e) := by
  by_cases h : insidePort e = true
  · exact (s.applyEvent_keeps e h).inv
  · cases e <;> first | exact absurd rfl h | exact resetCore_keepsInv s

theorem events_keepsInv (l : List PlatformEvent) (s : State) : KeepsInv s (l.foldl State.applyEvent s) := by
  induction l generalizing s with
  | nil => exact id
  | cons e l ih => exact fun i => ih _ (applyEvent_keepsInv s e i)

theorem updateClock_keepsInv (s : State) : KeepsInv s s.updateClock := by
  unfold State.updateClock
  simp only
  split
  · exact keepsInv_plain ⟨rfl, rfl, rfl, rfl, rfl⟩
  · exact fun i => events_keepsInv _ _ (keepsInv_plain (s := s) ⟨rfl, rfl, rfl, rfl, rfl⟩ i)

theorem finish_keepsInv (s : State) : KeepsInv s s.finish := by
  have p : KeepsInv s s.partition := by
    unfold State.partition
    split
    · split <;> exact keepsInv_plain ⟨rfl, rfl, rfl, rfl, rfl⟩
    · exact id
  unfold State.finish
  simp only
  split
  · exact p
  · exact fun i => updateClock_keepsInv _ (p i)

theorem OutRel.keepsInv {s : State} {o} (h : OutRel Keeps s o) : OutRel KeepsInv s o := fun t e => (h t e).inv

theorem onNext_keepsInv {s : State} {f : State → State} {o} (h : OutRel KeepsInv s o) (hf : ∀ u, KeepsInv u (f u)) :
    OutRel KeepsInv s (onNext f o) := by
  intro t e
  cases o with
  | next u => cases e; exact fun i => hf u (h u rfl i)
  | fault _ => cases e
  | refused _ => cases e

theorem keeps_fetchByte (k : Nat) : KeepsAll (fetchByte k) := by
  unfold fetchByte
  repeat' first
    | with_reducible refine keeps_bind ?_ fun _ => ?_
    | with_reducible refine keeps_ite ?_ ?_
    | (simp; done)
    | exact keeps_plain _ fun s => by unfold State.notePara; split <;> exact ⟨rfl, rfl, rfl, rfl, rfl, rfl, rfl, rfl, rfl⟩

theorem keeps_runFetch {α : Type} (d : Dec α) (k : Nat) (bs : List Byte) : KeepsAll (runFetch d k bs) := by
  induction d generalizing k bs with
  | ret a => exact keeps_pure _
  | unadmitted => exact keeps_refuse _
  | byte f ih => exact keeps_bind (keeps_fetchByte k) fun b => ih b _ _

theorem keeps_fetchInstr : KeepsAll fetchInstr := by
  unfold fetchInstr
  refine keeps_bind keeps_get fun _ => keeps_bind (keeps_runFetch _ _ _) fun _ => ?_
  refine keeps_bind (keeps_plain _ fun s => ⟨rfl, rfl, rfl, rfl, rfl, rfl, rfl, rfl, rfl⟩) fun _ => keeps_pure _

theorem run_keepsInv {op : Op Unit} (h : Op.Rel KeepsInv op) (s : State) : OutRel KeepsInv s (run op s) := by
  intro t e
  unfold run settle at e
  have := h s
  split at e
  · rename_i h1; rw [h1] at this; cases e; exact this
  · cases e
  · rename_i f past u h1
    rw [h1] at this
    intro i
    refine (dispatchFault_keeps _ _ _ _ _ e).inv ?_
    have j := this i
    cases past
    · exact ⟨j.mem, j.tlb, i.flags, i.paging, j.map⟩
    · exact j

theorem keepsInv_preorder : Preorder KeepsInv := ⟨fun _ => id, fun _ _ _ a b i => b (a i)⟩

theorem keepsInv_of {α} {x : Op α} (h : KeepsAll x) : Op.Rel KeepsInv x := Op.rel_mono h fun _ _ k => k.inv

end Sys2Proof.Machine
end

