-- ==== Sys2Proof/Tests/Slice0.lean ====
section
/-! SUPPORT. The model's own tests: well-formedness refuses ill-formed terms; every constructor is decoded from a word
written out from the encodings of 30_encoding.md and 40 to 47; single steps against the worked examples of
95_vectors.md and of the rules; and a witness of the hypotheses of every obligation. -/

namespace Sys2Proof.Tests

set_option Elab.async false
set_option maxRecDepth 20000

open Machine

/-! ### Well-formedness: one ill-formed term for each check -/

def noBase : RM := .mem { seg := .ss, addr := .based16 .bp .none }

theorem test_wf_addresses_refused :
    ([.based16 .bp .none, .based32 .esp (.d8 0), .based32 .ebp .none, .sib .eax (some .esp) 0 .none,
      .sib .ebp none 0 .none, .sibAbs (some .esp) 0 0] : List Addr).all (fun a => !a.wf) = true := by decide

theorem test_wf_operands_refused :
    ([.add (.rmReg .w8 noBase .eax), .or (.regRm .w8 .eax noBase), .adc (.rmImm .w8 noBase 0), .sbb (.rmImm8 .s16 noBase 0),
      .and (.rmReg .w16 noBase .eax), .sub (.rmReg .w16 noBase .eax), .xor (.rmReg .w16 noBase .eax),
      .cmp (.rmReg .w16 noBase .eax), .inc (.rm .w8 noBase), .dec (.rm .w8 noBase), .neg .w8 noBase, .not .w8 noBase,
      .test (.rmReg .w8 noBase .eax), .test (.rmImm .w8 noBase 0), .mul .w8 noBase, .imul1 .w8 noBase,
      .imul2 .s16 .eax noBase, .imul3 .s16 .eax noBase 0, .imul3b .s16 .eax noBase 0, .div .w8 noBase, .idiv .w8 noBase,
      .rol .w8 noBase .one, .ror .w8 noBase .one, .rcl .w8 noBase .one, .rcr .w8 noBase .one, .shl .w8 noBase .one,
      .sal .w8 noBase .one, .shr .w8 noBase .one, .sar .w8 noBase .one] : List Instr).all (fun i => !i.wf) = true := by
  decide

theorem test_wf_operands_refused_transfer :
    ([.movRmReg .w8 noBase .eax, .movRegRm .w8 .eax noBase, .movRmImm .w8 noBase 0, .movRmSeg .s16 noBase 0,
      .movSegRm 0 noBase, .movzxByte .s16 .eax noBase, .movzxWord .s16 .eax noBase, .movsxByte .s16 .eax noBase,
      .movsxWord .s16 .eax noBase, .lea .s16 .eax noBase, .xchg .w8 noBase .eax, .pushRm .s16 noBase, .popRm .s16 noBase,
      .jmpRm .s16 noBase, .jmpFarMem .s16 noBase, .callRm .s16 noBase, .callFarMem .s16 noBase, .lgdt .s16 noBase,
      .lidt .s16 noBase, .sgdt .s16 noBase, .sidt .s16 noBase, .lldt noBase, .sldt .s16 noBase, .ltr noBase,
      .str .s16 noBase, .invlpg noBase, .arpl noBase .eax, .ud .oFF 7 noBase] : List Instr).all (fun i => !i.wf) = true := by
  decide

theorem test_wf_immediates_refused :
    ([.add (.accImm .w8 0x100), .add (.rmImm .w16 (.reg .eax) 0x10000), .test (.accImm .w16 0x10000),
      .test (.rmImm .w8 (.reg .eax) 0x100), .imul3 .s16 .eax (.reg .eax) 0x10000, .movRegImm .w8 .eax 0x100,
      .movRmImm .w16 (.reg .eax) 0x10000, .movAccMoffs .w8 { asz := .s16, seg := .ds, off := 0x10000 },
      .movMoffsAcc .w8 { asz := .s16, seg := .ds, off := 0x10000 }, .pushImm .s16 0x10000, .jmpNear .s16 0x10000,
      .jccNear .s16 .e 0x10000, .callNear .s16 0x10000, .jmpFarPtr .s16 0 0x10000, .callFarPtr .s16 0 0x10000]
      : List Instr).all (fun i => !i.wf) = true := by decide

theorem test_wf_slots_refused :
    ([.xchgAcc .s16 .eax, .popSeg .s16 .cs, .ud .o8F 0 (.reg .eax), .ud .oC6 0 (.reg .eax), .ud .oC7 0 (.reg .eax),
      .ud .oFE 1 (.reg .eax), .ud .oFF 6 (.reg .eax), .ud .o0F00 4 (.reg .eax), .ud .o0F01 4 (.reg .eax)]
      : List Instr).all (fun i => !i.wf) = true := by decide

/-! ### Decoding: a word for every constructor, and for every row of the address tables -/

/-- Each byte string decodes, in a 16-bit code segment, to its instruction, whole, and encodes back. -/
def decodes16 (l : List (List Byte × Instr)) : Bool :=
  l.all fun e => decide (decode .s16 e.1 = .ok e.2 e.1.length) && e.2.wf &&
    decide (decode .s32 (encode .s32 e.2) = .ok e.2 (encode .s32 e.2).length)

def al : RM := .reg .eax
def cl : RM := .reg .ecx
def dl : RM := .reg .edx
def bl : RM := .reg .ebx
/-- The memory operand `[0x0200]` of a 16-bit address. -/
def m200 : RM := .mem { seg := .ds, addr := .abs16 0x0200 }

theorem test_decode_arithmetic : decodes16 [
    ([0x00, 0xC8], .add (.rmReg .w8 al .ecx)),
    ([0x0B, 0x07], .or (.regRm .w16 .eax (.mem { seg := .ds, addr := .based16 .bx .none }))),
    ([0x14, 0x05], .adc (.accImm .w8 5)),
    ([0x66, 0x1D, 0x78, 0x56, 0x34, 0x12], .sbb (.accImm .w32 0x12345678)),
    ([0x80, 0x26, 0x00, 0x02, 0x7F], .and (.rmImm .w8 m200 0x7F)),
    ([0x81, 0xEB, 0x34, 0x12], .sub (.rmImm .w16 bl 0x1234)),
    ([0x83, 0xF6, 0xFE], .xor (.rmImm8 .s16 (.reg .esi) 0xFE)),
    ([0x38, 0xE3], .cmp (.rmReg .w8 bl .esp)),
    ([0x42], .inc (.reg .s16 .edx)),
    ([0x66, 0x4F], .dec (.reg .s32 .edi)),
    ([0xFE, 0x45, 0xFE], .inc (.rm .w8 (.mem { seg := .ds, addr := .based16 .di (.d8 0xFE) }))),
    ([0xFF, 0x8F, 0x00, 0x80], .dec (.rm .w16 (.mem { seg := .ds, addr := .based16 .bx (.full 0x8000) }))),
    ([0xF7, 0xDB], .neg .w16 bl),
    ([0xF6, 0x56, 0x00], .not .w8 (.mem { seg := .ss, addr := .based16 .bp (.d8 0) })),
    ([0x84, 0xD1], .test (.rmReg .w8 cl .edx)),
    ([0xA9, 0x00, 0x80], .test (.accImm .w16 0x8000)),
    ([0xF7, 0xC1, 0x01, 0x00], .test (.rmImm .w16 cl 1))] = true := by decide +kernel

theorem test_decode_multiply : decodes16 [
    ([0xF6, 0xE3], .mul .w8 bl), ([0xF7, 0xE9], .imul1 .w16 cl), ([0x0F, 0xAF, 0xC3], .imul2 .s16 .eax bl),
    ([0x69, 0xC3, 0x0A, 0x00], .imul3 .s16 .eax bl 10), ([0x6B, 0xD9, 0xFF], .imul3b .s16 .ebx cl 0xFF),
    ([0xF7, 0xF1], .div .w16 cl), ([0xF6, 0xFB], .idiv .w8 bl), ([0x98], .cbw .s16), ([0x66, 0x98], .cbw .s32),
    ([0x99], .cwd .s16)] = true := by decide +kernel

theorem test_decode_shifts : decodes16 [
    ([0xD0, 0xC0], .rol .w8 al .one), ([0xD1, 0xC9], .ror .w16 cl .one), ([0xD2, 0xD2], .rcl .w8 dl .cl),
    ([0xD3, 0xDB], .rcr .w16 bl .cl), ([0xC0, 0xE4, 0x03], .shl .w8 (.reg .esp) (.imm 3)),
    ([0xC1, 0xF5, 0x04], .sal .w16 (.reg .ebp) (.imm 4)), ([0x66, 0xD1, 0xEE], .shr .w32 (.reg .esi) .one),
    ([0xC1, 0xFF, 0x1F], .sar .w16 (.reg .edi) (.imm 0x1F))] = true := by decide +kernel

theorem test_decode_transfer : decodes16 [
    ([0x88, 0xE1], .movRmReg .w8 cl .esp), ([0x8B, 0x1E, 0x00, 0x02], .movRegRm .w16 .ebx m200),
    ([0xA0, 0x10, 0x00], .movAccMoffs .w8 { asz := .s16, seg := .ds, off := 0x10 }),
    ([0x2E, 0xA3, 0x00, 0x05], .movMoffsAcc .w16 { asz := .s16, seg := .cs, off := 0x500 }),
    ([0xB4, 0x7F], .movRegImm .w8 .esp 0x7F), ([0xC7, 0xC0, 0x34, 0x12], .movRmImm .w16 al 0x1234),
    ([0x8C, 0xD8], .movRmSeg .s16 al 3), ([0x8E, 0xD8], .movSegRm 3 al), ([0x0F, 0xB6, 0xC3], .movzxByte .s16 .eax bl),
    ([0x66, 0x0F, 0xB7, 0xC3], .movzxWord .s32 .eax bl), ([0x0F, 0xBE, 0xC3], .movsxByte .s16 .eax bl),
    ([0x66, 0x0F, 0xBF, 0xC8], .movsxWord .s32 .ecx al),
    ([0x67, 0x8D, 0x44, 0x58, 0x04], .lea .s16 .eax (.mem { seg := .ds, addr := .sib .eax (some .ebx) 1 (.d8 4) })),
    ([0x87, 0xD9], .xchg .w16 cl .ebx), ([0x93], .xchgAcc .s16 .ebx)] = true := by decide +kernel

theorem test_decode_stack_and_ports : decodes16 [
    ([0x54], .pushReg .s16 .esp), ([0x68, 0x34, 0x12], .pushImm .s16 0x1234), ([0x6A, 0xFF], .pushImm8 .s16 0xFF),
    ([0xFF, 0x36, 0x00, 0x02], .pushRm .s16 m200), ([0x5D], .popReg .s16 .ebp), ([0x8F, 0x06, 0x00, 0x02], .popRm .s16 m200),
    ([0x06], .pushSeg .s16 .es), ([0x0E], .pushSeg .s16 .cs), ([0x16], .pushSeg .s16 .ss), ([0x1E], .pushSeg .s16 .ds),
    ([0x0F, 0xA0], .pushSeg .s16 .fs), ([0x0F, 0xA8], .pushSeg .s16 .gs), ([0x07], .popSeg .s16 .es),
    ([0x17], .popSeg .s16 .ss), ([0x1F], .popSeg .s16 .ds), ([0x0F, 0xA1], .popSeg .s16 .fs),
    ([0x66, 0x0F, 0xA9], .popSeg .s32 .gs), ([0xE4, 0x61], .inImm 0x61), ([0xEC], .inDx), ([0xE6, 0x60], .outImm 0x60),
    ([0xEE], .outDx)] = true := by decide +kernel

theorem test_decode_strings : decodes16 [
    ([0xA4], .movsb .none .s16 .ds), ([0xF3, 0xA5], .movsw .s16 .repe .s16 .ds), ([0xF3, 0xA6], .cmpsb .repe .s16 .ds),
    ([0x66, 0xA7], .cmpsw .s32 .none .s16 .ds), ([0xAA], .stosb .none .s16), ([0xF3, 0xAB], .stosw .s16 .repe .s16),
    ([0x2E, 0xAC], .lodsb .none .s16 .cs), ([0xAD], .lodsw .s16 .none .s16 .ds), ([0xF2, 0xAE], .scasb .repne .s16),
    ([0x67, 0xAF], .scasw .s16 .none .s32)] = true := by decide +kernel

theorem test_decode_control : decodes16 [
    ([0xEB, 0x05], .jmpShort .s16 5), ([0xE9, 0x00, 0x01], .jmpNear .s16 0x100), ([0xFF, 0xE0], .jmpRm .s16 al),
    ([0xEA, 0x00, 0x7C, 0x00, 0x00], .jmpFarPtr .s16 0 0x7C00), ([0xFF, 0x2E, 0x00, 0x02], .jmpFarMem .s16 m200),
    ([0x75, 0xFB], .jccShort .s16 .ne 0xFB), ([0x0F, 0x8C, 0x00, 0x01], .jccNear .s16 .l 0x100),
    ([0xE3, 0x02], .jcxz .s16 .s16 2), ([0xE2, 0xFE], .loop .s16 .s16 0xFE), ([0x67, 0xE1, 0x02], .loope .s16 .s32 2),
    ([0xE0, 0x02], .loopne .s16 .s16 2), ([0xE8, 0x01, 0x00], .callNear .s16 1), ([0xFF, 0xD0], .callRm .s16 al),
    ([0x9A, 0x00, 0x00, 0x00, 0x20], .callFarPtr .s16 0x2000 0), ([0xFF, 0x1E, 0x00, 0x02], .callFarMem .s16 m200),
    ([0xC3], .ret .s16), ([0xC2, 0x04, 0x00], .retImm .s16 4), ([0xCB], .retf .s16), ([0xCA, 0x04, 0x00], .retfImm .s16 4),
    ([0xCC], .int3), ([0xCD, 0x21], .int 0x21), ([0xCE], .into), ([0xCF], .iret .s16)] = true := by decide +kernel

theorem test_decode_system : decodes16 [
    ([0xF8], .clc), ([0xF9], .stc), ([0xF5], .cmc), ([0xFC], .cld), ([0xFD], .std), ([0xFA], .cli), ([0xFB], .sti),
    ([0x9F], .lahf), ([0x9E], .sahf), ([0x9C], .pushf .s16), ([0x9D], .popf .s16), ([0xF4], .hlt), ([0x90], .nop),
    ([0x0F, 0x01, 0x16, 0x00, 0x02], .lgdt .s16 m200), ([0x0F, 0x01, 0x1E, 0x00, 0x02], .lidt .s16 m200),
    ([0x0F, 0x01, 0x06, 0x00, 0x02], .sgdt .s16 m200), ([0x0F, 0x01, 0x0E, 0x00, 0x02], .sidt .s16 m200),
    ([0x0F, 0x00, 0xD0], .lldt al), ([0x0F, 0x00, 0xC0], .sldt .s16 al), ([0x0F, 0x00, 0xD8], .ltr al),
    ([0x0F, 0x00, 0xC8], .str .s16 al), ([0x0F, 0x22, 0xD8], .movToCr 3 .eax), ([0x0F, 0x20, 0xC1], .movFromCr .ecx 0),
    ([0x0F, 0x01, 0x3F], .invlpg (.mem { seg := .ds, addr := .based16 .bx .none })), ([0x63, 0xC8], .arpl al .ecx),
    ([0x8F, 0xC8], .ud .o8F 1 al), ([0xC6, 0xC8], .ud .oC6 1 al), ([0xC7, 0xF8], .ud .oC7 7 al),
    ([0xFE, 0xD0], .ud .oFE 2 al), ([0xFF, 0xF8], .ud .oFF 7 al), ([0x0F, 0x00, 0xF0], .ud .o0F00 6 al),
    ([0x0F, 0x01, 0xE8], .ud .o0F01 5 al)] = true := by decide +kernel

/-- The rows of R166, by their `rm`, with mod 0 and 1, as operands of `8A /r` (MOV AL). -/
theorem test_decode_addresses16 :
    decodes16 (([(0x00, .bxsi, .ds), (0x01, .bxdi, .ds), (0x02, .bpsi, .ss), (0x03, .bpdi, .ss), (0x04, .si, .ds),
        (0x05, .di, .ds), (0x07, .bx, .ds)] : List (Byte × Base16 × Seg)).map fun e =>
      ([0x8A, e.1], .movRegRm .w8 .eax (.mem { seg := e.2.2, addr := .based16 e.2.1 .none }))) = true ∧
    decodes16 [
      ([0x8A, 0x46, 0x80], .movRegRm .w8 .eax (.mem { seg := .ss, addr := .based16 .bp (.d8 0x80) })),
      ([0x3E, 0x8A, 0x86, 0x34, 0x12], .movRegRm .w8 .eax (.mem { seg := .ds, addr := .based16 .bp (.full 0x1234) }))]
      = true := by decide +kernel

/-- Rows of R167: the bases, the SIB byte with its scale, index number 4 and base number 5. -/
theorem test_decode_addresses32 : decodes16 [
    ([0x67, 0x8A, 0x01], .movRegRm .w8 .eax (.mem { seg := .ds, addr := .based32 .ecx .none })),
    ([0x67, 0x8A, 0x45, 0x00], .movRegRm .w8 .eax (.mem { seg := .ss, addr := .based32 .ebp (.d8 0) })),
    ([0x67, 0x8A, 0x05, 0x78, 0x56, 0x34, 0x12], .movRegRm .w8 .eax (.mem { seg := .ds, addr := .abs32 0x12345678 })),
    ([0x67, 0x8A, 0x04, 0x24], .movRegRm .w8 .eax (.mem { seg := .ss, addr := .sib .esp none 0 .none })),
    ([0x67, 0x8A, 0x04, 0xF7], .movRegRm .w8 .eax (.mem { seg := .ds, addr := .sib .edi (some .esi) 3 .none })),
    ([0x67, 0x8A, 0x04, 0x8D, 0x01, 0x00, 0x00, 0x00],
      .movRegRm .w8 .eax (.mem { seg := .ds, addr := .sibAbs (some .ecx) 2 1 }))] = true := by decide +kernel

/-- R183, R184: bytes of no row; R160: fifteen bytes are an instruction, sixteen are too many. -/
theorem test_decode_refuses :
    (([[0x60], [0x62, 0xC0], [0xC8], [0xD4], [0xD8, 0xC0], [0xF1], [0xF6, 0xC8], [0x0F, 0x05], [0x0F, 0x00, 0xE0],
      [0x0F, 0x01, 0xE0]] : List (List Byte)).all fun bs => decide (decode .s16 bs = .unadmitted)) = true ∧
    decode .s16 (List.replicate 14 0x66 ++ [0x90]) = .ok .nop 15 ∧
    decode .s16 (List.replicate 15 0x66 ++ [0x90]) = .tooLong := by decide +kernel

/-- The numbering of the opcode table: bit 0 is the lowest bit of the first byte. -/
theorem test_table_word : decodeTableWord 16 0xC800 = some (.add (.rmReg .w8 (.reg .eax) .ecx)) ∧
    decodeTableWord 8 0xB8 = some (.movRegImm .w16 .eax 0) ∧ decodeTableWord 8 0x60 = none := by decide +kernel

/-! ### Small states -/

/-- Bytes placed in memory. -/
def put (s : State) (a : Nat) (bs : List Byte) : State :=
  { s with mem := bs.zipIdx.foldr (fun e m => m.write (a + e.2) e.1) s.mem }

/-- The four bytes of a word, the lowest first. -/
def le4 (v : Word) : List Byte := leBytes v .w32

def zeros : Regs := { eax := 0, ecx := 0, edx := 0, ebx := 0, esp := 0, ebp := 0, esi := 0, edi := 0 }

/-- Real mode, CS base 0, EIP 0x100, ESP 0x800: the state "R0" of 95_vectors.md. -/
def real : State :=
  let s := State.reset
  { s with eip := 0x100, startEip := 0x100, nextEip := 0x101, regs := { zeros with esp := 0x800 },
           segs := { s.segs with cs := { s.segs.cs with selector := 0, base := 0 } } }

/-- R0 with registers, flags and the bytes of an instruction at EIP. -/
def realWith (r : Regs) (bs : List Byte) (fl : Word := 2) : State := put { real with regs := r, flags := fl } 0x100 bs

def flat (sel : Half) (code : Bool) (dpl : BitVec 2) : SegReg where
  selector := sel
  base := 0
  limitMin := 0
  limitMax := 0xFFFFFFFF
  type := if code then 0xA else 0x2
  dpl := dpl
  size32 := true
  readable := true
  writable := !code
  valid := true

/-- The descriptor of a code or data segment of 4 GiB, by its byte 5. -/
def flatDesc (rights : Byte) : List Byte := [0xFF, 0xFF, 0, 0, 0, rights, 0xCF, 0]

/-- A state in protected mode at level 0 with the tables of 95_vectors.md: GDT at 0x1000 (08 code, 10 the running TSS at 0x5000, 18 an
available TSS at 0x6000, 20 data; and more: 28 LDT, 30 and 38 code and data of level 3, 40 a call gate, 48 a data segment
that is not present, 50 code that is not present, 58 an LDT that is not present, 60 a TSS that is not present), IDT at
0x1800 with a 32-bit interrupt gate 0x0D, a trap gate 0x0E and a 16-bit gate of level 3, 0x0F. -/
def protOver (s : State) : State :=
  let s : State := { s with
    cr0 := 0x11, eip := 0x2000, startEip := 0x2000, nextEip := 0x2001, regs := { zeros with esp := 0x7000 },
    segs := { cs := flat 8 true 0, ss := flat 0x20 false 0, ds := flat 0x20 false 0, es := flat 0x20 false 0,
              fs := flat 0x20 false 0, gs := flat 0x20 false 0 },
    gdtr := { base := 0x1000, limit := 0x67 }, idtr := { base := 0x1800, limit := 0x7F },
    tr := { selector := 0x10, base := 0x5000, limit := 0x67, busy := true, type32 := true } }
  let s := put s 0x1868 ([0, 0x30, 8, 0, 0, 0x8E, 0, 0] ++ [0, 0x31, 8, 0, 0, 0x8F, 0, 0] ++ [0, 0x32, 8, 0, 0, 0xE6, 0, 0])
  put s 0x1008 (flatDesc 0x9A ++ [0x67, 0, 0, 0x50, 0, 0x8B, 0, 0] ++ [0x67, 0, 0, 0x60, 0, 0x89, 0, 0] ++
    flatDesc 0x92 ++ [0x3F, 0, 0, 0x90, 0, 0x82, 0, 0] ++ flatDesc 0xFA ++ flatDesc 0xF2 ++
    [0, 0x30, 8, 0, 0, 0x8C, 0, 0] ++ flatDesc 0x12 ++ flatDesc 0x1A ++ [0x3F, 0, 0, 0x90, 0, 0x02, 0, 0] ++
    [0x67, 0, 0, 0x60, 0, 0x09, 0, 0])

def prot : State := protOver State.reset

/-- Protected mode with registers and the bytes of an instruction at EIP. -/
def protWith (r : Regs) (bs : List Byte) (fl : Word := 2) : State := { protOver (put State.reset 0x2000 bs) with regs := r, flags := fl }

/-- The same at level 3, with the level 0 stack 20:6000 in the TSS. -/
def userOver (s : State) : State :=
  { protOver (put s 0x5004 (le4 0x6000 ++ le4 0x20)) with
    cpl := 3, segs := { cs := flat 0x33 true 3, ss := flat 0x3B false 3, ds := flat 0x3B false 3, es := flat 0x3B false 3,
                        fs := flat 0x3B false 3, gs := flat 0x3B false 3 } }

def user : State := userOver State.reset

/-- Virtual-8086 mode, CS base 0. -/
def v86 : State :=
  { prot with flags := 0x00020002, cpl := 3, segs := { es := .v86 .es 0, cs := .v86 .cs 0, ss := .v86 .ss 0,
                                                        ds := .v86 .ds 0, fs := .v86 .fs 0, gs := .v86 .gs 0 } }

/-- Paging on: the page 0x401 is the frame 0x80, read-only for the user (the tables of the example of R113). -/
def paged : State :=
  { protOver (put (put State.reset 0x4000 (le4 0 ++ le4 0x80005 ++ le4 0)) 0x3000 (le4 0x4007 ++ le4 0x4007 ++ le4 0)) with
    cr0 := 0x80000001, cr3 := 0x3000 }

/-- Keys that rise, from a least one on. -/
def rising {α : Type} : Nat → List (Nat × α) → Bool
  | _, [] => true
  | n, (a, _) :: l => decide (n ≤ a) && rising (a + 1) l

theorem rising_spec {α : Type} {n : Nat} {l : List (Nat × α)} (h : rising n l = true) :
    Assoc.Rising l ∧ ∀ e ∈ l, n ≤ e.1 := by
  induction l generalizing n with
  | nil => exact ⟨.nil, fun e he => by cases he⟩
  | cons e l ih =>
    simp only [rising, Bool.and_eq_true, decide_eq_true_eq] at h
    have := ih h.2
    refine ⟨.cons (fun x hx => this.2 x hx) this.1, fun x hx => ?_⟩
    cases hx with
    | head => exact h.1
    | tail _ hx => have := this.2 x hx; omega

/-- Whether a state has the form, as a computation. -/
def invOk (s : State) : Bool :=
  rising 0 s.mem && (s.mem.all fun e => decide (e.1 < 2 ^ 32 ∧ e.2 ≠ Config.unlistedByte)) && decide (Tlb.wf s.tlb) &&
    decide (s.flags &&& ~~~Config.capMask = 2) && (!s.cr0.getLsbD 31 || s.cr0.getLsbD 0) &&
    s.physMap.all fun r => decide (r.base + r.size ≤ 2 ^ 32)

theorem inv_of {s : State} (h : invOk s = true) : s.Inv := by
  simp only [invOk, Bool.and_eq_true, decide_eq_true_eq, List.all_eq_true, Bool.or_eq_true, Bool.not_eq_true'] at h
  obtain ⟨⟨⟨⟨⟨a, a'⟩, b⟩, c⟩, d⟩, e⟩ := h
  refine ⟨⟨(rising_spec a).1, a'⟩, b, c, fun h => ?_, e⟩
  rcases d with d | d
  · rw [h] at d
    cases d
  · exact d

/-- The state and the value an operation that succeeds ends with, as computations. -/
def fin {α : Type} : EStateM.Result Stop State α → State
  | .ok _ t => t
  | .error _ t => t

def val {α : Type} [Inhabited α] : EStateM.Result Stop State α → α
  | .ok v _ => v
  | .error _ _ => default

def isOk {α : Type} : EStateM.Result Stop State α → Bool
  | .ok _ _ => true
  | .error _ _ => false

theorem ok_of {α : Type} [Inhabited α] {r : EStateM.Result Stop State α} (h : isOk r = true) : r = .ok (val r) (fin r) := by
  cases r with
  | ok v t => rfl
  | error e t => cases h

/-- An operation ended in a fault. -/
def isFault {α : Type} (f : GuestFault) (past : Bool) : EStateM.Result Stop State α → Bool
  | .ok _ _ => false
  | .error e _ => decide (e = .fault f past)

theorem fault_is {α : Type} {f : GuestFault} {past : Bool} {r : EStateM.Result Stop State α} (h : isFault f past r = true) :
    r = .error (.fault f past) (fin r) := by
  cases r with
  | ok v t => cases h
  | error e t => rw [of_decide_eq_true h, fin]

/-- The state of a next outcome. -/
def next? : Host.Outcome State Machine.Fault Refusal → Option State
  | .next s => some s
  | .fault _ => none
  | .refused _ => none

/-- For a value that is named: it is the one that comes out. -/
theorem ok_is {α : Type} [Inhabited α] [DecidableEq α] {r : EStateM.Result Stop State α} {v : α}
    (h : (isOk r && decide (val r = v)) = true) : r = .ok v (fin r) := by
  simp only [Bool.and_eq_true, decide_eq_true_eq] at h
  rw [← h.2]
  exact ok_of h.1

theorem next_of {o : Host.Outcome State Machine.Fault Refusal} (h : (next? o).isSome = true) :
    o = .next ((next? o).getD State.reset) := by
  cases o with
  | next s => rfl
  | fault r => cases h
  | refused r => cases h

/-- What a function of the state after one step gives. -/
def after {α : Type} (s : State) (f : State → α) : Option α := (next? (step s)).map f

/-- CF ZF SF OF AF PF. -/
def six (s : State) : List Bool := [s.flag .cf, s.flag .zf, s.flag .sf, s.flag .of, s.flag .af, s.flag .pf]

/-- Bytes of memory. -/
def bytes (s : State) (a n : Nat) : List Byte := (List.range n).map fun i => s.mem.read (a + i)

/-- An interrupt table at 0 whose vector v has the handler 0:1000+v. -/
def handlers (s : State) : State := (List.range 14).foldl (fun s v => put s (4 * v) [BitVec.ofNat 8 v, 0x10, 0, 0]) s

/-! ### Single steps: the examples of 95_vectors.md and of the rules -/

theorem test_reset_fetches_at_the_vector :
    (State.reset.segs.cs.base + State.reset.eip).toNat = 0xFFFFFFF0 ∧
    after (State.reset.withFetchWord 8 0x90) (·.eip) = some 0xFFF1 := by decide +kernel

theorem test_mov_imm : after (realWith { zeros with eax := 0xAAAA0000 } [0xB8, 0x34, 0x12]) (fun t => (t.regs.eax, t.eip)) =
    some (0xAAAA1234, 0x103) := by decide +kernel

theorem test_mov_ah : after (realWith { zeros with eax := 0x11223344 } [0xB4, 0x7F]) (·.regs.eax) = some 0x11227F44 := by
  decide +kernel

theorem test_movzx : after (realWith { zeros with ebx := 0x1280 } [0x66, 0x0F, 0xB6, 0xC3]) (·.regs.eax) = some 0x80 := by
  decide +kernel

theorem test_movsx : after (realWith { zeros with ebx := 0x1280 } [0x66, 0x0F, 0xBE, 0xC3]) (·.regs.eax) =
    some 0xFFFFFF80 := by decide +kernel

theorem test_lea : after (protWith { zeros with eax := 1, ebx := 3 } [0x8D, 0x44, 0x58, 4]) (·.regs.eax) = some 11 := by
  decide +kernel

theorem test_xchg : after (protWith { zeros with ecx := 1, ebx := 2 } [0x87, 0xD9]) (fun t => (t.regs.ecx, t.regs.ebx)) =
    some (2, 1) := by decide +kernel

theorem test_push_wraps_in_16_bits : after (realWith { zeros with esp := 0xAAAA0000 } [0x6A, 0xFE])
    (fun t => (t.regs.esp, bytes t 0xFFFE 2)) = some (0xAAAAFFFE, [0xFE, 0xFF]) := by decide +kernel

theorem test_push_sp : after (realWith { zeros with esp := 0x100 } [0x54]) (fun t => (t.regs.esp, bytes t 0xFE 2)) =
    some (0xFE, [0, 1]) := by decide +kernel

theorem test_mov_ds_real : after (realWith { zeros with eax := 0x1234 } [0x8E, 0xD8])
    (fun t => (t.segs.ds.selector, t.segs.ds.base, t.segs.ds.limitMax)) = some (0x1234, 0x12340, 0xFFFF) := by
  decide +kernel

theorem test_mov_cs_is_ud : after (handlers (realWith { zeros with esp := 0x800 } [0x8E, 0xC8]))
    (fun t => (t.eip, t.regs.esp, bytes t 0x7FA 2)) = some (0x1006, 0x7FA, [0, 1]) := by decide +kernel

theorem test_word_at_limit_is_gp : after (handlers (realWith { zeros with esp := 0x800 } [0xA1, 0xFF, 0xFF]))
    (fun t => (t.eip, bytes t 0x7FA 2)) = some (0x100D, [0, 1]) := by decide +kernel

theorem test_port_without_device :
    step { realWith zeros [0xE4, 0x61] with ioMap := [] } = .refused (.unregisteredPort 0x61) := by rfl

theorem test_add_carries : after (realWith { zeros with eax := 0xFF } [4, 1]) (fun t => (t.regs.eax, six t)) =
    some (0, [true, true, false, false, true, true]) := by decide +kernel

theorem test_add_overflows : after (realWith { zeros with eax := 0x7F } [4, 1]) (fun t => (t.regs.eax, six t)) =
    some (0x80, [false, false, true, true, true, false]) := by decide +kernel

theorem test_sub_overflows : after (realWith { zeros with eax := 0x80 } [0x2C, 1]) (fun t => (t.regs.eax, six t)) =
    some (0x7F, [false, false, false, true, true, false]) := by decide +kernel

theorem test_cmp_writes_no_operand : after (realWith { zeros with eax := 0xF } [0x3C, 0x10]) (fun t => (t.regs.eax, six t)) =
    some (0xF, [true, false, true, false, false, true]) := by decide +kernel

theorem test_adc : after (realWith { zeros with eax := 0xFF } [0x14, 0] 3) (fun t => (t.regs.eax, six t)) =
    some (0, [true, true, false, false, true, true]) := by decide +kernel

theorem test_sbb : after (realWith zeros [0x1C, 0] 3) (fun t => (t.regs.eax, six t)) =
    some (0xFF, [true, false, true, false, true, true]) := by decide +kernel

theorem test_neg_of_the_least : after (realWith { zeros with eax := 0x80 } [0xF6, 0xD8]) (fun t => (t.regs.eax, six t)) =
    some (0x80, [true, false, true, true, false, false]) := by decide +kernel

theorem test_inc_keeps_carry : after (realWith { zeros with eax := 0xFF } [0xFE, 0xC0] 3) (fun t => (t.regs.eax, six t)) =
    some (0, [true, true, false, false, true, true]) := by decide +kernel

theorem test_dec : after (realWith { zeros with eax := 0x80 } [0xFE, 0xC8]) (fun t => (t.regs.eax, six t)) =
    some (0x7F, [false, false, false, true, true, false]) := by decide +kernel

theorem test_not_writes_no_flag : after (realWith { zeros with eax := 0x0F } [0xF6, 0xD0] 0x8D7)
    (fun t => (t.regs.eax, t.flags)) = some (0xF0, 0x8D7) := by decide +kernel

theorem test_and : after (realWith { zeros with eax := 0xF3 } [0x24, 0x0F]) (·.regs.eax) = some 3 := by decide +kernel

theorem test_add_sign_extends : after (protWith zeros [0x83, 0xC0, 0xFF]) (·.regs.eax) = some 0xFFFFFFFF := by
  decide +kernel

theorem test_mul : after (realWith { zeros with eax := 0xFF, ebx := 0xFF } [0xF6, 0xE3]) (·.regs.eax) = some 0xFE01 := by
  decide +kernel

theorem test_imul : after (realWith { zeros with eax := 0x80, ebx := 0x80 } [0xF6, 0xEB]) (·.regs.eax) = some 0x4000 := by
  decide +kernel

theorem test_imul_truncates : after (protWith { zeros with eax := 0x40000000 } [0x6B, 0xC0, 0x0A]) (·.regs.eax) =
    some 0x80000000 := by decide +kernel

theorem test_div : after (realWith { zeros with eax := 0x107, ebx := 0x10 } [0xF6, 0xF3]) (·.regs.eax) = some 0x710 := by
  decide +kernel

theorem test_div_overflow_is_de :
    after (handlers (realWith { zeros with eax := 0x1234, ebx := 0x10, esp := 0x800 } [0xF6, 0xF3]))
      (fun t => (t.eip, t.regs.eax)) = some (0x1000, 0x1234) := by decide +kernel

theorem test_idiv_truncates : after (realWith { zeros with eax := 0xFFF9, ebx := 2 } [0xF6, 0xFB]) (·.regs.eax) =
    some 0xFFFD := by decide +kernel

theorem test_cbw : after (realWith { zeros with eax := 0x80 } [0x98]) (·.regs.eax) = some 0xFF80 := by decide +kernel

theorem test_cwd : after (realWith { zeros with eax := 0x8000 } [0x99]) (·.regs.edx) = some 0xFFFF := by decide +kernel

theorem test_rol : after (realWith { zeros with eax := 0x8001 } [0xD1, 0xC0])
    (fun t => (t.regs.eax, t.flag .cf, t.flag .of)) = some (3, true, true) := by decide +kernel

theorem test_rol_masked_count_is_zero : after (realWith { zeros with eax := 0x8001, ecx := 0x20 } [0xD3, 0xC0] 0x8D7)
    (fun t => (t.regs.eax, t.flags)) = some (0x8001, 0x8D7) := by decide +kernel

theorem test_ror : after (realWith { zeros with eax := 1 } [0xD0, 0xC8])
    (fun t => (t.regs.eax, t.flag .cf, t.flag .of)) = some (0x80, true, true) := by decide +kernel

theorem test_rcl : after (realWith { zeros with eax := 0x80 } [0xD0, 0xD0])
    (fun t => (t.regs.eax, t.flag .cf, t.flag .of)) = some (0, true, true) := by decide +kernel

theorem test_rcr : after (realWith { zeros with eax := 1 } [0xD0, 0xD8] 3)
    (fun t => (t.regs.eax, t.flag .cf, t.flag .of)) = some (0x80, true, true) := by decide +kernel

theorem test_shl : after (realWith { zeros with eax := 0xC0 } [0xD0, 0xE0]) (·.regs.eax) = some 0x80 := by decide +kernel

theorem test_shr : after (realWith { zeros with eax := 0x81 } [0xD0, 0xE8]) (·.regs.eax) = some 0x40 := by decide +kernel

theorem test_sar : after (realWith { zeros with eax := 0x80 } [0xC0, 0xF8, 7]) (·.regs.eax) = some 0xFF := by
  decide +kernel

theorem test_rep_movsb :
    after (put (realWith { zeros with ecx := 2, esi := 0x200, edi := 0x300 } [0xF3, 0xA4]) 0x200 [0x11, 0x22])
      (fun t => (bytes t 0x300 2, t.regs.esi, t.regs.edi, t.regs.ecx, t.eip)) =
    some ([0x11, 0x22], 0x202, 0x302, 0, 0x102) := by decide +kernel

theorem test_repe_cmpsb :
    after (put (put (realWith { zeros with ecx := 3, esi := 0x200, edi := 0x300 } [0xF3, 0xA6]) 0x200 [0x41, 0x43]) 0x300
      [0x41, 0x42]) (fun t => (t.regs.ecx, t.regs.esi, t.flag .zf, t.flag .cf)) = some (1, 0x202, false, false) := by
  decide +kernel

theorem test_lodsb_down : after (put (realWith { zeros with esi := 0x10 } [0xAC] 0x402) 0x10 [0x7E])
    (fun t => (t.regs.eax, t.regs.esi)) = some (0x7E, 0xF) := by decide +kernel

theorem test_jmp_back : after (realWith zeros [0xEB, 0xFE]) (·.eip) = some 0x100 := by decide +kernel

theorem test_jl : after (realWith zeros [0x7C, 2] 0x82) (·.eip) = some 0x104 ∧
    after (realWith zeros [0x7C, 2] 0x882) (·.eip) = some 0x102 := by decide +kernel

theorem test_loop : after (realWith zeros [0xE2, 0xFE]) (fun t => (t.eip, t.regs.ecx)) = some (0x100, 0xFFFF) := by
  decide +kernel

theorem test_call : after (protWith { zeros with esp := 0x7000 } [0xE8, 1, 0, 0, 0])
    (fun t => (t.eip, t.regs.esp, bytes t 0x6FFC 4)) = some (0x2006, 0x6FFC, le4 0x2005) := by decide +kernel

theorem test_ret_releases : after (put (realWith { zeros with esp := 0xFC } [0xC2, 4, 0]) 0xFC [5, 1])
    (fun t => (t.eip, t.regs.esp)) = some (0x105, 0x102) := by decide +kernel

theorem test_int_real : after (put (realWith { zeros with esp := 0x100 } [0xCD, 0x21] 0x202) 0x84 [0, 0x30, 0, 0x20])
    (fun t => (bytes t 0xFA 6, t.regs.esp, t.flags, t.eip, t.segs.cs.base)) =
    some ([2, 1, 0, 0, 2, 2], 0xFA, 2, 0x3000, 0x20000) := by decide +kernel

theorem test_lahf : after (realWith zeros [0x9F] 0x87) (·.regs.eax) = some 0x8700 := by decide +kernel

theorem test_popf_user_keeps_if : after (put { protWith { zeros with esp := 0x7000 } [0x66, 0x9D] 0x202 with cpl := 3 } 0x7000
    [0, 0]) (·.flags) = some 0x202 := by decide +kernel

theorem test_hlt : after (realWith zeros [0xF4]) (fun t => (t.halted, t.eip)) = some (true, 0x101) := by decide +kernel

/-- X2 of 95_vectors.md: MOV DS of a selector that is none raises `#GP` through an interrupt gate. -/
theorem test_gp_dispatch :
    after (protWith { zeros with esp := 0x7000, eax := 0x70 } [0x8E, 0xD8] 0x202)
      (fun t => (bytes t 0x6FF0 16, t.regs.esp, t.eip, t.flags)) =
    some (le4 0x70 ++ le4 0x2000 ++ le4 8 ++ le4 0x202, 0x6FF0, 0x3000, 2) := by decide +kernel

/-- A fault with no gates at all ends in shutdown, with every register as it was (R511). -/
theorem test_triple_fault : after { protWith { zeros with esp := 0x7000, eax := 0x70 } [0x8E, 0xD8] with
    idtr := { base := 0x1800, limit := 0 } } (fun t => (t.shutdown, t.eip, t.regs.esp)) = some (true, 0x2000, 0x7000) := by
  decide +kernel

/-- The walk of R113's example: the address, and the accessed bits it sets. -/
theorem test_page_walk : (match (translate 0x401234 false true).run paged with
    | .ok p t => decide (p = 0x80234) && decide (bytes t 0x3004 4 = le4 0x4027) && decide (bytes t 0x4004 4 = le4 0x80025)
    | .error _ _ => false) = true := by decide +kernel

/-- R113: a user write to a read-only page: error code 7, and CR2. -/
theorem test_page_fault : (match (translate 0x401234 true true).run paged with
    | .error (.fault f false) t => decide (f.code = some 7) && decide (t.cr2 = 0x401234) && decide (t.mem = paged.mem)
    | _ => false) = true := by decide +kernel

/-- An opcode group's slot of no row is refused right after its ModRM byte, before a displacement is read (R1, R183). -/
theorem test_refused_after_modrm :
    step (put { real with eip := 0xFFFE, regs := zeros } 0xFFFE [0xF6, 0x8E]) = .refused (.unadmitted [0xF6, 0x8E]) :=
  rfl

/-- R235: the device is handed the port in DX and AL. -/
theorem test_out_is_recorded : after (realWith { zeros with edx := 0x12340070, eax := 0xFF8F } [0xEE]) (·.calls) =
    some [.writeIo 0x70 0x8F] := by decide +kernel

/-- R86, R540: a 4-byte access to device memory is one call, one batch of what the platform does; and the device may write
memory inside it (R142). -/
theorem test_device_call_is_one :
    let s : State := { realWith { zeros with ebx := 0x300 } [0x66, 0x89, 0x07] with
      physMap := [{ base := 0x300, size := 0x10, kind := .device }, { base := 0, size := 0x10000, kind := .ram }]
      ioEvents := [[.memWrite 0x500 7], [.requests [9]]] }
    after { s with regs := { s.regs with eax := 0x11223344 } } (fun t => (t.calls, t.ioEvents, t.mem.read 0x500)) =
      some ([.writeMem 0x300 4 0x11223344], [[.requests [9]]], 7) := by decide +kernel

/-- R134, R341: REP STOSB into a paragraph of a later instruction of the running block leaves the block after the element. -/
theorem test_write_ahead_ends_the_block :
    let s : State := { put (realWith { zeros with ecx := 3, edi := 0x110 } [0xF3, 0xAA]) 0x102 (List.replicate 20 0x90) with
      blockPlan := List.replicate 15 false }
    after s (fun t => (t.eip, t.regs.ecx, t.inBlock)) = some (0x100, 2, false) ∧
    after { s with blockPlan := [] } (fun t => (t.eip, t.regs.ecx, t.inBlock)) = some (0x102, 0, false) := by
  decide +kernel

/-! ### Witnesses: concrete states and operands that meet the hypotheses of each obligation

One theorem for each obligation that has hypotheses, in the order of Obligations.lean; a clause with hypotheses of its own
has its own part. Clauses that exclude each other are met on both sides of their boundary. -/

/-- R0 with NOP. -/
def realNop : State := realWith { zeros with esp := 0x800 } [0x90]

theorem realNop_inv : realNop.Inv := inv_of (by decide +kernel)

/-- R0 with BX at data. -/
def realData : State :=
  put (realWith { zeros with ebx := 0x200, esp := 0x800, edx := 0x60 } [0x90]) 0x200 [7, 0, 0x30, 0, 8, 0]

theorem realData_inv : realData.Inv := inv_of (by decide +kernel)

theorem prot_inv : prot.Inv := inv_of (by decide +kernel)

theorem user_inv : user.Inv := inv_of (by decide +kernel)

/-- Virtual-8086 mode at IOPL 3. -/
def v86Open : State := { v86 with flags := 0x00023002 }

theorem v86Open_inv : v86Open.Inv := inv_of (by decide +kernel)

def codeDesc : Desc := parseDesc 0x0000FFFF 0x00CF9A00

def dataDesc : Desc := parseDesc 0x0000FFFF 0x00CF9200

def tssDesc : Desc := parseDesc 0x60000067 0x00008900

/-- The incoming task's image at 0x6000: the vector T7 of 95_vectors.md. -/
def twoTasks : State := protOver (put State.reset 0x601C (le4 0x3000 ++ le4 0x4000 ++ le4 2 ++ le4 0x11111111 ++ le4 0x22222222 ++
  le4 0x33333333 ++ le4 0x44444444 ++ le4 0x8000 ++ le4 0x66666666 ++ le4 0x77777777 ++ le4 0x88888888 ++ le4 0x20 ++
  le4 8 ++ le4 0x20 ++ le4 0x20 ++ le4 0 ++ le4 0 ++ le4 0))

theorem twoTasks_inv : twoTasks.Inv := inv_of (by decide +kernel)

def gate13 (s : State) (e : List Byte) : State := put s 0x1868 e

def taskGate13 (s : State) (sel : Byte) : State := gate13 s [0, 0, sel, 0, 0, 0x85, 0, 0]

/-- `[BX]`. -/
def atBx : MemRef := { seg := .ds, addr := .based16 .bx .none }

theorem witness_StepKeepsForm : ∃ s t, s.Inv ∧ step s = .next t := ⟨realNop, _, realNop_inv, rfl⟩

theorem witness_StepKeepsForm_paged : ∃ s t, s.Inv ∧ s.pg = true ∧ step s = .next t :=
  ⟨{ paged with eip := 0x401000 }, _, inv_of (by decide +kernel), rfl, next_of (by decide +kernel)⟩

theorem witness_RealModeStaysAtLevelZero :
    ∃ s t, (s.realMode = true → s.cpl = 0) ∧ step s = .next t ∧ t.realMode = true :=
  ⟨realNop, _, fun _ => rfl, rfl, rfl⟩

theorem witness_OnlyTheirInstructionsWrite :
    (∃ s t, exec (.movToCr 0 .eax) s = .next t ∧ t.cr0 ≠ s.cr0) ∧
    (∃ s t, exec (.lgdt .s16 (.mem atBx)) s = .next t ∧ t.gdtr ≠ s.gdtr) ∧
    (∃ s t, exec (.lidt .s16 (.mem atBx)) s = .next t ∧ t.idtr ≠ s.idtr) ∧
    (∃ s t, exec .hlt s = .next t ∧ t.halted ≠ s.halted) :=
  ⟨⟨realNop, _, rfl, by decide +kernel⟩, ⟨realData, _, rfl, by decide +kernel⟩, ⟨realData, _, rfl, by decide +kernel⟩,
    ⟨realNop, _, rfl, by decide +kernel⟩⟩

theorem witness_OnlyTheirInstructionsWrite_step :
    let s (bs : List Byte) : State := put (realWith { zeros with ebx := 0x200, esp := 0x800 } bs) 0x200 [7, 0, 0x30, 0, 8, 0]
    let quiet (s : State) : Prop := ∀ batch rest, s.events = batch :: rest → PlatformEvent.reset ∉ batch
    (∃ t, step (s [0x0F, 0x22, 0xC0]) = .next t ∧ quiet (s [0x0F, 0x22, 0xC0]) ∧ t.cr0 ≠ (s []).cr0) ∧
    (∃ t, step (s [0x0F, 0x01, 0x17]) = .next t ∧ t.gdtr ≠ (s []).gdtr) ∧
    (∃ t, step (s [0x0F, 0x01, 0x1F]) = .next t ∧ t.idtr ≠ (s []).idtr) ∧
    (∃ t, step (s [0xF4]) = .next t ∧ (s []).halted = false ∧ t.halted = true) ∧
    ∃ s t : State, step s = .next t ∧ quiet s ∧ s.halted = true ∧ t.halted = false :=
  ⟨⟨_, next_of (by decide +kernel), (fun _ _ h => nomatch h), by decide +kernel⟩,
    ⟨_, next_of (by decide +kernel), by decide +kernel⟩, ⟨_, next_of (by decide +kernel), by decide +kernel⟩,
    ⟨_, next_of (by decide +kernel), rfl, by decide +kernel⟩,
    ⟨{ realNop with halted := true, flags := 0x202, pending := [8] }, _, next_of (by decide +kernel), (fun _ _ h => nomatch h),
      rfl, by decide +kernel⟩⟩

/-- RegisterViews, FlagWordThroughMask, SignZeroParity, AdditionAndSubtraction, ConditionsAfterCompare: operands of each
width, at both ends of their range. -/
theorem witness_fits : ∀ w : Width, w.fits 0 = true ∧ w.fits (BitVec.ofNat 32 (2 ^ w.bits - 1)) = true ∧
    (w ≠ .w32 → w.fits (BitVec.ofNat 32 (2 ^ w.bits)) = false) := by
  intro w
  cases w <;> decide

theorem witness_ArithmeticComplete : ∃ (f g : AluForm) (s s1 s2 t : State) (a b : Word), s.Inv ∧
    (AluForm.src f).run s = .ok b s1 ∧ (readDst (AluForm.width f) (AluForm.dst f)).run s1 = .ok a s2 ∧
    (writeDst (AluForm.width f) (AluForm.dst f) (addResult (AluForm.width f) a b false)).run s2 = .ok () t ∧
    (∃ b' a' u v, (AluForm.src g).run s = .ok b' u ∧ (readDst (AluForm.width g) (AluForm.dst g)).run u = .ok a' v) :=
  ⟨.rmImm .w16 (.mem atBx) 7, .regRm .w8 .ecx (.mem atBx), realData, _, _, _, _, _, realData_inv, rfl, rfl,
    rfl, _, _, _, _, rfl, rfl⟩

theorem witness_CompareAndUnaryComplete : ∃ (s : State), s.Inv ∧
    (∃ (f : AluForm) (s1 s2 : State) (a b : Word), (AluForm.src f).run s = .ok b s1 ∧
      (readRM (AluForm.width f) (AluForm.dst f)).run s1 = .ok a s2) ∧
    (∃ (f : TestForm) (s1 s2 : State) (a b : Word), (TestForm.src f).run s = .ok b s1 ∧
      (readRM (TestForm.width f) (TestForm.dst f)).run s1 = .ok a s2) ∧
    (∃ (f : IncForm) (s2 t : State) (a : Word), (readDst (IncForm.width f) (IncForm.dst f)).run s = .ok a s2 ∧
      (writeDst (IncForm.width f) (IncForm.dst f) (addResult (IncForm.width f) a 1 false)).run s2 = .ok () t) ∧
    ∃ s2 a, (readDst .w32 (.mem atBx)).run s = .ok a s2 :=
  ⟨realData, realData_inv, ⟨.accImm .w8 5, _, _, _, _, rfl, rfl⟩,
    ⟨.rmReg .w16 (.mem atBx) .ecx, _, _, _, _, rfl, rfl⟩, ⟨.rm .w16 (.mem atBx), _, _, _, rfl, rfl⟩, _, _, rfl⟩

theorem witness_MultiplyComplete : ∃ (s s1 : State) (b : Word), s.Inv ∧ (readRM .w16 (.mem atBx)).run s = .ok b s1 :=
  ⟨realData, _, _, realData_inv, rfl⟩

/-- The quotient that just fits, the first that does not, and the zero divisor. -/
theorem witness_DivideLaw : ∃ (s s' : State) (d : Word), s.Inv ∧ s'.Inv ∧ (readRM .w8 (.reg .ebx)).run s = .ok d s ∧
    d ≠ 0 ∧ s.dividend .w8 / d.toNat = 2 ^ 8 - 1 ∧ (readRM .w8 (.reg .ebx)).run s' = .ok d s' ∧
    s'.dividend .w8 / d.toNat = 2 ^ 8 ∧ (readRM .w8 (.reg .ecx)).run s = .ok 0 s :=
  ⟨{ realNop with regs := { zeros with eax := 0xFFF, ebx := 0x10 } },
    { realNop with regs := { zeros with eax := 0x1000, ebx := 0x10 } }, 0x10, inv_of (by decide +kernel),
    inv_of (by decide +kernel), rfl, by decide, by decide +kernel, rfl, by decide +kernel, rfl⟩

theorem witness_SignedDivideLaw : ∃ (s s' : State) (d : Word), s.Inv ∧ s'.Inv ∧
    (readRM .w8 (.reg .ebx)).run s = .ok d s ∧ sint .w8 d = 1 ∧ signedDividend .w8 (s.dividend .w8) = -128 ∧
    (readRM .w8 (.reg .ebx)).run s' = .ok d s' ∧ signedDividend .w8 (s'.dividend .w8) = -129 :=
  ⟨{ realNop with regs := { zeros with eax := 0xFF80, ebx := 1 } },
    { realNop with regs := { zeros with eax := 0xFF7F, ebx := 1 } }, 1, inv_of (by decide +kernel),
    inv_of (by decide +kernel), rfl, by decide +kernel, by decide +kernel, rfl, by decide +kernel⟩

/-- A raw count of 32 is 0, one of 31 is not (R320). -/
theorem witness_ShiftsComplete : ∃ (s s1 t : State) (a : Word), s.Inv ∧ s.count (.imm 32) = 0 ∧ s.count (.imm 31) ≠ 0 ∧
    (readDst .w16 (.mem atBx)).run s = .ok a s1 ∧ (writeDst .w16 (.mem atBx) 1).run s1 = .ok () t :=
  ⟨realData, _, _, _, realData_inv, rfl, by decide, rfl, rfl⟩

theorem witness_ShiftAndRotateLaws : Width.fits .w8 0xFF = true ∧ (0 : Nat) < 31 ∧ (31 : Nat) < 32 ∧
    (7 : Nat) < Width.bits .w8 ∧ ¬ (8 : Nat) < Width.bits .w8 := by decide

theorem witness_MoveComplete : ∃ (s : State), s.Inv ∧ (∃ t, (writeRM .w16 (.mem atBx) 5).run s = .ok () t) ∧
    (∃ v u, (readRM .w16 (.mem atBx)).run s = .ok v u) ∧ (∃ v u, (segRead .ds 0x200 .w16).run s = .ok v u) ∧
    ∃ t, (segWrite .ds 0x200 .w16 (s.reg .w16 .eax)).run s = .ok () t :=
  ⟨realData, realData_inv, ⟨_, rfl⟩, ⟨_, _, rfl⟩, ⟨_, _, rfl⟩, _, rfl⟩

theorem witness_SegmentMovesComplete : ∃ (s u t : State) (v : Word), s.Inv ∧ segOfNum 3 = some .ds ∧ Seg.ds ≠ .cs ∧
    (readRM .w16 (.mem atBx)).run s = .ok v u ∧ (loadSeg .ds (v.setWidth 16)).run u = .ok () t :=
  ⟨realData, _, _, _, realData_inv, rfl, by decide, rfl, rfl⟩

theorem witness_LoadsAndExchangesComplete : ∃ (s u t : State) (a : Word), s.Inv ∧
    (∃ v q, (readRM .w8 (.mem atBx)).run s = .ok v q) ∧ (readDst .w16 (.mem atBx)).run s = .ok a u ∧
    (writeDst .w16 (.mem atBx) (s.reg .w16 .eax)).run u = .ok () t :=
  ⟨realData, _, _, _, realData_inv, ⟨_, _, rfl⟩, rfl, rfl⟩

theorem witness_PushAndPopComplete : ∃ (s u : State) (v : Word), s.Inv ∧
    (∃ t, (segWrite .ss (s.pushSp .s16) .w16 5).run s = .ok () t) ∧ (∃ v q, (readRM .w16 (.mem atBx)).run s = .ok v q) ∧
    (segRead .ss s.sp .w16).run s = .ok v u ∧
    (∃ t, (loadSeg .es (v.setWidth 16)).run { u with regs := s.spAfter 2 } = .ok () t) ∧
    ∃ t, (writeRM .w16 (.mem atBx) v).run { u with regs := s.spAfter 2 } = .ok () t :=
  ⟨realData, _, _, realData_inv, ⟨_, rfl⟩, ⟨_, _, rfl⟩, rfl, ⟨_, rfl⟩, _, rfl⟩

theorem witness_StackSequences : ∃ (s t u : State) (vs : List Word), s.Inv ∧ vs.length ≤ 16 ∧
    (pushAll .s16 vs).run s = .ok () t ∧ (popAll .s16 2).run s = .ok [0xFFFF, 0xFFFF] u :=
  ⟨realNop, _, _, [1, 2], realNop_inv, by decide, rfl, rfl⟩

/-- A user-mode program whose TSS has a permission map at 0x68 that allows port 0x60 and forbids port 0x61. -/
def withPortMap : State :=
  { userOver (put State.reset 0x5066 ([0x68, 0] ++ List.replicate 12 0 ++ [2, 0])) with tr := { prot.tr with limit := 0x80 } }

theorem witness_PortsComplete :
    (∃ s u : State, s.Inv ∧ (ioPermitted 0x60).run s = .ok () u ∧ ioRegistered s.ioMap 0x60 = true ∧
      (0x60 : Half) = (s.reg .w16 .edx).setWidth 16) ∧
    (∃ s : State, (s.realMode || (s.protMode && decide (s.cpl.toNat ≤ s.iopl.toNat))) = true) ∧
    (∃ s : State, (s.realMode || (s.protMode && decide (s.cpl.toNat ≤ s.iopl.toNat))) = false ∧ s.tr.limit.toNat = 103 ∧
      s.tr.type32 = true ∧ ∃ base u, (sysRead (s.tr.base + 0x66) .w16).run s = .ok base u ∧ s.tr.limit.toNat < base.toNat + 13) ∧
    (∃ (s u t : State) (base bits : Word), s.tr.type32 = true ∧ (sysRead (s.tr.base + 0x66) .w16).run s = .ok base u ∧
      base.toNat + 0x60 / 8 + 1 ≤ s.tr.limit.toNat ∧
      (sysRead (s.tr.base + BitVec.ofNat 32 (base.toNat + 0x60 / 8)) .w16).run u = .ok bits t ∧
      bits.getLsbD 0 = false ∧ bits.getLsbD 1 = true) ∧
    (∃ s u : State, s.Inv ∧ (ioPermitted 0x60).run s = .ok () u ∧ ioRegistered s.ioMap 0x60 = false) ∧
    ∃ s f u, (ioPermitted 0x60).run s = .error (.fault f false) u :=
  ⟨⟨realData, _, realData_inv, rfl, rfl, by decide +kernel⟩, ⟨realData, rfl⟩,
    ⟨user, rfl, rfl, rfl, _, _, rfl, by decide +kernel⟩,
    ⟨withPortMap, _, _, _, _, rfl, rfl, by decide +kernel, rfl, by decide +kernel, by decide +kernel⟩,
    ⟨{ realData with ioMap := [] }, _, inv_of (by decide +kernel), rfl, rfl⟩,
    ⟨{ user with tr := { user.tr with limit := 102 } }, _, _, rfl⟩⟩

theorem witness_DeviceCallLeaves : (∃ x : State, x.ioEvents = []) ∧ ∃ c : DeviceCall, ∃ a n, c = .readMem a n :=
  ⟨⟨realNop, rfl⟩, _, 0, 1, rfl⟩

theorem witness_StringsComplete : ∃ (s u t : State) (v : Word), s.Inv ∧ (segRead .ds (s.reg .w16 .esi) .w8).run s = .ok v u ∧
    (segWrite .es (s.reg .w16 .edi) .w8 v).run u = .ok () t ∧ (∃ b q, (segRead .es (s.reg .w16 .edi) .w8).run u = .ok b q) ∧
    ∃ q, (segWrite .es (s.reg .w16 .edi) .w8 (s.reg .w8 .eax)).run s = .ok () q :=
  ⟨realData, _, _, _, realData_inv, rfl, rfl, ⟨_, _, rfl⟩, _, rfl⟩

/-- R0 with a count of 2. -/
def at2 : State := { realNop with regs := { zeros with ecx := 2, edi := 0x300 } }

/-- REP MOVSB, REPE SCASB and REP STOSW: no count; the last one; ended by ZF; left for an interrupt; left for a write into
the running block; going on; and a fault at the limit. -/
theorem witness_RepeatLaw :
    let on (s : State) : State := { s with inBlock := true }
    (∃ (s : State) (body : Op Unit), s.Inv ∧ repeated (.movsb .repe .s16 .ds) = some (.repe, false, .s16, body) ∧
      s.reg .w16 .ecx = 0) ∧
    (∃ s u : State, s.reg .w16 .ecx = 1 ∧ (movsBody .w8 .s16 .ds).run (on s) = .ok () u) ∧
    (∃ s u : State, s.reg .w16 .ecx = 2 ∧ (scasBody .w8 .s16).run (on s) = .ok () u ∧ u.flag .zf = false) ∧
    (∃ s u : State, s.reg .w16 .ecx = 2 ∧ (movsBody .w8 .s16 .ds).run (on s) = .ok () u ∧ u.pending ≠ [] ∧ u.flag .if_ = true) ∧
    (∃ s u : State, s.reg .w16 .ecx = 2 ∧ (movsBody .w8 .s16 .ds).run (on s) = .ok () u ∧ u.inBlock = false) ∧
    (∃ s u : State, s.reg .w16 .ecx = 2 ∧ (movsBody .w8 .s16 .ds).run (on s) = .ok () u ∧ u.pending = [] ∧ u.inBlock = true) ∧
    ∃ (s : State) (f : GuestFault) (u : State), s.reg .w16 .ecx = 2 ∧
      (stosBody .w16 .s16).run (on s) = .error (.fault f false) u :=
  ⟨⟨realNop, _, realNop_inv, rfl, rfl⟩, ⟨{ realNop with regs := { zeros with ecx := 1 } }, _, rfl, rfl⟩,
    ⟨at2, _, rfl, rfl, by decide +kernel⟩,
    ⟨{ at2 with pending := [8], flags := 0x202 }, _, rfl, rfl, by decide, by decide +kernel⟩,
    ⟨{ at2 with blockParas := [0x30] }, _, rfl, rfl, by decide +kernel⟩,
    ⟨at2, _, rfl, rfl, rfl, rfl⟩, ⟨{ realNop with regs := { zeros with ecx := 2, edi := 0xFFFF } }, _, _, rfl, rfl⟩⟩

theorem witness_JumpsComplete : ∃ (s u : State) (v : Word), s.Inv ∧ (readRM .w16 (.mem atBx)).run s = .ok v u :=
  ⟨realData, _, _, realData_inv, rfl⟩

theorem witness_CallsAndReturnsComplete : ∃ (s u t q : State) (v : Word), s.Inv ∧
    (segWrite .ss (s.pushSp .s16) .w16 s.nextEip).run s = .ok () t ∧ (readRM .w16 (.mem atBx)).run s = .ok v u ∧
    (segWrite .ss (s.pushSp .s16) .w16 s.nextEip).run u = .ok () q ∧
    ∃ v' u', (segRead .ss s.sp .w16).run s = .ok v' u' :=
  ⟨realData, _, _, _, _, realData_inv, rfl, rfl, rfl, _, _, rfl⟩

/-- `[0x200]` of a 32-bit address. -/
def at200 : MemRef := { seg := .ds, addr := .abs32 0x200 }

/-- Protected mode with the far pointer 8:3000 at 0x200. -/
def protPtr (sel : Byte) : State := put prot 0x200 (le4 0x3000 ++ [sel, 0])

/-- Real mode and protected mode, the pointer in memory and in the instruction. -/
theorem witness_FarTransfersComplete :
    (∃ (i : Instr) (sel : Half) (off : Word) (r t : State), realData.Inv ∧ realData.protMode = false ∧
      Claim.FarTarget .call i .s16 sel off realData r ∧ (∃ m, i = .callFarMem .s16 (.mem m)) ∧
      (pushAll .s16 [realData.segs.cs.selector.setWidth 32, realData.nextEip]).run r = .ok () t) ∧
    (∃ (i : Instr) (r u t : State) (d : Desc) (a : Word), (protPtr 8).Inv ∧ (protPtr 8).protMode = true ∧
      Claim.FarTarget .call i .s32 8 0x3000 (protPtr 8) r ∧ (∃ m, i = .callFarMem .s32 (.mem m)) ∧ nullSel 8 = false ∧
      (fetchDescriptor 8).run r = .ok (some (d, a)) u ∧ d.isCode = true ∧ d.p = true ∧
      (0x3000 : Word).toNat ≤ d.limit.toNat ∧ d.conforming = false ∧ (rpl 8).toNat ≤ (protPtr 8).cpl.toNat ∧
      d.dpl = (protPtr 8).cpl ∧
      (pushAll .s32 [(protPtr 8).segs.cs.selector.setWidth 32, (protPtr 8).nextEip]).run u = .ok () t) ∧
    Claim.FarTarget .jmp (.jmpFarPtr .s32 8 0x3000) .s32 8 0x3000 prot prot :=
  ⟨⟨_, _, _, _, _, realData_inv, rfl, .inr ⟨atBx, _, 0x30, rfl, rfl, rfl, rfl⟩, ⟨_, rfl⟩, rfl⟩,
    ⟨_, _, _, _, codeDesc, 0x1008, inv_of (by decide +kernel), rfl, .inr ⟨at200, _, 8, rfl, rfl, rfl, rfl⟩, ⟨_, rfl⟩,
      rfl, rfl, rfl, rfl, by decide +kernel, rfl, by decide +kernel, rfl, rfl⟩, .inl ⟨rfl, rfl⟩⟩

/-- A data segment, a call gate, code that is not present, code of another level, an offset just beyond the limit, and a
selector that names nothing. -/
theorem witness_FarTransferChecks : ∃ s : State, s.protMode = true ∧ nullSel 3 = true ∧ nullSel 4 = false ∧
    (∃ u, (fetchDescriptor 0x70).run s = .ok none u) ∧
    (∃ d a u, (fetchDescriptor 0x20).run s = .ok (some (d, a)) u ∧ d.cls = .data) ∧
    (∃ d a u, (fetchDescriptor 0x40).run s = .ok (some (d, a)) u ∧ d.cls = .callGate32) ∧
    (∃ d a u, (fetchDescriptor 0x50).run s = .ok (some (d, a)) u ∧ d.isCode = true ∧ d.p = false ∧ d.dpl = u.cpl) ∧
    (∃ d a u, (fetchDescriptor 0x30).run s = .ok (some (d, a)) u ∧ d.isCode = true ∧ d.dpl ≠ u.cpl) :=
  ⟨prot, rfl, rfl, rfl, ⟨_, rfl⟩, ⟨_, _, _, rfl, rfl⟩, ⟨_, _, _, rfl, rfl⟩, ⟨_, _, _, rfl, rfl, rfl, rfl⟩,
    ⟨_, _, _, rfl, rfl, by decide +kernel⟩⟩

theorem witness_FarTransferChecks_limit : ∃ (s u : State) (d : Desc) (a : Word),
    (fetchDescriptor 8).run s = .ok (some (d, a)) u ∧ d.p = true ∧ d.limit = 0xFFF ∧ d.limit.toNat < (0x1000 : Word).toNat :=
  ⟨put prot 0x1008 [0xFF, 0x0F, 0, 0, 0, 0x9A, 0x40, 0], _, parseDesc 0x00000FFF 0x00409A00, 0x1008, rfl, rfl, rfl, by decide⟩

/-- More in the GDT: at 68 a task gate to the TSS 18, at 70 one that is not present, and gates to no selector, to an LDT
selector, to an entry there is none of, to a data segment and to a TSS that is not present. -/
def gates : State :=
  let g (sel rights : Byte) : List Byte := [0, 0, sel, 0, 0, rights, 0, 0]
  put { prot with gdtr := { base := 0x1000, limit := 0x9F } } 0x1068
    (g 0x18 0x85 ++ g 0x18 0x05 ++ g 0 0x85 ++ g 0x1C 0x85 ++ g 0xB0 0x85 ++ g 0x20 0x85 ++ g 0x60 0x85)

/-- A far transfer to a TSS and to a task gate: an LDT selector cannot name one; a level that may not, a busy TSS, one that
is not present; then each check of the gate; and both switches. -/
theorem witness_FarTaskTransfers : let s := gates
    s.protMode = true ∧ Claim.FarTarget .jmp (.jmpFarPtr .s32 0x18 0) .s32 0x18 0 s s ∧
    (∃ d a u, (fetchDescriptor 0x10).run s = .ok (some (d, a)) u ∧ d.cls = .tss32Busy) ∧
    (∃ d a u, (fetchDescriptor 0x1B).run s = .ok (some (d, a)) u ∧ d.cls = .tss32Avail ∧ d.dpl.toNat < (rpl 0x1B).toNat) ∧
    (∃ d a u, (fetchDescriptor 0x60).run s = .ok (some (d, a)) u ∧ d.cls = .tss32Avail ∧ d.p = false) ∧
    (∃ d a u, (fetchDescriptor 0x18).run s = .ok (some (d, a)) u ∧ d.cls = .tss32Avail ∧ d.p = true ∧
      s.cpl.toNat ≤ d.dpl.toNat ∧ ∃ t, (switchToTask 0x18 d a .jmp s.nextEip).run twoTasks = .ok () t) ∧
    (∃ d a u, (fetchDescriptor 0x6B).run s = .ok (some (d, a)) u ∧ d.cls = .taskGate ∧ d.dpl.toNat < (rpl 0x6B).toNat) ∧
    (∃ d a u, (fetchDescriptor 0x70).run s = .ok (some (d, a)) u ∧ d.cls = .taskGate ∧ d.p = false) ∧
    (∃ d a u, (fetchDescriptor 0x78).run s = .ok (some (d, a)) u ∧ d.cls = .taskGate ∧ d.p = true ∧ nullSel d.gateSel = true) ∧
    (∃ d a u, (fetchDescriptor 0x80).run s = .ok (some (d, a)) u ∧ d.cls = .taskGate ∧ d.p = true ∧ d.gateSel.getLsbD 2 = true) ∧
    (∃ d a u v, (fetchDescriptor 0x88).run s = .ok (some (d, a)) u ∧ d.cls = .taskGate ∧
      (fetchDescriptor d.gateSel).run u = .ok none v) ∧
    (∃ d a u td ta v, (fetchDescriptor 0x90).run s = .ok (some (d, a)) u ∧ d.cls = .taskGate ∧
      (fetchDescriptor d.gateSel).run u = .ok (some (td, ta)) v ∧ td.cls = .data) ∧
    (∃ d a u td ta v, (fetchDescriptor 0x98).run s = .ok (some (d, a)) u ∧ d.cls = .taskGate ∧
      (fetchDescriptor d.gateSel).run u = .ok (some (td, ta)) v ∧ td.cls = .tss32Avail ∧ td.p = false) ∧
    (∃ d a u td ta v, (fetchDescriptor 0x68).run s = .ok (some (d, a)) u ∧ d.cls = .taskGate ∧
      (fetchDescriptor d.gateSel).run u = .ok (some (td, ta)) v ∧ td.cls = .tss32Avail ∧ td.p = true) :=
  ⟨rfl, .inl ⟨rfl, rfl⟩, ⟨_, _, _, rfl, rfl⟩, ⟨_, _, _, rfl, rfl, by decide +kernel⟩, ⟨_, _, _, rfl, rfl, rfl⟩,
    ⟨parseDesc 0x60000067 0x00008900, 0x1018, _, rfl, rfl, rfl, by decide +kernel, _, ok_is (by decide +kernel)⟩,
    ⟨_, _, _, rfl, rfl, by decide +kernel⟩, ⟨_, _, _, rfl, rfl, rfl⟩, ⟨_, _, _, rfl, rfl, rfl, rfl⟩,
    ⟨_, _, _, rfl, rfl, rfl, rfl⟩, ⟨_, _, _, _, rfl, rfl, rfl⟩, ⟨_, _, _, _, _, _, rfl, rfl, rfl, rfl⟩,
    ⟨_, _, _, _, _, _, rfl, rfl, rfl, rfl, rfl⟩, ⟨_, _, _, _, _, _, rfl, rfl, rfl, rfl, rfl⟩⟩

theorem witness_FarReturnsComplete :
    (∃ (s u : State) (ip cs : Word), s.Inv ∧ (popAll .s16 2).run s = .ok [ip, cs] u ∧ s.protMode = false) ∧
    (∃ (s u v : State) (ip : Word) (d : Desc) (a : Word), s.Inv ∧ (popAll .s32 2).run s = .ok [ip, 8] u ∧
      s.protMode = true ∧ (fetchDescriptor 8).run u = .ok (some (d, a)) v ∧ d.isCode = true ∧ rpl 8 = s.cpl ∧
      d.conforming = false ∧ d.dpl = s.cpl ∧ d.p = true) ∧
    (∃ (s u v : State) (ip : Word) (d : Desc) (a : Word), s.Inv ∧ (popAll .s32 2).run s = .ok [ip, 0x33] u ∧
      (fetchDescriptor 0x33).run u = .ok (some (d, a)) v ∧ d.isCode = true ∧ s.cpl.toNat < (rpl 0x33).toNat) ∧
    (∃ (s u v : State) (ip : Word) (d : Desc) (a : Word), s.Inv ∧ (popAll .s32 2).run s = .ok [ip, 8] u ∧
      (fetchDescriptor 8).run u = .ok (some (d, a)) v ∧ d.isCode = true ∧ (rpl 8).toNat < s.cpl.toNat) :=
  ⟨⟨realNop, _, _, _, realNop_inv, rfl, rfl⟩,
    ⟨put prot 0x7000 (le4 0x3000 ++ le4 8), _, _, 0x3000, parseDesc 0x0000FFFF 0x00CF9A00, 0x1008,
      inv_of (by decide +kernel), rfl, rfl, rfl, rfl, rfl, rfl, rfl, rfl⟩,
    ⟨put prot 0x7000 (le4 0x3000 ++ le4 0x33), _, _, 0x3000, parseDesc 0x0000FFFF 0x00CFFA00, 0x1030,
      inv_of (by decide +kernel), rfl, rfl, rfl, by decide +kernel⟩,
    ⟨put user 0x7000 (le4 0x3000 ++ le4 8), _, _, 0x3000, parseDesc 0x0000FFFF 0x00CF9A00, 0x1008,
      inv_of (by decide +kernel), rfl, rfl, rfl, by decide +kernel⟩⟩

/-- RETF in protected mode: no selector, one that names nothing, data, code that is not present, code of another level. -/
theorem witness_FarReturnsComplete_faults :
    (∃ u, (popAll .s32 2).run (put prot 0x7000 (le4 0x3000 ++ le4 0x70)) = .ok [0x3000, 0x70] u ∧ nullSel 3 = true ∧
      ∃ v, (fetchDescriptor 0x70).run u = .ok none v) ∧
    (∃ d a v, (fetchDescriptor 0x20).run prot = .ok (some (d, a)) v ∧ d.isCode = false) ∧
    (∃ d a v, (fetchDescriptor 0x30).run prot = .ok (some (d, a)) v ∧ d.isCode = true ∧ rpl 0x30 = prot.cpl ∧
      d.conforming = false ∧ d.dpl ≠ prot.cpl) ∧
    (∃ d a v, (fetchDescriptor 0x50).run prot = .ok (some (d, a)) v ∧ d.isCode = true ∧ d.conforming = false ∧
      d.dpl = prot.cpl ∧ d.p = false) :=
  ⟨⟨_, rfl, rfl, _, rfl⟩, ⟨_, _, _, rfl, rfl⟩, ⟨_, _, _, rfl, rfl, rfl, rfl, by decide +kernel⟩,
    ⟨_, _, _, rfl, rfl, rfl, rfl, rfl⟩⟩

theorem witness_SoftwareInterrupts :
    (∃ s t, (dispatch 3 .software none s.nextEip).run s = .ok () t ∧ s.v86Mode = false ∧ s.flag .of = false) ∧
    (∃ s t, (dispatch 4 .software none s.nextEip).run s = .ok () t ∧ s.flag .of = true) ∧
    (∃ s f u, (dispatch 0x21 .software none s.nextEip).run s = .error (.fault f false) u) ∧
    ∃ s : State, s.v86Mode = true ∧ s.iopl = 3 :=
  ⟨⟨realNop, _, rfl, rfl, rfl⟩, ⟨{ realNop with flags := 0x802 }, _, rfl, by decide +kernel⟩,
    ⟨{ realNop with idtr := { base := 0, limit := 0 } }, _, _, rfl⟩,
    ⟨v86Open, by decide +kernel, by decide +kernel⟩⟩

/-- The last vector that fits the table, and the first that does not. -/
theorem witness_RealModeDispatch : ∃ (s u w t : State) (off sg : Word), s.Inv ∧ s.realMode = true ∧
    s.idtr.limit.toNat < 4 * 256 + 3 ∧ 4 * 255 + 3 ≤ s.idtr.limit.toNat ∧
    (sysRead (s.idtr.base + BitVec.ofNat 32 (4 * 255)) .w16).run s = .ok off u ∧
    (sysRead (s.idtr.base + BitVec.ofNat 32 (4 * 255 + 2)) .w16).run u = .ok sg w ∧
    (pushAll .s16 [flagsValue s.flags, s.segs.cs.selector.setWidth 32, 0x100]).run w = .ok () t :=
  ⟨realNop, _, _, _, _, _, realNop_inv, rfl, by decide +kernel, by decide +kernel, rfl, rfl, rfl⟩

theorem witness_GateSameLevel : ∃ (x t : State) (g d : Desc), prot.Inv ∧ prot.protMode = true ∧
    Claim.GateReached 13 .fault prot x g d ∧ d.dpl = prot.cpl ∧
    (pushAll .s32 [flagsValue prot.flags, prot.segs.cs.selector.setWidth 32, 0x2000, 0]).run x = .ok () t :=
  ⟨_, _, _, codeDesc, prot_inv, rfl,
    ⟨0x00083000, 0x00008E00, 0x1008, _, _, by decide +kernel, rfl, rfl, rfl, by decide +kernel, (fun h => nomatch h), rfl, rfl, rfl,
      rfl, rfl, by decide +kernel⟩, rfl, rfl⟩

/-- What a dispatch turns away: beyond the limit, the first vector; no gate; a gate of level 0 for a software interrupt of
level 3; an absent gate; and handlers: none, no entry, data, of a lower level, absent. -/
theorem witness_DispatchFaults :
    let s (sel : Byte) : State := gate13 prot [0, 0x30, sel, 0, 0, 0x8E, 0, 0]
    prot.realMode = false ∧ prot.idtr.limit.toNat < 8 * 16 + 7 ∧ 8 * 15 + 7 ≤ prot.idtr.limit.toNat ∧
    (∃ lo hi u w, (sysRead (0x1800 + BitVec.ofNat 32 (8 * 12)) .w32).run prot = .ok lo u ∧
      (sysRead (0x1800 + BitVec.ofNat 32 (8 * 12 + 4)) .w32).run u = .ok hi w ∧ (parseDesc lo hi).cls ∉ [DescClass.taskGate, .intGate16, .trapGate16, .intGate32, .trapGate32]) ∧
    (∃ lo hi u w, (sysRead (0x1800 + BitVec.ofNat 32 (8 * 13)) .w32).run user = .ok lo u ∧
      (sysRead (0x1800 + BitVec.ofNat 32 (8 * 13 + 4)) .w32).run u = .ok hi w ∧ (parseDesc lo hi).cls = .intGate32 ∧
      ¬ user.cpl.toNat ≤ (parseDesc lo hi).dpl.toNat) ∧
    (∃ lo hi u w, (sysRead (0x1800 + BitVec.ofNat 32 (8 * 13)) .w32).run (gate13 prot [0, 0x30, 8, 0, 0, 0x0E, 0, 0]) = .ok lo u ∧
      (sysRead (0x1800 + BitVec.ofNat 32 (8 * 13 + 4)) .w32).run u = .ok hi w ∧ (parseDesc lo hi).cls = .intGate32 ∧
      (parseDesc lo hi).p = false) ∧
    (∃ lo hi u w, (sysRead (0x1800 + BitVec.ofNat 32 (8 * 13)) .w32).run (s 0) = .ok lo u ∧
      (sysRead (0x1800 + BitVec.ofNat 32 (8 * 13 + 4)) .w32).run u = .ok hi w ∧ (parseDesc lo hi).cls = .intGate32 ∧
      (parseDesc lo hi).p = true ∧ nullSel (parseDesc lo hi).gateSel = true) ∧
    (∃ x, (fetchDescriptor 0x70).run (s 0x70) = .ok none x) ∧
    (∃ d a x, (fetchDescriptor 0x20).run (s 0x20) = .ok (some (d, a)) x ∧ d.isCode = false) ∧
    (∃ d a x, (fetchDescriptor 0x30).run (s 0x30) = .ok (some (d, a)) x ∧ d.isCode = true ∧ (s 0).cpl.toNat < d.dpl.toNat) ∧
    (∃ d a x, (fetchDescriptor 0x50).run (s 0x50) = .ok (some (d, a)) x ∧ d.isCode = true ∧ d.dpl.toNat ≤ (s 0).cpl.toNat ∧
      d.p = false) :=
  ⟨rfl, by decide +kernel, by decide +kernel, ⟨_, _, _, _, rfl, rfl, by decide +kernel⟩,
    ⟨_, _, _, _, rfl, rfl, rfl, by decide +kernel⟩, ⟨_, _, _, _, rfl, rfl, rfl, rfl⟩,
    ⟨_, _, _, _, rfl, rfl, rfl, rfl, rfl⟩, ⟨_, rfl⟩, ⟨_, _, _, rfl, rfl⟩, ⟨_, _, _, rfl, rfl, by decide +kernel⟩,
    ⟨_, _, _, rfl, rfl, by decide +kernel, rfl⟩⟩

/-- A task gate in the IDT: no selector, one of the LDT, one that names nothing, data, an absent TSS; a switch that is turned
away, one that succeeds, and the push of an error code, which succeeds and, with a small stack segment, does not. -/
theorem witness_TaskGateDispatch :
    let s (sel : Byte) : State := taskGate13 prot sel
    let read (s u w : State) (lo hi : Word) : Prop := (sysRead (0x1800 + BitVec.ofNat 32 (8 * 13)) .w32).run s = .ok lo u ∧
      (sysRead (0x1800 + BitVec.ofNat 32 (8 * 13 + 4)) .w32).run u = .ok hi w ∧ (parseDesc lo hi).cls = .taskGate ∧
      (parseDesc lo hi).p = true
    (∃ u w lo hi, read (s 0) u w lo hi ∧ nullSel (parseDesc lo hi).gateSel = true) ∧
    (∃ u w lo hi, read (s 0x1C) u w lo hi ∧ (parseDesc lo hi).gateSel.getLsbD 2 = true) ∧
    (∃ u w lo hi x, read (s 0x70) u w lo hi ∧ (fetchDescriptor (parseDesc lo hi).gateSel).run w = .ok none x) ∧
    (∃ d a x, (fetchDescriptor 0x20).run (s 0x20) = .ok (some (d, a)) x ∧ d.cls = .data) ∧
    (∃ d a x, (fetchDescriptor 0x60).run (s 0x60) = .ok (some (d, a)) x ∧ d.cls = .tss32Avail ∧ d.p = false) ∧
    (∃ (e : Stop) (y : State), (switchToTask 0x18 (parseDesc 0x60000066 0x00008900) 0x1018 .interrupt 0x2000).run prot = .error e y) ∧
    (∃ y t : State, (switchToTask 0x18 (parseDesc 0x60000067 0x00008900) 0x1018 .interrupt 0x2000).run twoTasks = .ok () y ∧
      (pushAll .s32 [7]).run y = .ok () t) ∧
    ∃ (y t : State) (f : GuestFault) (b : Bool),
      (switchToTask 0x18 (parseDesc 0x60000067 0x00008900) 0x1018 .interrupt 0x2000).run
        (put twoTasks 0x1020 [0, 0x10, 0, 0, 0, 0x92, 0x40, 0]) = .ok () y ∧
      (pushAll .s32 [7]).run y = .error (.fault f b) t :=
  ⟨⟨_, _, _, _, ⟨rfl, rfl, rfl, rfl⟩, rfl⟩, ⟨_, _, _, _, ⟨rfl, rfl, rfl, rfl⟩, rfl⟩,
    ⟨_, _, _, _, _, ⟨rfl, rfl, rfl, rfl⟩, rfl⟩, ⟨_, _, _, rfl, rfl⟩, ⟨_, _, _, rfl, rfl, rfl⟩, ⟨_, _, rfl⟩,
    ⟨_, _, ok_is (by decide +kernel), ok_is (by decide +kernel)⟩, _, _, { kind := .ss, code := some 0, addr := none }, false,
    ok_is (by decide +kernel), rfl⟩

theorem witness_GateInnerLevel : ∃ x y t : State, user.Inv ∧ user.protMode = true ∧
    Claim.GateReached 14 .fault user x (parseDesc 0x00083100 0x00008F00) codeDesc ∧ codeDesc.conforming = false ∧
    codeDesc.dpl.toNat < user.cpl.toNat ∧ Claim.NewStack codeDesc.dpl x y 0x20 0x6000 dataDesc ∧
    (pushAll .s32 [user.segs.ss.selector.setWidth 32, user.regs.esp, flagsValue user.flags, user.segs.cs.selector.setWidth 32,
      0x2000, 7]).run
        { y with segs := { user.segs with ss := .ofDesc 0x20 dataDesc }, cpl := codeDesc.dpl,
                 regs := user.regs.setView (if dataDesc.db then .w32 else .w16) .esp 0x6000 } = .ok () t :=
  ⟨_, _, _, user_inv, rfl, ⟨0x00083100, 0x00008F00, 0x1008, _, _, by decide +kernel, rfl, rfl, rfl, by decide +kernel,
      (fun h => nomatch h), rfl, rfl, rfl, rfl, rfl, by decide +kernel⟩, rfl, by decide +kernel,
    ⟨0x20, 0x1020, _, _, rfl, by decide +kernel, rfl, rfl, rfl, rfl, rfl, rfl, rfl, rfl, rfl, rfl⟩, ok_is (by decide +kernel)⟩

/-- The new stack: a 16-bit task-state segment, a limit that ends before and with the fields of level 0, and selectors: none,
no entry, a segment of level 3, one that is not present. -/
theorem witness_NewStackChecks :
    let s (sel : Byte) : State := put user 0x5008 [sel, 0]
    (∃ x, Claim.GateReached 14 .fault user x (parseDesc 0x00083100 0x00008F00) codeDesc) ∧
    (∃ t : State, t.tr.type32 = false) ∧ (10 : Half).toNat < 8 * 0 + 11 ∧ 8 * 0 + 11 ≤ (11 : Half).toNat ∧
    user.tr.type32 = true ∧ 8 * 0 + 11 ≤ user.tr.limit.toNat ∧
    (∃ p q nesp, (sysRead (0x5000 + BitVec.ofNat 32 (4 + 8 * 0)) .w32).run (s 0) = .ok nesp p ∧
      (sysRead (0x5000 + BitVec.ofNat 32 (8 + 8 * 0)) .w16).run p = .ok 0 q ∧ nullSel 0 = true) ∧
    (∃ y, (fetchDescriptor 0x70).run (s 0x70) = .ok none y) ∧
    (∃ d a y, (fetchDescriptor 0x38).run (s 0x38) = .ok (some (d, a)) y ∧ d.cls = .data ∧ d.dpl ≠ 0) ∧
    (∃ d a y, (fetchDescriptor 0x48).run (s 0x48) = .ok (some (d, a)) y ∧ rpl 0x48 = 0 ∧ d.dpl = 0 ∧ d.cls = .data ∧
      d.type.getLsbD 1 = true ∧ d.p = false) :=
  ⟨⟨_, 0x00083100, 0x00008F00, 0x1008, _, _, by decide +kernel, rfl, rfl, rfl, by decide +kernel,
      (fun h => nomatch h), rfl, rfl, rfl, rfl, rfl, by decide +kernel⟩,
    ⟨{ user with tr := { user.tr with type32 := false } }, rfl⟩, by decide, by decide, rfl, by decide +kernel,
    ⟨_, _, _, rfl, rfl, rfl⟩, ⟨_, rfl⟩, ⟨_, _, _, rfl, rfl, by decide +kernel⟩, ⟨_, _, _, rfl, rfl, rfl, rfl, rfl, rfl⟩⟩

/-- A virtual-8086 task with the stack 20:6000 of level 0 in its TSS. -/
def v86Task : State := put { v86 with regs := { zeros with esp := 0x100 } } 0x5004 (le4 0x6000 ++ le4 0x20)

theorem v86Task_inv : v86Task.Inv := inv_of (by decide +kernel)

/-- From virtual-8086 mode: a handler of level 3, one of level 1, a 16-bit gate, and the entry. -/
theorem witness_DispatchFromV86 :
    (∃ x d, Claim.GateReached 13 .fault (gate13 v86Task [0, 0x30, 0x30, 0, 0, 0x8E, 0, 0]) x (parseDesc 0x00303000 0x00008E00) d ∧
      d.dpl = 3) ∧
    (∃ x d, Claim.GateReached 13 .fault (put v86Task 0x1008 (flatDesc 0xBA)) x (parseDesc 0x00083000 0x00008E00) d ∧
      d.conforming = false ∧ d.dpl = 1) ∧
    (∃ x, Claim.GateReached 15 .fault v86Task x (parseDesc 0x00083200 0x0000E600) codeDesc) ∧
    ∃ x y t : State, v86Task.Inv ∧ v86Task.v86Mode = true ∧
      Claim.GateReached 13 .fault v86Task x (parseDesc 0x00083000 0x00008E00) codeDesc ∧ codeDesc.conforming = false ∧
      codeDesc.dpl.toNat < v86Task.cpl.toNat ∧ Claim.NewStack 0 x y 0x20 0x6000 dataDesc ∧
      (pushAll .s32 [0, 0, 0, 0, 0, v86Task.regs.esp, flagsValue v86Task.flags, 0, 0x2000, 0]).run
        { y with segs := { v86Task.segs with ss := .ofDesc 0x20 dataDesc }, cpl := 0,
                 flags := putFlag v86Task.flags .vm false,
                 regs := v86Task.regs.setView (if dataDesc.db then .w32 else .w16) .esp 0x6000 } = .ok () t :=
  ⟨⟨_, parseDesc 0x0000FFFF 0x00CFFA00, ⟨0x00303000, 0x00008E00, 0x1030, _, _, by decide +kernel, rfl, rfl, rfl,
      by decide +kernel, (fun h => nomatch h), rfl, rfl, rfl, rfl, rfl, by decide +kernel⟩, rfl⟩,
    ⟨_, parseDesc 0x0000FFFF 0x00CFBA00, ⟨0x00083000, 0x00008E00, 0x1008, _, _, by decide +kernel, rfl, rfl, rfl,
      by decide +kernel, (fun h => nomatch h), rfl, rfl, rfl, rfl, rfl, by decide +kernel⟩, rfl, rfl⟩,
    ⟨_, ⟨0x00083200, 0x0000E600, 0x1008, _, _, by decide +kernel, rfl, rfl, rfl,
      by decide +kernel, (fun h => nomatch h), rfl, rfl, rfl, rfl, rfl, by decide +kernel⟩⟩,
    ⟨_, _, _, v86Task_inv, by decide +kernel, ⟨0x00083000, 0x00008E00, 0x1008, _, _, by decide +kernel, rfl, rfl, rfl,
      by decide +kernel, (fun h => nomatch h), rfl, rfl, rfl, rfl, rfl, by decide +kernel⟩, rfl, by decide +kernel,
      ⟨0x20, 0x1020, _, _, rfl, by decide +kernel, rfl, rfl, rfl, rfl, rfl, rfl, rfl, rfl, rfl, rfl⟩, ok_is (by decide +kernel)⟩⟩

theorem witness_IretComplete :
    (∃ (s u : State) (ip cs fl : Word), s.Inv ∧ s.protMode = false ∧ s.v86Mode = false ∧
      (popAll .s16 3).run s = .ok [ip, cs, fl] u) ∧
    (∃ s : State, s.Inv ∧ s.v86Mode = true ∧ s.iopl = 3) ∧
    (∃ (s u v : State) (d : Desc) (a : Word), s.Inv ∧ s.protMode = true ∧ s.flag .nt = false ∧
      (popAll .s32 3).run s = .ok [0x3000, 8, 0x202] u ∧ (0x202 : Word).getLsbD 17 = false ∧
      (fetchDescriptor 8).run u = .ok (some (d, a)) v ∧ d.isCode = true ∧ rpl 8 = s.cpl ∧ d.conforming = false ∧
      d.dpl = s.cpl ∧ d.p = true) :=
  ⟨⟨realNop, _, _, _, _, realNop_inv, rfl, rfl, rfl⟩,
    ⟨v86Open, v86Open_inv, by decide +kernel, by decide +kernel⟩,
    ⟨put prot 0x7000 (le4 0x3000 ++ le4 8 ++ le4 0x202), _, _, parseDesc 0x0000FFFF 0x00CF9A00, 0x1008,
      inv_of (by decide +kernel), rfl, rfl, rfl, rfl, rfl, rfl, rfl, rfl, rfl, rfl⟩⟩

/-- IRET to level 3: CS 33, SS 3B; and the stack selectors that are turned away: none, no entry, of level 0, absent. -/
theorem witness_IretOuterLevel :
    let s (ss : Byte) : State := put prot 0x7000 (le4 0x3000 ++ le4 0x33 ++ le4 0x202 ++ le4 0x5000 ++ [ss, 0, 0, 0])
    (s 0x3B).Inv ∧ (s 0x3B).protMode = true ∧ (s 0x3B).flag .nt = false ∧ (s 0x3B).cpl.toNat < (rpl 0x33).toNat ∧
    (∃ (u v w x : State) (d kd : Desc) (a ka : Word), (popAll .s32 3).run (s 0x3B) = .ok [0x3000, 0x33, 0x202] u ∧
      (fetchDescriptor 0x33).run u = .ok (some (d, a)) v ∧ d.isCode = true ∧ d.conforming = false ∧ d.dpl = rpl 0x33 ∧
      d.p = true ∧ (popAll .s32 2).run v = .ok [0x5000, 0x3B] w ∧
      (fetchDescriptor 0x3B).run w = .ok (some (kd, ka)) x ∧ rpl 0x3B = rpl 0x33 ∧ kd.dpl = rpl 0x33 ∧ kd.cls = .data ∧
      kd.type.getLsbD 1 = true ∧ kd.p = true) ∧
    (∃ u, (popAll .s32 5).run (s 0) = .ok [0x3000, 0x33, 0x202, 0x5000, 0] u ∧ nullSel 0 = true) ∧
    (∃ u, (fetchDescriptor 0x73).run (s 0x73) = .ok none u) ∧
    (∃ kd ka x, (fetchDescriptor 0x23).run (s 0x23) = .ok (some (kd, ka)) x ∧ kd.cls = .data ∧ kd.dpl ≠ rpl 0x33) ∧
    ∃ kd ka x, (fetchDescriptor 0x4B).run (put (s 0x4B) 0x1048 (flatDesc 0x72)) = .ok (some (kd, ka)) x ∧
      kd.dpl = rpl 0x33 ∧ kd.cls = .data ∧ kd.type.getLsbD 1 = true ∧ kd.p = false :=
  ⟨inv_of (by decide +kernel), rfl, rfl, by decide +kernel,
    ⟨_, _, _, _, parseDesc 0x0000FFFF 0x00CFFA00, parseDesc 0x0000FFFF 0x00CFF200, 0x1030, 0x1038, rfl, rfl, rfl, rfl, rfl,
      rfl, rfl, rfl, rfl, rfl, rfl, rfl, rfl⟩,
    ⟨_, rfl, rfl⟩, ⟨_, rfl⟩, ⟨_, _, _, rfl, rfl, by decide +kernel⟩, _, _, _, rfl, rfl, rfl, rfl, rfl⟩

theorem witness_IretToV86 : ∃ s u : State, s.Inv ∧ s.protMode = true ∧ s.flag .nt = false ∧ s.cpl = 0 ∧
    (popAll .s32 9).run s = .ok [0x100, 0x2000, 0x23202, 0xFFFE, 0x3000, 0x2000, 0x2000, 0x2000, 0x2000] u ∧
    (0x23202 : Word).getLsbD 17 = true :=
  ⟨put prot 0x7000 (le4 0x100 ++ le4 0x2000 ++ le4 0x23202 ++ le4 0xFFFE ++ le4 0x3000 ++ le4 0x2000 ++ le4 0x2000 ++
    le4 0x2000 ++ le4 0x2000), _, inv_of (by decide +kernel), rfl, rfl, rfl, rfl, by decide⟩

/-- The back link: none, of the LDT, no entry, an available TSS, a busy one that is not present, and a busy one. -/
theorem witness_IretTaskReturn :
    let s (link : Byte) : State := put { prot with flags := 0x4002 } 0x5000 [link, 0]
    (s 0x10).protMode = true ∧ (s 0x10).flag .nt = true ∧ (∃ u, (sysRead (s 0x10).tr.base .w16).run (s 0x10) = .ok 0x10 u) ∧
    nullSel 0 = true ∧ (0x14 : Half).getLsbD 2 = true ∧ (∃ w, (fetchDescriptor 0x70).run (s 0x70) = .ok none w) ∧
    (∃ d a w, (fetchDescriptor 0x18).run (s 0x18) = .ok (some (d, a)) w ∧ d.cls = .tss32Avail) ∧
    (∃ d a w, (fetchDescriptor 0x60).run (put (s 0x60) 0x1065 [0x0B]) = .ok (some (d, a)) w ∧ d.cls = .tss32Busy ∧ d.p = false) ∧
    ∃ d a w, (fetchDescriptor 0x10).run (s 0x10) = .ok (some (d, a)) w ∧ d.cls = .tss32Busy ∧ d.p = true :=
  ⟨rfl, rfl, ⟨_, rfl⟩, rfl, rfl, ⟨_, rfl⟩, ⟨_, _, _, rfl, rfl⟩, ⟨_, _, _, rfl, rfl, rfl⟩, _, _, _, rfl, rfl, rfl⟩

/-- CS of an IRET: none, no entry, data, code that is not present. -/
theorem witness_IretChecks :
    let s (cs : Byte) : State := put prot 0x7000 (le4 0x3000 ++ [cs, 0, 0, 0] ++ le4 2)
    (s 0).protMode = true ∧ (s 0).flag .nt = false ∧ (∃ u, (popAll .s32 3).run (s 0) = .ok [0x3000, 0, 2] u) ∧
    (2 : Word).getLsbD 17 = false ∧ nullSel 0 = true ∧ (∃ v, (fetchDescriptor 0x70).run (s 0x70) = .ok none v) ∧
    (∃ d a v, (fetchDescriptor 0x20).run (s 0x20) = .ok (some (d, a)) v ∧ d.isCode = false) ∧
    ∃ d a v, (fetchDescriptor 0x50).run (s 0x50) = .ok (some (d, a)) v ∧ d.isCode = true ∧ d.conforming = false ∧
      d.dpl = rpl 0x50 ∧ d.p = false :=
  ⟨rfl, rfl, ⟨_, rfl⟩, rfl, rfl, ⟨_, rfl⟩, ⟨_, _, _, rfl, rfl⟩, _, _, _, rfl, rfl, rfl, rfl, rfl⟩

theorem witness_InvalidOpcodes : (∃ s : State, s.protMode = false) ∧
    ∃ s t : State, (dispatch 6 .fault none s.startEip).run (rollback s s).latch = .ok () t :=
  ⟨⟨realNop, rfl⟩, realNop, _, rfl⟩

theorem witness_PrivilegeFaults : (∃ s : State, s.realMode = false ∧ s.cpl ≠ 0 ∧ s.protMode = true ∧ s.iopl.toNat < s.cpl.toNat) ∧
    ∃ s : State, s.v86Mode = true ∧ s.iopl ≠ 3 :=
  ⟨⟨user, by decide +kernel, by decide +kernel, by decide +kernel, by decide +kernel⟩, v86, by decide +kernel, by decide +kernel⟩

/-- CLI, STI, PUSHF and POPF: real mode, virtual-8086 mode at IOPL 3, and protected mode with CPL at IOPL. -/
theorem witness_FlagControlComplete : (∃ s : State, s.Inv ∧ s.realMode = true) ∧
    (∃ s : State, s.Inv ∧ s.v86Mode = true ∧ s.iopl = 3) ∧
    ∃ s : State, s.Inv ∧ s.protMode = true ∧ s.cpl.toNat = 3 ∧ s.iopl.toNat = 3 :=
  ⟨⟨realNop, realNop_inv, rfl⟩,
    ⟨v86Open, v86Open_inv, by decide +kernel, by decide +kernel⟩,
    { user with flags := 0x3002 }, inv_of (by decide +kernel), by decide +kernel, by decide +kernel, by decide +kernel⟩

theorem witness_PushfAndPopfComplete : ∃ (s t u : State) (v : Word), s.Inv ∧ s.v86Mode = false ∧
    (segWrite .ss (s.pushSp .s16) .w16 (flagsValue s.flags &&& 0xFFFF)).run s = .ok () t ∧
    (segRead .ss s.sp .w16).run s = .ok v u :=
  ⟨realNop, _, _, _, realNop_inv, rfl, rfl, rfl⟩

/-- MOV CR0 with paging and protection, with neither, and with paging alone, which faults. -/
theorem witness_SystemComplete : (∃ s : State, s.realMode = true) ∧ (∃ s : State, s.realMode = false ∧ s.cpl = 0) ∧
    ((0x80000001 : Word).getLsbD 31 = true ∧ (0x80000001 : Word).getLsbD 0 = true) ∧ (0 : Word).getLsbD 31 = false ∧
    ((0x80000000 : Word).getLsbD 31 = true ∧ (0x80000000 : Word).getLsbD 0 = false) :=
  ⟨⟨realNop, rfl⟩, ⟨prot, rfl, rfl⟩, by decide, by decide, by decide⟩

theorem witness_TableRegistersComplete : ∃ (s u t v w : State) (lim base : Word), s.Inv ∧ s.realMode = true ∧
    (segRead .ds (s.off atBx) .w16).run s = .ok lim u ∧
    (segRead .ds (trunc (addrSize atBx.addr).width (s.off atBx + 2)) .w32).run u = .ok base t ∧
    (segWrite .ds (s.off atBx) .w16 (s.gdtr.limit.setWidth 32)).run s = .ok () v ∧
    (segWrite .ds (trunc (addrSize atBx.addr).width (s.off atBx + 2)) .w32 s.gdtr.base).run v = .ok () w :=
  ⟨realData, _, _, _, _, _, _, realData_inv, rfl, rfl, rfl, rfl, rfl⟩

/-- LLDT: null, an LDT selector, none, another descriptor, not present, and present. -/
theorem witness_SystemSegmentRegistersComplete : ∃ s : State, s.Inv ∧ s.protMode = true ∧ s.cpl = 0 ∧
    (∃ v u, (readRM .w16 (.reg .eax)).run s = .ok v u) ∧ nullSel 3 = true ∧ selTI 4 = true ∧ nullSel 4 = false ∧
    (∃ t, (fetchDescriptor 0x70).run s = .ok none t) ∧
    (∃ d a t, (fetchDescriptor 0x20).run s = .ok (some (d, a)) t ∧ d.cls ≠ .ldt ∧ d.cls ≠ .tss32Avail) ∧
    (∃ d a t, (fetchDescriptor 0x58).run s = .ok (some (d, a)) t ∧ d.cls = .ldt ∧ d.p = false) ∧
    (∃ d a t, (fetchDescriptor 0x28).run s = .ok (some (d, a)) t ∧ d.cls = .ldt ∧ d.p = true) ∧
    (∃ d a t, (fetchDescriptor 0x60).run s = .ok (some (d, a)) t ∧ d.cls = .tss32Avail ∧ d.p = false) ∧
    (∃ d t b x y, (fetchDescriptor 0x18).run s = .ok (some (d, 0x1018)) t ∧ d.cls = .tss32Avail ∧ d.p = true ∧
      (sysRead (0x1018 + 5) .w8).run t = .ok b x ∧ (sysWrite (0x1018 + 5) .w8 (b ||| 2)).run x = .ok () y) ∧
    ∃ t, (writeRM .w16 (.mem { seg := .ds, addr := .abs32 0x200 }) 5).run s = .ok () t :=
  ⟨prot, prot_inv, rfl, rfl, ⟨_, _, rfl⟩, rfl, rfl, rfl, ⟨_, rfl⟩,
    ⟨_, _, _, rfl, by decide +kernel, by decide +kernel⟩, ⟨_, _, _, rfl, rfl, rfl⟩, ⟨_, _, _, rfl, rfl, rfl⟩,
    ⟨_, _, _, rfl, rfl, rfl⟩, ⟨_, _, _, _, _, rfl, rfl, rfl, rfl, rfl⟩, _, rfl⟩

/-- ARPL: the destination's RPL below the source's, and equal to it. -/
theorem witness_ArplComplete : ∃ (s u : State) (v : Word), s.Inv ∧ s.protMode = true ∧
    (readDst .w16 (.reg .eax)).run s = .ok v u ∧ v.toNat % 4 < (s.reg .w16 .ecx).toNat % 4 ∧
    (s.reg .w16 .edx).toNat % 4 ≤ v.toNat % 4 ∧ ∃ t, (writeDst .w16 (.reg .eax) 0x23).run u = .ok () t :=
  ⟨{ prot with regs := { zeros with eax := 0x21, ecx := 2, edx := 1 } }, _, _, inv_of (by decide +kernel), rfl, rfl,
    by decide +kernel, by decide +kernel, _, rfl⟩

/-- Real mode, virtual-8086 mode, and in protected mode: null, none, a segment that fits, one that does not, and one that
is not present. -/
theorem witness_SegmentLoads : (∃ s : State, s.realMode = true) ∧ (∃ s : State, s.v86Mode = true) ∧
    ∃ s : State, s.protMode = true ∧ nullSel 3 = true ∧ (∃ u, (fetchDescriptor 0x70).run s = .ok none u) ∧
      (∃ d a u, (fetchDescriptor 0x20).run s = .ok (some (d, a)) u ∧ d.cls = .data ∧ d.type.getLsbD 1 = true ∧
        rpl 0x20 = u.cpl ∧ d.dpl = u.cpl ∧ d.p = true) ∧
      (∃ d a u, (fetchDescriptor 0x18).run s = .ok (some (d, a)) u ∧ d.cls ≠ .data ∧ d.cls ≠ .code) ∧
      (∃ d a u, (fetchDescriptor 0x48).run s = .ok (some (d, a)) u ∧ d.cls = .data ∧ d.type.getLsbD 1 = true ∧
        rpl 0x48 = u.cpl ∧ d.dpl = u.cpl ∧ d.p = false) :=
  ⟨⟨realNop, rfl⟩, ⟨v86, by decide +kernel⟩, prot, rfl, rfl, ⟨_, rfl⟩, ⟨_, _, _, rfl, rfl, rfl, rfl, rfl, rfl⟩,
    ⟨_, _, _, rfl, by decide +kernel, by decide +kernel⟩, ⟨_, _, _, rfl, rfl, rfl, rfl, rfl, rfl⟩⟩

/-- The last entry of the GDT and the first beyond it; and an LDT selector while LDTR is invalid. -/
theorem witness_DescriptorFetch : ∃ (s u t : State) (lo hi : Word), s.gdtr.limit.toNat = 12 * 8 + 7 ∧
    s.gdtr.limit.toNat < 13 * 8 + 7 ∧ (0x64 : Half).getLsbD 2 = true ∧ s.ldtr.valid = false ∧
    (sysRead (s.gdtr.base + BitVec.ofNat 32 (12 * 8)) .w32).run s = .ok lo u ∧
    (sysRead (s.gdtr.base + BitVec.ofNat 32 (12 * 8) + 4) .w32).run u = .ok hi t :=
  ⟨prot, _, _, _, _, rfl, by decide +kernel, by decide, rfl, rfl, rfl⟩

/-- The last word inside the limit, and the first beyond it; code and data, readable and not, valid and not. -/
theorem witness_SegmentChecks : ∃ s : State, (s.seg .ds).valid = true ∧ (s.seg .ds).readable = true ∧
    (s.seg .ds).writable = true ∧ (s.seg .ds).type.getLsbD 3 = false ∧
    ((0xFFFE : Word).toNat + Width.bytes .w16 - 1 ≤ (s.seg .ds).limitMax.toNat ∧
      ¬ (0xFFFF : Word).toNat + Width.bytes .w16 - 1 ≤ (s.seg .ds).limitMax.toNat) ∧
    (∃ t : State, (t.seg .ds).valid = false) ∧ (∃ t : State, (t.seg .ds).valid = true ∧ (t.seg .ds).readable = false) ∧
    (∃ t : State, (t.seg .ss).valid = true ∧ (t.seg .ss).readable = false ∧ (t.seg .ss).type.getLsbD 3 = false ∧
      (t.seg .ss).writable = false) ∧
    ∃ t : State, (t.seg .cs).valid = true ∧ (t.seg .cs).type.getLsbD 3 = true ∧ t.protMode = true :=
  ⟨realNop, rfl, rfl, rfl, rfl, by decide +kernel,
    ⟨realNop.setSeg .ds { SegReg.resetData with valid := false }, rfl⟩,
    ⟨realNop.setSeg .ds { SegReg.resetData with readable := false }, rfl, rfl⟩,
    ⟨realNop.setSeg .ss { SegReg.resetData with readable := false, writable := false }, rfl, rfl, rfl, rfl⟩,
    prot, rfl, rfl, rfl⟩

/-- D17 and R220: rights that fail through SS are `#SS(0)`, and through DS `#GP(0)`. -/
theorem test_rights_through_ss :
    let shut : SegReg := { SegReg.resetData with readable := false, writable := false }
    let s := (realNop.setSeg .ss shut).setSeg .ds shut
    let fault (k : FaultKind) : Stop := .fault { kind := k, code := some 0, addr := none } false
    (push .s16 0).run s = .error (fault .ss) s ∧ (pop .s16).run s = .error (fault .ss) s ∧
    (segWrite .ds 0 .w8 0).run s = .error (fault .gp) s ∧ (segRead .ds 0 .w8).run s = .error (fault .gp) s :=
  ⟨rfl, rfl, rfl, rfl⟩

theorem witness_OperandReads : ∃ (s t u : State) (v w : Word), s.Inv ∧ (readRM .w32 (.mem atBx)).run s = .ok v t ∧
    (readDst .w32 (.mem atBx)).run s = .ok w u :=
  ⟨realData, _, _, _, _, realData_inv, rfl, rfl⟩

theorem witness_StoreThenLoad : ∃ s : State, s.Inv ∧ s.pg = false ∧ Width.fits .w32 0x12345678 = true ∧
    ∀ k, k < Width.bytes .w32 →
      regionAt s.physMap (((0x10FFE : Word) + BitVec.ofNat 32 k) &&& s.a20Mask).toNat = some .ram :=
  ⟨realNop, realNop_inv, rfl, rfl, by
    intro k h
    match k, h with
    | 0, _ => rfl
    | 1, _ => rfl
    | 2, _ => rfl
    | 3, _ => rfl⟩

/-- The state after the walk of R113's example: the page 0x401 is in the TLB, clean, and read-only for the user. -/
def walked : State := match (translate 0x401234 false true).run paged with
  | .ok _ t => t
  | .error _ t => t

theorem witness_TranslationFromTlb : (∃ s : State, s.pg = false) ∧
    (∃ s : State, s.pg = true ∧ Assoc.get ((0x401234 : Word).toNat / 4096) s.tlb = none) ∧
    (∃ (s : State) (e : TlbEntry), s.pg = true ∧ Assoc.get ((0x401234 : Word).toNat / 4096) s.tlb = some e ∧
      e.supervisorOnly = false ∧ e.readOnly = true ∧ e.dirty = false) ∧
    ∃ (s : State) (e : TlbEntry), s.pg = true ∧ Assoc.get ((0x401234 : Word).toNat / 4096) s.tlb = some e ∧
      e.readOnly = true ∧ e.dirty = true :=
  ⟨⟨realNop, rfl⟩, ⟨paged, rfl, rfl⟩, ⟨walked, _, by decide +kernel, rfl, rfl, rfl, rfl⟩,
    { paged with tlb := [(0x401, { physBase := 0x80000, readOnly := true, supervisorOnly := false, dirty := true })] }, _,
    rfl, rfl, rfl, rfl⟩

/-- A missing directory entry, a missing table entry, a read-only page, and a page. -/
theorem witness_PageWalk :
    (∃ (s u : State) (pde : Word), (memRead (((s.cr3 &&& 0xFFFFF000) ||| (((0x801234 : Word) >>> 22) <<< 2)) &&& s.a20Mask) .w32).run s
      = .ok pde u ∧ pde.getLsbD 0 = false) ∧
    (∃ (s u v : State) (pde pte : Word),
      (memRead (((s.cr3 &&& 0xFFFFF000) ||| (((0x400234 : Word) >>> 22) <<< 2)) &&& s.a20Mask) .w32).run s = .ok pde u ∧
      pde.getLsbD 0 = true ∧
      (memRead (((pde &&& 0xFFFFF000) ||| ((((0x400234 : Word) >>> 12) &&& 0x3FF) <<< 2)) &&& s.a20Mask) .w32).run u
        = .ok pte v ∧ pte.getLsbD 0 = false) ∧
    (∃ (s u v : State) (pde pte : Word),
      (memRead (((s.cr3 &&& 0xFFFFF000) ||| (((0x401234 : Word) >>> 22) <<< 2)) &&& s.a20Mask) .w32).run s = .ok pde u ∧
      pde.getLsbD 0 = true ∧
      (memRead (((pde &&& 0xFFFFF000) ||| ((((0x401234 : Word) >>> 12) &&& 0x3FF) <<< 2)) &&& s.a20Mask) .w32).run u
        = .ok pte v ∧ pte.getLsbD 0 = true ∧ (pde.getLsbD 1 && pte.getLsbD 1) = false ∧
        (pde.getLsbD 2 && pte.getLsbD 2) = true) :=
  ⟨⟨paged, _, _, rfl, by decide +kernel⟩, ⟨paged, _, _, _, _, rfl, by decide +kernel, rfl, by decide +kernel⟩,
    ⟨paged, _, _, _, _, rfl, by decide +kernel, rfl, by decide +kernel, by decide +kernel, by decide +kernel⟩⟩

theorem witness_TranslationRepeats : ∃ (s t : State) (p : Word), s.Inv ∧ s.pg = true ∧
    (translate 0x401234 false true).run s = .ok p t :=
  ⟨paged, _, _, inv_of (by decide +kernel), rfl, rfl⟩

/-- The vectors 0 to 8 have entries, 13 has none: `#GP` escalates, and the handler of `#DF` exists; with no entries at all
that dispatch fails too; and a second fault of the benign `#UD` does not escalate. -/
theorem witness_FaultDispatch :
    let gp : GuestFault := { kind := .gp, code := some 0, addr := none }
    let ud : GuestFault := { kind := .ud, code := none, addr := none }
    let small : State := { realNop with idtr := { base := 0, limit := 4 * 8 + 3 } }
    let empty : State := { realNop with idtr := { base := 0, limit := 0 } }
    (∃ t, (dispatch ud.kind.vector .fault ud.code 0x100).run small.latch = .ok () t) ∧
    (∃ t u, (dispatch gp.kind.vector .fault gp.code 0x100).run small.latch = .error (.fault gp false) t ∧
      (dispatch 8 .fault (some 0) 0x100).run (rollback small.latch t).latch = .ok () u) ∧
    (∃ t u f3, (dispatch gp.kind.vector .fault gp.code 0x100).run empty.latch = .error (.fault gp false) t ∧
      (dispatch 8 .fault (some 0) 0x100).run (rollback empty.latch t).latch = .error (.fault f3 false) u) ∧
    (∃ t, (dispatch ud.kind.vector .fault ud.code 0x100).run empty.latch = .error (.fault gp false) t ∧
      ud.kind ∉ [FaultKind.de, .ts, .np, .ss, .gp] ∧ ud.kind ≠ .pf) :=
  ⟨⟨_, rfl⟩, ⟨_, _, rfl, rfl⟩, ⟨_, _, _, rfl, rfl⟩, _, rfl, by decide, by decide⟩

/-- A second fault past the commit point, where vector 13 or 6 is a task gate and the incoming task's CS or DS names
nothing: it escalates and `#DF` has no handler, has one, or goes through a task gate and fails past the commit point too; it
does not escalate; and a dispatch that is refused, the first or that of `#DF`. -/
theorem witness_FaultEscalation_past :
    let gp : GuestFault := { kind := .gp, code := some 0, addr := none }
    let ud : GuestFault := { kind := .ud, code := none, addr := none }
    let ts : GuestFault := { kind := .ts, code := some 0x70, addr := none }
    let bad (field : Nat) : State := taskGate13 (put twoTasks field [0x70]) 0x18
    let taskGate (s : State) (v : Nat) (sel : Byte) : State := put s (0x1800 + 8 * v) [0, 0, sel, 0, 0, 0x85, 0, 0]
    let old (s : State) : State := { s with tr := { s.tr with type32 := false } }
    let at8 (s : State) := (dispatch 8 .fault (some 0) s.eip).run s.latch
    (∃ t u f3, (dispatch gp.kind.vector .fault gp.code 0x100).run (bad 0x604C).latch = .error (.fault ts true) t ∧
      at8 t = .error (.fault f3 false) u) ∧
    (∃ t u, (dispatch gp.kind.vector .fault gp.code 0x100).run
        (put (bad 0x6054) 0x1840 [0, 0x30, 8, 0, 0, 0x8E, 0, 0]).latch = .error (.fault ts true) t ∧ at8 t = .ok () u) ∧
    (∃ t u f3, (dispatch gp.kind.vector .fault gp.code 0x100).run
        (taskGate (put (bad 0x6054) 0x1065 [0x89]) 8 0x60).latch = .error (.fault ts true) t ∧
      at8 t = .error (.fault f3 true) u) ∧
    (∃ t, (dispatch ud.kind.vector .fault ud.code 0x100).run (taskGate (bad 0x6054) 6 0x18).latch = .error (.fault ts true) t) ∧
    (∃ x t, (dispatch gp.kind.vector .fault gp.code 0x100).run (old (bad 0x6054)).latch = .error (.refuse x) t) ∧
    ∃ x f2 t u, (dispatch 12 .fault (some 0) 0x100).run (old (taskGate prot 8 0x18)).latch = .error (.fault f2 false) t ∧
      (dispatch 8 .fault (some 0) 0x100).run (rollback (old (taskGate prot 8 0x18)).latch t).latch = .error (.refuse x) u :=
  ⟨⟨_, _, { kind := .gp, code := some 0x43, addr := none }, fault_is (by decide +kernel), fault_is (by decide +kernel)⟩,
    ⟨_, _, fault_is (by decide +kernel), ok_is (by decide +kernel)⟩,
    ⟨_, _, { kind := .ts, code := some 0x70, addr := none }, fault_is (by decide +kernel), fault_is (by decide +kernel)⟩,
    ⟨_, fault_is (by decide +kernel)⟩, ⟨_, _, rfl⟩, _, _, _, _, rfl, rfl⟩

theorem witness_TaskSaved : ∃ s t : State, s.Inv ∧ (switchStep2 .jmp 0x2007).run s = .ok () t :=
  ⟨twoTasks, _, twoTasks_inv, rfl⟩

theorem witness_TaskLoaded : ∃ (s u t : State) (d : Desc), (fetchDescriptor 0x18).run s = .ok (some (d, 0x1018)) u ∧
    (switchToTask 0x18 d 0x1018 .jmp 0x2007).run u = .ok () t :=
  ⟨twoTasks, _, _, parseDesc 0x60000067 0x00008900, ok_is (by decide +kernel), ok_is (by decide +kernel)⟩

theorem witness_TaskImageRead : ∃ (t : State) (m : TaskImage), twoTasks.Inv ∧ (readTaskImage 0x6000).run twoTasks = .ok m t :=
  ⟨_, _, twoTasks_inv, rfl⟩

theorem witness_TaskLinksWritten : twoTasks.Inv ∧ (∃ t, (switchStep1 .call).run twoTasks = .ok () t) ∧
    (∃ t, (switchStep1 .jmp).run twoTasks = .ok () t) ∧ (∃ t, (switchStep3 .call tssDesc).run twoTasks = .ok () t) ∧
    (∃ t, (switchStep3 .iret tssDesc).run twoTasks = .ok () t) ∧ (∃ t, (switchStep56 .iret 0x1018).run twoTasks = .ok () t) ∧
    ∃ t, (switchStep56 .call 0x1018).run twoTasks = .ok () t :=
  ⟨twoTasks_inv, ⟨_, rfl⟩, ⟨_, rfl⟩, ⟨_, rfl⟩, ⟨_, rfl⟩, ⟨_, rfl⟩, _, rfl⟩

/-- Selectors: none, of the LDT, that name nothing, and descriptors of each kind; and a task in virtual-8086 mode whose LDT
selector is none, and one whose names nothing. -/
theorem witness_TaskSegmentLoads : nullSel 3 = true ∧ (nullSel 4 = false ∧ (4 : Half).getLsbD 2 = true) ∧
    (∃ u, (fetchDescriptor 0x70).run prot = .ok none u) ∧
    (∃ d a u, (fetchDescriptor 0x28).run prot = .ok (some (d, a)) u ∧ d.cls = .ldt ∧ d.p = true) ∧
    (∃ d a u, (fetchDescriptor 8).run prot = .ok (some (d, a)) u ∧ d.isCode = true ∧ d.conforming = false ∧ d.dpl = rpl 8 ∧
      d.p = true) ∧
    (∃ d a u, (fetchDescriptor 0x20).run prot = .ok (some (d, a)) u ∧ d.cls = .data ∧ d.type.getLsbD 1 = true ∧
      rpl 0x20 = prot.cpl ∧ d.dpl = prot.cpl ∧ d.p = true) ∧
    (∃ d a u, (fetchDescriptor 0x48).run prot = .ok (some (d, a)) u ∧ d.p = false) ∧
    twoTasks.flag .vm = false ∧ v86.flag .vm = true ∧ (∃ u, (switchLdt 0).run v86 = .ok () u) ∧
    ∃ e u, (switchLdt 0x70).run v86 = .error e u :=
  ⟨rfl, ⟨rfl, rfl⟩, ⟨_, rfl⟩, ⟨_, _, _, rfl, rfl, rfl⟩, ⟨_, _, _, rfl, rfl, rfl, rfl, rfl⟩,
    ⟨_, _, _, rfl, rfl, rfl, rfl, rfl, rfl⟩, ⟨_, _, _, rfl, rfl⟩, rfl, by decide +kernel, ⟨_, rfl⟩, _, _, rfl⟩

/-- The first eight pages map to themselves; the incoming task's page directory is empty. -/
def pagedTasks : State :=
  { put (put twoTasks 0x3000 (le4 0x4007)) 0x4000 ((List.range 8).flatMap fun i => le4 (BitVec.ofNat 32 (4096 * i + 7))) with
    cr0 := 0x80000001, cr3 := 0x3000 }

/-- A 16-bit task register; a limit just too small; a fault while the outgoing state is saved, one of the busy bit past the
commit point, one of a segment load; and a whole switch. -/
theorem witness_TaskSwitchSteps :
    let first (s : State) := (do switchStep1 .jmp; switchStep2 .jmp 0; switchStep3 .jmp tssDesc; readTaskImage 0x6000 : Op TaskImage).run s
    (∃ t : State, t.tr.type32 = false) ∧ twoTasks.tr.type32 = true ∧ tssDesc.cls = .tss32Avail ∧
    (parseDesc 0x60000066 0x00008900).limit.toNat < 103 ∧ 103 ≤ tssDesc.limit.toNat ∧
    (∃ e u, first { paged with tr := { paged.tr with base := 0x100 } } = .error e u) ∧
    (isOk (first twoTasks) = true ∧ isOk (first pagedTasks) = true) ∧
    (∃ f b w, (switchStep56 .jmp 0x1018).run { pagedTasks with cr3 := 0xA000, mem := (put pagedTasks 0xA000 (le4 0)).mem } =
      .error (.fault f b) w) ∧
    (∃ w, (switchStep56 .jmp 0x1018).run twoTasks = .ok () w) ∧
    (∃ f b t, (switchCs 0x70).run twoTasks = .error (.fault f b) t) ∧
    ∃ t, (switchToTask 0x18 tssDesc 0x1018 .jmp 0x2007).run twoTasks = .ok () t :=
  ⟨⟨{ prot with tr := { prot.tr with type32 := false } }, rfl⟩, rfl, rfl, by decide +kernel, by decide +kernel,
    ⟨_, _, rfl⟩, ⟨by decide +kernel, by decide +kernel⟩, ⟨_, _, _, rfl⟩, ⟨_, rfl⟩, ⟨_, _, _, rfl⟩, _,
    ok_is (by decide +kernel)⟩

/-- T7: a far JMP to an available TSS switches tasks. -/
theorem test_task_switch : after (put { twoTasks with regs := { zeros with eax := 0xA0, esp := 0x7000 } } 0x2000
    [0xEA, 0, 0, 0, 0, 0x18, 0])
    (fun t => (bytes t 0x1015 1, bytes t 0x101D 1, bytes t 0x5020 12, [t.eip, t.cr3, t.regs.edi])) =
    some ([0x89], [0x8B], le4 0x2007 ++ le4 2 ++ le4 0xA0, [0x4000, 0x3000, 0x88888888]) := by decide +kernel

theorem witness_DecodeEncode : ∃ i : Instr, i.wf = true := ⟨.movRegRm .w32 .eax (.mem atBx), rfl⟩

/-- A step that begins a block, and one in a block that is running. -/
theorem witness_StepRunsDecoded :
    (∃ (s u : State), s.shutdown = false ∧ s.inBlock = false ∧ s.halted = false ∧ s.pending = [] ∧
      (fetchBytes 1 0).run { s with
        cycles := 0, inBlock := true
        blockParas := blockAhead s.blockPlan { s with cycles := 0, blockParas := [] }
        startEip := s.eip, startEsp := s.regs.esp } = .ok [0x90] u ∧
      (decInstr s.codeSize).run [0x90] = .ok .nop []) ∧
    (∃ (s u : State), s.shutdown = false ∧ s.inBlock = true ∧
      (fetchBytes 1 0).run { s with startEip := s.eip, startEsp := s.regs.esp } = .ok [0x60] u ∧
      (decInstr s.codeSize).run [0x60] = .unadmitted ∧ (decInstr s.codeSize).run (([0x60] : List Byte).take 0) = .more) :=
  ⟨⟨realNop, _, rfl, rfl, rfl, rfl, rfl, by decide +kernel⟩,
    ⟨{ realWith { zeros with esp := 0x800 } [0x60] with inBlock := true }, _, rfl, rfl, rfl, by decide +kernel, by decide +kernel⟩⟩

/-- The last byte inside the limit. -/
theorem witness_FetchReadsMemory : ∃ s : State, s.pg = false ∧ s.segs.cs.size32 = false ∧
    s.segs.cs.limitMin.toNat ≤ (0xFFFF : Word).toNat ∧ (0xFFFF : Word).toNat = s.segs.cs.limitMax.toNat ∧
    s.startEip = 0xFFFF ∧ regionAt s.physMap ((s.segs.cs.base + s.startEip) &&& s.a20Mask).toNat = some .ram :=
  ⟨{ realNop with startEip := 0xFFFF }, rfl, rfl, by decide +kernel, rfl, rfl, rfl⟩

/-- A byte outside the limits of CS, where the instruction begins and after its first byte; a 16th byte; and a page there
is none of. -/
theorem witness_FetchFaults :
    let cut (s : State) : State := { s with segs := { s.segs with cs := { s.segs.cs with limitMax := 0x100 } } }
    ¬ (0x101 : Word).toNat ≤ (cut realNop).segs.cs.limitMax.toNat ∧
    (∃ u e t, (fetchBytes 1 0).run (cut realNop) = .ok [0x90] u ∧ (fetchByte 1).run u = .error e t) ∧
    ∃ e u, (translate (paged.segs.cs.base + 0x800000) false (decide (paged.cpl = 3))).run paged = .error e u :=
  ⟨by decide +kernel, ⟨_, _, _, rfl, rfl⟩, _, _, rfl⟩

/-- A fetch that faults at its first byte, and at its 16th, after 15 prefixes. -/
theorem witness_StepTakesFetchFault :
    let cut (s : State) : State := { s with segs := { s.segs with cs := { s.segs.cs with limitMax := 0xFF } } }
    (∃ (b t : State) (f : GuestFault), Claim.Fetches { cut realNop with inBlock := true } b ∧
      (decInstr .s16).run [] = .more ∧ (fetchByte 0).run b = .error (.fault f false) t) ∧
    ∃ (b u t : State) (bs : List Byte) (f : GuestFault),
      Claim.Fetches { realWith { zeros with esp := 0x800 } (List.replicate 16 0x66) with inBlock := true } b ∧
      (fetchBytes 15 0).run b = .ok bs u ∧ bs.length = 15 ∧ (decInstr .s16).run bs = .more ∧
      (fetchByte 15).run u = .error (.fault f false) t :=
  ⟨⟨_, _, _, ⟨rfl, _, rfl, .inl ⟨rfl, rfl⟩⟩, rfl, rfl⟩,
    _, _, _, _, _, ⟨rfl, _, rfl, .inl ⟨rfl, rfl⟩⟩, ok_of (by decide +kernel), by decide +kernel, by decide +kernel, rfl⟩

/-- R130: the second byte of the instruction lies beyond the limit: `#GP(0)`, with its own address to return to. -/
theorem test_fetch_beyond_limit :
    let s := handlers (realWith { zeros with esp := 0x800 } [0xB0, 0x05])
    after { s with segs := { s.segs with cs := { s.segs.cs with limitMax := 0x100 } } }
      (fun t => (t.eip, t.regs.eax, bytes t 0x7FA 2)) = some (0x100D, 0, [0x00, 0x01]) := by decide +kernel

/-- R130: 15 prefixes and one byte more. -/
theorem test_fetch_sixteenth_byte :
    after (handlers (realWith { zeros with esp := 0x800 } (List.replicate 15 0x66 ++ [0x90])))
      (fun t => (t.eip, bytes t 0x7FA 2)) = some (0x100D, [0x00, 0x01]) := by decide +kernel

/-- R220 and R505: a POP beyond the limit of SS is `#SS(0)`, dispatched on the stack as it was. -/
theorem test_pop_fault_keeps_the_stack :
    after (handlers (realWith { zeros with eax := 7, esp := 0xFFFF } [0x58]))
      (fun t => (t.eip, t.regs.eax, t.regs.esp, bytes t 0xFFF9 2)) = some (0x100C, 7, 0xFFF9, [0x00, 0x01]) := by
  decide +kernel

/-- An access that faults, in a state. -/
def Faults {α : Type} (s : State) (access : Op α) : Prop := ∃ f t, access.run s = .error (.fault f false) t

/-- R0 with operands and stack at the end of their segments. -/
def edge : State := { realNop with regs := { zeros with ebx := 0xFFFF, esp := 0xFFFF, esi := 0xFFFF, edi := 0xFFFF } }

/-- `[00401234]`, a page the user may read and not write. -/
def atPage : MemRef := { seg := .ds, addr := .abs32 0x401234 }

/-- The same memory at the user's level. -/
def userPaged : State := { paged with cpl := 3, regs := { zeros with esp := 0x401000 } }

/-- The accesses whose faults are spoken of by ArithmeticComplete, CompareAndUnaryComplete, MultiplyComplete, DivideLaw,
SignedDivideLaw, ShiftsComplete, MoveComplete, SegmentMovesComplete, LoadsAndExchangesComplete, PushAndPopComplete,
StringsComplete, JumpsComplete, CallsAndReturnsComplete, FarReturnsComplete, IretComplete, PushfAndPopfComplete,
TableRegistersComplete: a read, a read before a write, a write, the write back that faults where the read did not, a push, a
pop, several pops, a segment load and a string element. -/
theorem witness_accesses_that_fault :
    Faults edge (readRM .w16 (.mem atBx)) ∧ Faults edge (AluForm.src (.regRm .w16 .eax (.mem atBx))) ∧
    Faults edge (readDst .w32 (.mem atBx)) ∧ Faults edge (segRead .ds 0xFFFF .w16) ∧ Faults edge (writeRM .w16 (.mem atBx) 5) ∧
    Faults edge (segWrite .ds 0xFFFF .w16 0) ∧
    (∃ a u, (readDst .w32 (.mem atPage)).run userPaged = .ok a u ∧ Faults u (writeDst .w32 (.mem atPage) 1)) ∧
    (let s : State := { edge with regs := { zeros with esp := 1 } }
     Faults s (segWrite .ss (s.pushSp .s16) .w16 5) ∧ Faults s (pushAll .s16 [1, 2])) ∧
    Faults edge (segRead .ss edge.sp .w16) ∧ Faults edge (popAll .s16 2) ∧ Faults edge (popAll .s16 3) ∧
    Faults prot (loadSeg .ds 0x70) ∧
    (∃ body, repeated (.movsw .s16 .none .s16 .ds) = some (.none, false, .s16, body) ∧ Faults edge body) :=
  ⟨⟨_, _, rfl⟩, ⟨_, _, rfl⟩, ⟨_, _, rfl⟩, ⟨_, _, rfl⟩, ⟨_, _, rfl⟩, ⟨_, _, rfl⟩, ⟨_, _, rfl, _, _, rfl⟩,
    ⟨⟨_, _, rfl⟩, _, _, rfl⟩, ⟨_, _, rfl⟩, ⟨_, _, rfl⟩, ⟨_, _, rfl⟩, ⟨_, _, rfl⟩, _, rfl, _, _, rfl⟩

/-- FarTransfersComplete and TableRegistersComplete: the first part is read and the second is beyond the limit.
FarTransferChecks, FarReturnsComplete, IretComplete and SystemSegmentRegistersComplete: the table lies in a page there is none
of. ArplComplete: the operand of a protected-mode segment that is too small. -/
theorem witness_second_accesses_that_fault :
    (let s : State := { edge with regs := { edge.regs with ebx := 0xFFFD } }
     ∃ v u, (segRead .ds (s.off atBx) .w16).run s = .ok v u ∧ Faults u (segRead .ds (trunc .w16 (s.off atBx + 2)) .w16)) ∧
    (let s : State := { edge with regs := { edge.regs with ebx := 0xFFFB } }
     (∃ v u, (segRead .ds (s.off atBx) .w16).run s = .ok v u ∧ Faults u (segRead .ds (trunc .w16 (s.off atBx + 2)) .w32)) ∧
     ∃ u, (segWrite .ds (s.off atBx) .w16 0).run s = .ok () u ∧ Faults u (segWrite .ds (trunc .w16 (s.off atBx + 2)) .w32 0)) ∧
    Faults { paged with gdtr := { base := 0x800000, limit := 0xFFFF } } (fetchDescriptor 8) ∧
    Faults { paged with tr := { paged.tr with base := 0x800000 } } (sysRead 0x800000 .w16) ∧
    Faults { prot with segs := { prot.segs with ds := { prot.segs.ds with limitMax := 0x100 } } } (readDst .w16 (.mem at200)) :=
  ⟨⟨_, _, rfl, _, _, rfl⟩, ⟨⟨_, _, rfl, _, _, rfl⟩, _, rfl, _, _, rfl⟩, ⟨_, _, rfl⟩, ⟨_, _, rfl⟩, _, _, rfl⟩

theorem witness_InterruptsHaltShutdown :
    (∃ (s t : State), s.shutdown = false ∧ s.inBlock = false ∧ s.flag .if_ = true ∧ s.pending = [8] ∧
      (dispatch 8 .external none s.eip).run { s with
        cycles := 0, blockParas := [], halted := false, pending := [], startEip := s.eip, startEsp := s.regs.esp } = .ok () t) ∧
    (∃ s : State, s.shutdown = false ∧ s.inBlock = false ∧ s.halted = true ∧ s.pending = []) ∧
    (∃ s : State, s.shutdown = true ∧ s.events = []) ∧ ∃ s : State, s.shutdown = true ∧ s.events = [[.reset]] :=
  ⟨⟨{ realNop with flags := 0x202, pending := [8] }, _, rfl, rfl, by decide +kernel, rfl, rfl⟩,
    ⟨{ realNop with halted := true }, rfl, rfl, rfl, rfl⟩, ⟨{ realNop with shutdown := true }, rfl, rfl⟩,
    { realNop with shutdown := true, events := [[.reset]] }, rfl, rfl⟩

/-- The dispatch of an interrupt that faults: beyond the table in real mode, and past the commit point of a task switch to
a task whose CS names nothing. -/
theorem witness_InterruptThatFaults :
    (∃ (s u : State) (f : GuestFault), s.shutdown = false ∧ s.inBlock = false ∧ s.flag .if_ = true ∧ s.pending = [8] ∧
      (dispatch 8 .external none s.eip).run { s with
        cycles := 0, blockParas := [], halted := false, pending := [], startEip := s.eip, startEsp := s.regs.esp } =
        .error (.fault f false) u) ∧
    ∃ (s u : State), s.shutdown = false ∧ s.inBlock = false ∧ s.flag .if_ = true ∧ s.pending = [13] ∧
      (dispatch 13 .external none s.eip).run { s with
        cycles := 0, blockParas := [], halted := false, pending := [], startEip := s.eip, startEsp := s.regs.esp } =
        .error (.fault { kind := .ts, code := some 0x70, addr := none } true) u :=
  ⟨⟨{ realNop with flags := 0x202, pending := [8], idtr := { base := 0, limit := 0 } }, _, _, rfl, rfl, by decide +kernel, rfl, rfl⟩,
    { taskGate13 (put twoTasks 0x604C [0x70]) 0x18 with flags := 0x202, pending := [13] }, _, rfl, rfl, by decide +kernel, rfl,
    rfl⟩

/-- Shutdown: nothing in the platform's turn, other events, and the reset input after one. -/
theorem witness_ShutdownAndReset :
    let down (e : List (List PlatformEvent)) : State := { realNop with shutdown := true, events := e }
    (down []).shutdown = true ∧ PlatformEvent.reset ∉ [PlatformEvent.setA20 true] ∧
    (down [[.setA20 true]]).events = [[.setA20 true]] ∧ (down [[.setA20 true, .reset]]).events = ([.setA20 true] ++ [.reset]) :: [] ∧
    (down [[.reset]]).events = ([] ++ [.reset]) :: [] :=
  ⟨rfl, by decide, rfl, rfl, rfl⟩

end Sys2Proof.Tests
end

namespace Sys2Proof.Machine

/-! ### What the parts of a step keep, a step keeps -/

/-- What the form of a state and the level of real mode depend on is as it was. -/
structure SameForm (s t : State) : Prop where
  mem  : t.mem = s.mem
  tlb  : t.tlb = s.tlb
  flags : t.flags = s.flags
  map  : t.physMap = s.physMap
  cr0  : t.cr0 = s.cr0
  cpl  : t.cpl = s.cpl

/-- A relation that the parts of the main step keep (R520). -/
structure KeptByParts (R : State → State → Prop) : Prop extends Preorder R where
  same     : ∀ s t, SameForm s t → R s t
  event    : ∀ s e, R s (s.applyEvent e)
  fetch    : Op.Rel R fetchInstr
  exec     : ∀ i s, OutRel R s (exec i s)
  settle   : ∀ s r, R s (after r) → OutRel R s (settle s r)
  external : ∀ v s, OutRel R s (dispatchExternal v s)

theorem OutRel.next {R : State → State → Prop} {s t : State} (h : R s t) : OutRel R s (.next t) := by
  intro u e
  cases e
  exact h

theorem OutRel.refused {R : State → State → Prop} {s : State} {r : Refusal} : OutRel R s (.refused r) :=
  fun _ e => nomatch e

theorem OutRel.fault {R : State → State → Prop} {s : State} {f : Fault} : OutRel R s (.fault f) :=
  fun _ e => nomatch e

theorem OutRel.after {R : State → State → Prop} (p : Preorder R) {s t : State} {o} (h : R s t) (ho : OutRel R t o) :
    OutRel R s o := fun u e => p.trans s t u h (ho u e)

theorem OutRel.onNext {R : State → State → Prop} (p : Preorder R) {s : State} {f : State → State} {o}
    (ho : OutRel R s o) (hf : ∀ u, R u (f u)) : OutRel R s (onNext f o) := by
  cases o with
  | next u => exact OutRel.next (p.trans _ _ _ (ho u rfl) (hf u))
  | fault _ => exact OutRel.fault
  | refused _ => exact OutRel.refused

section Step

variable {R : State → State → Prop} (k : KeptByParts R)
include k

theorem KeptByParts.sameThen {s t u : State} (h : R t u) (e : SameForm s t) : R s u := k.trans _ _ _ (k.same _ _ e) h

theorem KeptByParts.sameThenOut {s t : State} {o} (h : OutRel R t o) (e : SameForm s t) : OutRel R s o :=
  OutRel.after k.toPreorder (k.same _ _ e) h

theorem KeptByParts.updateClock (s : State) : R s s.updateClock := by
  have events : ∀ (l : List PlatformEvent) (u : State), R u (l.foldl State.applyEvent u) := by
    intro l
    induction l with
    | nil => exact k.refl
    | cons e l ih => exact fun u => k.trans _ _ _ (k.event u e) (ih _)
  unfold State.updateClock
  simp only
  split
  · exact k.same _ _ ⟨rfl, rfl, rfl, rfl, rfl, rfl⟩
  · exact k.sameThen (events _ _) ⟨rfl, rfl, rfl, rfl, rfl, rfl⟩

theorem KeptByParts.partition (s : State) : R s s.partition := by
  unfold State.partition
  split
  · split <;> exact k.same _ _ ⟨rfl, rfl, rfl, rfl, rfl, rfl⟩
  · exact k.refl s

theorem KeptByParts.finish (s : State) : R s s.finish := by
  unfold State.finish
  simp only
  split
  · exact k.partition s
  · exact k.trans _ _ _ (k.partition s) (k.updateClock _)

theorem KeptByParts.runInstruction (s : State) : OutRel R s (runInstruction s) := by
  have latch : R s s.latch := k.same _ _ ⟨rfl, rfl, rfl, rfl, rfl, rfl⟩
  have fetched := k.fetch s.latch
  unfold Sys2Proof.Machine.runInstruction
  split
  · rename_i i t e
    rw [e] at fetched
    refine OutRel.after k.toPreorder (k.trans _ _ _ latch fetched) ?_
    exact (k.exec i t).onNext k.toPreorder fun u => k.sameThen (k.finish _) ⟨rfl, rfl, rfl, rfl, rfl, rfl⟩
  · rename_i e
    rw [e] at fetched
    exact OutRel.after k.toPreorder latch ((k.settle _ _ fetched).onNext k.toPreorder k.finish)

theorem KeptByParts.takeInterrupt (s : State) : OutRel R s (takeInterrupt s) := by
  unfold Sys2Proof.Machine.takeInterrupt
  split
  · exact OutRel.next (k.updateClock s)
  · refine k.sameThenOut ((k.external _ _).onNext k.toPreorder fun u => ?_) ⟨rfl, rfl, rfl, rfl, rfl, rfl⟩
    exact k.sameThen (k.updateClock _) ⟨rfl, rfl, rfl, rfl, rfl, rfl⟩

theorem KeptByParts.startBlock (s : State) : OutRel R s (startBlock s) := by
  unfold Sys2Proof.Machine.startBlock
  split
  · exact k.sameThenOut (k.takeInterrupt _) ⟨rfl, rfl, rfl, rfl, rfl, rfl⟩
  · split
    · exact OutRel.next (k.sameThen (k.updateClock _) ⟨rfl, rfl, rfl, rfl, rfl, rfl⟩)
    · exact k.sameThenOut (k.runInstruction _) ⟨rfl, rfl, rfl, rfl, rfl, rfl⟩

/-- What a fetch, an instruction, a dispatch and an event of the platform keep, every step keeps. -/
theorem KeptByParts.step (s : State) : OutRel R s (step s) := by
  unfold Sys2Proof.Machine.step
  split
  · unfold shutdownStep
    split
    · exact OutRel.next (k.updateClock s)
    · exact OutRel.fault
  · split
    · exact k.runInstruction s
    · exact k.startBlock s

end Step

/-! ### The form of the state -/

theorem writeCtrl_keepsInv (v : Word) (c : CtrlReg) : Op.Rel KeepsInv (writeCtrl v c) := by
  cases c with
  | cr2 => exact fun _ => keepsInv_plain ⟨rfl, rfl, rfl, rfl, rfl⟩
  | cr3 => exact fun _ i => ⟨i.mem, ⟨List.Pairwise.nil, fun _ h => nomatch h⟩, i.flags, i.paging, i.map⟩
  | cr0 =>
    intro s
    unfold writeCtrl
    cases ok : !v.getLsbD 31 || v.getLsbD 0 with
    | false => exact id
    | true =>
      intro i
      have paging : PagingOk v := fun h => by rwa [h, Bool.not_true, Bool.false_or] at ok
      refine ⟨i.mem, ?_, i.flags, paging, i.map⟩
      show Tlb.wf (if v.getLsbD 31 = s.pg then s.tlb else [])
      split
      · exact i.tlb
      · exact ⟨List.Pairwise.nil, fun _ h => nomatch h⟩

theorem exec_keepsInv (i : Instr) (s : State) : OutRel KeepsInv s (exec i s) := by
  have p := keepsInv_preorder
  have plain : ∀ {f : State → State}, (∀ s, SameForm s (f s)) → Op.Rel KeepsInv (modify f : Op Unit) := fun h s =>
    keepsInv_plain ⟨(h s).mem, (h s).tlb, (h s).flags, (h s).map, (h s).cr0⟩
  have table : ∀ {z rm} {f : TableReg → State → State}, (∀ t s, SameForm s (f t s)) → Op.Rel KeepsInv (do
      let m ← memOperand rm
      requirePrivilege
      let t ← readTableReg z m
      modify (f t)
      advance) := fun h =>
    Op.rel_bind p (keepsInv_of (keeps_memOperand _)) fun _ => Op.rel_bind p (keepsInv_of keeps_requirePrivilege)
      fun _ => Op.rel_bind p (keepsInv_of (keeps_readTableReg _ _)) fun t => Op.rel_bind p (plain (h t))
        fun _ => keepsInv_of keeps_advance
  cases h : writesSystem i with
  | false => exact (exec_keeps i s h).keepsInv
  | true =>
    cases i <;> first | exact Bool.noConfusion h | skip
    case lgdt =>
      exact run_keepsInv (table (f := fun t s => { s with gdtr := t }) fun _ _ => ⟨rfl, rfl, rfl, rfl, rfl, rfl⟩) s
    case lidt =>
      exact run_keepsInv (table (f := fun t s => { s with idtr := t }) fun _ _ => ⟨rfl, rfl, rfl, rfl, rfl, rfl⟩) s
    case hlt =>
      exact run_keepsInv (Op.rel_bind p (keepsInv_of keeps_requirePrivilege) fun _ =>
        Op.rel_bind p (plain (f := fun s => { s with halted := true }) fun _ => ⟨rfl, rfl, rfl, rfl, rfl, rfl⟩) fun _ =>
          Op.rel_bind p (keepsInv_of keeps_advance) fun _ => keepsInv_of keeps_endBlock) s
    case movToCr cr r =>
      refine run_keepsInv ?_ s
      split
      · exact keepsInv_of keeps_raiseUD
      · exact Op.rel_bind p (keepsInv_of keeps_requirePrivilege) fun _ =>
          Op.rel_bind p (keepsInv_of (keeps_readReg _ _)) fun _ => Op.rel_bind p (writeCtrl_keepsInv _ _) fun _ =>
            Op.rel_bind p (keepsInv_of keeps_drawStatus) fun _ => Op.rel_bind p (keepsInv_of keeps_advance)
              fun _ => keepsInv_of keeps_endBlock

/-- The rollback takes the flag word and CR0 from the state at the beginning (R505). -/
theorem afterFault_keepsInv {s t : State} (h : KeepsInv s t) (ret : Word) (past : Bool) :
    KeepsInv s (afterFault s t ret past).1 := by
  cases past
  · exact fun i => ⟨(h i).mem, (h i).tlb, i.flags, i.paging, (h i).map⟩
  · exact h

theorem settle_keepsInv (s : State) (r : EStateM.Result Stop State Unit) (h : KeepsInv s (after r)) :
    OutRel KeepsInv s (settle s r) := by
  match r, h with
  | .ok _ t, h => exact OutRel.next h
  | .error (.refuse _) _, _ => exact OutRel.refused
  | .error (.fault f past) t, h =>
    exact OutRel.after keepsInv_preorder (afterFault_keepsInv h s.startEip past) (dispatchFault_keeps _ _ _ _).keepsInv

theorem keptByParts_inv : KeptByParts KeepsInv where
  toPreorder := keepsInv_preorder
  same _ _ h := keepsInv_plain ⟨h.mem, h.tlb, h.flags, h.map, h.cr0⟩
  event := applyEvent_keepsInv
  fetch := keepsInv_of keeps_fetchInstr
  exec := exec_keepsInv
  settle := settle_keepsInv
  external v s := (dispatchExternal_keeps v s).keepsInv

/-- Settles O3: every part of a step keeps the form of the state. -/
theorem stepKeepsForm : Obligations.StepKeepsForm := fun s t i h => keptByParts_inv.step s t h i

/-- Settles O2: memory and the TLB are empty. -/
theorem resetHasForm : Obligations.ResetHasForm where
  mem := Memory.wf_nil
  tlb := ⟨List.Pairwise.nil, fun _ h => nomatch h⟩
  flags := by unfold FlagsOk; decide
  paging := by unfold PagingOk; decide
  map := by simp [MapOk, State.reset, State.resetCore]

/-- Settles O1: the values of `State.resetCore`. -/
theorem resetState : Obligations.ResetState := by
  refine ⟨rfl, rfl, by decide, rfl, fun i h => ?_, rfl, rfl, rfl, rfl, rfl, rfl, rfl, rfl, rfl, rfl, rfl, rfl⟩
  cases i with
  | cs => exact absurd rfl h
  | es => rfl
  | ss => rfl
  | ds => rfl
  | fs => rfl
  | gs => rfl

end Sys2Proof.Machine

namespace Sys2Proof.Machine

/-! ### The level of real mode -/

/-- In real mode the current privilege level is 0 (R33). -/
def State.LevelOk (s : State) : Prop := s.realMode = true → s.cpl = 0

/-- The level of real mode is kept. -/
structure KeepsLevel (s t : State) : Prop where
  level : s.LevelOk → t.LevelOk

theorem keepsLevel_preorder : Preorder KeepsLevel :=
  ⟨fun _ => ⟨id⟩, fun _ _ _ a b => ⟨fun i => b.level (a.level i)⟩⟩

@[simp] theorem keepsLevel_iff (s t : State) : KeepsLevel s t ↔
    ((s.cr0.getLsbD 0 = false → s.cpl = 0) → t.cr0.getLsbD 0 = false → t.cpl = 0) := by
  have ok : ∀ u : State, u.LevelOk ↔ (u.cr0.getLsbD 0 = false → u.cpl = 0) := fun u => by
    simp [State.LevelOk, State.realMode, State.pe]
  exact ⟨fun h => by simpa only [ok] using h.level, fun h => ⟨by simpa only [ok] using h⟩⟩

/-- An operation keeps the level of real mode. -/
abbrev LevelKept {α : Type} (x : Op α) : Prop := Op.Rel KeepsLevel x

/-- Where protection is on, an operation that keeps CR0 may do anything to the level. -/
theorem levelKept_protected {α : Type} {x : Op α} (h : KeepsAll x) {s : State} (hp : s.realMode = false) :
    KeepsLevel s (after (x.run s)) where
  level _ hr := by
    have e : (after (x.run s)).realMode = s.realMode := by
      unfold State.realMode State.pe
      rw [(h s).cr0]
    rw [e, hp] at hr
    exact nomatch hr

theorem levelKept_access {α : Type} {x : Op α} (h : Op.Rel AccessRel x) : LevelKept x := fun s => by
  obtain ⟨-, -, -, -, -, cpl, -, -, -, -, cr0, -⟩ := (h s).only.fields
  rw [keepsLevel_iff, cr0, cpl]
  exact id

section Rules

variable {α β : Type}

@[simp] theorem levelKept_pure (a : α) : LevelKept (pure a : Op α) := Op.rel_pure keepsLevel_preorder a
@[simp] theorem levelKept_get : LevelKept (get : Op State) := Op.rel_get keepsLevel_preorder
@[simp] theorem levelKept_raise (k : FaultKind) (c : Option Word) : LevelKept (raise k c : Op α) :=
  Op.rel_raise keepsLevel_preorder k c
@[simp] theorem levelKept_refuse (r : Refusal) : LevelKept (refuse r : Op α) := Op.rel_refuse keepsLevel_preorder r
@[simp] theorem levelKept_require (ok : Bool) (k : FaultKind) (c : Word) : LevelKept (require ok k c) :=
  Op.rel_require keepsLevel_preorder ok k c

@[simp] theorem levelKept_bind {x : Op α} {f : α → Op β} (hx : LevelKept x) (hf : ∀ a, LevelKept (f a)) :
    LevelKept (x >>= f) := Op.rel_bind keepsLevel_preorder hx hf

@[simp] theorem levelKept_ite {c : Prop} [Decidable c] {x y : Op α} (hx : LevelKept x) (hy : LevelKept y) :
    LevelKept (if c then x else y) := Op.rel_ite hx hy

@[simp] theorem levelKept_modify (f : State → State) : LevelKept (modify f : Op Unit) ↔ ∀ s, KeepsLevel s (f s) :=
  Iff.rfl

@[simp] theorem levelKept_map {f : α → β} {x : Op α} (hx : LevelKept x) : LevelKept (f <$> x) :=
  levelKept_bind (f := fun a => pure (f a)) hx fun _ => levelKept_pure _

end Rules

@[simp] theorem levelKept_raiseUD {α : Type} : LevelKept (raiseUD : Op α) := by simp [raiseUD]
@[simp] theorem levelKept_requireUD (ok : Bool) : LevelKept (requireUD ok) := by simp [requireUD]
@[simp] theorem levelKept_readReg (w : Width) (r : Reg) : LevelKept (readReg w r) := by simp [readReg]
@[simp] theorem levelKept_writeReg (w : Width) (r : Reg) (v : Word) : LevelKept (writeReg w r v) := by simp [writeReg]
@[simp] theorem levelKept_advance : LevelKept advance := by simp [advance]
@[simp] theorem levelKept_jumpTo (v : Word) : LevelKept (jumpTo v) := by simp [jumpTo]
@[simp] theorem levelKept_endBlock : LevelKept endBlock := by simp [endBlock]
@[simp] theorem levelKept_putFlagOp (f : Flag) (v : Bool) : LevelKept (putFlagOp f v) := by simp [putFlagOp]
@[simp] theorem levelKept_putStatusOp (t : Status) : LevelKept (putStatusOp t) := by simp [putStatusOp]
@[simp] theorem levelKept_mapFlags (f : Word → Word) : LevelKept (mapFlags f) := by simp [mapFlags]
@[simp] theorem levelKept_nextDraw : LevelKept nextDraw := fun s => (keepsLevel_iff s _).2 id
@[simp] theorem levelKept_drawBit : LevelKept drawBit := by simp [drawBit]

@[simp] theorem levelKept_sysRead (l : Word) (w : Width) : LevelKept (sysRead l w) :=
  levelKept_access (sysRead_access l w)
@[simp] theorem levelKept_sysWrite (l : Word) (w : Width) (v : Word) : LevelKept (sysWrite l w v) :=
  levelKept_access (sysWrite_rel l w v)
@[simp] theorem levelKept_segRead (i : Seg) (off : Word) (w : Width) : LevelKept (segRead i off w) :=
  levelKept_access (segRead_access i off w)
@[simp] theorem levelKept_segWrite (i : Seg) (off : Word) (w : Width) (v : Word) : LevelKept (segWrite i off w v) :=
  levelKept_access (segWrite_rel i off w v)
@[simp] theorem levelKept_segReadForWrite (i : Seg) (off : Word) (w : Width) : LevelKept (segReadForWrite i off w) :=
  levelKept_access (Op.rel_mono (segReadForWrite_rel i off w) fun _ _ => ReadRel.toAccess)
@[simp] theorem levelKept_segWriteBack (i : Seg) (off : Word) (w : Width) (v : Word) :
    LevelKept (segWriteBack i off w v) := levelKept_access (segWriteBack_rel i off w v)
@[simp] theorem levelKept_fetchDescOr (sel : Half) (k : FaultKind) (c : Word) : LevelKept (fetchDescOr sel k c) :=
  levelKept_access (fetchDescOr_access sel k c)

/-! Operands and the stack -/

@[simp] theorem levelKept_readRM (w : Width) (rm : RM) : LevelKept (readRM w rm) := by cases rm <;> simp [readRM]
@[simp] theorem levelKept_writeRM (w : Width) (rm : RM) (v : Word) : LevelKept (writeRM w rm v) := by
  cases rm <;> simp [writeRM]
@[simp] theorem levelKept_readDst (w : Width) (rm : RM) : LevelKept (readDst w rm) := by cases rm <;> simp [readDst]
@[simp] theorem levelKept_writeDst (w : Width) (rm : RM) (v : Word) : LevelKept (writeDst w rm v) := by
  cases rm <;> simp [writeDst]
@[simp] theorem levelKept_memOperand (rm : RM) : LevelKept (memOperand rm) := by cases rm <;> simp [memOperand]
@[simp] theorem levelKept_storeSelector (z : Size) (rm : RM) (sel : Half) : LevelKept (storeSelector z rm sel) := by
  cases rm <;> simp [storeSelector]
@[simp] theorem levelKept_readFarPtr (z : Size) (m : MemRef) : LevelKept (readFarPtr z m) := by
  unfold readFarPtr
  repeat' with_reducible refine levelKept_bind ?_ fun _ => ?_
  all_goals simp
@[simp] theorem levelKept_aluSrc (f : AluForm) : LevelKept (AluForm.src f) := by cases f <;> simp [AluForm.src]
@[simp] theorem levelKept_testSrc (f : TestForm) : LevelKept (TestForm.src f) := by cases f <;> simp [TestForm.src]
@[simp] theorem levelKept_push (z : Size) (v : Word) : LevelKept (push z v) := by simp [push]
@[simp] theorem levelKept_pop (z : Size) : LevelKept (pop z) :=
  levelKept_bind levelKept_get fun _ => by simp
@[simp] theorem levelKept_popSel (z : Size) : LevelKept (popSel z) := by simp [popSel]
@[simp] theorem levelKept_pushSel (z : Size) (v : Half) : LevelKept (pushSel z v) := by simp [pushSel]
@[simp] theorem levelKept_releaseStack (iw : Half) : LevelKept (releaseStack iw) := by simp [releaseStack]
@[simp] theorem levelKept_requirePrivilege : LevelKept requirePrivilege := by simp [requirePrivilege]
@[simp] theorem levelKept_ioPermitted (p : Half) : LevelKept (ioPermitted p) := by
  unfold ioPermitted
  refine levelKept_bind levelKept_get fun _ => levelKept_ite (levelKept_pure _) (levelKept_ite (levelKept_pure _) ?_)
  repeat' with_reducible refine levelKept_bind ?_ fun _ => ?_
  all_goals simp

theorem levelKept_modifyRM {w : Width} {rm : RM} {f : Word → Op (Option Word)} (h : ∀ a, LevelKept (f a)) :
    LevelKept (modifyRM w rm f) := by
  refine levelKept_bind (levelKept_readDst w rm) fun a => levelKept_bind (h a) fun r => ?_
  cases r <;> simp

/-! Segment registers and dispatch -/

@[simp] theorem levelKept_copyDescriptor (i : Seg) (sel : Half) (d : Desc) : LevelKept (copyDescriptor i sel d) := by
  simp [copyDescriptor]
@[simp] theorem levelKept_loadSegV86 (i : Seg) (sel : Half) : LevelKept (loadSegV86 i sel) := by simp [loadSegV86]
@[simp] theorem levelKept_loadSegReal (i : Seg) (sel : Half) : LevelKept (loadSegReal i sel) := by simp [loadSegReal]
@[simp] theorem levelKept_loadSS (sel : Half) (c : BitVec 2) : LevelKept (loadSS sel c) := by
  unfold loadSS
  repeat' with_reducible refine levelKept_bind ?_ fun _ => ?_
  all_goals simp
@[simp] theorem levelKept_loadSegProt (i : Seg) (sel : Half) : LevelKept (loadSegProt i sel) := by
  refine levelKept_ite (by simp) ?_
  repeat' with_reducible refine levelKept_bind ?_ fun _ => ?_
  all_goals simp
@[simp] theorem levelKept_loadSeg (i : Seg) (sel : Half) : LevelKept (loadSeg i sel) :=
  levelKept_bind levelKept_get fun _ => levelKept_ite (levelKept_loadSegReal i sel) <|
    levelKept_ite (levelKept_loadSegV86 i sel) <| levelKept_ite (levelKept_loadSS sel _) (levelKept_loadSegProt i sel)
@[simp] theorem levelKept_loadCsFlat (sel : Half) : LevelKept (loadCsFlat sel) := by simp [loadCsFlat]

@[simp] theorem levelKept_dispatchReal (v : Nat) (ret : Word) : LevelKept (dispatchReal v ret) := by
  unfold dispatchReal push16
  repeat' with_reducible refine levelKept_bind ?_ fun _ => ?_
  all_goals simp

/-- Only protected-mode dispatch writes the level (R521). -/
@[simp] theorem levelKept_dispatch (v : Nat) (k : DispatchKind) (c : Option Word) (ret : Word) :
    LevelKept (dispatch v k c ret) := by
  refine Op.rel_getBind fun s => ?_
  split
  · exact levelKept_dispatchReal v ret s
  · exact levelKept_protected (keeps_dispatchProt _ _ _ _) ((Bool.eq_false_iff.mpr ‹_›))

/-! Transfers -/

theorem protMode_not_real {s : State} (h : s.protMode = true) : s.realMode = false := by
  unfold State.protMode at h
  unfold State.realMode
  simp_all

/-- An operation whose part for protected mode may write the level. -/
theorem levelKept_byMode {α : Type} {x y : Op Unit} {z : Op α} (hx : KeepsAll x) (hy : LevelKept y)
    (hz : KeepsAll z) (hz' : LevelKept z) :
    LevelKept (do
      let s ← get
      if s.protMode then x else y
      z) := by
  refine Op.rel_getBind fun s => ?_
  cases hm : s.protMode with
  | false => exact levelKept_bind hy (fun _ => hz') s
  | true => exact levelKept_protected (keeps_bind hx fun _ => hz) (protMode_not_real hm)

@[simp] theorem levelKept_pushFarReturn (z : Size) (k : FarKind) : LevelKept (pushFarReturn z k) :=
  levelKept_bind levelKept_get fun _ => by simp

@[simp] theorem levelKept_farTransfer (z : Size) (k : FarKind) (sel : Half) (off : Word) :
    LevelKept (farTransfer z k sel off) :=
  levelKept_byMode (keeps_farProt z k sel off) (by simp [farFlat]) keeps_endBlock levelKept_endBlock

@[simp] theorem levelKept_farReturn (z : Size) (iw : Half) : LevelKept (farReturn z iw) := by
  refine levelKept_bind (levelKept_pop z) fun ip => levelKept_bind (levelKept_popSel z) fun cs => ?_
  exact levelKept_byMode (keeps_retfProt cs) (levelKept_loadCsFlat cs) (by simp [keeps_bind]) (by simp)

@[simp] theorem levelKept_iretFlat (z : Size) : LevelKept (iretFlat z) := by
  unfold iretFlat
  repeat' with_reducible refine levelKept_bind ?_ fun _ => ?_
  all_goals simp

@[simp] theorem levelKept_interruptReturn (z : Size) : LevelKept (interruptReturn z) :=
  levelKept_byMode (keeps_iretProt z) (levelKept_iretFlat z) keeps_endBlock levelKept_endBlock

/-! Arithmetic, ports, strings and system registers -/

@[simp] theorem levelKept_addOp (w : Width) (a b : Word) : LevelKept (addOp w a b) := by simp [addOp]
@[simp] theorem levelKept_adcOp (w : Width) (a b : Word) : LevelKept (adcOp w a b) := by simp [adcOp]
@[simp] theorem levelKept_subOp (w : Width) (a b : Word) : LevelKept (subOp w a b) := by simp [subOp]
@[simp] theorem levelKept_sbbOp (w : Width) (a b : Word) : LevelKept (sbbOp w a b) := by simp [sbbOp]
@[simp] theorem levelKept_logicOp (w : Width) (r : Word) : LevelKept (logicOp w r) := by simp [logicOp]

@[simp] theorem levelKept_mulFlags (b : Bool) : LevelKept (mulFlags b) := by
  unfold mulFlags
  repeat' with_reducible refine levelKept_bind ?_ fun _ => ?_
  all_goals simp

@[simp] theorem levelKept_drawStatus : LevelKept drawStatus := by
  unfold drawStatus
  repeat' with_reducible refine levelKept_bind ?_ fun _ => ?_
  all_goals simp

@[simp] theorem levelKept_finishDivide (w : Width) (x : Option (Word × Word)) : LevelKept (finishDivide w x) := by
  cases x with
  | none => simp [finishDivide, raiseDE]
  | some x => cases w <;> simp [finishDivide, State.setQuotient]

@[simp] theorem State.setProduct_cr0 (s : State) (w : Width) (p : Nat) : (s.setProduct w p).cr0 = s.cr0 := by
  cases w <;> rfl
@[simp] theorem State.setProduct_cpl (s : State) (w : Width) (p : Nat) : (s.setProduct w p).cpl = s.cpl := by
  cases w <;> rfl

@[simp] theorem levelKept_imulStore (w : Width) (r : Reg) (a b : Word) : LevelKept (imulStore w r a b) := by
  simp [imulStore]
@[simp] theorem levelKept_rotateFlags (o : ShiftOut) : LevelKept (rotateFlags o) := by simp [rotateFlags]
@[simp] theorem levelKept_shiftFlags (w : Width) (o : ShiftOut) : LevelKept (shiftFlags w o) := by simp [shiftFlags]
@[simp] theorem levelKept_shlOp (w : Width) (n : Nat) (a : Word) : LevelKept (shlOp w n a) := by simp [shlOp]

theorem levelKept_storing {f : Word → Op Word} (h : ∀ a, LevelKept (f a)) (a : Word) : LevelKept (storing f a) := by
  simp [storing, h]

theorem levelKept_aluStore {g : BinOp} (h : ∀ w a b, LevelKept (g w a b)) (f : AluForm) : LevelKept (aluStore g f) :=
  levelKept_bind (levelKept_aluSrc f) fun _ =>
    levelKept_bind (levelKept_modifyRM (levelKept_storing fun _ => h _ _ _)) fun _ => levelKept_advance

theorem levelKept_aluCompare {g : BinOp} (h : ∀ w a b, LevelKept (g w a b)) (f : AluForm) :
    LevelKept (aluCompare g f) :=
  levelKept_bind (levelKept_aluSrc f) fun _ => levelKept_bind (levelKept_readRM _ _) fun _ =>
    levelKept_bind (h _ _ _) fun _ => levelKept_advance

theorem levelKept_keepingCarry {x : Op Word} (h : LevelKept x) : LevelKept (keepingCarry x) :=
  levelKept_bind levelKept_get fun _ => levelKept_bind h fun _ => by simp

theorem levelKept_unaryStore {w : Width} {rm : RM} {g : Word → Op Word} (h : ∀ a, LevelKept (g a)) :
    LevelKept (unaryStore w rm g) :=
  levelKept_bind (levelKept_modifyRM (levelKept_storing h)) fun _ => levelKept_advance

theorem levelKept_shiftStore {w : Width} {rm : RM} {c : Count} {f : Nat → Word → Op Word}
    (h : ∀ n a, LevelKept (f n a)) : LevelKept (shiftStore w rm c f) :=
  levelKept_bind levelKept_get fun _ => levelKept_bind (levelKept_modifyRM fun a =>
    levelKept_ite (levelKept_pure _) (levelKept_storing (fun _ => h _ _) a)) fun _ => levelKept_advance

@[simp] theorem levelKept_requirePort (p : Half) : LevelKept (requirePort p) := by simp [requirePort]

theorem State.applyEvent_cpl (s : State) (e : PlatformEvent) (h : insidePort e = true) :
    (s.applyEvent e).cpl = s.cpl := by
  cases e with
  | requests v => rfl
  | setA20 on => rfl
  | tlbDrop p => rfl
  | reset => exact nomatch h
  | memWrite a v =>
    show (s.memWriteByte a.toNat v).cpl = s.cpl
    rw [State.memWriteByte_eq]

theorem State.foldl_events_cpl (l : List PlatformEvent) (s : State) (h : ∀ e ∈ l, insidePort e = true) :
    (l.foldl State.applyEvent s).cpl = s.cpl := by
  induction l generalizing s with
  | nil => rfl
  | cons e l ih =>
    exact (ih _ fun x hx => h x (List.mem_cons_of_mem _ hx)).trans (s.applyEvent_cpl e (h e List.mem_cons_self))

@[simp] theorem State.deviceCall_cr0 (s : State) (c : DeviceCall) : (s.deviceCall c).cr0 = s.cr0 :=
  (s.deviceCall_keeps c).cr0

@[simp] theorem State.deviceCall_cpl (s : State) (c : DeviceCall) : (s.deviceCall c).cpl = s.cpl := by
  unfold State.deviceCall
  simp only
  split
  · rfl
  · exact State.foldl_events_cpl _ _ fun e he => DeviceCall.insidePort_of_admits (List.mem_filter.mp he).2

theorem applyEvent_level (s : State) (e : PlatformEvent) : KeepsLevel s (s.applyEvent e) := by
  rw [keepsLevel_iff]
  cases h : insidePort e with
  | true => rw [s.applyEvent_cpl e h, (s.applyEvent_keeps e h).cr0]; exact id
  | false =>
    cases e with
    | reset => exact fun _ _ => rfl
    | requests v => exact nomatch h
    | setA20 on => exact nomatch h
    | tlbDrop p => exact nomatch h
    | memWrite a v => exact nomatch h

@[simp] theorem levelKept_ioRead8 (p : Half) : LevelKept (ioRead8 p) := by
  unfold ioRead8
  repeat' with_reducible refine levelKept_bind ?_ fun _ => ?_
  all_goals simp
@[simp] theorem levelKept_ioWrite8 (p : Half) (v : Byte) : LevelKept (ioWrite8 p v) := by
  unfold ioWrite8
  repeat' with_reducible refine levelKept_bind ?_ fun _ => ?_
  all_goals simp
@[simp] theorem levelKept_inPort (p : Half) : LevelKept (inPort p) := by
  unfold inPort
  repeat' with_reducible refine levelKept_bind ?_ fun _ => ?_
  all_goals simp

@[simp] theorem levelKept_outPort (p : Half) : LevelKept (outPort p) := by
  unfold outPort
  repeat' with_reducible refine levelKept_bind ?_ fun _ => ?_
  all_goals simp

@[simp] theorem levelKept_dxPort : LevelKept dxPort := by simp [dxPort]

@[simp] theorem levelKept_moveIndex (asz : Size) (w : Width) (r : Reg) : LevelKept (moveIndex asz w r) := by
  simp [moveIndex, State.moveIndex]
@[simp] theorem levelKept_sourceElement (asz : Size) (w : Width) (g : Seg) : LevelKept (sourceElement asz w g) := by
  simp [sourceElement]
@[simp] theorem levelKept_destElement (asz : Size) (w : Width) : LevelKept (destElement asz w) := by
  simp [destElement]
@[simp] theorem levelKept_storeElement (asz : Size) (w : Width) (v : Word) : LevelKept (storeElement asz w v) := by
  simp [storeElement]
@[simp] theorem levelKept_movsBody (w : Width) (asz : Size) (g : Seg) : LevelKept (movsBody w asz g) := by
  unfold movsBody
  repeat' with_reducible refine levelKept_bind ?_ fun _ => ?_
  all_goals simp
@[simp] theorem levelKept_cmpsBody (w : Width) (asz : Size) (g : Seg) : LevelKept (cmpsBody w asz g) := by
  unfold cmpsBody
  repeat' with_reducible refine levelKept_bind ?_ fun _ => ?_
  all_goals simp
@[simp] theorem levelKept_stosBody (w : Width) (asz : Size) : LevelKept (stosBody w asz) := by simp [stosBody]
@[simp] theorem levelKept_lodsBody (w : Width) (asz : Size) (g : Seg) : LevelKept (lodsBody w asz g) := by
  simp [lodsBody]
@[simp] theorem levelKept_scasBody (w : Width) (asz : Size) : LevelKept (scasBody w asz) := by
  unfold scasBody
  repeat' with_reducible refine levelKept_bind ?_ fun _ => ?_
  all_goals simp

@[simp] theorem levelKept_jumpRel (z : Size) (d : Word) : LevelKept (jumpRel z d) := by simp [jumpRel]
@[simp] theorem levelKept_branch (b : Bool) (z : Size) (d : Word) : LevelKept (branch b z d) := by simp [branch]
@[simp] theorem levelKept_loopStep (z asz : Size) (cb : Byte) (f : Bool → Bool) : LevelKept (loopStep z asz cb f) := by
  unfold loopStep
  repeat' with_reducible refine levelKept_bind ?_ fun _ => ?_
  all_goals simp
@[simp] theorem levelKept_pushReturn (z : Size) : LevelKept (pushReturn z) := by simp [pushReturn]
@[simp] theorem levelKept_nearReturn (z : Size) (iw : Half) : LevelKept (nearReturn z iw) := by
  unfold nearReturn
  repeat' with_reducible refine levelKept_bind ?_ fun _ => ?_
  all_goals simp
@[simp] theorem levelKept_softInt (v : Nat) : LevelKept (softInt v) := by simp [softInt]
@[simp] theorem levelKept_flagStore (f : Flag) (v : Bool) : LevelKept (flagStore f v) := by simp [flagStore]

@[simp] theorem levelKept_readTableReg (z : Size) (m : MemRef) : LevelKept (readTableReg z m) := by
  unfold readTableReg
  repeat' with_reducible refine levelKept_bind ?_ fun _ => ?_
  all_goals simp
@[simp] theorem levelKept_storedBase (z : Size) (b : Word) : LevelKept (storedBase z b) := by
  cases z <;> simp [storedBase]
@[simp] theorem levelKept_writeTableReg (z : Size) (m : MemRef) (x : TableReg) : LevelKept (writeTableReg z m x) := by
  unfold writeTableReg
  repeat' with_reducible refine levelKept_bind ?_ fun _ => ?_
  all_goals simp
@[simp] theorem levelKept_requireProtected : LevelKept requireProtected := by simp [requireProtected]
@[simp] theorem levelKept_requireCpl0 : LevelKept requireCpl0 := by simp [requireCpl0]
@[simp] theorem levelKept_putBusyBit (a : Word) (on : Bool) : LevelKept (putBusyBit a on) := by simp [putBusyBit]
@[simp] theorem levelKept_loadLdtr (sel : Half) : LevelKept (loadLdtr sel) := by
  unfold loadLdtr
  repeat' with_reducible refine levelKept_bind ?_ fun _ => ?_
  all_goals simp
@[simp] theorem levelKept_loadTr (sel : Half) : LevelKept (loadTr sel) := by
  unfold loadTr
  repeat' with_reducible refine levelKept_bind ?_ fun _ => ?_
  all_goals simp

/-! ### Faults and instructions -/

theorem rollback_level {s t : State} : KeepsLevel s (rollback s t) := (keepsLevel_iff s _).2 id

theorem afterFault_level {s t : State} (h : KeepsLevel s t) (ret : Word) (past : Bool) :
    KeepsLevel s (afterFault s t ret past).1 := by
  cases past
  · exact rollback_level
  · exact h

theorem latch_level (s : State) : KeepsLevel s s.latch := (keepsLevel_iff s _).2 id

/-- The state that goes on after a dispatch, and the one after a dispatch that faulted. -/
theorem dispatched_level (v : Nat) (k : DispatchKind) (c : Option Word) (ret : Word) (s : State) :
    KeepsLevel s (after ((dispatch v k c ret).run s.latch)) ∧
    ∀ r past, KeepsLevel s (afterFault s.latch (after ((dispatch v k c ret).run s.latch)) r past).1 := by
  have d := levelKept_dispatch v k c ret s.latch
  have l := latch_level s
  exact ⟨keepsLevel_preorder.trans _ _ _ l d, fun r past => keepsLevel_preorder.trans _ _ _ l (afterFault_level d r past)⟩

theorem dispatchDouble_level (ret : Word) (s : State) : OutRel KeepsLevel s (dispatchDouble ret s) := by
  have d := dispatched_level 8 .fault (some 0) ret s
  unfold dispatchDouble
  split
  · rename_i e
    rw [e] at d
    exact OutRel.next (keepsLevel_preorder.trans _ _ _ d.1 ((keepsLevel_iff _ _).2 id))
  · exact OutRel.refused
  · rename_i past t e
    rw [e] at d
    exact OutRel.next (keepsLevel_preorder.trans _ _ _ (d.2 ret past) ((keepsLevel_iff _ _).2 id))

/-- One fault of a chain: its dispatch, and the faults that are handled after it. -/
theorem dispatchFault_level_step {n : Nat} {f : GuestFault} {ret : Word} {s : State}
    (ih : ∀ m f' ret' s', n = m + 1 → OutRel KeepsLevel s' (dispatchFault m f' ret' s')) :
    OutRel KeepsLevel s (dispatchFault n f ret s) := by
  have d := dispatched_level f.kind.vector .fault f.code ret s
  unfold dispatchFault
  split
  · rename_i e
    rw [e] at d
    exact OutRel.next (keepsLevel_preorder.trans _ _ _ d.1 ((keepsLevel_iff _ _).2 id))
  · exact OutRel.refused
  · rename_i past t e
    rw [e] at d
    refine OutRel.after keepsLevel_preorder (d.2 ret past) ?_
    simp only
    split
    · exact dispatchDouble_level _ _
    · split
      · exact OutRel.next ((keepsLevel_iff _ _).2 id)
      · exact ih _ _ _ _ rfl

theorem dispatchFault_level (n : Nat) (f : GuestFault) (ret : Word) (s : State) :
    OutRel KeepsLevel s (dispatchFault n f ret s) := by
  induction n generalizing f ret s with
  | zero => exact dispatchFault_level_step fun _ _ _ _ h => nomatch h
  | succ n ih =>
    refine dispatchFault_level_step fun m f' ret' s' h => ?_
    cases h
    exact ih f' ret' s'

theorem dispatchExternal_level (v : Byte) (s : State) : OutRel KeepsLevel s (dispatchExternal v s) := by
  have d := dispatched_level v.toNat .external none s.eip s
  unfold dispatchExternal
  split
  · rename_i e
    rw [e] at d
    exact OutRel.next d.1
  · exact OutRel.refused
  · rename_i past t e
    rw [e] at d
    exact OutRel.after keepsLevel_preorder (d.2 s.eip past) (dispatchFault_level _ _ _ _)

theorem settle_level (s : State) (r : EStateM.Result Stop State Unit) (h : KeepsLevel s (after r)) :
    OutRel KeepsLevel s (settle s r) := by
  match r, h with
  | .ok _ t, h => exact OutRel.next h
  | .error (.refuse _) _, _ => exact OutRel.refused
  | .error (.fault f past) t, h =>
    exact OutRel.after keepsLevel_preorder (afterFault_level h s.startEip past) (dispatchFault_level _ _ _ _)

theorem run_level {op : Op Unit} (h : LevelKept op) (s : State) : OutRel KeepsLevel s (run op s) :=
  settle_level s _ (h s)

theorem repLoop_level {rep : Rep} {z : Bool} {asz : Size} {body : Op Unit} (h : LevelKept body) (n : Nat) (s : State) :
    OutRel KeepsLevel s (repLoop rep z asz body n s) := by
  induction n generalizing s with
  | zero => exact OutRel.next ((keepsLevel_iff _ _).2 id)
  | succ n ih =>
    have b : KeepsLevel s (after (body.run { s with inBlock := true })) :=
      keepsLevel_preorder.trans s { s with inBlock := true } _ ((keepsLevel_iff _ _).2 id) (h _)
    unfold repLoop
    split
    · rename_i e
      rw [e] at b
      refine OutRel.after keepsLevel_preorder b ?_
      simp only
      split
      · exact OutRel.next ((keepsLevel_iff _ _).2 id)
      · split
        · exact OutRel.next ((keepsLevel_iff _ _).2 id)
        · split
          · exact OutRel.next ((keepsLevel_iff _ _).2 id)
          · split
            · exact OutRel.next ((keepsLevel_iff _ _).2 id)
            · refine OutRel.after keepsLevel_preorder ?_ (ih _)
              exact (keepsLevel_iff _ _).2 id
    · rename_i e
      rw [e] at b
      exact settle_level s _ b

theorem stringRun_level {rep : Rep} {z : Bool} {asz : Size} {body : Op Unit} (h : LevelKept body) (s : State) :
    OutRel KeepsLevel s (stringRun rep z asz body s) := by
  cases rep with
  | none => exact run_level (levelKept_bind h fun _ => levelKept_advance) s
  | repe => exact repLoop_level h _ s
  | repne => exact repLoop_level h _ s

/-- MOV to CR0 may leave protected mode, at level 0 only (R444). -/
theorem writeCtrl_level (v : Word) (c : CtrlReg) {s : State} (h : s.cpl = 0) :
    (after ((writeCtrl v c).run s)).cpl = 0 := by
  cases c with
  | cr2 => exact h
  | cr3 => exact h
  | cr0 =>
    unfold writeCtrl
    cases !v.getLsbD 31 || v.getLsbD 0 <;> exact h

/-- Behind the privilege test the level is 0, in real mode too (R33, R531). -/
theorem levelKept_ofPrivilege {f : Unit → Op Unit} (h : ∀ t : State, t.cpl = 0 → KeepsLevel t (after ((f ()).run t))) :
    LevelKept (requirePrivilege >>= f) := by
  refine fun t => ⟨fun ok => ?_⟩
  have e : requirePrivilege.run t = (require t.privileged .gp 0).run t := rfl
  cases p : t.privileged with
  | false => rw [p] at e; rw [run_bind_error e]; exact ok
  | true =>
    rw [p] at e
    rw [run_bind_ok e]
    have z : t.cpl = 0 := by
      simp only [State.privileged, Bool.or_eq_true, decide_eq_true_eq] at p
      exact p.elim ok id
    exact (h t z).level ok

theorem levelKept_thenAt {x : Op Unit} {f : Unit → Op Unit} {s : State} (hx : KeepsLevel s (after (x.run s)))
    (hf : LevelKept (f ())) : KeepsLevel s (after ((x >>= f).run s)) := by
  cases e : x.run s with
  | ok a t =>
    rw [run_bind_ok e]
    rw [e] at hx
    exact keepsLevel_preorder.trans _ _ _ hx (hf t)
  | error r t =>
    rw [run_bind_error e]
    rw [e] at hx
    exact hx

theorem movToCr_level (cr : BitVec 3) (r : Reg) (s : State) : OutRel KeepsLevel s (exec (.movToCr cr r) s) := by
  refine run_level ?_ s
  split
  · simp
  · rename_i c _
    refine levelKept_ofPrivilege fun t ht => ?_
    have h0 : KeepsLevel t (after ((writeCtrl (t.reg .w32 r) c).run t)) :=
      ⟨fun _ _ => writeCtrl_level _ c ht⟩
    rw [run_bind_ok (run_readReg _ _ _)]
    exact levelKept_thenAt h0 (by simp)

theorem exec_level (i : Instr) (s : State) : OutRel KeepsLevel s (exec i s) := by
  cases i
  case movToCr cr r => exact movToCr_level cr r s
  case movsb | movsw | cmpsb | cmpsw | stosb | stosw | lodsb | lodsw | scasb | scasw =>
    refine stringRun_level ?_ s
    simp
  case clc | stc | cld | std => exact run_level (levelKept_flagStore _ _) s
  case cmc => exact run_level (levelKept_bind levelKept_get fun _ => levelKept_flagStore _ _) s
  case nop => exact run_level levelKept_advance s
  case ud => exact run_level levelKept_raiseUD s
  case jmpShort z cb => exact run_level (levelKept_branch true z (shortDisp cb)) s
  case jmpNear z cv => exact run_level (levelKept_branch true z (nearDisp z cv)) s
  case cbw | cwd | movRegImm | lahf | sahf | xchgAcc =>
    simp only [exec, execCbw, execCwd, execMovRegImm, execLahf, execSahf, execXchgAcc]
    refine run_level ?_ s
    repeat' with_reducible refine levelKept_bind ?_ fun _ => ?_
    all_goals simp
  all_goals
    refine run_level ?_ s
    repeat' with_reducible first
      | refine levelKept_aluStore (fun _ _ _ => ?_) _
      | refine levelKept_aluCompare (fun _ _ _ => ?_) _
      | refine levelKept_unaryStore fun _ => ?_
      | refine levelKept_shiftStore fun _ _ => ?_
      | refine levelKept_keepingCarry ?_
      | refine levelKept_modifyRM fun _ => ?_
      | refine levelKept_bind ?_ fun _ => ?_
      | refine levelKept_ite ?_ ?_
      | split
    all_goals simp [State.flushPage]

theorem levelKept_fetchByte (k : Nat) : LevelKept (fetchByte k) := by
  refine levelKept_ite (levelKept_raise _ _) (levelKept_bind levelKept_get fun s => ?_)
  refine levelKept_bind (levelKept_require _ _ _) fun _ => levelKept_bind (levelKept_access (translate_access _ _ _))
    fun p => levelKept_bind (fun t => (keepsLevel_iff t _).2 ?_) fun _ => levelKept_bind
      (levelKept_access (Op.rel_mono (memRead_rel _ _) fun _ _ => ReadRel.toAccess)) fun _ => levelKept_pure _
  show _ → (t.notePara p).cr0.getLsbD 0 = false → (t.notePara p).cpl = 0
  unfold State.notePara
  split <;> exact id

theorem levelKept_runFetch {α : Type} (d : Dec α) (k : Nat) (bs : List Byte) : LevelKept (runFetch d k bs) := by
  induction d generalizing k bs with
  | ret a => exact levelKept_pure _
  | unadmitted => exact levelKept_refuse _
  | byte f ih => exact levelKept_bind (levelKept_fetchByte k) fun b => ih b _ _

theorem levelKept_fetchInstr : LevelKept fetchInstr :=
  levelKept_bind levelKept_get fun _ => levelKept_bind (levelKept_runFetch _ _ _) fun _ =>
    levelKept_bind (fun s => (keepsLevel_iff s _).2 id) fun _ => levelKept_pure _

theorem keptByParts_level : KeptByParts KeepsLevel where
  toPreorder := keepsLevel_preorder
  same s t h := by
    rw [keepsLevel_iff, h.cr0, h.cpl]
    exact id
  event := applyEvent_level
  fetch := levelKept_fetchInstr
  exec := exec_level
  settle := settle_level
  external := dispatchExternal_level

/-- Settles O4: only protected-mode operations write the level, MOV to CR0 leaves protected mode at level 0, and a
rollback restores the level and CR0 together. -/
theorem realModeStaysAtLevelZero : Obligations.RealModeStaysAtLevelZero :=
  fun s t ok h => (keptByParts_level.step s t h).level ok

end Sys2Proof.Machine

namespace Sys2Proof.Machine

/-! ### Values of a width as numbers -/

theorem toNat_trunc (w : Width) (v : Word) : (trunc w v).toNat = v.toNat % 2 ^ w.bits := by
  unfold trunc
  rw [BitVec.toNat_and]
  cases w with
  | w8 => exact Nat.and_two_pow_sub_one_eq_mod v.toNat 8
  | w16 => exact Nat.and_two_pow_sub_one_eq_mod v.toNat 16
  | w32 => exact Nat.and_two_pow_sub_one_eq_mod v.toNat 32

theorem toNat_lt_of_fits {w : Width} {v : Word} (h : w.fits v = true) : v.toNat < 2 ^ w.bits := of_decide_eq_true h

theorem trunc_of_fits {w : Width} {v : Word} (h : w.fits v = true) : trunc w v = v := by
  apply BitVec.eq_of_toNat_eq
  rw [toNat_trunc, Nat.mod_eq_of_lt (toNat_lt_of_fits h)]

/-! ### Register views (R21, R22) -/

/-- A field written under its mask is read back. -/
theorem field_of_setField {k m : Word} (x y : Word) (h : k &&& m = 0#32) :
    ((x &&& k) ||| (y &&& m)) &&& m = y &&& m := by
  rw [BitVec.and_or_distrib_right, BitVec.and_assoc, h, BitVec.and_zero, BitVec.zero_or, BitVec.and_assoc,
    BitVec.and_self]

/-- A field written under a mask leaves the fields apart from it. -/
theorem field_of_setOther {k m n : Word} (x y : Word) (hk : k &&& m = m) (hn : n &&& m = 0#32) :
    ((x &&& k) ||| (y &&& n)) &&& m = x &&& m := by
  rw [BitVec.and_or_distrib_right, BitVec.and_assoc, hk, BitVec.and_assoc, hn, BitVec.and_zero, BitVec.or_zero]

/-- The low byte shifted up is the second byte of the value shifted up. -/
theorem lowByte_shiftLeft (v : Word) : (v &&& 0xFF) <<< 8 = (v <<< 8) &&& 0xFF00 := BitVec.shiftLeft_and_distrib v 0xFF 8

/-- The low byte shifted up and down again. -/
theorem lowByte_shiftLeft_ushiftRight (v : Word) : ((v &&& 0xFF) <<< 8) >>> 8 = v &&& 0xFF := by
  have fits : (v &&& 0xFF).toNat < 256 := toNat_lt_of_fits (w := .w8) (fits_and .w8 v)
  apply BitVec.eq_of_toNat_eq
  rw [BitVec.toNat_ushiftRight, BitVec.toNat_shiftLeft, Nat.shiftLeft_eq, Nat.shiftRight_eq_div_pow]
  omega

/-- The second byte, shifted down. -/
theorem highByte_eq (z : Word) : (z >>> 8) &&& 0xFF = (z &&& 0xFF00) >>> 8 :=
  (BitVec.ushiftRight_and_distrib z 0xFF00 8).symm

theorem highByte_of_setHighByte (x v : Word) :
    (((x &&& 0xFFFF00FF) ||| ((v &&& 0xFF) <<< 8)) >>> 8) &&& 0xFF = v &&& 0xFF := by
  have field := field_of_setField (k := 0xFFFF00FF) (m := 0xFF00) x (v <<< 8) rfl
  rw [← lowByte_shiftLeft] at field
  have shifted := congrArg (fun y : Word => y >>> 8) field
  exact ((highByte_eq _).trans shifted).trans (lowByte_shiftLeft_ushiftRight v)

theorem lowByte_of_setLowByte (x v : Word) : ((x &&& 0xFFFFFF00) ||| (v &&& 0xFF)) &&& 0xFF = v &&& 0xFF :=
  field_of_setField x v rfl

theorem lowByte_of_setHighByte (x v : Word) :
    ((x &&& 0xFFFF00FF) ||| ((v &&& 0xFF) <<< 8)) &&& 0xFF = x &&& 0xFF := by
  rw [lowByte_shiftLeft]
  exact field_of_setOther x (v <<< 8) rfl rfl

theorem highByte_of_setLowByte (x v : Word) :
    (((x &&& 0xFFFFFF00) ||| (v &&& 0xFF)) >>> 8) &&& 0xFF = (x >>> 8) &&& 0xFF := by
  have field := field_of_setOther (k := 0xFFFFFF00) (m := 0xFF00) (n := 0xFF) x v rfl rfl
  have shifted := congrArg (fun y : Word => y >>> 8) field
  exact ((highByte_eq _).trans shifted).trans (highByte_eq x).symm

theorem lowHalf_of_setLowHalf (x v : Word) : ((x &&& 0xFFFF0000) ||| (v &&& 0xFFFF)) &&& 0xFFFF = v &&& 0xFFFF :=
  field_of_setField x v rfl

/-- What was written to a view is read back from it. -/
theorem Regs.view_setView (x : Regs) (w : Width) (r : Reg) (v : Word) : (x.setView w r v).view w r = trunc w v := by
  cases w with
  | w8 =>
    cases h : (Reg.isHigh r) with
    | true => simp only [Regs.setView, Regs.view, h, if_true, Regs.get_set, highByte_of_setHighByte]; rfl
    | false =>
      simp only [Regs.setView, Regs.view, h, if_false, Regs.get_set, lowByte_of_setLowByte, Bool.false_eq_true]
      rfl
  | w16 => simp only [Regs.setView, Regs.view, Regs.get_set, lowHalf_of_setLowHalf]; rfl
  | w32 =>
    simp only [Regs.setView, Regs.view, Regs.get_set]
    exact (trunc_of_fits (by simp [Width.fits, Width.bits, v.isLt])).symm

/-- The register a view of a width lies in. -/
def Reg.home (w : Width) (r : Reg) : Reg := if w = .w8 then (Reg.byteHome r) else r

theorem Regs.get_setView_other (x : Regs) (w : Width) (r q : Reg) (v : Word) (h : q ≠ Reg.home w r) :
    (x.setView w r v).get q = x.get q := by
  cases w with
  | w8 =>
    unfold Regs.setView
    simp only
    split
    · exact Regs.get_set_other _ _ _ _ h
    · exact Regs.get_set_other _ _ _ _ h
  | w16 => exact Regs.get_set_other _ _ _ _ h
  | w32 => exact Regs.get_set_other _ _ _ _ h

/-- Two byte registers of one general register are its low and its high byte (R22). -/
theorem Reg.isHigh_ne {q r : Reg} (hq : q ≠ r) (h : (Reg.byteHome q) = (Reg.byteHome r)) : (Reg.isHigh q) = !(Reg.isHigh r) := by
  cases q <;> cases r <;> first | rfl | exact absurd rfl hq | exact absurd h (by decide)

theorem Regs.byteView_setView_other (x : Regs) (r q : Reg) (v : Word) (hq : q ≠ r) :
    (x.setView .w8 r v).view .w8 q = x.view .w8 q := by
  by_cases h : (Reg.byteHome q) = (Reg.byteHome r)
  · have e := Reg.isHigh_ne hq h
    cases hr : (Reg.isHigh r) with
    | true =>
      simp only [Regs.setView, Regs.view, e, h, hr, if_true, Bool.not_true, Bool.false_eq_true, if_false,
        Regs.get_set, lowByte_of_setHighByte]
    | false =>
      simp only [Regs.setView, Regs.view, e, h, hr, if_true, Bool.not_false, Bool.false_eq_true, if_false,
        Regs.get_set]
      exact highByte_of_setLowByte _ _
  · have e := x.get_setView_other .w8 r (Reg.byteHome q) v h
    simp only [Regs.view, e]

/-- Settles O6: a byte view by its home register and half, the others by the register. -/
theorem registerViews : Obligations.RegisterViews := by
  intro x w r v hv
  have tv := trunc_of_fits hv
  refine ⟨(x.view_setView w r v).trans tv, fun q h8 h => x.get_setView_other w r q v ?_, ?_, ?_, ?_⟩
  · unfold Reg.home
    split
    · exact h8 ‹_›
    · exact h ‹_›
  · rintro rfl
    have tv : v &&& 0xFFFF = v := tv
    simp only [Regs.setView, Regs.get_set, tv]
  · rintro rfl
    have tv : v &&& 0xFF = v := tv
    simp only [Regs.setView, tv]
    split <;> simp only [Regs.get_set]
  · rintro rfl
    exact fun q => x.byteView_setView_other r q v

/-! ### The flag word (R25, R26) -/

theorem flagsValue_setFlags_all (f v : Word) : flagsValue (setFlags f v 0xFFFFFFFF) = (v &&& Config.capMask) ||| 2 := by
  have all : ∀ i, i < 32 → (0xFFFFFFFF : Word).getLsbD i = true := by decide
  unfold flagsValue
  congr 1
  apply BitVec.eq_of_getLsbD_eq
  intro i hi
  rw [BitVec.getLsbD_and, setFlags_bit _ _ _ _ hi, all i hi, BitVec.getLsbD_and]
  cases Config.capMask.getLsbD i <;> simp

/-- The I/O privilege level is none of the one-bit flags (R25). -/
theorem iopl_putFlag (f : Word) (g : Flag) (b : Bool) : iopl (putFlag f g b) = iopl f := by
  have apart : ∀ i, i < 2 → 12 + i ≠ g.bit := by cases g <;> decide
  apply BitVec.eq_of_getLsbD_eq
  intro i hi
  simp only [iopl, BitVec.getLsbD_extractLsb', hi, decide_true, Bool.true_and]
  rw [putFlag_bit _ _ _ _ (by omega), if_neg (apart i hi)]

/-- Settles O7: the flag word bit by bit. -/
theorem flagWordThroughMask : Obligations.FlagWordThroughMask := by
  intro f v m
  refine ⟨rfl, flagsValue_setFlags_all f v, by simp [flagsValue], fun g h b => ?_, iopl_putFlag f⟩
  split
  · rename_i e
    rw [e, getFlag_putFlag]
  · exact getFlag_putFlag_other f g h b ‹_›

/-! ### Sign, zero and parity (R27) -/

theorem msb_eq_decide {w : Width} {v : Word} (h : w.fits v = true) : msb w v = decide (2 ^ (w.bits - 1) ≤ v.toNat) := by
  have lt := toNat_lt_of_fits h
  unfold msb
  rw [BitVec.getLsbD, Nat.testBit_eq_decide_div_mod_eq, decide_eq_decide]
  cases w <;> simp only [Width.bits] at * <;> omega

theorem countP_cons_toNat (p : Nat → Bool) (a : Nat) (l : List Nat) :
    (a :: l).countP p = l.countP p + (p a).toNat := by
  rw [List.countP_cons]
  cases p a <;> rfl

theorem parity_eq_xor (r : Word) : parity r = !(r.getLsbD 0 ^^ r.getLsbD 1 ^^ r.getLsbD 2 ^^ r.getLsbD 3 ^^
    r.getLsbD 4 ^^ r.getLsbD 5 ^^ r.getLsbD 6 ^^ r.getLsbD 7) := by
  have table : ∀ a b c d e f g h : Bool, decide ((0 + h.toNat + g.toNat + f.toNat + e.toNat + d.toNat + c.toNat +
      b.toNat + a.toNat) % 2 = 0) = !(a ^^ b ^^ c ^^ d ^^ e ^^ f ^^ g ^^ h) := by decide
  have range : List.range 8 = [0, 1, 2, 3, 4, 5, 6, 7] := rfl
  unfold parity popcount8
  simp only [range, countP_cons_toNat, List.countP_nil]
  exact table _ _ _ _ _ _ _ _

/-- The status flags of a result, as the flag word shows them, and the flags left as they were. -/
theorem putStatus_ofResult (f : Word) {w : Width} {r : Word} (h : w.fits r = true) (cf af of : Bool) :
    let new := putStatus f (.ofResult w r cf af of)
    getFlag new .sf = decide (2 ^ (w.bits - 1) ≤ r.toNat) ∧ getFlag new .zf = decide (r = 0) ∧
    (getFlag new .pf = !(r.getLsbD 0 ^^ r.getLsbD 1 ^^ r.getLsbD 2 ^^ r.getLsbD 3 ^^ r.getLsbD 4 ^^ r.getLsbD 5 ^^
      r.getLsbD 6 ^^ r.getLsbD 7)) ∧
    (∀ q : Flag, q ∉ [Flag.cf, .pf, .af, .zf, .sf, .of] → getFlag new q = getFlag f q) ∧ iopl new = iopl f := by
  have other : ∀ q : Flag, q ∉ [Flag.cf, .pf, .af, .zf, .sf, .of] → q.isStatus = false := by
    intro q
    cases q <;> decide
  refine ⟨?_, ?_, ?_, fun q hq => getFlag_putStatus_other f _ q (other q hq), iopl_putStatus f _⟩
  · rw [getFlag_putStatus_sf]
    exact msb_eq_decide h
  · rw [getFlag_putStatus_zf]
    rfl
  · rw [getFlag_putStatus_pf]
    exact parity_eq_xor r

/-- Settles O8: all four write the flags of a result. -/
theorem signZeroParity : Obligations.SignZeroParity := by
  intro f w a b r c s o n hr ho
  exact ⟨putStatus_ofResult f (fits_and w _) _ _ _, putStatus_ofResult f (fits_and w _) _ _ _,
    putStatus_ofResult s.flags hr _ _ _, putStatus_ofResult s.flags ho _ _ _⟩

/-! ### Addition and subtraction as arithmetic (R28) -/

theorem xor_eq_true_iff_ne (x y : Bool) : (x ^^ y) = true ↔ x ≠ y := by
  cases x <;> cases y <;> decide

theorem carryNat_le (c : Bool) : carryNat c ≤ 1 := by cases c <;> decide

theorem addResult_toNat (w : Width) (a b : Word) (c : Bool) :
    (addResult w a b c).toNat = (a.toNat + b.toNat + carryNat c) % 2 ^ w.bits := by
  unfold addResult
  rw [toNat_trunc, BitVec.toNat_ofNat]
  cases w <;> simp only [Width.bits] <;> omega

theorem subResult_toNat (w : Width) (a b : Word) (c : Bool) :
    ((subResult w a b c).toNat : Int) = ((a.toNat : Int) - b.toNat - carryNat c) % 2 ^ w.bits := by
  have hk := carryNat_le c
  have ha := a.isLt
  have hb := b.isLt
  unfold subResult
  rw [toNat_trunc, BitVec.toNat_sub, BitVec.toNat_sub, BitVec.toNat_ofNat]
  cases w <;> simp only [Width.bits] <;> omega

/-- A value as a signed number: itself below 2^(n-1), else less 2^n. -/
theorem sint_cases {w : Width} {v : Word} (h : w.fits v = true) :
    (v.toNat < 2 ^ (w.bits - 1) ∧ sint w v = v.toNat) ∨
      (2 ^ (w.bits - 1) ≤ v.toNat ∧ sint w v = v.toNat - (2 ^ w.bits : Int)) := by
  have lt := toNat_lt_of_fits h
  have double : 2 ^ w.bits = 2 * 2 ^ (w.bits - 1) := by cases w <;> rfl
  have eq : sint w v = if 2 * v.toNat < 2 ^ w.bits then (v.toNat : Int) else v.toNat - (2 ^ w.bits : Nat) := by
    unfold sint
    rw [BitVec.toInt_eq_toNat_cond, BitVec.toNat_setWidth, Nat.mod_eq_of_lt lt]
  by_cases hs : 2 ^ (w.bits - 1) ≤ v.toNat
  · refine .inr ⟨hs, ?_⟩
    rw [eq, if_neg (by omega)]
    push_cast
    rfl
  · refine .inl ⟨by omega, ?_⟩
    rw [eq, if_pos (by omega)]

theorem msb_and (w : Width) (a b : Word) : msb w (a &&& b) = (msb w a && msb w b) := BitVec.getLsbD_and

theorem msb_xor (w : Width) (a b : Word) : msb w (a ^^^ b) = (msb w a ^^ msb w b) := BitVec.getLsbD_xor

theorem getLsbD_four (v : Word) : v.getLsbD 4 = decide (v.toNat / 16 % 2 = 1) := by
  rw [BitVec.getLsbD, Nat.testBit_eq_decide_div_mod_eq]

theorem zero_iff_toNat (r : Word) : r = 0 ↔ r.toNat = 0 := ⟨fun h => by rw [h]; rfl, fun h => BitVec.eq_of_toNat_eq h⟩

theorem xor_decide_odd (x y : Nat) : (decide (x % 2 = 1) ^^ decide (y % 2 = 1)) = decide ((x + y) % 2 = 1) := by
  rcases Nat.mod_two_eq_zero_or_one x with hx | hx <;> rcases Nat.mod_two_eq_zero_or_one y with hy | hy <;>
    simp [Nat.add_mod, hx, hy]

/-- Bit 4 of `a ^ b ^ r`: the carry or borrow of bit 3 (R28). -/
theorem xor_bit_four (a b r : Word) : (a ^^^ b ^^^ r).getLsbD 4 =
    decide ((a.toNat / 16 + b.toNat / 16 + r.toNat / 16) % 2 = 1) := by
  rw [BitVec.getLsbD_xor, BitVec.getLsbD_xor, getLsbD_four, getLsbD_four, getLsbD_four, xor_decide_odd, xor_decide_odd]

theorem addStatus_af (w : Width) (a b : Word) (c : Bool) :
    (addStatus w a b c).af = decide (16 ≤ a.toNat % 16 + b.toNat % 16 + carryNat c) := by
  have hk := carryNat_le c
  refine (xor_bit_four a b _).trans (decide_eq_decide.2 ?_)
  rw [addResult_toNat]
  cases w <;> simp only [Width.bits] <;> omega

theorem subStatus_af (w : Width) (a b : Word) (c : Bool) :
    (subStatus w a b c).af = decide (a.toNat % 16 < b.toNat % 16 + carryNat c) := by
  have hk := carryNat_le c
  have hr := subResult_toNat w a b c
  refine (xor_bit_four a b _).trans (decide_eq_decide.2 ?_)
  cases w <;> simp only [Width.bits] at * <;> omega

theorem addStatus_cf (w : Width) (a b : Word) (c : Bool) :
    (addStatus w a b c).cf = decide (2 ^ w.bits ≤ a.toNat + b.toNat + carryNat c) := rfl

theorem subStatus_cf (w : Width) (a b : Word) (c : Bool) :
    (subStatus w a b c).cf = decide (a.toNat < b.toNat + carryNat c) := by
  refine decide_eq_decide.2 ?_
  omega

/-- Signed overflow of an addition: both operands' signs differ from the result's (R28). -/
theorem addStatus_of {w : Width} {a b : Word} (c : Bool) (ha : w.fits a = true) (hb : w.fits b = true) :
    (addStatus w a b c).of = (decide (sint w a + sint w b + carryNat c < -(2 ^ (w.bits - 1) : Int)) ||
      decide ((2 ^ (w.bits - 1) : Int) ≤ sint w a + sint w b + carryNat c)) := by
  have hk := carryNat_le c
  have la := toNat_lt_of_fits ha
  have lb := toNat_lt_of_fits hb
  have hr := addResult_toNat w a b c
  have fr : w.fits (addResult w a b c) = true := fits_and w _
  have sa := sint_cases ha
  have sb := sint_cases hb
  show msb w ((a ^^^ addResult w a b c) &&& (b ^^^ addResult w a b c)) = _
  rw [msb_and, msb_xor, msb_xor, msb_eq_decide ha, msb_eq_decide hb, msb_eq_decide fr, hr,
    Bool.eq_iff_iff]
  simp only [Bool.and_eq_true, Bool.or_eq_true, xor_eq_true_iff_ne, ne_eq, decide_eq_decide, decide_eq_true_eq]
  cases w <;> simp only [Width.bits] at * <;> omega

theorem subStatus_of {w : Width} {a b : Word} (c : Bool) (ha : w.fits a = true) (hb : w.fits b = true) :
    (subStatus w a b c).of = (decide (sint w a - sint w b - carryNat c < -(2 ^ (w.bits - 1) : Int)) ||
      decide ((2 ^ (w.bits - 1) : Int) ≤ sint w a - sint w b - carryNat c)) := by
  have hk := carryNat_le c
  have la := toNat_lt_of_fits ha
  have lb := toNat_lt_of_fits hb
  have hr := subResult_toNat w a b c
  have fr : w.fits (subResult w a b c) = true := fits_and w _
  have sa := sint_cases ha
  have sb := sint_cases hb
  show msb w ((a ^^^ b) &&& (a ^^^ subResult w a b c)) = _
  rw [msb_and, msb_xor, msb_xor, msb_eq_decide ha, msb_eq_decide hb, msb_eq_decide fr,
    Bool.eq_iff_iff]
  simp only [Bool.and_eq_true, Bool.or_eq_true, xor_eq_true_iff_ne, ne_eq, decide_eq_decide, decide_eq_true_eq]
  cases w <;> simp only [Width.bits] at * <;> omega

/-- SF, ZF and PF of a result that is a number. -/
theorem status_ofResult {w : Width} {r : Word} {n : Nat} (h : w.fits r = true) (hn : r.toNat = n) (cf af of : Bool) :
    let t := Status.ofResult w r cf af of
    t.sf = decide (2 ^ (w.bits - 1) ≤ n) ∧ t.zf = decide (n = 0) ∧
      t.pf = !(n.testBit 0 ^^ n.testBit 1 ^^ n.testBit 2 ^^ n.testBit 3 ^^ n.testBit 4 ^^ n.testBit 5 ^^ n.testBit 6 ^^
        n.testBit 7) := by
  subst hn
  exact ⟨msb_eq_decide h, decide_eq_decide.2 (zero_iff_toNat r), parity_eq_xor r⟩

/-- Settles O9: each flag by its own law. -/
theorem additionAndSubtraction : Obligations.AdditionAndSubtraction := by
  intro w a b c ha hb
  have diff : (subResult w a b c).toNat = (((a.toNat : Int) - b.toNat - carryNat c) % 2 ^ w.bits).toNat := by
    rw [← subResult_toNat, Int.toNat_natCast]
  exact ⟨addResult_toNat w a b c, status_ofResult (fits_and w _) (addResult_toNat w a b c) _ _ _,
    status_ofResult (fits_and w _) diff _ _ _, addStatus_cf w a b c, addStatus_of c ha hb, addStatus_af w a b c,
    subResult_toNat w a b c, subStatus_cf w a b c, subStatus_of c ha hb, subStatus_af w a b c⟩

/-! ### Conditions (R364) -/

theorem conditionTable : Claim.ConditionTable := by
  have nor : ∀ x y : Bool, (!x && !y) = !(x || y) := by decide
  have eqv : ∀ x y : Bool, (x == y) = !(x ^^ y) := by decide
  have neqv : ∀ x y : Bool, (x != y) = (x ^^ y) := by decide
  intro f
  refine ⟨rfl, rfl, rfl, rfl, rfl, rfl, rfl, nor _ _, rfl, rfl, rfl, rfl, neqv _ _, eqv _ _, ?_, ?_⟩
  · exact congrArg (f.getLsbD 6 || ·) (neqv _ _)
  · show (!f.getLsbD 6 && (f.getLsbD 7 == f.getLsbD 11)) = _
    rw [eqv, nor]

/-- After a comparison the zero flag says that the operands are equal. -/
theorem compare_zf {w : Width} {a b : Word} (ha : w.fits a = true) (hb : w.fits b = true) :
    (subStatus w a b false).zf = decide (a = b) := by
  have la := toNat_lt_of_fits ha
  have lb := toNat_lt_of_fits hb
  have hr := subResult_toNat w a b false
  refine decide_eq_decide.2 ((zero_iff_toNat _).trans (Iff.trans ?_ BitVec.toNat_inj))
  simp only [carryNat, Bool.false_eq_true, if_false] at hr
  cases w <;> simp only [Width.bits] at * <;> omega

/-- After a comparison sign and overflow differ where the first operand is less, as signed numbers. -/
theorem compare_less {w : Width} {a b : Word} (ha : w.fits a = true) (hb : w.fits b = true) :
    ((subStatus w a b false).sf ^^ (subStatus w a b false).of) = decide (sint w a < sint w b) := by
  have la := toNat_lt_of_fits ha
  have lb := toNat_lt_of_fits hb
  have hr := subResult_toNat w a b false
  have fr : w.fits (subResult w a b false) = true := fits_and w _
  have hs : (subStatus w a b false).sf = decide (2 ^ (w.bits - 1) ≤ (subResult w a b false).toNat) := msb_eq_decide fr
  have sa := sint_cases ha
  have sb := sint_cases hb
  rw [hs, subStatus_of false ha hb, ← Bool.decide_or, Bool.eq_iff_iff, xor_eq_true_iff_ne, ne_eq, decide_eq_decide,
    decide_eq_true_eq]
  simp only [carryNat, Bool.false_eq_true, if_false] at hr ⊢
  cases w <;> simp only [Width.bits] at * <;> omega

theorem comparisonOrders : Claim.ComparisonOrders := by
  intro f w a b ha hb
  obtain ⟨-, -, cb, cae, ce, cne, cbe, ca, -, -, -, -, cl, cge, cle, cg⟩ :=
    conditionTable (putStatus f (subStatus w a b false))
  have zf : (putStatus f (subStatus w a b false)).getLsbD 6 = decide (a = b) :=
    (getFlag_putStatus_zf _ _).trans (compare_zf ha hb)
  have cf : (putStatus f (subStatus w a b false)).getLsbD 0 = decide (a.toNat < b.toNat) :=
    (getFlag_putStatus_cf _ _).trans (subStatus_cf w a b false)
  have less : ((putStatus f (subStatus w a b false)).getLsbD 7 ^^ (putStatus f (subStatus w a b false)).getLsbD 11) =
      decide (sint w a < sint w b) := by
    rw [← compare_less ha hb]
    exact congr (congrArg Bool.xor (getFlag_putStatus_sf _ _)) (getFlag_putStatus_of _ _)
  have eqNat : a = b ↔ a.toNat = b.toNat := BitVec.toNat_inj.symm
  have eqInt : a = b ↔ sint w a = sint w b := by
    have la := toNat_lt_of_fits ha
    have lb := toNat_lt_of_fits hb
    have sa := sint_cases ha
    have sb := sint_cases hb
    rw [eqNat]
    cases w <;> simp only [Width.bits] at * <;> omega
  simp only [ce, cne, cb, cae, cbe, ca, cl, cge, cle, cg, zf, cf, less, ← decide_not, ← Bool.decide_or, decide_eq_decide]
  refine ⟨trivial, trivial, trivial, Nat.not_lt, ?_, ?_, trivial, Int.not_lt, ?_, ?_⟩
  · rw [eqNat]; omega
  · rw [eqNat]; omega
  · rw [eqInt]; omega
  · rw [eqInt]; omega

/-- Settles O10: the table, and the orders by the carry, the zero flag and sign against overflow. -/
theorem conditionsAfterCompare : Obligations.ConditionsAfterCompare := ⟨conditionTable, comparisonOrders⟩

end Sys2Proof.Machine

namespace Sys2Proof.Machine

/-! ### Frames put together -/

theorem SameSystem.trans {s t u : State} (h1 : SameSystem s t) (h2 : SameSystem t u) : SameSystem s u :=
  ⟨h2.segs.trans h1.segs, h2.cpl.trans h1.cpl, h2.gdtr.trans h1.gdtr, h2.idtr.trans h1.idtr, h2.ldtr.trans h1.ldtr,
    h2.tr.trans h1.tr, h2.cr0.trans h1.cr0, h2.cr2.trans h1.cr2, h2.cr3.trans h1.cr3, h2.a20On.trans h1.a20On,
    h2.halted.trans h1.halted, h2.shutdown.trans h1.shutdown⟩

/-- The bytes stored are those stored since an earlier state. -/
theorem Stored.since {s t u : State} {lin v : Word} {w : Width} (h : Stored t u lin w v)
    (e1 : t.ioEvents <:+ s.ioEvents) (e2 : u.ioEvents <:+ t.ioEvents) : Stored s u lin w v := by
  intro k hk
  obtain ⟨p, hp, stored⟩ := h k hk
  exact ⟨p, hp, fun ram hu => stored ram ((State.untouched_trans e1 e2 _).1 hu).2⟩

/-- The linear address of an operand depends on the registers and the segments. -/
theorem OnlyMemory.operand {s t : State} (h : OnlyMemory s t) (m : MemRef) :
    t.linear m.seg (t.off m) = s.linear m.seg (s.off m) := by
  unfold OnlyMemory at h
  rw [h]
  rfl

theorem OnlyMemory.ssz {s t : State} (h : OnlyMemory s t) : s.ssz = t.ssz := by
  obtain ⟨-, -, -, -, segs, -⟩ := h.fields
  unfold State.ssz
  rw [segs]

/-- Flags and draws were written, and nothing else. -/
structure FlagEffect (s u : State) : Prop where
  only : u = { s with flags := u.flags, draws := u.draws }
  ok   : FlagsOk s.flags → FlagsOk u.flags

theorem FlagEffect.refl (s : State) : FlagEffect s s := ⟨rfl, id⟩

theorem FlagEffect.putStatus (s : State) (t : Status) : FlagEffect s (s.putStatus t) :=
  ⟨rfl, fun h => flagsOk_putStatus h t⟩

theorem FlagEffect.logic (s : State) (w : Width) (r : Word) : FlagEffect s (logicFlags s w r) :=
  ⟨rfl, fun h => flagsOk_putStatus h _⟩

/-- A destination written after reads that stored nothing and after the flags: the frame from the first state on. -/
theorem wrote_since {s s2 u t : State} {w : Width} {rm : RM} {r : Word} (e : Effect s s2 []) (f : FlagEffect s2 u)
    (h : (writeDst w rm r).run u = .ok () t) (i : s.Inv) :
    t.flags = u.flags ∧ t.nextEip = s.nextEip ∧ SameSystem s t ∧ Wrote s t w rm r := by
  obtain ⟨regs2, -, -, next2, -⟩ := e.only.fields
  have i2 := e.inv i
  have iu : u.Inv := by
    rw [f.only]
    exact ⟨i2.mem, i2.tlb, f.ok i2.flags, i2.paging, i2.map⟩
  have we := writeDst_ok h
  have wrote := we.wrote iu
  have sys2 : SameSystem s2 u := by
    rw [f.only]
    exact ⟨rfl, rfl, rfl, rfl, rfl, rfl, rfl, rfl, rfl, rfl, rfl, rfl⟩
  have next : u.nextEip = s.nextEip := by rw [f.only]; exact next2
  refine ⟨we.flags, we.nextEip.trans next, (e.system.trans sys2).trans we.system, ?_⟩
  have only := f.only
  cases rm with
  | reg q =>
    cases h
    have regs : u.regs = s.regs := by rw [only]; exact regs2
    refine ⟨congrArg (·.setView w q r) regs, fun a _ hu => ?_⟩
    rw [only] at hu ⊢
    exact e.stores i a (outside_nil _ _) hu
  | mem m =>
    unfold writeDst at h
    rw [run_bind_ok (run_get _)] at h
    obtain ⟨eu, -⟩ := segWriteBack_ok h
    obtain ⟨regs, stores, stored⟩ := wrote
    rw [only] at eu regs stores stored
    have lin : State.linear { s2 with flags := u.flags, draws := u.draws } m.seg (s2.off m) = s.linear m.seg (s.off m) :=
      e.only.operand m
    refine ⟨regs.trans regs2, ?_⟩
    rw [← lin]
    exact ⟨StoresOnly.trans e.only.pg eu.keeps e.events eu.events (e.stores i) stores, stored.since e.events eu.events⟩

/-! ### Instructions that read, write the flags and write back -/

/-- EIP moves on after a write that left the next EIP. -/
theorem advance_of_nextEip {s t : State} (h : t.nextEip = s.nextEip) : t.advance = { t with eip := s.nextEip } := by
  rw [← h]
  rfl

/-- An instruction whose operation comes down to writing its result back. -/
theorem storesResult_of {i : Instr} {op : Op Unit} {s s2 u : State} {w : Width} {dst : RM} {r : Word}
    (he : exec i s = run op s) (e : Effect s s2 []) (f : FlagEffect s2 u) (inv : s.Inv)
    (h : op.run s = (do writeDst w dst r; advance : Op Unit).run u) : StoresResult i s u w dst r := by
  refine ⟨fun t ht => ?_, fun g t ht => ?_⟩
  · obtain ⟨flags, next, system, wrote⟩ := wrote_since e f ht inv
    rw [run_bind_ok ht, run_advance, advance_of_nextEip next] at h
    exact ⟨he.trans (run_of_ok h), flags, system, wrote⟩
  · rw [run_bind_error ht] at h
    exact he.trans (run_of_fault h)

/-- An instruction whose operation faults with its access. -/
theorem faultsWhere_of {α : Type} {i : Instr} {op : Op Unit} {s u : State} {access : Op α} (he : exec i s = run op s)
    (h : ∀ e t, access.run u = .error e t → op.run s = .error e t) : FaultsWhere i s u access :=
  fun _ _ ht => he.trans (run_of_fault (h _ _ ht))

/-- The source of an arithmetic form is read, and nothing is stored. -/
theorem aluSrc_effect {f : AluForm} {s t : State} {b : Word} (h : (AluForm.src f).run s = .ok b t) : Effect s t [] := by
  cases f with
  | rmReg | accImm | rmImm | rmImm8 =>
    cases h
    exact Effect.refl _
  | regRm w r rm => exact (readRM_ok h).1

/-- The source of a TEST form is a register or an immediate. -/
theorem testSrc_state {f : TestForm} {s t : State} {b : Word} (h : (TestForm.src f).run s = .ok b t) : t = s := by
  cases f <;> (cases h; rfl)

/-- A read-modify-write that was read and computed comes down to its write. -/
theorem run_modifyRM {w : Width} {rm : RM} {g : Word → Op Word} {s s2 u : State} {a r : Word}
    (hd : (readDst w rm).run s = .ok a s2) (hg : (g a).run s2 = .ok r u) :
    (do let _ ← modifyRM w rm (storing g); advance : Op Unit).run s = (do writeDst w rm r; advance : Op Unit).run u := by
  have hs : (storing g a).run s2 = .ok (some r) u := run_bind_ok hg
  have hm : (modifyRM w rm (storing g)).run s = (do writeDst w rm r; pure a : Op Word).run u := by
    unfold modifyRM
    rw [run_bind_ok hd, run_bind_ok hs]
  rw [EStateM.run_bind, hm, EStateM.run_bind, EStateM.run_bind]
  cases (writeDst w rm r).run u <;> rfl

theorem run_modifyRM_error {w : Width} {rm : RM} {f : Word → Op (Option Word)} {s t : State} {e : Stop}
    (hd : (readDst w rm).run s = .error e t) : (do let _ ← modifyRM w rm f; advance : Op Unit).run s = .error e t :=
  run_bind_error (run_bind_error hd)

theorem run_aluStore {g : BinOp} {f : AluForm} {s s1 s2 u : State} {a b r : Word}
    (hs : (AluForm.src f).run s = .ok b s1) (hd : (readDst (AluForm.width f) (AluForm.dst f)).run s1 = .ok a s2)
    (hg : (g (AluForm.width f) a b).run s2 = .ok r u) :
    (aluStore g f).run s = (do writeDst (AluForm.width f) (AluForm.dst f) r; advance : Op Unit).run u :=
  (run_bind_ok hs).trans (run_modifyRM hd hg)

/-! ### The result functions of the two-operand instructions -/

theorem run_addOp (w : Width) (a b : Word) (s : State) :
    (addOp w a b).run s = .ok (addResult w a b false) (s.putStatus (addStatus w a b false)) := rfl

theorem run_subOp (w : Width) (a b : Word) (s : State) :
    (subOp w a b).run s = .ok (subResult w a b false) (s.putStatus (subStatus w a b false)) := rfl

theorem run_adcOp (w : Width) (a b : Word) (s : State) :
    (adcOp w a b).run s = .ok (addResult w a b (s.flag .cf)) (s.putStatus (addStatus w a b (s.flag .cf))) := rfl

theorem run_sbbOp (w : Width) (a b : Word) (s : State) :
    (sbbOp w a b).run s = .ok (subResult w a b (s.flag .cf)) (s.putStatus (subStatus w a b (s.flag .cf))) := rfl

theorem run_logicOp (w : Width) (r : Word) (s : State) : (logicOp w r).run s = .ok r (logicFlags s w r) := rfl

/-- An arithmetic instruction stores what its result function gives, with the flags that it leaves. -/
theorem aluStore_storesResult {i : Instr} {g : BinOp} {f : AluForm} {s s1 s2 u : State} {a b r : Word}
    (he : exec i s = run (aluStore g f) s) (inv : s.Inv) (hs : (AluForm.src f).run s = .ok b s1)
    (hd : (readDst (AluForm.width f) (AluForm.dst f)).run s1 = .ok a s2)
    (hg : (g (AluForm.width f) a b).run s2 = .ok r u) (hf : FlagEffect s2 u) :
    StoresResult i s u (AluForm.width f) (AluForm.dst f) r :=
  storesResult_of he ((aluSrc_effect hs).trans (readDst_ok hd).1) hf inv (run_aluStore hs hd hg)

theorem Effect.flag {s t : State} {l : Ranges} (e : Effect s t l) (q : Flag) : t.flag q = s.flag q := by
  obtain ⟨-, flags, -⟩ := e.only.fields
  exact congrArg (getFlag · q) flags

theorem addAndSubtractComplete : Claim.AddAndSubtractComplete := by
  intro f s s1 s2 a b inv hs hd w c
  have carry : s2.flag .cf = c := ((aluSrc_effect hs).trans (readDst_ok hd).1).flag .cf
  have adc := run_adcOp w a b s2
  have sbb := run_sbbOp w a b s2
  rw [carry] at adc sbb
  exact ⟨aluStore_storesResult rfl inv hs hd (run_addOp w a b s2) (.putStatus _ _),
    aluStore_storesResult rfl inv hs hd adc (.putStatus _ _),
    aluStore_storesResult rfl inv hs hd (run_subOp w a b s2) (.putStatus _ _),
    aluStore_storesResult rfl inv hs hd sbb (.putStatus _ _)⟩

theorem logicComplete : Claim.LogicComplete := by
  intro f s s1 s2 a b inv hs hd w
  exact ⟨aluStore_storesResult rfl inv hs hd (run_logicOp w _ s2) (.logic _ _ _),
    aluStore_storesResult rfl inv hs hd (run_logicOp w _ s2) (.logic _ _ _),
    aluStore_storesResult rfl inv hs hd (run_logicOp w _ s2) (.logic _ _ _)⟩

/-- The seven two-operand instructions that write their destination have one shape. -/
theorem exec_arithmetic {f : AluForm} {i : Instr} (h : i ∈ [Instr.add f, .adc f, .sub f, .sbb f, .and f, .or f, .xor f]) :
    ∃ g : BinOp, ∀ s, exec i s = run (aluStore g f) s := by
  simp only [List.mem_cons, List.not_mem_nil, or_false] at h
  rcases h with rfl | rfl | rfl | rfl | rfl | rfl | rfl <;> exact ⟨_, fun _ => rfl⟩

theorem arithmeticFaults : Claim.ArithmeticFaults := by
  intro f s i hi
  obtain ⟨g, he⟩ := exec_arithmetic hi
  exact ⟨faultsWhere_of (he s) fun _ _ h => run_bind_error h,
    fun b u hs => faultsWhere_of (he s) fun _ _ h => (run_bind_ok hs).trans (run_modifyRM_error h)⟩

/-- Settles O11: the operation comes down to the write of its result, after reads that store nothing. -/
theorem arithmeticComplete : Obligations.ArithmeticComplete :=
  ⟨addAndSubtractComplete, logicComplete, arithmeticFaults⟩

/-! ### Comparisons and one-operand instructions -/

theorem run_aluCompare {g : BinOp} {f : AluForm} {s s1 s2 u : State} {a b r : Word}
    (hs : (AluForm.src f).run s = .ok b s1) (hd : (readRM (AluForm.width f) (AluForm.dst f)).run s1 = .ok a s2)
    (hg : (g (AluForm.width f) a b).run s2 = .ok r u) : (aluCompare g f).run s = .ok () u.advance :=
  (run_bind_ok hs).trans <| (run_bind_ok hd).trans (run_bind_ok hg)

theorem compareAndTestComplete : Claim.CompareAndTestComplete := by
  refine ⟨fun f s s1 s2 a b inv hs hd => ?_, fun f s s1 s2 a b inv hs hd => ?_⟩
  · have e := (aluSrc_effect hs).trans (readRM_ok hd).1
    obtain ⟨-, flags, -, next, -⟩ := e.only.fields
    refine ⟨(run_of_ok (run_aluCompare hs hd (run_subOp _ _ _ _))).trans ?_, e.accessed inv⟩
    rw [← flags, ← next]
    rfl
  · cases testSrc_state hs
    have e := (readRM_ok hd).1
    obtain ⟨-, -, -, next, -⟩ := e.only.fields
    refine ⟨(run_of_ok ((run_bind_ok hs).trans ((run_bind_ok hd).trans (run_bind_ok (run_logicOp _ _ _))))).trans ?_,
      e.accessed inv⟩
    rw [← next]
    rfl

/-- Putting back the carry is the same as not computing it. -/
theorem putFlag_putStatus_cf (f : Word) (t : Status) (c : Bool) :
    putFlag (putStatus f t) .cf c = putStatus f { t with cf := c } := by
  apply BitVec.eq_of_getLsbD_eq
  intro i hi
  rw [putFlag_bit _ _ _ _ hi, putStatus_bit _ _ _ hi, putStatus_bit _ _ _ hi]
  by_cases h : i = 0
  · subst h
    rfl
  · simp only [if_neg h, if_neg (show ¬ i = Flag.cf.bit from h)]

theorem State.putFlag_putStatus_cf (s : State) (t : Status) (c : Bool) :
    (s.putStatus t).putFlag .cf c = s.putStatus { t with cf := c } :=
  congrArg s.setFlagWord (Machine.putFlag_putStatus_cf s.flags t c)

/-- A result function that only writes the status flags, with the carry kept. -/
theorem run_keepingCarry {op : Op Word} {s : State} {r : Word} {t : Status} (h : op.run s = .ok r (s.putStatus t)) :
    (keepingCarry op).run s = .ok r (s.putStatus { t with cf := s.flag .cf }) := by
  unfold keepingCarry
  rw [run_bind_ok (run_get s), run_bind_ok h, run_bind_ok (run_putFlagOp _ _ _), State.putFlag_putStatus_cf]
  rfl

/-- A one-operand instruction stores what its result function gives. -/
theorem unaryStore_storesResult {i : Instr} {g : Word → Op Word} {s s2 u : State} {w : Width} {rm : RM} {a r : Word}
    (he : exec i s = run (unaryStore w rm g) s) (inv : s.Inv) (hd : (readDst w rm).run s = .ok a s2)
    (hg : (g a).run s2 = .ok r u) (hf : FlagEffect s2 u) : StoresResult i s u w rm r :=
  storesResult_of he (readDst_ok hd).1 hf inv (run_modifyRM hd hg)

theorem unaryComplete : Claim.UnaryComplete := by
  refine ⟨fun f s s2 a inv hd => ?_, fun w rm s s2 a inv hd => ?_⟩
  · have inc := run_keepingCarry (run_addOp (IncForm.width f) a 1 s2)
    have dec := run_keepingCarry (run_subOp (IncForm.width f) a 1 s2)
    rw [(readDst_ok hd).1.flag .cf] at inc dec
    exact ⟨unaryStore_storesResult rfl inv hd inc (.putStatus _ _),
      unaryStore_storesResult rfl inv hd dec (.putStatus _ _)⟩
  · exact ⟨unaryStore_storesResult rfl inv hd (run_subOp w 0 a s2) (.putStatus _ _),
      unaryStore_storesResult rfl inv hd (run_op_pure _ s2) (.refl _)⟩

theorem compareAndUnaryFaults : Claim.CompareAndUnaryFaults := by
  refine fun s => ⟨fun f => ⟨?_, fun b u hs => ?_⟩, fun f b u hs => ?_, fun f => ⟨?_, ?_⟩, fun w rm => ⟨?_, ?_⟩⟩
  · exact faultsWhere_of rfl fun _ _ h => run_bind_error h
  · exact faultsWhere_of rfl fun _ _ h => (run_bind_ok hs).trans (run_bind_error h)
  · exact faultsWhere_of rfl fun _ _ h => (run_bind_ok hs).trans (run_bind_error h)
  all_goals exact faultsWhere_of rfl fun _ _ h => run_modifyRM_error h

/-- Settles O12: comparisons stop after the flags; INC and DEC put the carry back, which is not computing it. -/
theorem compareAndUnaryComplete : Obligations.CompareAndUnaryComplete :=
  ⟨compareAndTestComplete, unaryComplete, compareAndUnaryFaults⟩

/-! ### PUSHF and POPF -/

/-- Outside virtual-8086 mode with a low IOPL, PUSHF and POPF are not privileged. -/
theorem v86IoplLow_eq_false {s : State} (h : s.v86Mode = false ∨ s.iopl = 3) : s.v86IoplLow = false := by
  unfold State.v86IoplLow
  rcases h with h | h <;> rw [h]
  · rfl
  · exact Bool.and_false _

/-- The operation of PUSHF, where it is not privileged. -/
theorem run_execPushf {z : Size} {s : State} (h : s.v86IoplLow = false) :
    exec (.pushf z) s = run (do push z (pushfValue z s.flags); advance) s := by
  show settle s _ = settle s _
  rw [run_bind_ok (run_get s), h, Bool.not_false, run_bind_ok (run_require_true _ _ _)]

/-- The operation of POPF, where it is not privileged. -/
theorem run_execPopf {z : Size} {s : State} (h : s.v86IoplLow = false) :
    exec (.popf z) s = run (do
      let v ← pop z
      modify (·.loadFlags (popfValue z v) (popfMask z s.ioplOk s.popfIopl))
      advance) s := by
  show settle s _ = settle s _
  rw [run_bind_ok (run_get s), h, Bool.not_false, run_bind_ok (run_require_true _ _ _)]

theorem run_push_error {z : Size} {v : Word} {s t : State} {e : Stop}
    (h : (segWrite .ss (s.pushSp z) z.width v).run s = .error e t) : (push z v).run s = .error e t :=
  (run_bind_ok (run_get s)).trans (run_bind_error h)

theorem run_pop_error {z : Size} {s t : State} {e : Stop}
    (h : (segRead .ss s.sp z.width).run s = .error e t) : (pop z).run s = .error e t :=
  (run_bind_ok (run_get s)).trans (run_bind_error h)

/-- An instruction whose operation is a push. -/
theorem pushesValue_of {i : Instr} {z : Size} {s : State} {v : Word} (he : exec i s = run (do push z v; advance) s)
    (inv : s.Inv) : PushesValue i s s z v := by
  refine ⟨fun t ht => ?_, faultsWhere_of he fun _ _ h => run_bind_error (run_push_error h)⟩
  obtain ⟨e, stored⟩ := segWrite_ok ht
  obtain ⟨regs, -, -, next, -⟩ := e.only.fields
  have hrun : (do push z v; advance : Op Unit).run s = .ok () (t.setSp (s.pushSp z)).advance :=
    run_bind_ok (run_push ht)
  refine ⟨(he.trans (run_of_ok hrun)).trans ?_, e.accessed inv, stored inv⟩
  rw [← regs, ← next, e.only.ssz]
  rfl

theorem pushfComplete : Claim.PushfComplete := by
  intro z s inv h
  have he := run_execPushf (z := z) (v86IoplLow_eq_false h)
  cases z <;> exact pushesValue_of he inv

/-- Which bits POPF loads: the mask of R420, flag by flag. -/
theorem popfMask_bit (z : Size) (ifOk ioplOk : Bool) (q : Flag) :
    (popfMask z ifOk ioplOk).getLsbD q.bit =
      !decide (q = .vm ∨ (q = .if_ ∧ ifOk = false) ∨ (z = .s16 ∧ (q = .rf ∨ q = .ac))) := by
  cases z <;> cases ifOk <;> cases ioplOk <;> cases q <;> decide

theorem popfMask_iopl (z : Size) (ifOk ioplOk : Bool) (k : Nat) (hk : k < 2) :
    (popfMask z ifOk ioplOk).getLsbD (12 + k) = ioplOk := by
  have all : ∀ k, k < 2 → (popfMask z ifOk ioplOk).getLsbD (12 + k) = ioplOk := by
    cases z <;> cases ifOk <;> cases ioplOk <;> decide
  exact all k hk

/-- The image POPF loads is the value popped, but for RF of the 32-bit one. -/
theorem popfValue_bit (z : Size) (v : Word) (k : Nat) (hk : k < 32) :
    (popfValue z v).getLsbD k = (v.getLsbD k && (decide (z = .s16) || decide (k ≠ 16))) := by
  cases z with
  | s16 => simp [popfValue]
  | s32 =>
    have mask : ∀ k, k < 32 → (0xFFFEFFFF : Word).getLsbD k = decide (k ≠ 16) := by decide
    have bit := mask k hk
    simpa [popfValue] using congrArg (v.getLsbD k && ·) bit

/-- A flag after POPF. -/
theorem getFlag_popf (f v : Word) (z : Size) (ifOk ioplOk : Bool) (q : Flag) :
    getFlag (setFlags f (popfValue z v) (popfMask z ifOk ioplOk)) q =
      if q = .vm ∨ (q = .if_ ∧ ifOk = false) ∨ (z = .s16 ∧ (q = .rf ∨ q = .ac)) then getFlag f q
      else if q = .rf then false else v.getLsbD q.bit := by
  unfold getFlag
  rw [setFlags_bit _ _ _ _ q.bit_lt, popfMask_bit, q.capMask_bit, popfValue_bit _ _ _ q.bit_lt]
  have rf : decide (q.bit ≠ 16) = !decide (q = .rf) := by cases q <;> decide
  rw [rf, Bool.and_true]
  by_cases kept : q = .vm ∨ (q = .if_ ∧ ifOk = false) ∨ (z = .s16 ∧ (q = .rf ∨ q = .ac))
  · rw [if_pos kept, decide_eq_true kept]
    rfl
  · rw [if_neg kept, decide_eq_false kept]
    by_cases h : q = .rf
    · have s32 : z ≠ .s16 := fun e => kept (.inr (.inr ⟨e, .inl h⟩))
      simp [h, s32]
    · simp [h]

/-- The I/O privilege level after POPF. -/
theorem iopl_popf (f v : Word) (z : Size) (ifOk ioplOk : Bool) :
    iopl (setFlags f (popfValue z v) (popfMask z ifOk ioplOk)) = if ioplOk then v.extractLsb' 12 2 else iopl f := by
  apply BitVec.eq_of_getLsbD_eq
  intro k hk
  have cap : ∀ k, k < 2 → Config.capMask.getLsbD (12 + k) = true := by decide
  have image : (popfValue z v).getLsbD (12 + k) = v.getLsbD (12 + k) := by
    rw [popfValue_bit _ _ _ (by omega)]
    simp [show 12 + k ≠ 16 by omega]
  unfold iopl
  simp only [BitVec.getLsbD_extractLsb', hk, decide_true, Bool.true_and]
  rw [setFlags_bit _ _ _ _ (by omega), popfMask_iopl _ _ _ _ hk, cap k hk, image, Bool.and_true]
  cases ioplOk <;> simp [hk]

theorem popfComplete : Claim.PopfComplete := by
  intro z s u v inv h hu ifOk ioplOk
  obtain ⟨e, -⟩ := segRead_ok hu
  obtain ⟨regs, flags, -, next, -⟩ := e.only.fields
  refine ⟨setFlags s.flags (popfValue z v) (popfMask z s.ioplOk s.popfIopl), ?_, e.accessed inv,
    getFlag_popf _ _ _ _ _, iopl_popf _ _ _ _ _⟩
  have hrun : (do
      let v ← pop z
      modify (·.loadFlags (popfValue z v) (popfMask z s.ioplOk s.popfIopl))
      advance : Op Unit).run s = .ok () ((u.setSp (s.spAdd (BitVec.ofNat 32 z.width.bytes))).loadFlags (popfValue z v)
        (popfMask z s.ioplOk s.popfIopl)).advance := run_bind_ok (run_pop hu)
  refine ((run_execPopf (v86IoplLow_eq_false h)).trans (run_of_ok hrun)).trans ?_
  unfold State.spAfter
  rw [← regs, ← flags, ← next, e.only.ssz]
  rfl

theorem popfFaults : Claim.PopfFaults := fun _ _ h =>
  faultsWhere_of (run_execPopf (v86IoplLow_eq_false h)) fun _ _ he => run_bind_error (run_pop_error he)

/-- Settles O40: PUSHF is a push; POPF is a pop, and its mask read bit by bit. -/
theorem pushfAndPopfComplete : Obligations.PushfAndPopfComplete := ⟨pushfComplete, popfComplete, popfFaults⟩

end Sys2Proof.Machine

namespace Sys2Proof.Machine

/-! ### Fetching one byte (R130, R506) -/

/-- An offset in the code segment, written out. -/
theorem codeAdd_eq (s : State) (off : Word) (k : Nat) : s.codeAdd off k =
    if s.segs.cs.size32 then off + BitVec.ofNat 32 k else (off + BitVec.ofNat 32 k) &&& 0xFFFF := by
  have all (x : Word) : x &&& 0xFFFFFFFF = x := BitVec.and_allOnes
  unfold State.codeAdd State.codeSize
  cases s.segs.cs.size32 with
  | true => exact all _
  | false => rfl

theorem codeInLimit_iff (s : State) (off : Word) : s.codeInLimit off = true ↔
    s.segs.cs.limitMin.toNat ≤ off.toNat ∧ off.toNat ≤ s.segs.cs.limitMax.toNat := by
  simp [State.codeInLimit, SegReg.inLimit]

/-- A byte beyond the fifteenth cannot be fetched. -/
theorem fetchByte_too_long {k : Nat} (s : State) (h : 15 ≤ k) :
    (fetchByte k).run s = .error (.fault { kind := .gp, code := some 0, addr := none } false) s := by
  unfold fetchByte
  rw [if_pos (show maxInsnLen ≤ k from h)]
  rfl

/-- Up to the fifteenth byte the limits are tested first. -/
theorem run_fetchByte {k : Nat} (s : State) (h : k < 15) :
    (fetchByte k).run s = (do
      require (s.codeInLimit (s.codeAdd s.startEip k)) .gp 0
      let p ← translate (s.linear .cs (s.codeAdd s.startEip k)) false s.user
      modify (·.notePara p)
      let v ← memRead p .w8
      pure (v.setWidth 8) : Op Byte).run s := by
  unfold fetchByte
  rw [if_neg (show ¬ maxInsnLen ≤ k from Nat.not_le.2 h)]
  rfl

theorem fetchByte_outside {k : Nat} {s : State} (h : k < 15) (out : s.codeInLimit (s.codeAdd s.startEip k) = false) :
    (fetchByte k).run s = .error (.fault { kind := .gp, code := some 0, addr := none } false) s := by
  rw [run_fetchByte s h, out]
  rfl

theorem fetchByte_fault {k : Nat} {s u : State} {e : Stop} (h : k < 15)
    (inside : s.codeInLimit (s.codeAdd s.startEip k) = true)
    (ht : (translate (s.linear .cs (s.codeAdd s.startEip k)) false s.user).run s = .error e u) :
    (fetchByte k).run s = .error e u := by
  rw [run_fetchByte s h, inside, run_bind_ok (run_require_true _ _ _), run_bind_error ht]

/-- The physical address of the k-th code byte, with paging off. -/
def State.codePhys (s : State) (k : Nat) : Word := s.linear .cs (s.codeAdd s.startEip k) &&& s.a20Mask

theorem notePara_only (s : State) (p : Word) : s.notePara p = { s with blockParas := (s.notePara p).blockParas } := by
  unfold State.notePara
  split <;> rfl

/-- A byte of RAM is read without a call of a device. -/
theorem memRead_ram {s : State} {a : Word} (h : regionAt s.physMap a.toNat = some .ram) :
    (memRead a .w8).run s = .ok ((s.mem.read a.toNat).setWidth 32) s := by
  have device : meetsDevice s.physMap Width.w8.bytes a.toNat = false := by simp [meetsDevice, Width.bytes, h]
  have value : s.readBytes 0 Width.w8.bytes a.toNat = (s.mem.read a.toNat).setWidth 32 := by
    simp [State.readBytes, State.readByte, Width.bytes, h]
  unfold memRead
  rw [run_bind_ok (run_get s), device, value]
  rfl

theorem fetchByte_ram {k : Nat} {s : State} (pg : s.pg = false) (h : k < 15)
    (inside : s.codeInLimit (s.codeAdd s.startEip k) = true)
    (ram : regionAt s.physMap (s.codePhys k).toNat = some .ram) :
    (fetchByte k).run s = .ok (s.mem.read (s.codePhys k).toNat) (s.notePara (s.codePhys k)) := by
  have ht : (translate (s.linear .cs (s.codeAdd s.startEip k)) false s.user).run s = .ok (s.codePhys k) s := by
    unfold translate
    rw [run_bind_ok (run_get s), pg]
    rfl
  have noted := notePara_only s (s.codePhys k)
  have hm := memRead_ram (s := s.notePara (s.codePhys k)) (a := s.codePhys k) (by rw [noted]; exact ram)
  rw [run_fetchByte s h, inside, run_bind_ok (run_require_true _ _ _), run_bind_ok ht, run_bind_ok (run_modify _ _),
    run_bind_ok hm, run_op_pure]
  have mem : (s.notePara (s.codePhys k)).mem = s.mem := by rw [noted]
  rw [mem]
  simp

/-! ### Fetching several -/

theorem fetchBytes_succ_ok {n k : Nat} {s u : State} {bs : List Byte} (h : (fetchBytes (n + 1) k).run s = .ok bs u) :
    ∃ b rest t, (fetchByte k).run s = .ok b t ∧ (fetchBytes n (k + 1)).run t = .ok rest u ∧ bs = b :: rest := by
  obtain ⟨b, t, hb, h⟩ := run_bind_inv h
  obtain ⟨rest, u', hr, h⟩ := run_bind_inv h
  cases h
  exact ⟨b, rest, t, hb, hr, rfl⟩

theorem run_fetchBytes_succ {n k : Nat} {s t u : State} {b : Byte} {bs : List Byte} (hb : (fetchByte k).run s = .ok b t)
    (hr : (fetchBytes n (k + 1)).run t = .ok bs u) : (fetchBytes (n + 1) k).run s = .ok (b :: bs) u :=
  (run_bind_ok hb).trans (run_bind_ok hr)

/-- The first byte that faults gives the fault of the whole fetch. -/
theorem fetchBytes_error {m n k : Nat} {s u t : State} {bs : List Byte} {e : Stop} (hmn : m < n)
    (hok : (fetchBytes m k).run s = .ok bs u) (herr : (fetchByte (k + m)).run u = .error e t) :
    (fetchBytes n k).run s = .error e t := by
  induction m generalizing n k s bs with
  | zero =>
    cases hok
    obtain ⟨n, rfl⟩ := Nat.exists_eq_succ_of_ne_zero (Nat.ne_of_gt hmn)
    exact run_bind_error herr
  | succ m ih =>
    obtain ⟨n, rfl⟩ := Nat.exists_eq_succ_of_ne_zero (Nat.ne_of_gt (Nat.zero_lt_of_lt hmn))
    obtain ⟨b, rest, v, hb, hr, rfl⟩ := fetchBytes_succ_ok hok
    have later := ih (Nat.lt_of_succ_lt_succ hmn) hr (by rwa [Nat.add_right_comm, Nat.add_assoc])
    exact (run_bind_ok hb).trans (run_bind_error later)

/-- The code byte lies inside the limits and in RAM. -/
structure State.CodeInRam (s : State) (k : Nat) : Prop where
  inside : s.codeInLimit (s.codeAdd s.startEip k) = true
  ram    : regionAt s.physMap (s.codePhys k).toNat = some .ram

/-- With paging off, code bytes in RAM are read one after the other. -/
theorem fetchBytes_ram {n k : Nat} {s : State} (pg : s.pg = false) (hn : k + n ≤ 15)
    (h : ∀ j, k ≤ j → j < k + n → s.CodeInRam j) :
    ∃ t, (fetchBytes n k).run s = .ok ((List.range' k n).map fun j => s.mem.read (s.codePhys j).toNat) t ∧
      t = { s with blockParas := t.blockParas } := by
  induction n generalizing k s with
  | zero => exact ⟨s, rfl, rfl⟩
  | succ n ih =>
    obtain ⟨inside, ram⟩ := h k (Nat.le_refl k) (by omega)
    have hb := fetchByte_ram pg (by omega) inside ram
    have noted := notePara_only s (s.codePhys k)
    generalize s.notePara (s.codePhys k) = v at hb noted
    have hv : ∀ j, k + 1 ≤ j → j < k + 1 + n → v.CodeInRam j := by
      intro j hj hj'
      obtain ⟨inside, ram⟩ := h j (by omega) (by omega)
      rw [noted]
      exact ⟨inside, ram⟩
    obtain ⟨t, hr, ht⟩ := ih (s := v) (k := k + 1) (by rw [noted]; exact pg) (by omega) hv
    refine ⟨t, (run_fetchBytes_succ hb hr).trans ?_, ?_⟩
    · rw [List.range'_succ, noted]
      rfl
    · rw [ht, noted]

theorem fetchSucceeds : Claim.FetchSucceeds := by
  intro n s pg hn off phys h
  have codeOff (k : Nat) : s.codeAdd s.startEip k = off k := codeAdd_eq s s.startEip k
  have codePhys (k : Nat) : (s.codePhys k).toNat = phys k := by
    unfold State.codePhys
    rw [codeOff]
    rfl
  have inRam (j : Nat) (hj : j < n) : s.CodeInRam j := by
    obtain ⟨low, high, ram⟩ := h j hj
    refine ⟨(codeInLimit_iff s _).2 ?_, by rw [codePhys]; exact ram⟩
    rw [codeOff]
    exact ⟨low, high⟩
  obtain ⟨t, hr, ht⟩ := fetchBytes_ram (n := n) (k := 0) pg (by omega) fun j _ hj => inRam j (by omega)
  refine ⟨t, hr.trans ?_, ht⟩
  simp only [codePhys, List.range_eq_range']

theorem fetchFaults : Claim.FetchFaults := by
  intro k s off gp inside
  have codeOff : s.codeAdd s.startEip k = off := codeAdd_eq s s.startEip k
  have limit : s.codeInLimit (s.codeAdd s.startEip k) = true ↔ inside := by
    rw [codeOff]
    exact codeInLimit_iff s off
  refine ⟨fetchByte_too_long s, fun hk out => ?_, fun e u hk hin ht => ?_, fun n bs u e t hn hok herr => ?_⟩
  · exact fetchByte_outside hk (Bool.eq_false_iff.2 fun h => out (limit.1 h))
  · refine fetchByte_fault hk (limit.2 hin) ?_
    rw [codeOff]
    exact ht
  · exact fetchBytes_error hn hok (by rwa [Nat.zero_add])

/-- Settles O59, by induction on the number of bytes. -/
theorem fetchReadsMemory : Obligations.FetchReadsMemory := ⟨fetchSucceeds, fetchFaults⟩

end Sys2Proof.Machine

namespace Sys2Proof.Machine

/-! ### What the fetch leaves: the code segment and the latch -/

/-- The code segment and the address of the instruction are the same. -/
def SameCode (s t : State) : Prop := t.segs = s.segs ∧ t.startEip = s.startEip

theorem sameCode_preorder : Preorder SameCode where
  refl _ := ⟨rfl, rfl⟩
  trans _ _ _ h1 h2 := ⟨h2.1.trans h1.1, h2.2.trans h1.2⟩

theorem OnlyMemory.sameCode {s t : State} (h : OnlyMemory s t) : SameCode s t := by
  unfold OnlyMemory at h
  rw [h]
  exact ⟨rfl, rfl⟩

theorem SameCode.codeAdd {s t : State} (h : SameCode s t) (off : Word) (k : Nat) : t.codeAdd off k = s.codeAdd off k := by
  obtain ⟨segs, -⟩ := h
  unfold State.codeAdd State.codeSize
  rw [segs]

theorem fetchByte_sameCode (k : Nat) : Op.Rel SameCode (fetchByte k) := by
  have p := sameCode_preorder
  have access {α : Type} {x : Op α} (h : Op.Rel AccessRel x) : Op.Rel SameCode x :=
    Op.rel_mono h fun _ _ a => a.only.sameCode
  have note (q : Word) : Op.Rel SameCode (modify (·.notePara q) : Op Unit) := Op.rel_modify fun s => by
    rw [notePara_only s q]
    exact ⟨rfl, rfl⟩
  have read (q : Word) : Op.Rel SameCode (memRead q .w8) := access (Op.rel_mono (memRead_rel q .w8) fun _ _ r => r.access)
  unfold fetchByte
  refine Op.rel_ite (Op.rel_raise p _ _) (Op.rel_bind p (Op.rel_get p) fun _ => ?_)
  refine Op.rel_bind p (Op.rel_require p _ _ _) fun _ => Op.rel_bind p (access (translate_access _ _ _)) fun q => ?_
  exact Op.rel_bind p (note q) fun _ => Op.rel_bind p (read q) fun _ => Op.rel_pure p _

theorem fetchBytes_sameCode (n k : Nat) : Op.Rel SameCode (fetchBytes n k) := by
  induction n generalizing k with
  | zero => exact Op.rel_pure sameCode_preorder _
  | succ n ih =>
    exact Op.rel_bind sameCode_preorder (fetchByte_sameCode k) fun _ =>
      Op.rel_bind sameCode_preorder (ih (k + 1)) fun _ => Op.rel_pure sameCode_preorder _

/-! ### The fetch unit where the bytes are no instruction -/

/-- Bytes that decode to no row are refused at the byte that settles it (R183). -/
theorem runFetch_unadmitted {α : Type} {d : Dec α} {k : Nat} {pre bs : List Byte} {s u : State}
    (hf : (fetchBytes bs.length k).run s = .ok bs u) (hd : d.run bs = .unadmitted)
    (more : ∀ n, n < bs.length → d.run (bs.take n) = .more) :
    (runFetch d k pre).run s = .error (.refuse (.unadmitted (pre ++ bs))) u := by
  induction d generalizing k pre bs s with
  | ret a => cases hd
  | unadmitted =>
    cases bs with
    | nil =>
      cases hf
      rw [List.append_nil]
      rfl
    | cons b bs => exact nomatch more 0 (Nat.succ_pos _)
  | byte f ih =>
    cases bs with
    | nil => cases hd
    | cons b bs =>
      obtain ⟨_, _, t, hb, hr, e⟩ := fetchBytes_succ_ok hf
      cases e
      have rest := ih b (pre := pre ++ [b]) hr hd fun n hn => more (n + 1) (Nat.succ_lt_succ hn)
      rw [List.append_assoc] at rest
      exact (run_bind_ok hb).trans rest

/-- Where the bytes so far are no instruction and the next one faults, the fetch faults (R506). -/
theorem runFetch_fault {α : Type} {d : Dec α} {k : Nat} {pre bs : List Byte} {s u t : State} {e : Stop}
    (hf : (fetchBytes bs.length k).run s = .ok bs u) (hd : d.run bs = .more)
    (hb : (fetchByte (k + bs.length)).run u = .error e t) : (runFetch d k pre).run s = .error e t := by
  induction d generalizing k pre bs s with
  | ret a => cases hd
  | unadmitted => cases hd
  | byte f ih =>
    cases bs with
    | nil =>
      cases hf
      exact run_bind_error hb
    | cons b bs =>
      obtain ⟨_, _, v, hb', hr, e⟩ := fetchBytes_succ_ok hf
      cases e
      refine (run_bind_ok hb').trans (ih b hr hd ?_)
      rwa [Nat.add_right_comm, Nat.add_assoc]

/-- Decoding reads the bytes of the code segment's own size. -/
theorem run_fetchInstr (b : State) : fetchInstr.run b =
    (do let (i, len) ← runFetch (decInstr b.codeSize) 0 []; modify (·.setNextEip len); pure i : Op Instr).run b := rfl

/-! ### The step that fetches -/

/-- The step runs an instruction from the state whose latch is the one fetched from. -/
theorem step_of_fetches {s b : State} (h : Claim.Fetches s b) :
    ∃ c : State, b = c.latch ∧ step s = runInstruction c ∧ b.codeSize = s.codeSize ∧ b.startEip = s.eip ∧
      ∀ off k, b.codeAdd off k = s.codeAdd off k := by
  obtain ⟨live, c, rfl, ⟨running, rfl⟩ | ⟨idle, awake, quiet, rfl⟩⟩ := h
  · refine ⟨c, rfl, ?_, rfl, rfl, fun _ _ => rfl⟩
    unfold step
    rw [live, running]
    rfl
  · refine ⟨s.beginBlock, rfl, ?_, rfl, rfl, fun _ _ => rfl⟩
    have notDue : s.interruptDue = false := by
      unfold State.interruptDue
      rcases quiet with e | e <;> rw [e]
      · rfl
      · exact Bool.and_false _
    unfold step startBlock
    rw [live, idle, notDue, awake]
    rfl

theorem runInstruction_of_ok {c t : State} {i : Instr} (h : fetchInstr.run c.latch = .ok i t) :
    runInstruction c = onNext (fun u => (u.charge (Config.insnCycles i)).finish) (exec i t) := by
  unfold runInstruction
  rw [h]

theorem runInstruction_of_error {c t : State} {e : Stop} (h : fetchInstr.run c.latch = .error e t) :
    runInstruction c = onNext State.finish (settle c.latch (.error e t)) := by
  unfold runInstruction
  rw [h]

theorem stepRunsInstruction : Claim.StepRunsInstruction := by
  intro s b u bs i hb hf
  obtain ⟨c, latch, hs, size, start, add⟩ := step_of_fetches hb
  refine ⟨fun hd => ?_, fun hd more => ?_⟩
  · have same : SameCode b u := Op.rel_ofOk (fetchBytes_sameCode bs.length 0) hf
    have next : u.setNextEip bs.length = { u with nextEip := s.codeAdd s.eip bs.length } := by
      unfold State.setNextEip
      rw [same.codeAdd, same.2, add, start]
    have hr : (runFetch (decInstr b.codeSize) 0 []).run b = .ok (i, bs.length) u := by
      rw [size, runFetch_of_fetchBytes hf hd, Nat.zero_add]
    have hi : fetchInstr.run c.latch = .ok i (u.setNextEip bs.length) := by
      rw [← latch, run_fetchInstr, run_bind_ok hr]
      rfl
    rw [hs, runInstruction_of_ok hi, next]
    rfl
  · have hr : (runFetch (decInstr b.codeSize) 0 []).run b = .error (.refuse (.unadmitted bs)) u := by
      rw [size]
      exact runFetch_unadmitted hf hd more
    have hi : fetchInstr.run c.latch = .error (.refuse (.unadmitted bs)) u := by
      rw [← latch, run_fetchInstr, run_bind_error hr]
    rw [hs, runInstruction_of_error hi]
    rfl

theorem stepTakesFetchFault : Claim.StepTakesFetchFault := by
  intro s b u t bs f hb hf hd ht
  obtain ⟨c, latch, hs, size, start, -⟩ := step_of_fetches hb
  have hr : (runFetch (decInstr b.codeSize) 0 []).run b = .error (.fault f false) t := by
    rw [size]
    exact runFetch_fault hf hd (by rwa [Nat.zero_add])
  have hi : fetchInstr.run c.latch = .error (.fault f false) t := by
    rw [← latch, run_fetchInstr, run_bind_error hr]
  rw [hs, runInstruction_of_error hi, ← latch, ← start]
  rfl

/-- Settles O58: the step fetches from the latched state, and the fetch unit reads what the decoder reads. -/
theorem stepRunsDecoded : Obligations.StepRunsDecoded := ⟨stepRunsInstruction, stepTakesFetchFault⟩

end Sys2Proof.Machine

namespace Sys2Proof.Machine

/-! ### The shapes of the data-transfer instructions -/

theorem SameSystem.refl (s : State) : SameSystem s s := ⟨rfl, rfl, rfl, rfl, rfl, rfl, rfl, rfl, rfl, rfl, rfl, rfl⟩

/-- An instruction whose operation comes down to writing an operand that it does not read. -/
theorem writesOperand_of {i : Instr} {op : Op Unit} {s u : State} {w : Width} {dst : RM} {v : Word}
    (he : exec i s = run op s) (hrun : op.run s = (do writeRM w dst v; advance : Op Unit).run u)
    (flags : u.flags = s.flags) (next : u.nextEip = s.nextEip) (system : SameSystem s u) (inv : u.Inv) :
    WritesOperand i s u w dst v := by
  refine ⟨fun t ht => ?_, faultsWhere_of he fun _ _ h => hrun.trans (run_bind_error h)⟩
  have e := writeRM_ok ht
  rw [run_bind_ok ht, run_advance, advance_of_nextEip (e.nextEip.trans next)] at hrun
  exact ⟨he.trans (run_of_ok hrun), e.flags.trans flags, system.trans e.system, e.wrote inv⟩

/-- An instruction whose operation comes down to writing to a register what it read. -/
theorem loadsRegister_of {i : Instr} {op : Op Unit} {s u : State} {w : Width} {r : Reg} {v : Word}
    (he : exec i s = run op s) (hrun : op.run s = (do writeReg w r v; advance : Op Unit).run u) (e : Effect s u [])
    (inv : s.Inv) : LoadsRegister i s u w r v := by
  obtain ⟨regs, -, -, next, -⟩ := e.only.fields
  refine ⟨(he.trans (run_of_ok hrun)).trans ?_, e.accessed inv⟩
  rw [← regs, ← next]
  rfl

/-! ### MOV (R201) -/

theorem moveFaults (w : Width) (r : Reg) (rm : RM) (m : Moffs) (s : State) :
    FaultsWhere (.movRegRm w r rm) s s (readRM w rm) ∧ FaultsWhere (.movAccMoffs w m) s s (segRead m.seg m.off w) ∧
    FaultsWhere (.movMoffsAcc w m) s s (segWrite m.seg m.off w (s.reg w .eax)) :=
  ⟨faultsWhere_of rfl fun _ _ h => run_bind_error h, faultsWhere_of rfl fun _ _ h => run_bind_error h,
    faultsWhere_of rfl fun _ _ h => (run_bind_ok (run_readReg w .eax s)).trans (run_bind_error h)⟩

theorem storeToMoffs {w : Width} {m : Moffs} {s t : State} (inv : s.Inv)
    (h : (segWrite m.seg m.off w (s.reg w .eax)).run s = .ok () t) :
    exec (.movMoffsAcc w m) s = .next { t with eip := s.nextEip } ∧
    Accessed s t [(s.linear m.seg m.off, w.bytes)] ∧ Stored s t (s.linear m.seg m.off) w (s.reg w .eax) := by
  obtain ⟨e, stored⟩ := segWrite_ok h
  obtain ⟨-, -, -, next, -⟩ := e.only.fields
  have he : exec (.movMoffsAcc w m) s = .next t.advance :=
    run_of_ok ((run_bind_ok (run_readReg w .eax s)).trans (run_bind_ok h))
  exact ⟨he.trans (congrArg _ (advance_of_nextEip next)), e.accessed inv, stored inv⟩

/-- Settles O19: a store comes down to the write of its operand, a load to its read and the write of the register. -/
theorem moveComplete : Obligations.MoveComplete := by
  refine ⟨moveFaults, fun w rm r s inv => ?_, fun w rm imm s inv => ?_, fun w r rm s u v inv h => ?_,
    fun w m s u v inv h => ?_, fun w m s t inv h => storeToMoffs inv h, fun _ _ _ _ => rfl⟩
  · exact writesOperand_of rfl (run_bind_ok (run_readReg w r s)) rfl rfl (.refl s) inv
  · exact writesOperand_of rfl rfl rfl rfl (.refl s) inv
  · exact loadsRegister_of rfl (run_bind_ok h) (readRM_ok h).1 inv
  · exact loadsRegister_of rfl (run_bind_ok h) (segRead_ok h).1 inv

end Sys2Proof.Machine

namespace Sys2Proof.Machine

/-! ### The stack after accesses (R220) -/

theorem OnlyMemory.pushSp {s u : State} (h : OnlyMemory s u) (z : Size) : u.pushSp z = s.pushSp z := by
  unfold OnlyMemory at h
  rw [h]
  rfl

/-- The registers of the state before the accesses with another stack pointer. -/
theorem OnlyMemory.setSp {s u : State} (h : OnlyMemory s u) (v : Word) :
    u.setSp v = { u with regs := s.regs.setView s.ssz.width .esp v } := by
  obtain ⟨regs, -⟩ := h.fields
  rw [State.setSp_def, ← h.ssz, ← regs]
  rfl

/-- A push after reads: the stack pointer is the one before them, and so is the place stored to. -/
theorem run_push_after {z : Size} {v : Word} {s u t : State} (e : Effect s u [])
    (h : (segWrite .ss (s.pushSp z) z.width v).run u = .ok () t) :
    (push z v).run u = .ok () { t with regs := s.regs.setView s.ssz.width .esp (s.pushSp z) } := by
  obtain ⟨e2, -⟩ := segWrite_ok h
  rw [← e.only.pushSp z] at h
  rw [run_push h, e.only.pushSp z, (e.trans e2).only.setSp]

/-- The frame of a push after reads that store nothing. -/
theorem pushed_after {z : Size} {v : Word} {s u t : State} (e : Effect s u []) (inv : s.Inv)
    (h : (segWrite .ss (s.pushSp z) z.width v).run u = .ok () t) :
    Accessed s t [(s.linear .ss (s.pushSp z), z.width.bytes)] ∧
      Stored s t (s.linear .ss (s.pushSp z)) z.width v := by
  obtain ⟨e2, stored⟩ := segWrite_ok h
  obtain ⟨-, -, -, -, segs, -⟩ := e.only.fields
  have lin : u.linear .ss (s.pushSp z) = s.linear .ss (s.pushSp z) := by
    unfold State.linear State.seg
    rw [segs]
  rw [lin] at e2 stored
  exact ⟨(e.trans e2).accessed inv, (stored (e.inv inv)).since e.events e2.events⟩

theorem run_push_error_after {z : Size} {v : Word} {s u t : State} {x : Stop} (e : Effect s u [])
    (h : (segWrite .ss (s.pushSp z) z.width v).run u = .error x t) : (push z v).run u = .error x t :=
  run_push_error (by rwa [e.only.pushSp z])

/-- A pop: the stack pointer has moved up, and nothing was stored. -/
theorem run_pop_moved {z : Size} {v : Word} {s u : State} (h : (segRead .ss s.sp z.width).run s = .ok v u) :
    (pop z).run s = .ok v { u with regs := s.spAfter z.width.bytes } := by
  rw [run_pop h, (segRead_ok h).1.only.setSp]
  rfl

/-! ### PUSH (R221, R223) -/

/-- An instruction whose operation comes down to a push after reads that store nothing. -/
theorem pushesValue_after {i : Instr} {op : Op Unit} {z : Size} {s u : State} {v : Word} (he : exec i s = run op s)
    (hrun : op.run s = (do push z v; advance : Op Unit).run u) (e : Effect s u []) (inv : s.Inv) :
    PushesValue i s u z v := by
  refine ⟨fun t ht => ?_, faultsWhere_of he fun _ _ h => hrun.trans (run_bind_error (run_push_error_after e h))⟩
  have frame := pushed_after e inv ht
  rw [run_bind_ok (run_push_after e ht), run_advance] at hrun
  refine ⟨(he.trans (run_of_ok hrun)).trans ?_, frame⟩
  rw [← frame.1.nextEip]
  rfl

theorem pushComplete : Claim.PushComplete := by
  refine fun z s inv => ⟨fun r => ?_, fun imm => ?_, fun ib => ?_, fun rm v u h => ?_, fun i => ?_⟩
  · exact pushesValue_after rfl (run_bind_ok (run_readReg z.width r s)) (.refl s) inv
  · exact pushesValue_after rfl rfl (.refl s) inv
  · exact pushesValue_after rfl rfl (.refl s) inv
  · exact pushesValue_after rfl (run_bind_ok h) (readRM_ok h).1 inv
  · exact pushesValue_after rfl (run_bind_ok (run_get s)) (.refl s) inv

/-! ### Loading a segment register (R97 to R101, R107) -/

theorem State.Inv.withRegs {s : State} (i : s.Inv) (x : Regs) : State.Inv { s with regs := x } :=
  ⟨i.mem, i.tlb, i.flags, i.paging, i.map⟩

theorem State.Inv.withSegs {s : State} (i : s.Inv) (x : Segs) : State.Inv { s with segs := x } :=
  ⟨i.mem, i.tlb, i.flags, i.paging, i.map⟩

theorem SameSystem.withRegs {s t : State} (h : SameSystem s t) (x : Regs) : SameSystem s { t with regs := x } :=
  ⟨h.segs, h.cpl, h.gdtr, h.idtr, h.ldtr, h.tr, h.cr0, h.cr2, h.cr3, h.a20On, h.halted, h.shutdown⟩

/-- Another register file on both sides of accesses. -/
theorem Effect.withRegs {s t : State} {l : Ranges} (e : Effect s t l) (x : Regs) :
    Effect { s with regs := x } { t with regs := x } l where
  only := by
    have h := e.only
    unfold OnlyMemory at h
    exact congrArg (fun y : State => { y with regs := x }) h
  cr2 := e.cr2
  inv i := (e.inv (i.withRegs s.regs)).withRegs x
  events := e.events
  stores i := e.stores (i.withRegs s.regs)
  keeps := e.keeps

/-- Other segment registers on both sides of accesses. -/
theorem Effect.withSegs {s t : State} {l : Ranges} (e : Effect s t l) (x : Segs) :
    Effect { s with segs := x } { t with segs := x } l where
  only := by
    have h := e.only
    unfold OnlyMemory at h
    exact congrArg (fun y : State => { y with segs := x }) h
  cr2 := e.cr2
  inv i := (e.inv (i.withSegs s.segs)).withSegs x
  events := e.events
  stores i := e.stores (i.withSegs s.segs)
  keeps := e.keeps

theorem sysRead_ok {lin v : Word} {w : Width} {s t : State} (h : (sysRead lin w).run s = .ok v t) : Effect s t [] :=
  (linRead_effect h).1

/-- Fetching a descriptor stores nothing (R94). -/
theorem fetchDescriptor_ok {sel : Half} {x : Option (Desc × Word)} {s t : State}
    (h : (fetchDescriptor sel).run s = .ok x t) : Effect s t [] := by
  unfold fetchDescriptor at h
  rw [run_bind_ok (run_get s)] at h
  dsimp only at h
  generalize (if selTI sel then s.ldtr.base else s.gdtr.base) = base at h
  generalize (if selTI sel then s.ldtr.limit.toNat else s.gdtr.limit.toNat) = limit at h
  split at h
  · cases h
    exact .refl s
  · split at h
    · cases h
      exact .refl s
    · obtain ⟨lo, t1, h1, h⟩ := run_bind_inv h
      obtain ⟨hi, t2, h2, h⟩ := run_bind_inv h
      cases h
      exact (sysRead_ok h1).trans (sysRead_ok h2)

theorem fetchDescOr_ok {sel : Half} {k : FaultKind} {c : Word} {x : Desc × Word} {s t : State}
    (h : (fetchDescOr sel k c).run s = .ok x t) : Effect s t [] := by
  obtain ⟨found, u, h1, h⟩ := run_bind_inv h
  cases found with
  | none => cases h
  | some y =>
    cases h
    exact fetchDescriptor_ok h1

theorem run_require_then_inv {β : Type} {ok : Bool} {k : FaultKind} {c : Word} {f : Unit → Op β} {s t : State} {b : β}
    (h : (require ok k c >>= f).run s = .ok b t) : (f ()).run s = .ok b t := by
  obtain ⟨_, u, hr, hf⟩ := run_bind_inv h
  obtain ⟨-, rfl⟩ := run_require_inv hr
  exact hf

/-- Reads, and then one segment register is written under a selector. -/
def LoadsUnder (s t : State) (i : Seg) (sel : Half) : Prop :=
  ∃ u g, Effect s u [] ∧ t = u.setSeg i g ∧ g.selector = sel

theorem loadSegProt_ok {i : Seg} {sel : Half} {s t : State} (h : (loadSegProt i sel).run s = .ok () t) :
    LoadsUnder s t i sel := by
  unfold loadSegProt at h
  split at h
  · cases h
    exact ⟨s, _, .refl s, rfl, rfl⟩
  · obtain ⟨⟨d, a⟩, u, fetched, h⟩ := run_bind_inv h
    cases run_require_then_inv (run_require_then_inv h)
    exact ⟨u, _, fetchDescOr_ok fetched, rfl, rfl⟩

theorem loadSS_ok {sel : Half} {cpl : BitVec 2} {s t : State} (h : (loadSS sel cpl).run s = .ok () t) :
    LoadsUnder s t .ss sel := by
  obtain ⟨⟨d, a⟩, u, fetched, h⟩ := run_bind_inv (run_require_then_inv h)
  cases run_require_then_inv (run_require_then_inv (run_require_then_inv h))
  exact ⟨u, _, fetchDescOr_ok fetched, rfl, rfl⟩

/-- Every load path writes the one register, under the selector. -/
theorem loadSeg_ok {i : Seg} {sel : Half} {s t : State} (h : (loadSeg i sel).run s = .ok () t) :
    LoadsUnder s t i sel := by
  unfold loadSeg at h
  rw [run_bind_ok (run_get s)] at h
  split at h
  · cases h
    exact ⟨s, _, .refl s, rfl, rfl⟩
  · split at h
    · cases h
      exact ⟨s, _, .refl s, rfl, rfl⟩
    · split at h
      · rename_i ss
        subst ss
        exact loadSS_ok h
      · exact loadSegProt_ok h

theorem LoadsUnder.segmentLoaded {s t : State} {i : Seg} {sel : Half} (h : LoadsUnder s t i sel) (inv : s.Inv) :
    SegmentLoaded s t i sel := by
  obtain ⟨u, g, e, rfl, rfl⟩ := h
  obtain ⟨-, -, -, -, segs, -⟩ := e.only.fields
  refine ⟨congrArg SegReg.selector (Segs.get_set _ _ _), fun j hj => ?_, ?_⟩
  · refine (Segs.get_set_other _ _ _ _ hj).trans ?_
    rw [segs]
    rfl
  · exact (e.withSegs (u.setSeg i g).segs).accessed (inv.withSegs _)

theorem LoadsUnder.nextEip {s t : State} {i : Seg} {sel : Half} (h : LoadsUnder s t i sel) : t.nextEip = s.nextEip := by
  obtain ⟨u, g, e, rfl, -⟩ := h
  obtain ⟨-, -, -, next, -⟩ := e.only.fields
  exact next

/-! ### POP (R222, R224) -/

theorem popComplete : Claim.PopComplete := by
  intro z s u v inv h
  obtain ⟨e, loaded⟩ := segRead_ok h
  obtain ⟨-, flags, -, next, -⟩ := e.only.fields
  have popped := run_pop_moved h
  have movedInv := (e.inv inv).withRegs (s.spAfter z.width.bytes)
  refine ⟨e.accessed inv, loaded inv, fun r => ?_, fun rm => ?_, fun i t ht => ?_⟩
  · rw [← next]
    exact run_of_ok (run_bind_ok popped)
  · exact writesOperand_of rfl (run_bind_ok popped) flags next (e.system.withRegs _) movedInv
  · have under := loadSeg_ok ht
    have he : exec (.popSeg z i) s = .next t.advance :=
      run_of_ok ((run_bind_ok (run_popSel popped)).trans (run_bind_ok ht))
    exact ⟨he.trans (congrArg _ (advance_of_nextEip (under.nextEip.trans next))), under.segmentLoaded movedInv⟩

/-- The three forms of POP begin with the pop. -/
theorem faultsWhere_pop {z : Size} {r : Reg} {rm : RM} {i : Seg} {p : Instr}
    (h : p ∈ [Instr.popReg z r, .popRm z rm, .popSeg z i]) (s : State) :
    FaultsWhere p s s (segRead .ss s.sp z.width) := by
  simp only [List.mem_cons, List.not_mem_nil, or_false] at h
  rcases h with rfl | rfl | rfl
  · exact faultsWhere_of rfl fun _ _ h => run_bind_error (run_pop_error h)
  · exact faultsWhere_of rfl fun _ _ h => run_bind_error (run_pop_error h)
  · exact faultsWhere_of rfl fun _ _ h => run_bind_error (run_bind_error (run_pop_error h))

theorem stackFaults : Claim.StackFaults := by
  refine fun z s => ⟨fun rm => ?_, fun r rm i p hp => faultsWhere_pop hp s, fun i v u h => ?_⟩
  · exact faultsWhere_of rfl fun _ _ h => run_bind_error h
  · exact faultsWhere_of rfl fun _ _ hl => (run_bind_ok (run_popSel (run_pop_moved h))).trans (run_bind_error hl)

/-- Settles O22: PUSH comes down to a push after its read, POP to the write of its destination after a pop. -/
theorem pushAndPopComplete : Obligations.PushAndPopComplete := ⟨pushComplete, popComplete, stackFaults⟩

end Sys2Proof.Machine

namespace Sys2Proof.Machine

/-! ### Two moves of the stack pointer -/

theorem trunc_add_trunc (w : Width) (x y : Word) : trunc w (trunc w x + y) = trunc w (x + y) := by
  apply BitVec.eq_of_toNat_eq
  rw [toNat_trunc, toNat_trunc, BitVec.toNat_add, BitVec.toNat_add, toNat_trunc]
  cases w <;> simp only [Width.bits] <;> omega

theorem trunc_trunc (w : Width) (x : Word) : trunc w (trunc w x) = trunc w x := trunc_of_fits (fits_and w x)

theorem Regs.set_set (x : Regs) (r : Reg) (a b : Word) : (x.set r a).set r b = x.set r b := by
  cases r <;> rfl

theorem Regs.set_get (x : Regs) (r : Reg) : x.set r (x.get r) = x := by
  cases r <;> rfl

/-- The second write of a word or doubleword view is the one that stays. -/
theorem Regs.setView_setView (x : Regs) (z : Size) (r : Reg) (a b : Word) :
    (x.setView z.width r a).setView z.width r b = x.setView z.width r b := by
  cases z with
  | s16 =>
    have upper := field_of_setOther (k := 0xFFFF0000) (m := 0xFFFF0000) (n := 0xFFFF) (x.get r) a rfl rfl
    simp only [Size.width, Regs.setView, Regs.set_set, Regs.get_set, upper]
  | s32 => exact Regs.set_set x r a b

/-- A word or doubleword view written with what it holds. -/
theorem Regs.setView_view (x : Regs) (z : Size) (r : Reg) : x.setView z.width r (x.view z.width r) = x := by
  cases z with
  | s16 =>
    have all : ((0xFFFF0000 : Word) ||| 0xFFFF) = BitVec.allOnes 32 := rfl
    show x.set r ((x.get r &&& 0xFFFF0000) ||| (x.get r &&& 0xFFFF &&& 0xFFFF)) = x
    rw [BitVec.and_assoc (x.get r) 0xFFFF, BitVec.and_self, ← BitVec.and_or_distrib_left, all, BitVec.and_allOnes,
      Regs.set_get]
  | s32 => exact Regs.set_get x r

theorem State.setSp_setSp (s : State) (a b : Word) : (s.setSp a).setSp b = s.setSp b := by
  have regs : (s.setSp a).regs.setView s.ssz.width .esp b = s.regs.setView s.ssz.width .esp b :=
    Regs.setView_setView s.regs s.ssz .esp a b
  exact congrArg (fun x : Regs => { s with regs := x }) regs

/-- Two moves of the stack pointer are one. -/
theorem State.spAdd_setSp (s : State) (j k : Word) : (s.setSp (s.spAdd j)).spAdd k = s.spAdd (j + k) := by
  have sp : (s.setSp (s.spAdd j)).sp = s.spAdd j := (Regs.view_setView _ _ _ _).trans (trunc_trunc _ _)
  show trunc s.ssz.width ((s.setSp (s.spAdd j)).sp + k) = trunc s.ssz.width (s.sp + (j + k))
  rw [sp, ← BitVec.add_assoc]
  exact trunc_add_trunc _ _ _

/-- The bytes released move the stack pointer of the register file at hand. -/
theorem OnlyMemory.spAfter {s u : State} (h : OnlyMemory s u) (x : Regs) (n : Nat) :
    State.spAfter { u with regs := x } n = State.spAfter { s with regs := x } n := by
  unfold OnlyMemory at h
  rw [h]
  rfl

/-- Bytes released after others. -/
theorem State.spAfter_spAfter (s : State) (j k : Nat) :
    State.spAfter { s with regs := s.spAfter j } k = s.spAfter (j + k) := by
  have sum : (s.setSp (s.spAdd (BitVec.ofNat 32 j))).spAdd (BitVec.ofNat 32 k) = s.spAdd (BitVec.ofNat 32 (j + k)) := by
    rw [State.spAdd_setSp, BitVec.ofNat_add]
  exact (Regs.setView_setView _ s.ssz _ _ _).trans (congrArg (s.regs.setView s.ssz.width .esp) sum)

/-! ### Near CALL and RET (R367 to R369) -/

/-- A near call comes down to the push of its return address and a jump. -/
theorem nearCall_of {i : Instr} {op jump : Op Unit} {z : Size} {target : Word} {s u t : State}
    (he : exec i s = run op s) (hrun : op.run s = (do push z s.nextEip; jump; endBlock : Op Unit).run u)
    (hjump : ∀ x : State, x.nextEip = s.nextEip → jump.run x = .ok () (x.setEip target)) (e : Effect s u [])
    (inv : s.Inv) (ht : (segWrite .ss (s.pushSp z) z.width s.nextEip).run u = .ok () t) :
    exec i s = .next { t with regs := s.regs.setView s.ssz.width .esp (s.pushSp z), eip := target, inBlock := false } ∧
      Accessed s t [(s.linear .ss (s.pushSp z), z.width.bytes)] ∧
      Stored s t (s.linear .ss (s.pushSp z)) z.width s.nextEip := by
  have frame := pushed_after e inv ht
  have jumped := hjump { t with regs := s.regs.setView s.ssz.width .esp (s.pushSp z) } frame.1.nextEip
  rw [run_bind_ok (run_push_after e ht), run_bind_ok jumped] at hrun
  exact ⟨he.trans (run_of_ok hrun), frame⟩

/-- The address pushed is that of the next instruction, reads before it or not. -/
theorem run_pushReturn {z : Size} {s u : State} (e : Effect s u []) :
    (pushReturn z).run u = (push z s.nextEip).run u := by
  obtain ⟨-, -, -, next, -⟩ := e.only.fields
  rw [← next]
  exact run_bind_ok (run_get u)

theorem run_pushReturn_then {z : Size} {s u : State} {f : Unit → Op Unit} (e : Effect s u []) :
    (pushReturn z >>= f).run u = (push z s.nextEip >>= f).run u := by
  rw [EStateM.run_bind, run_pushReturn e, ← EStateM.run_bind]

/-- A relative jump goes to the sum modulo the operand size. -/
theorem run_jumpRel_near {z : Size} {cv next : Word} {x : State} (h : x.nextEip = next) :
    (jumpRel z (nearDisp z cv)).run x =
      .ok () (x.setEip (trunc z.width (next + BitVec.ofInt 32 (sint z.width cv)))) := by
  rw [← h]
  rfl

theorem run_releaseStack (iw : Half) (s : State) :
    (releaseStack iw).run s = .ok () { s with regs := s.spAfter iw.toNat } := by
  unfold State.spAfter
  rw [BitVec.ofNat_toNat]
  rfl

/-- A near return pops its target and releases the bytes that it names. -/
theorem run_nearReturn {z : Size} {iw : Half} {s u : State} {v : Word}
    (h : (segRead .ss s.sp z.width).run s = .ok v u) : (nearReturn z iw).run s =
      .ok () { u with regs := s.spAfter (z.width.bytes + iw.toNat), eip := v, inBlock := false } := by
  have popped := run_pop_moved h
  have released : State.spAfter { u with regs := s.spAfter z.width.bytes } iw.toNat =
      s.spAfter (z.width.bytes + iw.toNat) := by
    have moved := (segRead_ok h).1.only.spAfter (s.spAfter z.width.bytes) iw.toNat
    exact moved.trans (s.spAfter_spAfter z.width.bytes iw.toNat)
  rw [← released]
  exact (run_bind_ok popped).trans ((run_bind_ok (run_jumpTo v _)).trans (run_bind_ok (run_releaseStack iw _)))

theorem nearCallsAndReturns : Claim.NearCallsAndReturns := by
  refine fun z s inv => ⟨fun cv t ht => ?_, fun rm v u t h ht => ?_, fun v u h => ⟨(segRead_ok h).1.accessed inv, ?_, ?_⟩⟩
  · exact nearCall_of rfl (run_pushReturn_then (.refl s)) (fun x hx => run_jumpRel_near hx) (.refl s) inv ht
  · have e := (readRM_ok h).1
    exact nearCall_of rfl ((run_bind_ok h).trans (run_pushReturn_then e)) (fun x _ => run_jumpTo v x) e inv ht
  · exact run_of_ok (run_nearReturn h)
  · exact fun iw => run_of_ok (run_nearReturn h)

theorem nearCallAndReturnFaults : Claim.NearCallAndReturnFaults := by
  refine fun z s => ⟨fun cv => ?_, fun rm => ⟨?_, fun v u inv h => ?_⟩, fun iw i hi => ?_⟩
  · exact faultsWhere_of rfl fun _ _ h => (run_pushReturn_then (.refl s)).trans (run_bind_error (run_push_error h))
  · exact faultsWhere_of rfl fun _ _ h => run_bind_error h
  · have e := (readRM_ok h).1
    exact faultsWhere_of rfl fun _ _ hw =>
      (run_bind_ok h).trans ((run_pushReturn_then e).trans (run_bind_error (run_push_error_after e hw)))
  · simp only [List.mem_cons, List.not_mem_nil, or_false] at hi
    rcases hi with rfl | rfl
    · exact faultsWhere_of rfl fun _ _ h => run_bind_error (run_pop_error h)
    · exact faultsWhere_of rfl fun _ _ h => run_bind_error (run_pop_error h)

/-- Settles O28: a near CALL comes down to a push and a jump, a near RET to a pop and a second move of the stack
pointer. -/
theorem callsAndReturnsComplete : Obligations.CallsAndReturnsComplete :=
  ⟨nearCallsAndReturns, nearCallAndReturnFaults⟩

end Sys2Proof.Machine

namespace Sys2Proof.Machine

/-! ### Several pushes (R220) -/

theorem State.spAdd_zero (s : State) : s.spAdd 0 = s.sp := by
  have plain : s.sp + 0 = s.sp := BitVec.add_zero s.sp
  unfold State.spAdd
  rw [plain]
  exact trunc_of_fits (fits_view _ _ _)

/-- The state as it was but for the stack pointer, moved by a number of bytes. -/
def State.moveSp (s : State) (k : Word) : State := s.setSp (s.spAdd k)

theorem State.moveSp_zero (s : State) : s.moveSp 0 = s := by
  unfold State.moveSp
  rw [State.spAdd_zero]
  exact congrArg (fun x : Regs => { s with regs := x }) (Regs.setView_view s.regs s.ssz .esp)

theorem State.Inv.setSp {s : State} (i : s.Inv) (v : Word) : (s.setSp v).Inv := i.withRegs _

/-- Another stack pointer on both sides of accesses. -/
theorem Effect.setSp {s t : State} {l : Ranges} (e : Effect s t l) (v : Word) : Effect (s.setSp v) (t.setSp v) l := by
  rw [e.only.setSp]
  exact e.withRegs _

/-- The stack pointer moved again after accesses. -/
theorem OnlyMemory.spAdd_setSp {s u : State} (h : OnlyMemory s u) (j k : Word) :
    (u.setSp (s.spAdd j)).spAdd k = s.spAdd (j + k) := by
  have same : u.spAdd j = s.spAdd j ∧ u.spAdd (j + k) = s.spAdd (j + k) := by
    unfold OnlyMemory at h
    rw [h]
    exact ⟨rfl, rfl⟩
  rw [← same.1, ← same.2]
  exact u.spAdd_setSp j k

theorem OnlyMemory.moveSp_setSp {s u : State} (h : OnlyMemory s u) (j k : Word) :
    (u.setSp (s.spAdd j)).moveSp k = u.setSp (s.spAdd (j + k)) := by
  unfold State.moveSp
  rw [State.setSp_setSp, h.spAdd_setSp]

theorem OnlyMemory.linear_setSp {s u : State} (h : OnlyMemory s u) (v : Word) (i : Seg) (off : Word) :
    (u.setSp v).linear i off = s.linear i off := by
  obtain ⟨-, -, -, -, segs, -⟩ := h.fields
  exact congrArg (fun x : Segs => (x.get i).base + off) segs

theorem bytes_add (b k : Nat) : BitVec.ofNat 32 b + BitVec.ofNat 32 (k * b) = BitVec.ofNat 32 ((k + 1) * b) := by
  rw [← BitVec.ofNat_add, Nat.succ_mul, Nat.add_comm]

/-- Minus the bytes of one value and of some more are minus the bytes of all. -/
theorem neg_bytes_add (b k : Nat) :
    -BitVec.ofNat 32 b + -BitVec.ofNat 32 (k * b) = -BitVec.ofNat 32 ((k + 1) * b) := by
  rw [← BitVec.sub_eq_add_neg, ← BitVec.neg_add, bytes_add]

/-- After one push the slots are the later ones. -/
theorem OnlyMemory.pushSlot_setSp {s u : State} (h : OnlyMemory s u) (z : Size) (k : Nat) :
    (u.setSp (s.pushSp z)).pushSlot z k = s.pushSlot z (k + 1) := by
  unfold State.pushSlot
  rw [h.linear_setSp, State.pushSp, h.spAdd_setSp, neg_bytes_add]

theorem State.pushSlot_zero (s : State) (z : Size) : s.pushSlot z 0 = s.linear .ss (s.pushSp z) := by
  unfold State.pushSlot State.pushSp
  rw [Nat.zero_add, Nat.one_mul]

/-! ### Page offsets of the slots -/

theorem offset_add (x y : Word) : (x + y).toNat % 4096 = (x.toNat + y.toNat) % 4096 := by
  rw [BitVec.toNat_add]
  exact Nat.mod_mod_of_dvd _ ⟨1048576, rfl⟩

theorem offset_ofNat (n : Nat) : (BitVec.ofNat 32 n).toNat % 4096 = n % 4096 := by
  rw [BitVec.toNat_ofNat]
  exact Nat.mod_mod_of_dvd _ ⟨1048576, rfl⟩

theorem offset_neg (x : Word) : ((-x).toNat + x.toNat) % 4096 = 0 := by
  rw [← offset_add, BitVec.add_left_neg]
  rfl

/-- The page offset of a stack address does not depend on where the stack pointer wraps. -/
theorem offset_trunc (z : Size) (x : Word) : (trunc z.width x).toNat % 4096 = x.toNat % 4096 := by
  rw [toNat_trunc]
  cases z with
  | s16 => exact Nat.mod_mod_of_dvd _ ⟨16, rfl⟩
  | s32 => exact Nat.mod_mod_of_dvd _ ⟨1048576, rfl⟩

/-- The page offset of a byte of a slot is the stack pointer's, less the bytes pushed. -/
theorem State.pushSlot_offset (s : State) (z : Size) (k m : Nat) :
    ((s.pushSlot z k + BitVec.ofNat 32 m).toNat + (k + 1) * z.width.bytes) % 4096 =
      ((s.seg .ss).base.toNat + s.sp.toNat + m) % 4096 := by
  unfold State.pushSlot State.linear State.spAdd
  generalize (k + 1) * z.width.bytes = n
  have wrapped := offset_trunc s.ssz (s.sp + -BitVec.ofNat 32 n)
  generalize trunc s.ssz.width (s.sp + -BitVec.ofNat 32 n) = off at wrapped ⊢
  have byte := offset_add ((s.seg .ss).base + off) (BitVec.ofNat 32 m)
  have slot := offset_add (s.seg .ss).base off
  have moved := offset_add s.sp (-BitVec.ofNat 32 n)
  have minus := offset_neg (BitVec.ofNat 32 n)
  have bytes := offset_ofNat n
  have index := offset_ofNat m
  omega

/-- Two linear addresses apart in their page go to different physical addresses. -/
theorem physAddr_ne_of_offset {s : State} {lin lin' p q : Word} {b c : Bool} (i : s.Inv)
    (apart : lin.toNat % 4096 ≠ lin'.toNat % 4096) (h : s.physAddr lin b = some p) (h' : s.physAddr lin' c = some q) :
    p ≠ q := by
  rintro rfl
  have offset : ∀ x : Word, (x &&& 0xFFF).toNat = x.toNat % 4096 := fun x => by
    rw [BitVec.toNat_and]
    exact Nat.and_two_pow_sub_one_eq_mod x.toNat 12
  have same := congrArg BitVec.toNat ((physAddr_offset i h).symm.trans (physAddr_offset i h'))
  rw [offset, offset] at same
  exact apart same

/-- A value stored is kept by accesses that store elsewhere. -/
theorem Stored.kept {s t u : State} {l : Ranges} {lin v : Word} {w : Width} (h : Stored s t lin w v)
    (before : t.ioEvents <:+ s.ioEvents) (e : Effect t u l) (inv : t.Inv)
    (elsewhere : ∀ m p, m < w.bytes → u.physAddr (lin + BitVec.ofNat 32 m) true = some p → u.outside l p) :
    Kept s u lin w v := by
  intro m hm
  obtain ⟨p, hp, stored⟩ := h m hm
  have hp' := e.keeps _ _ hp
  refine ⟨p, hp', fun ram hu => ?_⟩
  obtain ⟨hu1, hu2⟩ := (State.untouched_trans before e.events _).1 hu
  obtain ⟨byte, exactly⟩ := stored (e.only.physMap ▸ ram) hu1
  obtain ⟨same, flat⟩ := e.stores inv p (elsewhere m p hm hp') hu2
  refine ⟨same.trans byte, fun pg => ?_⟩
  have pg : t.pg = false := e.only.pg.symm.trans pg
  exact (flat pg).trans (exactly (.inl pg))

/-- What stands kept since a state stands kept since an earlier one. -/
theorem Kept.since {s t u : State} {lin v : Word} {w : Width} (h : Kept t u lin w v)
    (before : t.ioEvents <:+ s.ioEvents) (later : u.ioEvents <:+ t.ioEvents) : Kept s u lin w v := by
  intro m hm
  obtain ⟨p, hp, kept⟩ := h m hm
  exact ⟨p, hp, fun ram hu => kept ram ((State.untouched_trans before later _).1 hu).2⟩

/-- The places that a number of pushes store to. -/
def State.pushSlots (s : State) (z : Size) (n : Nat) : Ranges :=
  (List.range n).map fun k => (s.pushSlot z k, z.width.bytes)

theorem OnlyMemory.pushSlots_succ {s u : State} (h : OnlyMemory s u) (z : Size) (n : Nat) :
    s.pushSlots z (n + 1) = [(s.linear .ss (s.pushSp z), z.width.bytes)] ++ (u.setSp (s.pushSp z)).pushSlots z n := by
  unfold State.pushSlots
  rw [List.range_succ_eq_map, List.map_cons, List.map_map, State.pushSlot_zero]
  simp only [h.pushSlot_setSp]
  rfl

/-- A byte of the first slot lies outside the slots of up to fifteen later values. -/
theorem OnlyMemory.outside_pushSlots {s u t : State} (h : OnlyMemory s u) {z : Size} {n m : Nat} {p : Word} (i : t.Inv)
    (hn : n < 16) (hm : m < z.width.bytes) (hp : t.physAddr (s.pushSlot z 0 + BitVec.ofNat 32 m) true = some p) :
    t.outside ((u.setSp (s.pushSp z)).pushSlots z n) p := by
  intro r hr j hj hq
  obtain ⟨k, hk, rfl⟩ := List.mem_map.1 hr
  have hk := List.mem_range.1 hk
  rw [h.pushSlot_setSp] at hq
  have first := s.pushSlot_offset z 0 m
  have later := s.pushSlot_offset z (k + 1) j
  refine physAddr_ne_of_offset i ?_ hp hq rfl
  cases z <;> simp only [Size.width, Width.bytes] at * <;> omega

theorem pushAll_ok {z : Size} {vs : List Word} {s t : State} (h : (pushAll z vs).run s = .ok () t)
    (hn : vs.length ≤ 16) : Effect (s.moveSp (-(BitVec.ofNat 32 (vs.length * z.width.bytes)))) t (s.pushSlots z vs.length) ∧
      (s.Inv → ∀ k (hk : k < vs.length), Kept s t (s.pushSlot z k) z.width vs[k]) := by
  induction vs generalizing s with
  | nil =>
    cases h
    refine ⟨?_, fun _ k hk => absurd hk (Nat.not_lt_zero k)⟩
    rw [List.length_nil, Nat.zero_mul]
    exact (State.moveSp_zero _).symm ▸ Effect.refl _
  | cons v vs ih =>
    obtain ⟨_, t1, first, rest⟩ := run_bind_inv h
    obtain ⟨u, hw, rfl⟩ := push_ok first
    obtain ⟨e, stored⟩ := segWrite_ok hw
    obtain ⟨later, kept⟩ := ih rest (Nat.le_of_succ_le hn)
    have only := e.only
    rw [State.pushSp, only.moveSp_setSp, neg_bytes_add, ← State.pushSp] at later
    refine ⟨?_, fun inv k hk => ?_⟩
    · rw [List.length_cons, only.pushSlots_succ]
      exact (e.setSp _).trans later
    · cases k with
      | zero =>
        have moved := (e.inv inv).setSp (s.spAdd (-(BitVec.ofNat 32 ((vs.length + 1) * z.width.bytes))))
        rw [State.pushSlot_zero]
        refine Stored.kept (t := u.setSp _) (stored inv) e.events later moved fun m p hm hp => ?_
        rw [← State.pushSlot_zero] at hp
        exact only.outside_pushSlots (later.inv moved) hn hm hp
      | succ k =>
        have kept := kept ((e.inv inv).setSp _) k (Nat.lt_of_succ_lt_succ hk)
        rw [only.pushSlot_setSp] at kept
        exact kept.since e.events later.events

theorem pushAll_pushed {z : Size} {vs : List Word} {s t : State} (inv : s.Inv) (hn : vs.length ≤ 16)
    (h : (pushAll z vs).run s = .ok () t) : Pushed s t z vs := by
  obtain ⟨e, kept⟩ := pushAll_ok h hn
  exact ⟨e.accessed (inv.withRegs _), kept inv⟩

/-! ### Several pops (R220) -/

/-- Where a read of a page has gone reads keep going. -/
def ReadsPersist (s t : State) : Prop := ∀ lin p, s.physAddr lin false = some p → t.physAddr lin false = some p

theorem linRead_readsPersist {u : Bool} {w : Width} {lin v : Word} {s t : State}
    (h : (linRead lin w u).run s = .ok v t) : ReadsPersist s t := by
  unfold linRead at h
  split at h
  · obtain ⟨p, t1, translated, read⟩ := run_bind_inv h
    obtain ⟨device, -⟩ := memRead_effect read
    intro lin' q hq
    rw [State.physAddr_congr device.only device.tlb]
    exact translate_read_keeps translated hq
  · exact (linReadBytes_effect (by cases w <;> decide) h).2.1

theorem segRead_readsPersist {i : Seg} {off v : Word} {w : Width} {s t : State}
    (h : (segRead i off w).run s = .ok v t) : ReadsPersist s t := by
  obtain ⟨_, s1, checked, read⟩ := run_bind_inv h
  obtain ⟨rfl, -⟩ := segCheck_ok checked
  exact linRead_readsPersist read

/-- What was read stands where later reads find it. -/
theorem Loaded.later {s t u : State} {lin v : Word} {w : Width} (h : Loaded s t lin w v)
    (before : t.ioEvents <:+ s.ioEvents) (after : u.ioEvents <:+ t.ioEvents) (reads : ReadsPersist t u) :
    Loaded s u lin w v := by
  refine ⟨h.1, fun m hm => ?_⟩
  obtain ⟨p, hp, loaded⟩ := h.2 m hm
  exact ⟨p, reads _ _ hp, fun held hu => loaded held ((State.untouched_trans before after _).1 hu).1⟩

/-- What was read after reads that stored nothing is what memory held before them. -/
theorem Loaded.since {s t u : State} {lin v : Word} {w : Width} (h : Loaded t u lin w v) (e : Effect s t [])
    (inv : s.Inv) (after : u.ioEvents <:+ t.ioEvents) : Loaded s u lin w v := by
  refine ⟨h.1, fun m hm => ?_⟩
  obtain ⟨p, hp, loaded⟩ := h.2 m hm
  refine ⟨p, hp, fun held hu => ?_⟩
  obtain ⟨hu1, hu2⟩ := (State.untouched_trans e.events after _).1 hu
  rw [← e.only.physMap] at held
  obtain ⟨byte, exactly⟩ := loaded held hu2
  obtain ⟨same, flat⟩ := e.stores inv p (outside_nil _ _) hu1
  exact ⟨byte.trans same, fun pg => (exactly (e.only.pg.trans pg)).trans (flat pg)⟩

/-- After one pop the slots are the later ones. -/
theorem OnlyMemory.popSlot_setSp {s u : State} (h : OnlyMemory s u) (z : Size) (k : Nat) :
    (u.setSp (s.spAdd (BitVec.ofNat 32 z.width.bytes))).popSlot z k = s.popSlot z (k + 1) := by
  unfold State.popSlot
  rw [h.linear_setSp, h.spAdd_setSp, bytes_add]

theorem State.popSlot_zero (s : State) (z : Size) : s.popSlot z 0 = s.linear .ss s.sp := by
  unfold State.popSlot
  rw [Nat.zero_mul]
  exact congrArg (s.linear .ss) s.spAdd_zero

theorem popAll_ok {z : Size} {n : Nat} {vs : List Word} {s t : State} (h : (popAll z n).run s = .ok vs t) :
    vs.length = n ∧ Effect (s.moveSp (BitVec.ofNat 32 (n * z.width.bytes))) t [] ∧ ReadsPersist s t ∧
      (s.Inv → ∀ k (hk : k < vs.length), Loaded s t (s.popSlot z k) z.width vs[k]) := by
  induction n generalizing s vs with
  | zero =>
    cases h
    rw [Nat.zero_mul]
    exact ⟨rfl, (State.moveSp_zero _).symm ▸ Effect.refl _, fun _ _ hp => hp, fun _ k hk => absurd hk (Nat.not_lt_zero k)⟩
  | succ n ih =>
    obtain ⟨v, t1, first, h⟩ := run_bind_inv h
    obtain ⟨rest, t2, popped, h⟩ := run_bind_inv h
    cases h
    obtain ⟨u, hu, rfl⟩ := pop_ok first
    obtain ⟨e, loaded⟩ := segRead_ok hu
    have only := e.only
    obtain ⟨length, later, reads, values⟩ := ih popped
    rw [only.moveSp_setSp, bytes_add] at later
    refine ⟨congrArg Nat.succ length, (e.setSp _).trans later,
      fun lin p hp => reads lin p (segRead_readsPersist hu lin p hp), fun inv k hk => ?_⟩
    cases k with
    | zero =>
      rw [State.popSlot_zero]
      exact (loaded inv).later e.events later.events reads
    | succ k =>
      have value := values ((e.inv inv).setSp _) k (Nat.lt_of_succ_lt_succ hk)
      rw [only.popSlot_setSp] at value
      exact Loaded.since (t := u) value e inv later.events

/-- Settles O23, by induction on the values: a push leaves the bytes of the values pushed before it, which lie in other
places of their page, and a pop leaves memory and the addresses that reads go to. -/
theorem stackSequences : Obligations.StackSequences := by
  refine fun z vs s t inv => ⟨fun hn h => pushAll_pushed inv hn h, fun n _ h => ?_⟩
  obtain ⟨length, e, -, values⟩ := popAll_ok h
  subst length
  exact ⟨rfl, e.accessed (inv.withRegs _), values inv⟩

end Sys2Proof.Machine

namespace Sys2Proof.Machine

/-! ### Sign extension in the accumulator (R306, R307) -/

theorem mask_bit (w : Width) : ∀ i, i < 32 → (mask w).getLsbD i = decide (i < w.bits) := by
  cases w <;> decide

theorem trunc_bit (w : Width) (v : Word) (i : Nat) (hi : i < 32) :
    (trunc w v).getLsbD i = (v.getLsbD i && decide (i < w.bits)) := by
  unfold trunc
  rw [BitVec.getLsbD_and, mask_bit w i hi]

theorem msb_trunc (w : Width) (v : Word) : msb w (trunc w v) = msb w v := by
  have sign : w.bits - 1 < 32 ∧ w.bits - 1 < w.bits := by cases w <;> decide
  unfold msb
  rw [trunc_bit w v _ sign.1, decide_eq_true sign.2, Bool.and_true]

theorem sext32_bit (w : Width) (v : Word) (i : Nat) (hi : i < 32) :
    (sext32 w v).getLsbD i = if i < w.bits then v.getLsbD i else msb w v := by
  have pos : 0 < w.bits := by cases w <;> decide
  unfold sext32 msb
  rw [BitVec.getLsbD_signExtend, BitVec.msb_eq_getLsbD_last, BitVec.getLsbD_setWidth, BitVec.getLsbD_setWidth,
    decide_eq_true hi, Bool.true_and, decide_eq_true (Nat.sub_lt pos Nat.one_pos), Bool.true_and]
  split
  · rw [decide_eq_true ‹_›, Bool.true_and]
  · rfl

/-- The sign fills the bits above the width. -/
theorem sext32_trunc (w : Width) (v : Word) :
    sext32 w (trunc w v) = if msb w v then ~~~mask w ||| trunc w v else trunc w v := by
  apply BitVec.eq_of_getLsbD_eq
  intro i hi
  have above : (~~~mask w).getLsbD i = !decide (i < w.bits) := by
    rw [BitVec.getLsbD_not, mask_bit w i hi, decide_eq_true hi, Bool.true_and]
  rw [sext32_bit w _ i hi, msb_trunc]
  cases msb w v with
  | true =>
    rw [if_pos rfl, BitVec.getLsbD_or, above, trunc_bit w v i hi]
    by_cases hb : i < w.bits <;> simp [hb]
  | false =>
    rw [if_neg Bool.false_ne_true, trunc_bit w v i hi]
    by_cases hb : i < w.bits <;> simp [hb]

/-- The sign of a byte fills the upper byte of a word. -/
theorem sextByte_w16 (v : Word) : sextByte .w16 ((trunc .w8 v).setWidth 8) =
    if msb .w8 v then 0xFF00 ||| trunc .w8 v else trunc .w8 v := by
  have byte : trunc .w16 (trunc .w8 v) = trunc .w8 v := BitVec.and_assoc v 0xFF 0xFFFF
  show trunc .w16 (sext32 .w8 (trunc .w8 v)) = _
  rw [sext32_trunc]
  split
  · exact (BitVec.and_or_distrib_right).trans (congrArg (0xFF00 ||| ·) byte)
  · exact byte

/-- Settles O16: the extension is the value with the sign above it. -/
theorem extendComplete : Obligations.ExtendComplete := by
  intro s ax eax dx edx
  have byte : extendedAcc s .s16 = ax := sextByte_w16 s.regs.eax
  have word : extendedAcc s .s32 = eax := sext32_trunc .w16 s.regs.eax
  have sign : msb .w16 (s.reg .w16 .eax) = s.regs.eax.getLsbD 15 := msb_trunc .w16 s.regs.eax
  refine ⟨?_, ?_, ?_, rfl⟩
  · rw [← byte]
    rfl
  · rw [← word]
    rfl
  · show exec (.cwd .s16) s = .next { s with
      regs := s.regs.setView .w16 .edx (if s.regs.eax.getLsbD 15 then 0xFFFF else 0), eip := s.nextEip }
    rw [← sign]
    rfl

/-! ### Numbers stored at a width -/

theorem toNat_trunc_ofNat {w : Width} {n : Nat} (h : n < 2 ^ w.bits) : (trunc w (BitVec.ofNat 32 n)).toNat = n := by
  rw [toNat_trunc, BitVec.toNat_ofNat]
  cases w <;> simp only [Width.bits] at * <;> omega

theorem toNat_trunc_ofInt (w : Width) (p : Int) :
    (trunc w (BitVec.ofInt 32 p)).toNat = (p % (2 ^ w.bits : Int)).toNat := by
  rw [toNat_trunc, BitVec.toNat_ofInt]
  cases w <;> simp only [Width.bits] <;> omega

/-- A number in the signed range of a width is read back from its bits. -/
theorem sint_trunc_ofInt {w : Width} {p : Int} (lo : -(2 ^ (w.bits - 1) : Int) ≤ p)
    (hi : p < (2 ^ (w.bits - 1) : Int)) : sint w (trunc w (BitVec.ofInt 32 p)) = p := by
  have nat := toNat_trunc_ofInt w p
  have signed := sint_cases (fits_and w (BitVec.ofInt 32 p))
  cases w <;> simp only [Width.bits] at * <;> omega

theorem natAbs_sint_le (w : Width) (v : Word) : (sint w v).natAbs ≤ 2 ^ (w.bits - 1) := by
  have lo : -(2 ^ (w.bits - 1) : Int) ≤ sint w v := BitVec.le_toInt _
  have hi : sint w v < (2 ^ (w.bits - 1) : Int) := BitVec.toInt_lt
  cases w <;> simp only [Width.bits] at * <;> omega

/-- A signed product fits in twice the width. -/
theorem signedProduct_range (w : Width) (a b : Word) :
    -(2 ^ (2 * w.bits - 1) : Int) ≤ sint w a * sint w b ∧ sint w a * sint w b < (2 ^ (2 * w.bits - 1) : Int) := by
  have bound : (sint w a * sint w b).natAbs ≤ 2 ^ (w.bits - 1) * 2 ^ (w.bits - 1) := by
    rw [Int.natAbs_mul]
    exact Nat.mul_le_mul (natAbs_sint_le w a) (natAbs_sint_le w b)
  generalize sint w a * sint w b = p at *
  cases w <;> simp only [Width.bits] at * <;> omega

/-- A number in the signed range of twice the width is read back from its bits. -/
theorem signedDividend_emod {w : Width} {p : Int} (lo : -(2 ^ (2 * w.bits - 1) : Int) ≤ p)
    (hi : p < (2 ^ (2 * w.bits - 1) : Int)) : signedDividend w (p % (2 ^ (2 * w.bits) : Int)).toNat = p := by
  have pos : 0 < 2 * w.bits := by cases w <;> decide
  have bits : BitVec.ofNat (2 * w.bits) (p % (2 ^ (2 * w.bits) : Int)).toNat = BitVec.ofInt (2 * w.bits) p := by
    apply BitVec.eq_of_toNat_eq
    rw [BitVec.toNat_ofNat, BitVec.toNat_ofInt]
    cases w <;> simp only [Width.bits] <;> omega
  unfold signedDividend
  rw [bits, BitVec.toInt_ofInt_eq_self pos lo hi]

/-! ### The implicit registers (R300) -/

theorem Regs.view_setView_other (x : Regs) (w : Width) {r q : Reg} (v : Word) (h : q ≠ r) :
    (x.setView w r v).view w q = x.view w q := by
  cases w with
  | w8 => exact x.byteView_setView_other r q v h
  | w16 => exact congrArg (· &&& 0xFFFF) (x.get_setView_other .w16 r q v h)
  | w32 => exact x.get_setView_other .w32 r q v h

/-- A byte or word write leaves the upper half of every register. -/
theorem Regs.upperHalf_setView (x : Regs) {w : Width} (hw : w ≠ .w32) (r q : Reg) (v : Word) :
    (x.setView w r v).get q &&& 0xFFFF0000 = x.get q &&& 0xFFFF0000 := by
  by_cases h : q = Reg.home w r
  · subst h
    cases w with
    | w8 =>
      unfold Regs.setView Reg.home
      simp only [if_true]
      split
      · rw [Regs.get_set, lowByte_shiftLeft]
        exact field_of_setOther _ _ rfl rfl
      · rw [Regs.get_set]
        exact field_of_setOther _ _ rfl rfl
    | w16 => exact (congrArg (· &&& 0xFFFF0000) (Regs.get_set x r _)).trans (field_of_setOther _ _ rfl rfl)
    | w32 => exact absurd rfl hw
  · rw [x.get_setView_other w r q v h]

/-- Nothing but the implicit registers of R300 was written: AX at 8 bits, DX and AX at 16, EDX and EAX at 32. -/
def ImplicitOnly (w : Width) (x y : Regs) : Prop :=
  (∀ r, r ≠ .eax → r ≠ .edx → y.get r = x.get r) ∧
  (w = .w8 → y.edx = x.edx ∧ y.eax &&& 0xFFFF0000 = x.eax &&& 0xFFFF0000) ∧
  (w = .w16 → y.edx &&& 0xFFFF0000 = x.edx &&& 0xFFFF0000 ∧ y.eax &&& 0xFFFF0000 = x.eax &&& 0xFFFF0000)

theorem ImplicitOnly.trans {w : Width} {x y z : Regs} (h1 : ImplicitOnly w x y) (h2 : ImplicitOnly w y z) :
    ImplicitOnly w x z := by
  obtain ⟨other1, byte1, word1⟩ := h1
  obtain ⟨other2, byte2, word2⟩ := h2
  exact ⟨fun r ha hd => (other2 r ha hd).trans (other1 r ha hd),
    fun hw => ⟨(byte2 hw).1.trans (byte1 hw).1, (byte2 hw).2.trans (byte1 hw).2⟩,
    fun hw => ⟨(word2 hw).1.trans (word1 hw).1, (word2 hw).2.trans (word1 hw).2⟩⟩

/-- A write of a view that lies in the implicit registers. -/
theorem implicitOnly_setView {w v : Width} {r : Reg} (x : Regs) (a : Word)
    (home : Reg.home v r = .eax ∨ w ≠ .w8 ∧ Reg.home v r = .edx) (narrow : w ≠ .w32 → v ≠ .w32) :
    ImplicitOnly w x (x.setView v r a) := by
  refine ⟨fun q ha hd => x.get_setView_other v r q a ?_, ?_, ?_⟩
  · rcases home with h | ⟨-, h⟩
    · rwa [h]
    · rwa [h]
  · rintro rfl
    have h : Reg.home v r = .eax := home.resolve_right fun h => h.1 rfl
    exact ⟨x.get_setView_other v r .edx a (by rw [h]; decide), x.upperHalf_setView (narrow (by decide)) r .eax a⟩
  · rintro rfl
    have upper := fun q => x.upperHalf_setView (narrow (by decide)) r q a
    exact ⟨upper .edx, upper .eax⟩

/-- Quotient and remainder go to the accumulator and the register of the high half. -/
theorem State.setQuotient_eq (s : State) (w : Width) (q r : Word) :
    s.setQuotient w q r = (s.setReg w .eax q).setReg w (highReg w) r := by
  cases w <;> rfl

theorem setQuotient_implicitOnly (s : State) (w : Width) (q r : Word) :
    ImplicitOnly w s.regs (s.setQuotient w q r).regs := by
  have low : Reg.home w .eax = .eax := by cases w <;> rfl
  have high : Reg.home w (highReg w) = .eax ∨ w ≠ .w8 ∧ Reg.home w (highReg w) = .edx := by cases w <;> decide
  rw [State.setQuotient_eq]
  exact (implicitOnly_setView _ q (.inl low) id).trans (implicitOnly_setView _ r high id)

theorem State.setQuotient_reg_low (s : State) (w : Width) (q r : Word) :
    (s.setQuotient w q r).reg w .eax = trunc w q := by
  have apart : Reg.eax ≠ highReg w := by cases w <;> decide
  rw [State.setQuotient_eq]
  exact (Regs.view_setView_other _ w r apart).trans (Regs.view_setView _ w .eax q)

theorem State.setQuotient_reg_high (s : State) (w : Width) (q r : Word) :
    (s.setQuotient w q r).reg w (highReg w) = trunc w r := by
  rw [State.setQuotient_eq]
  exact Regs.view_setView _ w (highReg w) r

/-- Above 8 bits a product is stored as a quotient and a remainder are: its low half and its high half (R301). -/
theorem State.setProduct_wide (s : State) {w : Width} (hw : w ≠ .w8) (p : Nat) : s.setProduct w p =
    s.setQuotient w (BitVec.ofNat 32 (p % 2 ^ w.bits)) (BitVec.ofNat 32 (p / 2 ^ w.bits % 2 ^ w.bits)) := by
  cases w with
  | w8 => exact absurd rfl hw
  | w16 | w32 => rfl

theorem State.dividend_wide (s : State) {w : Width} (hw : w ≠ .w8) :
    s.dividend w = (s.reg w (highReg w)).toNat * 2 ^ w.bits + (s.reg w .eax).toNat := by
  cases w with
  | w8 => exact absurd rfl hw
  | w16 | w32 => rfl

theorem setProduct_implicitOnly (s : State) (w : Width) (p : Nat) : ImplicitOnly w s.regs (s.setProduct w p).regs := by
  by_cases hw : w = .w8
  · subst hw
    exact implicitOnly_setView (v := .w16) (r := .eax) _ _ (.inl rfl) fun _ => by decide
  · rw [s.setProduct_wide hw]
    exact setQuotient_implicitOnly s w _ _

/-- The double-width product is read back whole (R301). -/
theorem dividend_setProduct (s : State) {w : Width} {p : Nat} (hp : p < 2 ^ (2 * w.bits)) :
    (s.setProduct w p).dividend w = p := by
  by_cases hw : w = .w8
  · subst hw
    have small : p % 2 ^ 16 = p := Nat.mod_eq_of_lt hp
    refine (congrArg BitVec.toNat (Regs.view_setView s.regs .w16 .eax _)).trans ?_
    rw [small]
    exact toNat_trunc_ofNat hp
  · have pos : 0 < 2 ^ w.bits := Nat.two_pow_pos _
    have half : p / 2 ^ w.bits < 2 ^ w.bits := Nat.div_lt_of_lt_mul (by rwa [← Nat.pow_add, ← Nat.two_mul])
    rw [s.setProduct_wide hw, State.dividend_wide _ hw, State.setQuotient_reg_low, State.setQuotient_reg_high,
      Nat.mod_eq_of_lt half, toNat_trunc_ofNat half, toNat_trunc_ofNat (Nat.mod_lt p pos)]
    exact Nat.div_add_mod' p _

theorem OnlyMemory.reg {s t : State} (h : OnlyMemory s t) (w : Width) (r : Reg) : t.reg w r = s.reg w r := by
  obtain ⟨regs, -⟩ := h.fields
  exact congrArg (·.view w r) regs

/-- The dividend depends on the registers. -/
theorem OnlyMemory.dividend {s t : State} (h : OnlyMemory s t) (w : Width) : t.dividend w = s.dividend w := by
  cases w <;> simp only [State.dividend, h.reg]

/-! ### MUL and IMUL (R301 to R303) -/

/-- An instruction that writes its registers after reading its operand, and then the flags of a product. -/
theorem exec_mul_of {i : Instr} {w : Width} {rm : RM} {f : Word → Op Unit} {s s1 : State} {b : Word} {x : Regs}
    {o : Bool} (he : exec i s = run (do let b ← readRM w rm; f b) s) (h : (readRM w rm).run s = .ok b s1)
    (hf : (f b).run s1 = (do mulFlags o; advance : Op Unit).run { s1 with regs := x }) :
    exec i s = .next { mulDraws { s1 with regs := x } o with eip := s.nextEip } := by
  obtain ⟨-, -, -, next, -⟩ := (readRM_ok h).1.only.fields
  rw [← next]
  exact he.trans (run_of_ok ((run_bind_ok h).trans hf))

theorem State.setProduct_eq (s : State) (w : Width) (p : Nat) :
    s.setProduct w p = { s with regs := (s.setProduct w p).regs } := by
  cases w <;> rfl

/-- An instruction that stores the product of its operand and the accumulator (R301, R302). -/
theorem exec_product_of {i : Instr} {w : Width} {rm : RM} {p : Word → Word → Nat} {o : Word → Word → Bool}
    {s s1 : State} {b : Word} (h : (readRM w rm).run s = .ok b s1)
    (he : exec i s = run (do
      let b ← readRM w rm
      let a ← readReg w .eax
      modify (·.setProduct w (p a b))
      mulFlags (o a b)
      advance) s) :
    exec i s = .next
      { mulDraws (s1.setProduct w (p (s.reg w .eax) b)) (o (s.reg w .eax) b) with eip := s.nextEip } := by
  rw [State.setProduct_eq]
  refine exec_mul_of he h ?_
  rw [run_bind_ok (run_readReg w .eax s1), (readRM_ok h).1.only.reg, ← State.setProduct_eq]
  rfl

theorem multiplyOneComplete : Claim.MultiplyOneComplete := by
  intro w rm s s1 b inv h a p q
  obtain ⟨e, fits⟩ := readRM_ok h
  obtain ⟨regs, -⟩ := e.only.fields
  have small : p < 2 ^ (2 * w.bits) := by
    rw [Nat.two_mul, Nat.pow_add]
    exact Nat.mul_lt_mul'' (toNat_lt_of_fits (fits_view _ _ _)) (toNat_lt_of_fits (fits inv))
  obtain ⟨lo, hi⟩ := signedProduct_range w a b
  have nonneg : (q % (2 ^ (2 * w.bits) : Int)).toNat < 2 ^ (2 * w.bits) := by
    cases w <;> simp only [Width.bits] <;> omega
  refine ⟨e.accessed inv, ?_, dividend_setProduct s1 small, ?_, ?_, fun n => ⟨s1.setProduct_eq w n, ?_⟩⟩
  · exact exec_product_of (p := fun a b => a.toNat * b.toNat)
      (o := fun a b => decide (2 ^ w.bits ≤ a.toNat * b.toNat)) h rfl
  · exact exec_product_of (p := fun a b => (sint w a * sint w b % (2 ^ (2 * w.bits) : Int)).toNat)
      (o := fun a b => signedOver w (sint w a * sint w b)) h rfl
  · rw [dividend_setProduct s1 nonneg]
    exact signedDividend_emod lo hi
  · rw [← regs]
    exact setProduct_implicitOnly s1 w n

/-- The truncated product as a number modulo the operand size. -/
theorem imulTruncated_eq (w : Width) (a b : Word) :
    imulTruncated w a b = BitVec.ofInt 32 (sint w a * sint w b % (2 ^ w.bits : Int)) := by
  apply BitVec.eq_of_toNat_eq
  refine (toNat_trunc_ofInt w _).trans ?_
  rw [BitVec.toNat_ofInt]
  generalize sint w a * sint w b = p
  cases w <;> simp only [Width.bits] <;> omega

theorem run_imulStore (w : Width) (r : Reg) (a b : Word) (s : State) : (imulStore w r a b).run s =
    (do mulFlags (signedOver w (sint w a * sint w b)); advance : Op Unit).run
      { s with regs := s.regs.setView w r (BitVec.ofInt 32 (sint w a * sint w b % (2 ^ w.bits : Int))) } := by
  rw [← imulTruncated_eq]
  rfl

theorem imulTruncatedComplete : Claim.ImulTruncatedComplete := by
  intro z r rm s s1 v inv h w done
  have e := (readRM_ok h).1
  obtain ⟨regs, -⟩ := e.only.fields
  have stored (a b : Word) := run_imulStore w r a b s1
  rw [regs] at stored
  refine ⟨e.accessed inv, exec_mul_of rfl h ?_, fun imm => exec_mul_of rfl h (stored v imm),
    fun ib => exec_mul_of rfl h (stored v (sextByte w ib))⟩
  rw [run_bind_ok (run_readReg _ r s1), e.only.reg]
  exact stored (s.reg w r) v

/-- The five instructions read their r/m operand first. -/
theorem multiplyFaults : Claim.MultiplyFaults := by
  refine fun rm s => ⟨fun w i hi => ?_, fun z r imm ib i hi => ?_⟩
  · simp only [List.mem_cons, List.not_mem_nil, or_false] at hi
    rcases hi with rfl | rfl <;> exact faultsWhere_of rfl fun _ _ h => run_bind_error h
  · simp only [List.mem_cons, List.not_mem_nil, or_false] at hi
    rcases hi with rfl | rfl | rfl <;> exact faultsWhere_of rfl fun _ _ h => run_bind_error h

/-- Settles O13: the product is read back whole where it fits in twice the width, as every product of the operands does;
truncation is the remainder modulo the operand size. -/
theorem multiplyComplete : Obligations.MultiplyComplete := ⟨multiplyOneComplete, imulTruncatedComplete, multiplyFaults⟩

/-! ### DIV and IDIV (R304, R305) -/

theorem run_finishDivide_some (w : Width) (q r : Word) (s : State) :
    (finishDivide w (some (q, r))).run s = .ok () (sixDraws (s.setQuotient w q r)).advance := rfl

/-- A division that has a quotient stores it with its remainder, and leaves the flags draws. -/
theorem divide_completes {i : Instr} {w : Width} {rm : RM} {g : State → Word → Option (Word × Word)} {s s1 : State}
    {d q r : Word} (he : exec i s = run (do let d ← readRM w rm; let s ← get; finishDivide w (g s d)) s)
    (h : (readRM w rm).run s = .ok d s1) (hg : g s1 d = some (q, r)) :
    ∃ t : State, exec i s = .next { sixDraws t with eip := s.nextEip } ∧ t = { s1 with regs := t.regs } ∧
      t.reg w .eax = trunc w q ∧ t.reg w (highReg w) = trunc w r ∧ ImplicitOnly w s.regs t.regs := by
  obtain ⟨regs, -, -, next, -⟩ := (readRM_ok h).1.only.fields
  have done := run_finishDivide_some w q r s1
  rw [← hg] at done
  have rest : s1.setQuotient w q r = { s1 with regs := (s1.setQuotient w q r).regs } := by
    rw [State.setQuotient_eq]
    rfl
  refine ⟨s1.setQuotient w q r, ?_, rest, s1.setQuotient_reg_low w q r, s1.setQuotient_reg_high w q r, ?_⟩
  · have next : (sixDraws (s1.setQuotient w q r)).nextEip = s.nextEip := by
      rw [rest]
      exact next
    rw [← advance_of_nextEip next]
    exact he.trans (run_of_ok ((run_bind_ok h).trans ((run_bind_ok (run_get s1)).trans done)))
  · rw [← regs]
    exact setQuotient_implicitOnly s1 w q r

/-- A division that has no quotient is the divide error. -/
theorem divide_raises {i : Instr} {w : Width} {rm : RM} {g : State → Word → Option (Word × Word)} {s s1 : State}
    {d : Word} (he : exec i s = run (do let d ← readRM w rm; let s ← get; finishDivide w (g s d)) s)
    (h : (readRM w rm).run s = .ok d s1) (hg : g s1 d = none) : RaisesFault i s s1 .de none := by
  have error : (finishDivide w none).run s1 =
      .error (.fault { kind := .de, code := none, addr := none } false) s1 := rfl
  rw [← hg] at error
  exact he.trans (run_of_fault ((run_bind_ok h).trans ((run_bind_ok (run_get s1)).trans error)))

theorem divide_eq_some {w : Width} {n d : Nat} (hd : d ≠ 0) (hq : n / d < 2 ^ w.bits) :
    divide w n d = some (BitVec.ofNat 32 (n / d), BitVec.ofNat 32 (n % d)) := by
  unfold divide
  rw [if_neg hd, if_neg (by omega)]

theorem divide_eq_none {w : Width} {n d : Nat} (h : d = 0 ∨ 2 ^ w.bits ≤ n / d) : divide w n d = none := by
  have pos : 0 < 2 ^ w.bits := Nat.two_pow_pos _
  unfold divide
  split
  · rfl
  · rw [if_pos (by omega)]

/-- Settles O14: the stored quotient and remainder fit in the width, so they are those of the numbers. -/
theorem divideLaw : Obligations.DivideLaw := by
  refine ⟨fun w rm s => faultsWhere_of rfl fun _ _ h => run_bind_error h, ?_⟩
  intro w rm s s1 d inv h n
  obtain ⟨e, fits⟩ := readRM_ok h
  have same : s1.dividend w = n := e.only.dividend w
  have he : exec (.div w rm) s =
      run (do let d ← readRM w rm; let s ← get; finishDivide w (divide w (s.dividend w) d.toNat)) s := rfl
  refine ⟨e.accessed inv, fun hd hq => ?_, fun hz => ?_⟩
  · have hd : d.toNat ≠ 0 := fun h0 => hd ((zero_iff_toNat d).2 h0)
    have less : n % d.toNat < d.toNat := Nat.mod_lt _ (Nat.pos_of_ne_zero hd)
    obtain ⟨t, next, rest, quotient, remainder, frame⟩ :=
      divide_completes he h (by rw [same]; exact divide_eq_some hd hq)
    have qn := toNat_trunc_ofNat hq
    have rn := toNat_trunc_ofNat (Nat.lt_trans less (toNat_lt_of_fits (fits inv)))
    refine ⟨t, next, rest, ?_, ?_, frame⟩
    · rw [quotient, remainder, qn, rn]
      exact Nat.div_add_mod' n d.toNat
    · rw [remainder, rn]
      exact less
  · have hz : d.toNat = 0 ∨ 2 ^ w.bits ≤ n / d.toNat := hz.imp_left (zero_iff_toNat d).1
    exact divide_raises he h (by rw [same]; exact divide_eq_none hz)

theorem divideSigned_eq_some {w : Width} {n d : Int} (hd : d ≠ 0) (lo : -(2 ^ (w.bits - 1) : Int) ≤ n.tdiv d)
    (hi : n.tdiv d < (2 ^ (w.bits - 1) : Int)) : divideSigned w n d =
      some (trunc w (BitVec.ofInt 32 (n.tdiv d)), trunc w (BitVec.ofInt 32 (n - n.tdiv d * d))) := by
  unfold divideSigned
  rw [if_neg hd]
  refine if_neg ?_
  simp only [Bool.or_eq_true, decide_eq_true_eq]
  omega

theorem divideSigned_eq_none {w : Width} {n d : Int}
    (h : d = 0 ∨ ¬ (-(2 ^ (w.bits - 1) : Int) ≤ n.tdiv d ∧ n.tdiv d < (2 ^ (w.bits - 1) : Int))) :
    divideSigned w n d = none := by
  unfold divideSigned
  split
  · rfl
  · refine if_pos ?_
    simp only [Bool.or_eq_true, decide_eq_true_eq]
    omega

/-- The remainder of a truncating division is smaller than the divisor, so it fits in the divisor's width. -/
theorem remainder_range {w : Width} {v : Word} (hd : sint w v ≠ 0) (n : Int) :
    -(2 ^ (w.bits - 1) : Int) ≤ n - n.tdiv (sint w v) * sint w v ∧
      n - n.tdiv (sint w v) * sint w v < (2 ^ (w.bits - 1) : Int) := by
  have bound := natAbs_sint_le w v
  have less : (n.tmod (sint w v)).natAbs < (sint w v).natAbs := by
    rw [Int.natAbs_tmod]
    exact Nat.mod_lt _ (Int.natAbs_pos.2 hd)
  rw [Int.mul_comm, ← Int.tmod_def]
  cases w <;> simp only [Width.bits] at * <;> omega

/-- Settles O15: the quotient fits by hypothesis, and the remainder because it is smaller than the divisor. -/
theorem signedDivideLaw : Obligations.SignedDivideLaw := by
  refine ⟨fun w rm s => faultsWhere_of rfl fun _ _ h => run_bind_error h, ?_⟩
  intro w rm s s1 v inv h n d fits
  have e := (readRM_ok h).1
  have same : signedDividend w (s1.dividend w) = n := congrArg (signedDividend w) (e.only.dividend w)
  have he : exec (.idiv w rm) s = run (do
      let v ← readRM w rm
      let s ← get
      finishDivide w (divideSigned w (signedDividend w (s.dividend w)) (sint w v))) s := rfl
  refine ⟨e.accessed inv, fun hd ⟨lo, hi⟩ => ?_, fun hz => ?_⟩
  · obtain ⟨rlo, rhi⟩ := remainder_range hd n
    obtain ⟨t, next, rest, quotient, remainder, frame⟩ :=
      divide_completes he h (by rw [same]; exact divideSigned_eq_some hd lo hi)
    refine ⟨t, next, rest, ?_, ?_, frame⟩
    · rw [quotient, trunc_trunc]
      exact sint_trunc_ofInt lo hi
    · rw [remainder, trunc_trunc]
      exact sint_trunc_ofInt rlo rhi
  · exact divide_raises he h (by rw [same]; exact divideSigned_eq_none hz)

end Sys2Proof.Machine

namespace Sys2Proof.Machine

/-! ### Rotation of a vector of m bits (R320) -/

theorem rotl_lt (m v k : Nat) : rotl m v k < 2 ^ m := Nat.mod_lt _ (Nat.two_pow_pos m)

theorem rotr_lt (m v k : Nat) : rotr m v k < 2 ^ m := Nat.mod_lt _ (Nat.two_pow_pos m)

theorem rotr_eq_rotl {m k : Nat} (v : Nat) (hk : k ≤ m) : rotr m v k = rotl m v (m - k) := by
  unfold rotr rotl
  rw [Nat.sub_sub_self hk, Nat.add_comm]

/-- Bit `i` comes from `k` places below it, or, where there are none, from the top. -/
theorem testBit_rotl {m v k i : Nat} (hv : v < 2 ^ m) (hk : k ≤ m) (hi : i < m) :
    (rotl m v k).testBit i = v.testBit ((i + (m - k)) % m) := by
  have low : v / 2 ^ (m - k) < 2 ^ k := Nat.div_lt_of_lt_mul (by rwa [← Nat.pow_add, Nat.sub_add_cancel hk])
  unfold rotl
  rw [Nat.testBit_mod_two_pow, decide_eq_true hi, Bool.true_and, Nat.mul_comm, Nat.testBit_two_pow_mul_add _ low]
  split
  · rw [Nat.testBit_div_two_pow, Nat.mod_eq_of_lt (by omega)]
  · have wraps : i + (m - k) = i - k + m := by omega
    rw [wraps, Nat.add_mod_right, Nat.mod_eq_of_lt (by omega)]

theorem testBit_rotl_add {m v j : Nat} (n : Nat) (hv : v < 2 ^ m) (hj : j < m) :
    (rotl m v (n % m)).testBit ((j + n) % m) = v.testBit j := by
  have hk : n % m < m := Nat.mod_lt n (by omega)
  have back : j + n % m + (m - n % m) = j + m := by omega
  rw [← Nat.add_mod_mod j n m, testBit_rotl hv (Nat.le_of_lt hk) (Nat.mod_lt _ (by omega)), Nat.mod_add_mod, back,
    Nat.add_mod_right, Nat.mod_eq_of_lt hj]

theorem testBit_rotr {m v j : Nat} (n : Nat) (hv : v < 2 ^ m) (hj : j < m) :
    (rotr m v (n % m)).testBit j = v.testBit ((j + n) % m) := by
  have hk : n % m < m := Nat.mod_lt n (by omega)
  rw [rotr_eq_rotl v (Nat.le_of_lt hk), testBit_rotl hv (Nat.sub_le m _) hj, Nat.sub_sub_self (Nat.le_of_lt hk),
    Nat.add_mod_mod]

theorem rotr_rotl {m v : Nat} (n : Nat) (hv : v < 2 ^ m) : rotr m (rotl m v (n % m)) (n % m) = v := by
  apply Nat.eq_of_testBit_eq
  intro j
  by_cases hj : j < m
  · rw [testBit_rotr n (rotl_lt m v _) hj, testBit_rotl_add n hv hj]
  · have above : 2 ^ m ≤ 2 ^ j := Nat.pow_le_pow_right Nat.zero_lt_two (by omega)
    rw [Nat.testBit_lt_two_pow (Nat.lt_of_lt_of_le (rotr_lt m _ _) above),
      Nat.testBit_lt_two_pow (Nat.lt_of_lt_of_le hv above)]

/-! ### Numbers below 2^n as words -/

theorem toNat_ofNat_of_lt {w : Width} {x : Nat} (h : x < 2 ^ w.bits) : (BitVec.ofNat 32 x).toNat = x := by
  rw [BitVec.toNat_ofNat]
  cases w <;> simp only [Width.bits] at * <;> omega

theorem fits_ofNat {w : Width} {x : Nat} (h : x < 2 ^ w.bits) : w.fits (BitVec.ofNat 32 x) = true :=
  decide_eq_true (by rwa [toNat_ofNat_of_lt h])

theorem getLsbD_ofNat_of_lt {w : Width} {x : Nat} (h : x < 2 ^ w.bits) (i : Nat) :
    (BitVec.ofNat 32 x).getLsbD i = x.testBit i := by
  rw [← BitVec.testBit_toNat, toNat_ofNat_of_lt h]

/-! ### ROL and ROR (R321, R322) -/

theorem rolOut_fits (w : Width) (a : Word) (n : Nat) (d : Bool) : w.fits (rolOut w a n d).r = true :=
  fits_ofNat (rotl_lt w.bits _ _)

theorem rorOut_fits (w : Width) (a : Word) (n : Nat) (d : Bool) : w.fits (rorOut w a n d).r = true :=
  fits_ofNat (rotr_lt w.bits _ _)

theorem rolOut_bit {w : Width} {a : Word} (n : Nat) (d : Bool) (ha : w.fits a = true) {j : Nat} (hj : j < w.bits) :
    (rolOut w a n d).r.getLsbD ((j + n) % w.bits) = a.getLsbD j :=
  (getLsbD_ofNat_of_lt (rotl_lt w.bits _ _) _).trans (testBit_rotl_add n (toNat_lt_of_fits ha) hj)

theorem rorOut_bit {w : Width} {a : Word} (n : Nat) (d : Bool) (ha : w.fits a = true) {j : Nat} (hj : j < w.bits) :
    (rorOut w a n d).r.getLsbD j = a.getLsbD ((j + n) % w.bits) :=
  (getLsbD_ofNat_of_lt (rotr_lt w.bits _ _) _).trans (testBit_rotr n (toNat_lt_of_fits ha) hj)

/-! ### RCL and RCR: rotation of the operand with CF on top (R323, R324) -/

theorem withCarry_lt {w : Width} {a : Word} (cf : Bool) (ha : w.fits a = true) :
    withCarry w a cf < 2 ^ (w.bits + 1) := by
  have lt := toNat_lt_of_fits ha
  have top := carryNat_le cf
  unfold withCarry
  cases w <;> simp only [Width.bits] at * <;> omega

theorem testBit_withCarry {w : Width} {a : Word} (cf : Bool) (ha : w.fits a = true) {j : Nat} (hj : j ≤ w.bits) :
    (withCarry w a cf).testBit j = if j < w.bits then a.getLsbD j else cf := by
  unfold withCarry
  rw [Nat.mul_comm, Nat.testBit_two_pow_mul_add _ (toNat_lt_of_fits ha)]
  split
  · exact BitVec.testBit_toNat a
  · have top : j - w.bits = 0 := by omega
    rw [top]
    cases cf <;> rfl

/-- A vector of n+1 bits is its low n bits with its top bit. -/
theorem withCarry_split {w : Width} {t : Nat} (ht : t < 2 ^ (w.bits + 1)) :
    withCarry w (BitVec.ofNat 32 (t % 2 ^ w.bits)) (t.testBit w.bits) = t := by
  have half : t / 2 ^ w.bits < 2 := Nat.div_lt_of_lt_mul (by rwa [← Nat.pow_succ])
  have top : carryNat (t.testBit w.bits) = t / 2 ^ w.bits := by
    rw [Nat.testBit_eq_decide_div_mod_eq, Nat.mod_eq_of_lt half]
    have bit : ∀ q, q < 2 → carryNat (decide (q = 1)) = q := by decide
    exact bit _ half
  unfold withCarry
  rw [toNat_ofNat_of_lt (Nat.mod_lt t (Nat.two_pow_pos _)), top]
  exact Nat.div_add_mod' t _

theorem withCarry_inj {w : Width} {a b : Word} {c e : Bool} (ha : w.fits a = true) (hb : w.fits b = true)
    (h : withCarry w a c = withCarry w b e) : a = b ∧ c = e := by
  have la := toNat_lt_of_fits ha
  have lb := toNat_lt_of_fits hb
  have top : ∀ {x : Word} (f : Bool), w.fits x = true → (withCarry w x f).testBit w.bits = f := fun f hx => by
    rw [testBit_withCarry f hx (Nat.le_refl _), if_neg (Nat.lt_irrefl _)]
  have carry : c = e := by rw [← top c ha, h, top e hb]
  subst carry
  exact ⟨BitVec.eq_of_toNat_eq (Nat.add_left_cancel h), rfl⟩

/-- At 32 bits every count is below n+1, so all widths reduce it alike. -/
theorem rclCount_eq (w : Width) {n : Nat} (hn : n < 32) : rclCount w n = n % (w.bits + 1) := by
  unfold rclCount
  split
  · subst w
    exact (Nat.mod_eq_of_lt (show n < 32 + 1 by omega)).symm
  · rfl

section ThroughCarry

variable (w : Width) (a : Word) (cf : Bool) (n : Nat) (d : Bool)

theorem rclOut_fits : w.fits (rclOut w a cf n d).r = true := fits_ofNat (Nat.mod_lt _ (Nat.two_pow_pos _))

theorem rcrOut_fits : w.fits (rcrOut w a cf n d).r = true := fits_ofNat (Nat.mod_lt _ (Nat.two_pow_pos _))

theorem withCarry_rclOut (hn : n < 32) : withCarry w (rclOut w a cf n d).r (rclOut w a cf n d).cf =
    rotl (w.bits + 1) (withCarry w a cf) (n % (w.bits + 1)) := by
  rw [← rclCount_eq w hn]
  exact withCarry_split (rotl_lt _ _ _)

theorem withCarry_rcrOut (hn : n < 32) : withCarry w (rcrOut w a cf n d).r (rcrOut w a cf n d).cf =
    rotr (w.bits + 1) (withCarry w a cf) (n % (w.bits + 1)) := by
  rw [← rclCount_eq w hn]
  exact withCarry_split (rotr_lt _ _ _)

variable {w a cf n d}

theorem rclOut_bit (ha : w.fits a = true) (hn : n < 32) {j : Nat} (hj : j ≤ w.bits) :
    (withCarry w (rclOut w a cf n d).r (rclOut w a cf n d).cf).testBit ((j + n) % (w.bits + 1)) =
      (withCarry w a cf).testBit j := by
  rw [withCarry_rclOut w a cf n d hn]
  exact testBit_rotl_add n (withCarry_lt cf ha) (Nat.lt_succ_of_le hj)

theorem rcrOut_bit (ha : w.fits a = true) (hn : n < 32) {j : Nat} (hj : j ≤ w.bits) :
    (withCarry w (rcrOut w a cf n d).r (rcrOut w a cf n d).cf).testBit j =
      (withCarry w a cf).testBit ((j + n) % (w.bits + 1)) := by
  rw [withCarry_rcrOut w a cf n d hn]
  exact testBit_rotr n (withCarry_lt cf ha) (Nat.lt_succ_of_le hj)

theorem rcrOut_rclOut (ha : w.fits a = true) (hn : n < 32) :
    (rcrOut w (rclOut w a cf n d).r (rclOut w a cf n d).cf n d).r = a ∧
      (rcrOut w (rclOut w a cf n d).r (rclOut w a cf n d).cf n d).cf = cf := by
  apply withCarry_inj (rcrOut_fits _ _ _ _ _) ha
  rw [withCarry_rcrOut _ _ _ _ _ hn, withCarry_rclOut _ _ _ _ _ hn]
  exact rotr_rotl n (withCarry_lt cf ha)

end ThroughCarry

theorem rotateLaws : Claim.RotateLaws := by
  intro w a n cf d ha _ hn m rol ror rcl rcr withCf
  have vector : ∀ {x : Word} (c : Bool), w.fits x = true → ∀ {j : Nat}, j ≤ m →
      withCf x c j = (withCarry w x c).testBit j := fun c hx _ hj => (testBit_withCarry c hx hj).symm
  have wraps : ∀ k, k % (m + 1) ≤ m := fun k => Nat.le_of_lt_succ (Nat.mod_lt k m.succ_pos)
  have undo := rcrOut_rclOut (cf := cf) (d := d) ha hn
  refine ⟨rolOut_fits w a n d, rorOut_fits w a n d, rclOut_fits w a cf n d, rcrOut_fits w a cf n d,
    fun j hj => ⟨rolOut_bit n d ha hj, rorOut_bit n d ha hj⟩, rfl, rfl, fun j hj => ⟨?_, ?_⟩, undo.1, undo.2,
    fun h => ⟨if_pos h, if_pos h, if_pos h, if_pos h⟩, fun h => ⟨if_neg h, if_neg h, if_neg h, if_neg h⟩⟩
  · rw [vector _ (rclOut_fits w a cf n d) (wraps _), vector cf ha hj]
    exact rclOut_bit ha hn hj
  · rw [vector _ (rcrOut_fits w a cf n d) hj, vector cf ha (wraps _)]
    exact rcrOut_bit ha hn hj

/-! ### SHL, SHR and SAR (R325 to R327) -/

theorem shlOut_toNat (w : Width) (a : Word) (n : Nat) (c d : Bool) :
    (shlOut w a n c d).r.toNat = a.toNat * 2 ^ n % 2 ^ w.bits :=
  toNat_ofNat_of_lt (Nat.mod_lt _ (Nat.two_pow_pos _))

theorem shrOut_toNat (w : Width) (a : Word) (n : Nat) (c d : Bool) :
    (shrOut w a n c d).r.toNat = a.toNat / 2 ^ n :=
  toNat_ofNat_of_lt (w := .w32) (Nat.lt_of_le_of_lt (Nat.div_le_self _ _) a.isLt)

/-- A floored quotient keeps its value, 0 or -1, once the divisor exceeds the dividend. -/
theorem ediv_eq_ediv_of_large {x b c : Int} (lo : -b ≤ x) (hi : x < b) (hbc : b ≤ c) : x / b = x / c := by
  by_cases neg : x < 0
  · rw [Int.ediv_eq_neg_one_of_neg_of_le neg (by omega), Int.ediv_eq_neg_one_of_neg_of_le neg (by omega)]
  · rw [Int.ediv_eq_zero_of_lt (by omega) hi, Int.ediv_eq_zero_of_lt (by omega) (by omega)]

theorem two_pow_le_two_pow {m n : Nat} (h : m ≤ n) : (2 ^ m : Int) ≤ 2 ^ n := by
  exact_mod_cast Nat.pow_le_pow_right Nat.zero_lt_two h

theorem sint_range (w : Width) (v : Word) :
    -(2 ^ (w.bits - 1) : Int) ≤ sint w v ∧ sint w v < (2 ^ (w.bits - 1) : Int) :=
  ⟨BitVec.le_toInt _, BitVec.toInt_lt⟩

/-- Cutting the count at the width does not change the quotient. -/
theorem sint_ediv_min (w : Width) (a : Word) (n : Nat) : sint w a / 2 ^ min n w.bits = sint w a / 2 ^ n := by
  rcases Nat.le_total n w.bits with h | h
  · rw [Nat.min_eq_left h]
  · obtain ⟨lo, hi⟩ := sint_range w a
    have half : (2 ^ (w.bits - 1) : Int) ≤ 2 ^ w.bits := two_pow_le_two_pow (Nat.sub_le _ 1)
    rw [Nat.min_eq_right h]
    exact ediv_eq_ediv_of_large (Int.le_trans (Int.neg_le_neg half) lo) (Int.lt_of_lt_of_le hi half)
      (two_pow_le_two_pow h)

theorem sarOut_fits (w : Width) (a : Word) (n : Nat) (d : Bool) : w.fits (sarOut w a n d).r = true := fits_and w _

theorem sarOut_sint (w : Width) (a : Word) (n : Nat) (d : Bool) :
    sint w (sarOut w a n d).r = (sint w a).fdiv (2 ^ n) := by
  have pos : (0 : Int) < 2 ^ n := Int.pow_pos (by decide)
  obtain ⟨lo, hi⟩ := sint_range w a
  have half : (0 : Int) < 2 ^ (w.bits - 1) := Int.pow_pos (by decide)
  have grows : (2 ^ (w.bits - 1) : Int) ≤ 2 ^ (w.bits - 1) * 2 ^ n := by
    have scaled := Int.mul_le_mul_of_nonneg_left (Int.add_one_le_of_lt pos) (Int.le_of_lt half)
    rwa [Int.zero_add, Int.mul_one] at scaled
  have qlo : -(2 ^ (w.bits - 1) : Int) ≤ sint w a / 2 ^ n := by
    refine Int.le_ediv_of_mul_le pos ?_
    rw [Int.neg_mul]
    exact Int.le_trans (Int.neg_le_neg grows) lo
  have qhi : sint w a / 2 ^ n < (2 ^ (w.bits - 1) : Int) :=
    Int.ediv_lt_of_lt_mul pos (Int.lt_of_lt_of_le hi grows)
  rw [Int.fdiv_eq_ediv_of_nonneg _ (Int.le_of_lt pos)]
  unfold sarOut
  rw [sint_ediv_min]
  exact sint_trunc_ofInt qlo qhi

theorem shiftLaws : Claim.ShiftLaws := by
  intro w a n c d ha _ _ m shl shr sar
  have sarCf : sar.cf = a.getLsbD (min n m - 1) := rfl
  refine ⟨shlOut_toNat w a n c d, shrOut_toNat w a n c d, sarOut_fits w a n d, sarOut_sint w a n d,
    fun h => ⟨if_pos h, if_pos h, ?_⟩, fun h => ⟨if_neg (Nat.not_lt_of_ge h), if_neg (Nat.not_lt_of_ge h), ?_⟩,
    fun h => ⟨if_pos h, if_pos h, if_pos h⟩, fun h => ⟨if_neg h, if_neg h, if_neg h⟩⟩
  · rw [sarCf, Nat.min_eq_left (Nat.le_of_lt h)]
  · rw [sarCf, Nat.min_eq_right h]

/-- Settles O18: the rotates move the bits of a vector, with CF as its top bit for RCL and RCR; the shifts are
arithmetic on the operand's value. -/
theorem shiftAndRotateLaws : Obligations.ShiftAndRotateLaws := ⟨rotateLaws, shiftLaws⟩

end Sys2Proof.Machine

namespace Sys2Proof.Machine

/-! ### String instructions without a repeat prefix (R340) -/

theorem exec_of_repeated_none {i : Instr} {zf : Bool} {asz : Size} {body : Op Unit}
    (h : repeated i = some (.none, zf, asz, body)) (s : State) : exec i s = run (do body; advance) s := by
  cases i <;> cases h <;> rfl

/-- An element that completes, then EIP moves on. -/
theorem exec_string_of {i : Instr} {zf : Bool} {asz : Size} {body : Op Unit} {s t : State}
    (h : repeated i = some (.none, zf, asz, body)) (hb : body.run s = .ok () t) (next : t.nextEip = s.nextEip) :
    exec i s = .next { t with eip := s.nextEip } := by
  rw [exec_of_repeated_none h, run_of_ok ((run_bind_ok hb).trans (run_advance t)), advance_of_nextEip next]

/-- The byte form and the word form of a string instruction are one instruction at two widths. -/
theorem repeated_of_form {i b : Instr} {v : Size → Instr} {w : Width} {zf : Bool} {asz : Size}
    (body : Width → Op Unit) (hb : repeated b = some (.none, zf, asz, body .w8))
    (hv : ∀ z : Size, repeated (v z) = some (.none, zf, asz, body z.width))
    (h : i = b ∧ w = .w8 ∨ ∃ z : Size, i = v z ∧ w = z.width) : repeated i = some (.none, zf, asz, body w) := by
  rcases h with ⟨rfl, rfl⟩ | ⟨z, rfl, rfl⟩
  · exact hb
  · exact hv z

/-- The element is all of the operation but the move of EIP. -/
theorem stringFaults : Claim.StringFaults := fun _ _ _ _ s h =>
  faultsWhere_of (exec_of_repeated_none h s) fun _ _ => run_bind_error

/-! ### The index registers (R340) -/

/-- An index register moved by one element. -/
def State.movedIndex (s : State) (asz : Size) (w : Width) (r : Reg) : Word :=
  trunc asz.width (s.reg asz.width r + s.delta w)

/-- The registers with both indexes moved by one element. -/
def State.movedIndexes (s : State) (asz : Size) (w : Width) : Regs :=
  (s.regs.setView asz.width .esi (s.movedIndex asz w .esi)).setView asz.width .edi (s.movedIndex asz w .edi)

/-- The move depends on the index and DF only, so it is the move of an earlier state that has the same. -/
theorem run_moveIndex_since {s x : State} {asz : Size} {r : Reg} (w : Width)
    (index : x.reg asz.width r = s.reg asz.width r) (df : x.flag .df = s.flag .df) :
    (moveIndex asz w r).run x =
      .ok () { x with regs := x.regs.setView asz.width r (s.movedIndex asz w r) } := by
  unfold State.movedIndex State.delta
  rw [← index, ← df]
  rfl

/-- Both indexes moved: the move of ESI leaves EDI. -/
theorem run_moveIndexes_since {s x : State} (asz : Size) (w : Width) (regs : x.regs = s.regs)
    (df : x.flag .df = s.flag .df) : (do moveIndex asz w .esi; moveIndex asz w .edi : Op Unit).run x =
      .ok () { x with regs := s.movedIndexes asz w } := by
  have apart := s.regs.view_setView_other asz.width (q := .edi) (s.movedIndex asz w .esi) (by decide : .edi ≠ Reg.esi)
  have esi := run_moveIndex_since w (congrArg (·.view asz.width .esi) regs) df
  rw [regs] at esi
  exact (run_bind_ok esi).trans (run_moveIndex_since w apart df)

/-- The status flags are not the direction flag. -/
theorem State.flag_df_putStatus (s : State) (t : Status) : (s.putStatus t).flag .df = s.flag .df :=
  getFlag_putStatus_other _ _ .df rfl

/-- A write of the accumulator leaves the source index. -/
theorem Regs.view_esi_setView_eax (x : Regs) (asz : Size) (w : Width) (v : Word) :
    (x.setView w .eax v).view asz.width .esi = x.view asz.width .esi := by
  have apart := x.get_setView_other w .eax .esi v (by cases w <;> decide)
  cases asz with
  | s16 => exact congrArg (· &&& 0xFFFF) apart
  | s32 => exact apart

/-! ### The elements (R340) -/

theorem run_sourceElement (s : State) (asz : Size) (w : Width) (sg : Seg) :
    (sourceElement asz w sg).run s = (segRead sg (s.reg asz.width .esi) w).run s := rfl

/-- The destination index is that of an earlier state, where accesses lie between. -/
theorem run_destElement {s x : State} (h : OnlyMemory s x) (asz : Size) (w : Width) :
    (destElement asz w).run x = (segRead .es (s.reg asz.width .edi) w).run x := by
  rw [← h.reg]
  rfl

theorem run_storeElement {s x : State} (h : OnlyMemory s x) (asz : Size) (w : Width) (v : Word) :
    (storeElement asz w v).run x = (segWrite .es (s.reg asz.width .edi) w v).run x := by
  rw [← h.reg]
  rfl

/-- A store through a segment after reads that stored nothing: the frame from the first state on. -/
theorem segWrite_after {i : Seg} {off v : Word} {w : Width} {s u t : State} (e : Effect s u []) (inv : s.Inv)
    (h : (segWrite i off w v).run u = .ok () t) :
    Accessed s t [(s.linear i off, w.bytes)] ∧ Stored s t (s.linear i off) w v := by
  obtain ⟨e2, stored⟩ := segWrite_ok h
  obtain ⟨-, -, -, -, segs, -⟩ := e.only.fields
  have lin : u.linear i off = s.linear i off := congrArg (fun x : Segs => (x.get i).base + off) segs
  rw [lin] at e2 stored
  exact ⟨(e.trans e2).accessed inv, (stored (e.inv inv)).since e.events e2.events⟩

theorem run_movsBody {w : Width} {asz : Size} {sg : Seg} {s u t : State} {v : Word}
    (hr : (segRead sg (s.reg asz.width .esi) w).run s = .ok v u)
    (hw : (segWrite .es (s.reg asz.width .edi) w v).run u = .ok () t) : (movsBody w asz sg).run s =
      .ok () { t with regs := s.movedIndexes asz w } := by
  have read := (segRead_ok hr).1
  have both := read.trans (segWrite_ok hw).1
  obtain ⟨regs, -⟩ := both.only.fields
  exact (run_bind_ok ((run_sourceElement s asz w sg).trans hr)).trans <|
    (run_bind_ok ((run_storeElement read.only asz w v).trans hw)).trans
      (run_moveIndexes_since asz w regs (both.flag .df))

theorem run_stosBody {w : Width} {asz : Size} {s t : State}
    (hw : (segWrite .es (s.reg asz.width .edi) w (s.reg w .eax)).run s = .ok () t) : (stosBody w asz).run s =
      .ok () { t with regs := s.regs.setView asz.width .edi (s.movedIndex asz w .edi) } := by
  have e := (segWrite_ok hw).1
  obtain ⟨regs, -⟩ := e.only.fields
  rw [← regs]
  exact (run_bind_ok (run_readReg w .eax s)).trans <|
    (run_bind_ok ((run_storeElement (onlyMemory_preorder.refl s) asz w _).trans hw)).trans
      (run_moveIndex_since w (e.only.reg asz.width .edi) (e.flag .df))

theorem run_lodsBody {w : Width} {asz : Size} {sg : Seg} {s u : State} {v : Word}
    (hr : (segRead sg (s.reg asz.width .esi) w).run s = .ok v u) : (lodsBody w asz sg).run s =
      .ok () { u with regs := (s.regs.setView w .eax v).setView asz.width .esi (s.movedIndex asz w .esi) } := by
  have e := (segRead_ok hr).1
  obtain ⟨regs, -⟩ := e.only.fields
  have index : (u.setReg w .eax v).reg asz.width .esi = s.reg asz.width .esi :=
    (u.regs.view_esi_setView_eax asz w v).trans (e.only.reg asz.width .esi)
  rw [← regs]
  exact (run_bind_ok ((run_sourceElement s asz w sg).trans hr)).trans <|
    (run_bind_ok (run_writeReg w .eax v u)).trans (run_moveIndex_since w index (e.flag .df))

theorem run_cmpsBody {w : Width} {asz : Size} {sg : Seg} {s u t : State} {a b : Word}
    (ha : (segRead sg (s.reg asz.width .esi) w).run s = .ok a u)
    (hb : (segRead .es (s.reg asz.width .edi) w).run u = .ok b t) : (cmpsBody w asz sg).run s =
      .ok () { t with
        regs := s.movedIndexes asz w
        flags := putStatus s.flags (subStatus w a b false) } := by
  have first := (segRead_ok ha).1
  have both := first.trans (segRead_ok hb).1
  obtain ⟨regs, flags, -⟩ := both.only.fields
  rw [← flags]
  exact (run_bind_ok ((run_sourceElement s asz w sg).trans ha)).trans <|
    (run_bind_ok ((run_destElement first.only asz w).trans hb)).trans <|
      (run_bind_ok (run_putStatusOp _ t)).trans
        (run_moveIndexes_since asz w regs ((t.flag_df_putStatus _).trans (both.flag .df)))

theorem run_scasBody {w : Width} {asz : Size} {s t : State} {b : Word}
    (hb : (segRead .es (s.reg asz.width .edi) w).run s = .ok b t) : (scasBody w asz).run s =
      .ok () { t with
        regs := s.regs.setView asz.width .edi (s.movedIndex asz w .edi)
        flags := putStatus s.flags (subStatus w (s.reg w .eax) b false) } := by
  have e := (segRead_ok hb).1
  obtain ⟨regs, flags, -⟩ := e.only.fields
  rw [← flags, ← regs, ← e.only.reg w .eax]
  exact (run_bind_ok ((run_destElement (onlyMemory_preorder.refl s) asz w).trans hb)).trans <|
    (run_bind_ok (run_get t)).trans <| (run_bind_ok (run_putStatusOp _ t)).trans
      (run_moveIndex_since w (e.only.reg asz.width .edi) ((t.flag_df_putStatus _).trans (e.flag .df)))

/-! ### The instructions (R342 to R346) -/

theorem storeStringsComplete : Claim.StoreStringsComplete := by
  refine fun w asz s inv => ⟨fun sg i v u t form hr hw => ?_, fun i t form hw => ?_, fun sg i v u form hr => ?_⟩
  · have frame := segWrite_after (segRead_ok hr).1 inv hw
    have movs := repeated_of_form (movsBody · asz sg) rfl (fun _ => rfl) form
    exact ⟨exec_string_of movs (run_movsBody hr hw) frame.1.nextEip, frame⟩
  · have frame := segWrite_after (.refl s) inv hw
    have stos := repeated_of_form (stosBody · asz) rfl (fun _ => rfl) form
    exact ⟨exec_string_of stos (run_stosBody hw) frame.1.nextEip, frame⟩
  · have frame := (segRead_ok hr).1.accessed inv
    have lods := repeated_of_form (lodsBody · asz sg) rfl (fun _ => rfl) form
    exact ⟨exec_string_of lods (run_lodsBody hr) frame.nextEip, frame⟩

theorem compareStringsComplete : Claim.CompareStringsComplete := by
  refine fun w asz s inv => ⟨fun sg i a b u t form ha hb => ?_, fun i b t form hb => ?_⟩
  · have frame := ((segRead_ok ha).1.trans (segRead_ok hb).1).accessed inv
    have cmps := repeated_of_form (cmpsBody · asz sg) rfl (fun _ => rfl) form
    exact ⟨exec_string_of cmps (run_cmpsBody ha hb) frame.nextEip, frame⟩
  · have frame := (segRead_ok hb).1.accessed inv
    have scas := repeated_of_form (scasBody · asz) rfl (fun _ => rfl) form
    exact ⟨exec_string_of scas (run_scasBody hb) frame.nextEip, frame⟩

/-- Settles O25: each instruction is one element and a move of EIP, and the indexes move as they would have before the
element's accesses and flags. -/
theorem stringsComplete : Obligations.StringsComplete :=
  ⟨storeStringsComplete, compareStringsComplete, stringFaults⟩

end Sys2Proof.Machine

namespace Sys2Proof.Machine

/-! ### Checks and descriptors, case by case -/

/-- A check that holds lets the rest run. -/
theorem run_require_pass {β : Type} {ok : Bool} {k : FaultKind} {c : Word} {f : Unit → Op β} {s : State}
    (h : ok = true) : (require ok k c >>= f).run s = (f ()).run s := by
  subst h
  rfl

/-- A check that fails raises its fault. -/
theorem run_require_fail {β : Type} {ok : Bool} {k : FaultKind} {c : Word} {f : Unit → Op β} {s : State}
    (h : ok = false) :
    (require ok k c >>= f).run s = .error (.fault { kind := k, code := some c, addr := none } false) s := by
  subst h
  rfl

/-- Two checks with one fault are one check. -/
theorem run_require_and {β : Type} (a b : Bool) (k : FaultKind) (c : Word) (f : Unit → Op β) (s : State) :
    (require a k c >>= fun _ => require b k c >>= f).run s = (require (a && b) k c >>= f).run s := by
  cases a <;> rfl

theorem run_bind_congr {α β : Type} {x y : Op α} {f : α → Op β} {s t : State} (h : x.run s = y.run t) :
    (x >>= f).run s = (y >>= f).run t := by
  rw [EStateM.run_bind, EStateM.run_bind, h]

theorem run_fetchDescOr_found {sel : Half} {k : FaultKind} {c : Word} {x : Desc × Word} {s t : State}
    (h : (fetchDescriptor sel).run s = .ok (some x) t) : (fetchDescOr sel k c).run s = .ok x t := run_bind_ok h

theorem run_fetchDescOr_none {sel : Half} {k : FaultKind} {c : Word} {s t : State}
    (h : (fetchDescriptor sel).run s = .ok none t) :
    (fetchDescOr sel k c).run s = .error (.fault { kind := k, code := some c, addr := none } false) t := run_bind_ok h

theorem run_fetchDescOr_error {sel : Half} {k : FaultKind} {c : Word} {e : Stop} {s t : State}
    (h : (fetchDescriptor sel).run s = .error e t) : (fetchDescOr sel k c).run s = .error e t := run_bind_error h

/-- The mode depends on CR0 and the flags. -/
theorem OnlyMemory.protMode {s t : State} (h : OnlyMemory s t) : t.protMode = s.protMode := by
  unfold OnlyMemory at h
  rw [h]
  rfl

theorem OnlyMemory.cpl {s t : State} (h : OnlyMemory s t) : t.cpl = s.cpl := by
  unfold OnlyMemory at h
  rw [h]

/-- CS after a flat transfer depends on the mode and on the CS before it. -/
theorem OnlyMemory.flatCs {s t : State} (h : OnlyMemory s t) (sel : Half) : t.flatCs sel = s.flatCs sel := by
  unfold OnlyMemory at h
  rw [h]
  rfl

theorem OnlyMemory.nextEip {s t : State} (h : OnlyMemory s t) : t.nextEip = s.nextEip := by
  unfold OnlyMemory at h
  rw [h]

/-- How an instruction settles that comes down to an operation in the state `u` and the end of its block. -/
theorem settles_endBlock {i : Instr} {s u : State} {op : Op Unit}
    (he : exec i s = settle s ((do op; endBlock : Op Unit).run u)) :
    (∀ t, op.run u = .ok () t → exec i s = .next { t with inBlock := false }) ∧
    (∀ f w, op.run u = .error (.fault f false) w → FaultsWith i s w f) ∧
    (∀ f w, op.run u = .error (.fault f true) w → exec i s = dispatchFault faultChain f w.eip w) ∧
    (∀ x w, op.run u = .error (.refuse x) w → exec i s = .refused x) :=
  ⟨fun _ h => he.trans (congrArg (settle s) (run_bind_ok h)),
    fun _ _ h => he.trans (congrArg (settle s) (run_bind_error h)),
    fun _ _ h => he.trans (congrArg (settle s) (run_bind_error h)),
    fun _ _ h => he.trans (congrArg (settle s) (run_bind_error h))⟩

/-! ### RETF (R390) -/

/-- A fault of one of the two pops is the return's. -/
theorem run_farReturn_popError {z : Size} {n : Half} {s t : State} {e : Stop} (h : (popAll z 2).run s = .error e t) :
    (farReturn z n).run s = .error e t := by
  cases first : (pop z).run s with
  | error x u =>
    cases (run_bind_error first).symm.trans h
    exact run_bind_error first
  | ok ip u =>
    have rest := (run_bind_ok first).symm.trans h
    cases second : (pop z).run u with
    | error x v =>
      cases (run_bind_error (run_bind_error second)).symm.trans rest
      exact (run_bind_ok first).trans (run_bind_error (run_bind_error second))
    | ok cs v => cases (run_bind_ok ((run_bind_ok second).trans (run_op_pure [cs] v))).symm.trans rest

/-- A far return after its pops. -/
theorem run_farReturn_popped {z : Size} {n : Half} {s u : State} {ip cs : Word}
    (h : (popAll z 2).run s = .ok [ip, cs] u) : (farReturn z n).run s =
      ((if u.protMode then retfProt (cs.setWidth 16) else loadCsFlat (cs.setWidth 16)) >>= fun _ => do
        jumpTo ip
        releaseStack n
        endBlock : Op Unit).run u := by
  obtain ⟨v1, u1, first, h⟩ := run_bind_inv h
  obtain ⟨vs, u2, rest, h⟩ := run_bind_inv h
  obtain ⟨v2, u3, second, rest⟩ := run_bind_inv rest
  cases rest
  cases h
  refine (run_bind_ok first).trans ((run_bind_ok (run_popSel second)).trans ((run_bind_ok (run_get u)).trans ?_))
  cases u.protMode <;> rfl

/-- What is left of a far return once CS is loaded. -/
theorem run_farReturn_loaded {z : Size} {n : Half} {s u v : State} {ip cs : Word} {g : SegReg}
    (hp : (popAll z 2).run s = .ok [ip, cs] u) (e : Effect u v [])
    (hcs : (if u.protMode then retfProt (cs.setWidth 16) else loadCsFlat (cs.setWidth 16) : Op Unit).run u =
      .ok () (v.setSeg .cs g)) : (farReturn z n).run s =
        .ok () { v.goesTo g ip with regs := s.spAfter (2 * z.width.bytes + n.toNat) } := by
  obtain ⟨-, popped, -⟩ := popAll_ok hp
  have only := (popped.trans e).only
  obtain ⟨regs, -⟩ := only.fields
  have released : v.spAfter n.toNat = s.spAfter (2 * z.width.bytes + n.toNat) := by
    have moved := only.spAfter (s.spAfter (2 * z.width.bytes)) n.toNat
    have same : v = { v with regs := s.spAfter (2 * z.width.bytes) } :=
      congrArg (fun x : Regs => { v with regs := x }) regs
    rw [same]
    exact moved.trans (s.spAfter_spAfter (2 * z.width.bytes) n.toNat)
  rw [← released]
  exact (run_farReturn_popped hp).trans ((run_bind_ok hcs).trans
    ((run_bind_ok (run_jumpTo ip _)).trans (run_bind_ok (run_releaseStack n _))))

/-- Both forms of RETF complete once CS is loaded. -/
theorem farReturn_completes {z : Size} {iw : Half} {s u v : State} {ip cs : Word} {g : SegReg}
    (hp : (popAll z 2).run s = .ok [ip, cs] u) (e : Effect u v [])
    (hcs : (if u.protMode then retfProt (cs.setWidth 16) else loadCsFlat (cs.setWidth 16) : Op Unit).run u =
      .ok () (v.setSeg .cs g)) :
    exec (.retf z) s = .next { v.goesTo g ip with regs := s.spAfter (2 * z.width.bytes + 0) } ∧
      exec (.retfImm z iw) s = .next { v.goesTo g ip with regs := s.spAfter (2 * z.width.bytes + iw.toNat) } :=
  ⟨run_of_ok (run_farReturn_loaded (n := 0) hp e hcs), run_of_ok (run_farReturn_loaded hp e hcs)⟩

/-- A far return stops where its protected-mode part stops. -/
theorem run_farReturn_prot_error {z : Size} {n : Half} {s u v : State} {ip cs : Word} {x : Stop}
    (hp : (popAll z 2).run s = .ok [ip, cs] u) (prot : u.protMode = true)
    (h : (retfProt (cs.setWidth 16)).run u = .error x v) : (farReturn z n).run s = .error x v := by
  rw [run_farReturn_popped hp, if_pos prot]
  exact run_bind_error h

theorem run_loadCsFlat (sel : Half) (s : State) : (loadCsFlat sel).run s = .ok () (s.setSeg .cs (s.flatCs sel)) := by
  unfold loadCsFlat State.flatCs
  rw [run_bind_ok (run_get s)]
  split <;> rfl

/-- CS is loaded at the level there is. -/
theorem run_loadCS_same {sel : Half} {d : Desc} {cpl : BitVec 2} {s : State} (h : s.cpl = cpl) :
    (loadCS sel d cpl).run s = .ok () (s.setSeg .cs (codeReg sel d cpl)) := by
  subst h
  rfl

theorem run_retfProt_null {sel : Half} {s : State} (null : nullSel sel = true) :
    (retfProt sel).run s = .error (.fault { kind := .gp, code := some 0, addr := none } false) s :=
  (run_bind_ok (run_get s)).trans (run_require_fail (by rw [null]; rfl))

theorem run_retfProt_error {sel : Half} {s t : State} {e : Stop} (named : nullSel sel = false)
    (h : (fetchDescOr sel .gp (selCode sel)).run s = .error e t) : (retfProt sel).run s = .error e t :=
  (run_bind_ok (run_get s)).trans ((run_require_pass (by rw [named]; rfl)).trans (run_bind_error h))

/-- The checks of the code segment returned to, in their order. -/
theorem run_retfProt_found {sel : Half} {s t : State} {d : Desc} {a : Word} (named : nullSel sel = false)
    (h : (fetchDescriptor sel).run s = .ok (some (d, a)) t) : (retfProt sel).run s =
      (do require d.isCode .gp (selCode sel)
          require (s.cpl.toNat ≤ (rpl sel).toNat) .gp (selCode sel)
          if s.cpl.toNat < (rpl sel).toNat then refuse .farReturnOuter
          else do
            require (d.codeFits s.cpl) .gp (selCode sel)
            require d.p .np (selCode sel)
            loadCS sel d s.cpl : Op Unit).run t :=
  (run_bind_ok (run_get s)).trans ((run_require_pass (by rw [named]; rfl)).trans
    (run_bind_ok (run_fetchDescOr_found h)))

/-- The checks of the same level, once the selector names a code segment of it. -/
theorem run_retfProt_sameLevel {sel : Half} {s t : State} {d : Desc} {a : Word} (named : nullSel sel = false)
    (h : (fetchDescriptor sel).run s = .ok (some (d, a)) t) (code : d.isCode = true) (level : rpl sel = s.cpl) :
    (retfProt sel).run s =
      (do require (d.codeFits s.cpl) .gp (selCode sel)
          require d.p .np (selCode sel)
          loadCS sel d s.cpl : Op Unit).run t := by
  rw [run_retfProt_found named h, run_require_pass code, run_require_pass (by simp [level]), if_neg (by simp [level])]

theorem codeFits_iff (d : Desc) (level : BitVec 2) :
    d.codeFits level = true ↔ if d.conforming then d.dpl.toNat ≤ level.toNat else d.dpl = level := by
  unfold Desc.codeFits
  split <;> exact decide_eq_true_iff

/-- A check of the protected-mode part that fails is a fault of both forms. -/
theorem farReturn_raises {z : Size} {iw : Half} {s u v : State} {ip cs : Word} {k : FaultKind} {c : Option Word}
    (hp : (popAll z 2).run s = .ok [ip, cs] u) (prot : u.protMode = true)
    (h : (retfProt (cs.setWidth 16)).run u = .error (.fault { kind := k, code := c, addr := none } false) v) :
    RaisesFault (.retf z) s v k c ∧ RaisesFault (.retfImm z iw) s v k c :=
  ⟨run_of_fault (run_farReturn_prot_error hp prot h), run_of_fault (run_farReturn_prot_error hp prot h)⟩

/-- Settles O31: both forms of RETF are two pops, a load of CS and a second move of the stack pointer, and in protected
mode the load stops at the check that fails first. -/
theorem farReturnsComplete : Obligations.FarReturnsComplete := by
  refine ⟨fun z iw s => ⟨faultsWhere_of rfl fun _ _ h => run_farReturn_popError h,
    faultsWhere_of rfl fun _ _ h => run_farReturn_popError h⟩, ?_⟩
  intro z iw s u ip cs inv hp sel code released goes faults
  obtain ⟨-, e, -, values⟩ := popAll_ok hp
  have mode : u.protMode = s.protMode := e.only.protMode
  have level : u.cpl = s.cpl := e.only.cpl
  have flatCs : u.flatCs sel = s.flatCs sel := e.only.flatCs sel
  refine ⟨⟨e.accessed (inv.withRegs _), values inv⟩, fun flat => ?_, fun prot null => ?_, fun prot named => ?_,
    fun v prot named h => ?_, fun d a v prot named h => ?_⟩
  · have loaded : (if u.protMode then retfProt sel else loadCsFlat sel).run u =
        .ok () (u.setSeg .cs (s.flatCs sel)) := by
      rw [mode, flat, ← flatCs]
      exact run_loadCsFlat sel u
    exact farReturn_completes hp (.refl u) loaded
  · exact farReturn_raises hp (mode.trans prot) (run_retfProt_null null)
  · have stops {x : Stop} {t : State} (h : (fetchDescriptor sel).run u = .error x t) :=
      run_retfProt_error named (run_fetchDescOr_error h)
    exact ⟨faultsWhere_of rfl fun _ _ h => run_farReturn_prot_error hp (mode.trans prot) (stops h),
      faultsWhere_of rfl fun _ _ h => run_farReturn_prot_error hp (mode.trans prot) (stops h)⟩
  · exact farReturn_raises hp (mode.trans prot) (run_retfProt_error named (run_fetchDescOr_none h))
  · have found := run_retfProt_found named h
    have same := run_retfProt_sameLevel named h
    rw [level] at found same
    rw [← codeFits_iff]
    refine ⟨fun data => ?_, fun isCode inner => ?_, fun isCode outer => ?_, fun isCode eq unfit => ?_,
      fun isCode eq fit absent => ?_, fun isCode eq fit present => ?_⟩
    · exact farReturn_raises hp (mode.trans prot) (found.trans (run_require_fail data))
    · exact farReturn_raises hp (mode.trans prot)
        (found.trans ((run_require_pass isCode).trans (run_require_fail (by simpa using inner))))
    · rw [run_require_pass isCode, run_require_pass (decide_eq_true (Nat.le_of_lt outer)), if_pos outer] at found
      have refused {n : Half} := run_farReturn_prot_error (n := n) hp (mode.trans prot) found
      exact ⟨run_of_refuse refused, run_of_refuse refused⟩
    · exact farReturn_raises hp (mode.trans prot)
        ((same isCode eq).trans (run_require_fail (Bool.eq_false_iff.2 unfit)))
    · exact farReturn_raises hp (mode.trans prot)
        ((same isCode eq).trans ((run_require_pass fit).trans (run_require_fail absent)))
    · have fetched := fetchDescriptor_ok h
      have loaded : (if u.protMode then retfProt sel else loadCsFlat sel).run u =
          .ok () (v.setSeg .cs (codeReg sel d s.cpl)) := by
        rw [if_pos (mode.trans prot), same isCode eq, run_require_pass fit, run_require_pass present]
        exact run_loadCS_same (fetched.only.cpl.trans level)
      exact ⟨farReturn_completes hp fetched loaded, fetched.accessed (e.inv (inv.withRegs _))⟩

end Sys2Proof.Machine

namespace Sys2Proof.Machine

/-! ### Software interrupts (R393 to R395) -/

theorem run_softInt (n : Nat) (s : State) :
    (softInt n).run s = (do dispatch n .software none s.nextEip; endBlock : Op Unit).run s := run_bind_ok (run_get s)

theorem exec_int {ib : Byte} {s : State} (h : s.v86IoplLow = false) :
    exec (.int ib) s = settle s ((softInt ib.toNat).run s) :=
  congrArg (settle s) ((run_bind_ok (run_get s)).trans (run_require_pass (by rw [h]; rfl)))

theorem exec_into (s : State) :
    exec .into s = settle s ((if s.flag .of then softInt 4 else do advance; endBlock : Op Unit).run s) :=
  congrArg (settle s) (run_bind_ok (run_get s))

/-- Settles O32: each comes down to the dispatch of its vector and the end of the block. -/
theorem softwareInterrupts : Obligations.SoftwareInterrupts := by
  refine fun s => ⟨settles_endBlock (congrArg (settle s) (run_softInt 3 s)), fun ib allowed => ?_, fun of => ?_,
    fun of => ?_⟩
  · exact settles_endBlock ((exec_int (v86IoplLow_eq_false allowed)).trans (congrArg (settle s) (run_softInt _ s)))
  · refine settles_endBlock ((exec_into s).trans (congrArg (settle s) ?_))
    rw [if_pos of]
    exact run_softInt 4 s
  · rw [exec_into, of]
    rfl

/-! ### Far transfers in protected mode (R384 to R386) -/

/-- The far pointer was read and nothing was stored, and what is left is the transfer. -/
theorem farTarget_effect {k : FarKind} {i : Instr} {z : Size} {sel : Half} {off : Word} {s r : State}
    (h : Claim.FarTarget k i z sel off s r) : Effect s r [] := by
  obtain ⟨-, rfl⟩ | ⟨m, v, w, -, offset, selector, -⟩ := h
  · exact .refl _
  · exact (segRead_ok offset).1.trans (segRead_ok selector).1

theorem exec_farTarget {k : FarKind} {i : Instr} {z : Size} {sel : Half} {off : Word} {s r : State}
    (h : Claim.FarTarget k i z sel off s r) : exec i s = settle s ((farTransfer z k sel off).run r) := by
  obtain ⟨rfl, rfl⟩ | ⟨m, v, w, rfl, offset, selector, rfl⟩ := h
  · cases k <;> rfl
  · have pointer : (readFarPtr z m).run s = .ok (w.setWidth 16, off) r :=
      (run_bind_ok (run_get s)).trans ((run_bind_ok offset).trans (run_bind_ok selector))
    cases k <;> exact congrArg (settle s) (run_bind_ok pointer)

/-- In protected mode the transfer is the checks and what they lead to, and then the end of the block. -/
theorem exec_farTarget_prot {k : FarKind} {i : Instr} {z : Size} {sel : Half} {off : Word} {s r : State}
    (h : Claim.FarTarget k i z sel off s r) (prot : s.protMode = true) :
    exec i s = settle s ((do farProt z k sel off; endBlock : Op Unit).run r) := by
  refine (exec_farTarget h).trans (congrArg (settle s) ((run_bind_ok (run_get r)).trans ?_))
  rw [(farTarget_effect h).only.protMode, prot]
  rfl

theorem run_farProt_null {z : Size} {k : FarKind} {sel : Half} {off : Word} {s : State} (null : nullSel sel = true) :
    (farProt z k sel off).run s = .error (.fault { kind := .gp, code := some 0, addr := none } false) s :=
  run_require_fail (by rw [null]; rfl)

theorem run_farProt_error {z : Size} {k : FarKind} {sel : Half} {off : Word} {s t : State} {e : Stop}
    (named : nullSel sel = false) (h : (fetchDescOr sel .gp (selCode sel)).run s = .error e t) :
    (farProt z k sel off).run s = .error e t :=
  (run_require_pass (by rw [named]; rfl)).trans (run_bind_error h)

/-- The descriptor found says what the transfer goes through. -/
theorem run_farProt_found {z : Size} {k : FarKind} {sel : Half} {off : Word} {s t : State} {d : Desc} {a : Word}
    (named : nullSel sel = false) (h : (fetchDescriptor sel).run s = .ok (some (d, a)) t) :
    (farProt z k sel off).run s =
      (if d.isCode then farCode z k sel off d
       else if d.cls = .callGate16 || d.cls = .callGate32 then refuse .callGateTransfer
       else if d.availTss || d.busyTss then farTss k sel d a
       else if d.cls = .taskGate then farTaskGate k sel d
       else raise .gp (some (selCode sel)) : Op Unit).run t :=
  (run_require_pass (by rw [named]; rfl)).trans (run_bind_ok (run_fetchDescOr_found h))

/-- The level test of a code segment (R384). -/
def takesFar (d : Desc) (sel : Half) (cpl : BitVec 2) : Bool :=
  if d.conforming then d.dpl.toNat ≤ cpl.toNat else (rpl sel).toNat ≤ cpl.toNat && d.dpl = cpl

theorem takesFar_iff (d : Desc) (sel : Half) (cpl : BitVec 2) : takesFar d sel cpl = true ↔
    (d.conforming = true ∧ d.dpl.toNat ≤ cpl.toNat ∨
      d.conforming = false ∧ (rpl sel).toNat ≤ cpl.toNat ∧ d.dpl = cpl) := by
  unfold takesFar
  cases d.conforming <;> simp

theorem run_farCode_level {z : Size} {k : FarKind} {sel : Half} {off : Word} {d : Desc} {s : State}
    (level : takesFar d sel s.cpl = false) : (farCode z k sel off d).run s =
      .error (.fault { kind := .gp, code := some (selCode sel), addr := none } false) s :=
  (run_bind_ok (run_get s)).trans (run_require_fail level)

theorem run_farCode_absent {z : Size} {k : FarKind} {sel : Half} {off : Word} {d : Desc} {s : State}
    (level : takesFar d sel s.cpl = true) (absent : d.p = false) : (farCode z k sel off d).run s =
      .error (.fault { kind := .np, code := some (selCode sel), addr := none } false) s :=
  (run_bind_ok (run_get s)).trans ((run_require_pass level).trans (run_require_fail absent))

theorem run_farCode_beyond {z : Size} {k : FarKind} {sel : Half} {off : Word} {d : Desc} {s : State}
    (level : takesFar d sel s.cpl = true) (present : d.p = true) (beyond : d.limit.toNat < off.toNat) :
    (farCode z k sel off d).run s = .error (.fault { kind := .gp, code := some 0, addr := none } false) s :=
  (run_bind_ok (run_get s)).trans ((run_require_pass level).trans ((run_require_pass present).trans
    (run_require_fail (decide_eq_false (Nat.not_le_of_lt beyond)))))

/-- A fault of the checks is the instruction's, raised where the checks have got to. -/
theorem farProt_faults {k : FarKind} {i : Instr} {z : Size} {sel : Half} {off : Word} {s r u : State} {f : GuestFault}
    (ht : Claim.FarTarget k i z sel off s r) (prot : s.protMode = true)
    (h : (farProt z k sel off).run r = .error (.fault f false) u) : FaultsWith i s u f :=
  (exec_farTarget_prot ht prot).trans (congrArg (settle s) (run_bind_error h))

/-- Classes of descriptor that no far transfer goes through. -/
theorem run_farProt_noTarget {z : Size} {k : FarKind} {sel : Half} {off : Word} {s t : State} {d : Desc} {a : Word}
    (named : nullSel sel = false) (h : (fetchDescriptor sel).run s = .ok (some (d, a)) t)
    (cls : d.cls ∈ [DescClass.data, .ldt, .intGate16, .trapGate16, .intGate32, .trapGate32, .invalid]) :
    (farProt z k sel off).run s =
      .error (.fault { kind := .gp, code := some (selCode sel), addr := none } false) t := by
  have others : ∀ c ∈ [DescClass.data, .ldt, .intGate16, .trapGate16, .intGate32, .trapGate32, .invalid],
      c ∉ [DescClass.code, .callGate16, .callGate32, .tss16Avail, .tss32Avail, .tss16Busy, .tss32Busy, .taskGate] := by
    decide
  have other := others _ cls
  simp only [List.mem_cons, List.not_mem_nil, or_false, not_or] at other
  rw [run_farProt_found named h]
  simp [Desc.isCode, Desc.availTss, Desc.busyTss, other]

theorem run_farProt_callGate {z : Size} {k : FarKind} {sel : Half} {off : Word} {s t : State} {d : Desc} {a : Word}
    (named : nullSel sel = false) (h : (fetchDescriptor sel).run s = .ok (some (d, a)) t)
    (cls : d.cls ∈ [DescClass.callGate16, .callGate32]) :
    (farProt z k sel off).run s = .error (.refuse .callGateTransfer) t := by
  simp only [List.mem_cons, List.not_mem_nil, or_false] at cls
  rw [run_farProt_found named h]
  rcases cls with cls | cls <;> simp [Desc.isCode, cls]

theorem run_farProt_tss {z : Size} {k : FarKind} {sel : Half} {off : Word} {s t : State} {d : Desc} {a : Word}
    (named : nullSel sel = false) (h : (fetchDescriptor sel).run s = .ok (some (d, a)) t)
    (cls : d.cls ∈ [DescClass.tss16Avail, .tss16Busy, .tss32Avail, .tss32Busy]) :
    (farProt z k sel off).run s = (farTss k sel d a).run t := by
  simp only [List.mem_cons, List.not_mem_nil, or_false] at cls
  rw [run_farProt_found named h]
  rcases cls with cls | cls | cls | cls <;> simp [Desc.isCode, Desc.availTss, Desc.busyTss, cls]

theorem run_farProt_taskGate {z : Size} {k : FarKind} {sel : Half} {off : Word} {s t : State} {d : Desc} {a : Word}
    (named : nullSel sel = false) (h : (fetchDescriptor sel).run s = .ok (some (d, a)) t) (cls : d.cls = .taskGate) :
    (farProt z k sel off).run s = (farTaskGate k sel d).run t := by
  rw [run_farProt_found named h]
  simp [Desc.isCode, Desc.availTss, Desc.busyTss, cls]

theorem farSegmentChecks : Claim.FarSegmentChecks := by
  intro k i z sel off s r prot ht code
  refine ⟨fun null => farProt_faults ht prot (run_farProt_null null),
    fun named f t h => farProt_faults ht prot (run_farProt_error named (run_fetchDescOr_error h)),
    fun u named h => farProt_faults ht prot (run_farProt_error named (run_fetchDescOr_none h)),
    fun d a u named h => ?_⟩
  have found := run_farProt_found (z := z) (k := k) (off := off) named h
  have level : u.cpl = s.cpl := ((farTarget_effect ht).trans (fetchDescriptor_ok h)).only.cpl
  refine ⟨fun cls => farProt_faults ht prot (run_farProt_noTarget named h cls), fun cls => ?_, fun isCode => ?_⟩
  · exact (exec_farTarget_prot ht prot).trans (congrArg (settle s) (run_bind_error (run_farProt_callGate named h cls)))
  · rw [if_pos isCode] at found
    rw [← level, ← takesFar_iff]
    exact ⟨fun bad => farProt_faults ht prot (found.trans (run_farCode_level (Bool.eq_false_iff.2 bad))),
      fun ok absent => farProt_faults ht prot (found.trans (run_farCode_absent ok absent)),
      fun ok present beyond => farProt_faults ht prot (found.trans (run_farCode_beyond ok present beyond))⟩

/-! ### Far transfers to a task (R386) -/

/-- The level test of a TSS or a task gate. -/
def levelAllows (d : Desc) (sel : Half) (cpl : BitVec 2) : Bool :=
  cpl.toNat ≤ d.dpl.toNat && (rpl sel).toNat ≤ d.dpl.toNat

theorem levelAllows_iff (d : Desc) (sel : Half) (cpl : BitVec 2) :
    levelAllows d sel cpl = true ↔ ¬ (d.dpl.toNat < cpl.toNat ∨ d.dpl.toNat < (rpl sel).toNat) := by
  simp [levelAllows]

/-- The tests of a TSS that raise one fault: its selector names the GDT, the level, it is not busy. -/
def tssAllows (d : Desc) (sel : Half) (cpl : BitVec 2) : Bool := !selTI sel && levelAllows d sel cpl && !d.busyTss

theorem tssAllows_iff (d : Desc) (sel : Half) (cpl : BitVec 2) : tssAllows d sel cpl = true ↔
    ¬ (sel.getLsbD 2 = true ∨ (d.dpl.toNat < cpl.toNat ∨ d.dpl.toNat < (rpl sel).toNat) ∨
      d.cls = .tss16Busy ∨ d.cls = .tss32Busy) := by
  simp [tssAllows, levelAllows, selTI, Desc.busyTss, and_assoc]

theorem run_farTss (k : FarKind) (sel : Half) (d : Desc) (a : Word) (s : State) : (farTss k sel d a).run s =
    (do require (tssAllows d sel s.cpl) .gp (selCode sel)
        require d.p .np (selCode sel)
        switchToTask sel d a k.switchOp s.nextEip : Op Unit).run s := by
  refine (run_bind_ok (run_get s)).trans ?_
  rw [run_require_and, run_require_and]
  rfl

/-- The selector in a task gate is one that can name a TSS. -/
theorem gateTest_iff (sel : Half) :
    (!nullSel sel && !selTI sel) = true ↔ nullSel sel = false ∧ sel.getLsbD 2 = false := by
  simp [selTI]

/-- The selector in a task gate leads to a descriptor, once the gate's own checks have passed. -/
theorem run_farTaskGate_pass {k : FarKind} {sel : Half} {d : Desc} {s : State}
    (level : levelAllows d sel s.cpl = true) (present : d.p = true)
    (named : nullSel d.gateSel = false ∧ d.gateSel.getLsbD 2 = false) : (farTaskGate k sel d).run s =
      (fetchDescOr d.gateSel .gp (selCode d.gateSel) >>= fun x => do
        require x.1.availTss .gp (selCode d.gateSel)
        require x.1.p .np (selCode d.gateSel)
        switchToTask d.gateSel x.1 x.2 k.switchOp s.nextEip : Op Unit).run s :=
  (run_bind_ok (run_get s)).trans ((run_require_pass level).trans ((run_require_pass present).trans
    (run_require_pass ((gateTest_iff _).2 named))))

theorem run_farTaskGate_level {k : FarKind} {sel : Half} {d : Desc} {s : State}
    (level : levelAllows d sel s.cpl = false) : (farTaskGate k sel d).run s =
      .error (.fault { kind := .gp, code := some (selCode sel), addr := none } false) s :=
  (run_bind_ok (run_get s)).trans (run_require_fail level)

theorem run_farTaskGate_absent {k : FarKind} {sel : Half} {d : Desc} {s : State}
    (level : levelAllows d sel s.cpl = true) (absent : d.p = false) : (farTaskGate k sel d).run s =
      .error (.fault { kind := .np, code := some (selCode sel), addr := none } false) s :=
  (run_bind_ok (run_get s)).trans ((run_require_pass level).trans (run_require_fail absent))

theorem run_farTaskGate_unnamed {k : FarKind} {sel : Half} {d : Desc} {s : State}
    (level : levelAllows d sel s.cpl = true) (present : d.p = true)
    (unnamed : ¬ (nullSel d.gateSel = false ∧ d.gateSel.getLsbD 2 = false)) : (farTaskGate k sel d).run s =
      .error (.fault { kind := .gp, code := some (selCode d.gateSel), addr := none } false) s :=
  (run_bind_ok (run_get s)).trans ((run_require_pass level).trans ((run_require_pass present).trans
    (run_require_fail (Bool.eq_false_iff.2 (mt (gateTest_iff _).1 unnamed)))))

theorem availTss_iff (d : Desc) : d.availTss = true ↔ d.cls = .tss16Avail ∨ d.cls = .tss32Avail := by
  simp [Desc.availTss]

/-- A transfer that comes down to a task switch settles as the switch does. -/
theorem farProt_switches {k : FarKind} {i : Instr} {z : Size} {sel tsel : Half} {off a : Word} {s r u : State} {d : Desc}
    {op : SwitchOp} (ht : Claim.FarTarget k i z sel off s r) (prot : s.protMode = true)
    (h : (farProt z k sel off).run r = (switchToTask tsel d a op s.nextEip).run u) :
    Claim.SwitchesTask i s u tsel d a op :=
  settles_endBlock ((exec_farTarget_prot ht prot).trans (congrArg (settle s) (run_bind_congr h)))

theorem farTaskTransfers : Claim.FarTaskTransfers := by
  intro k i z sel off s r u d a prot ht named h code op low
  have e := (farTarget_effect ht).trans (fetchDescriptor_ok h)
  have level : u.cpl = s.cpl := e.only.cpl
  have next : u.nextEip = s.nextEip := e.only.nextEip
  have kind : op = k.switchOp := by cases k <;> rfl
  refine ⟨fun cls => ?_, fun cls => ?_⟩
  · have found := (run_farProt_tss (z := z) (k := k) (off := off) named h cls).trans (run_farTss k sel d a u)
    rw [level, next, ← kind] at found
    have allowed := tssAllows_iff d sel s.cpl
    refine ⟨fun bad => ?_, fun ok absent => ?_, fun ok present => ?_⟩
    · have test := Bool.eq_false_iff.2 fun passed => allowed.1 passed bad
      exact farProt_faults ht prot (found.trans (run_require_fail test))
    · exact farProt_faults ht prot (found.trans ((run_require_pass (allowed.2 ok)).trans (run_require_fail absent)))
    · exact farProt_switches ht prot (found.trans ((run_require_pass (allowed.2 ok)).trans (run_require_pass present)))
  · have found := run_farProt_taskGate (z := z) (k := k) (off := off) named h cls
    have allowed : levelAllows d sel u.cpl = true ↔ ¬ low := by
      rw [level]
      exact levelAllows_iff d sel s.cpl
    refine ⟨fun bad => ?_, fun ok absent => ?_, fun ok present unnamed => ?_, fun v ok present gate hv => ?_,
      fun td ta v ok present gate hv => ?_⟩
    · have test := Bool.eq_false_iff.2 fun passed => allowed.1 passed bad
      exact farProt_faults ht prot (found.trans (run_farTaskGate_level test))
    · exact farProt_faults ht prot (found.trans (run_farTaskGate_absent (allowed.2 ok) absent))
    · exact farProt_faults ht prot (found.trans (run_farTaskGate_unnamed (allowed.2 ok) present unnamed))
    · exact farProt_faults ht prot (found.trans ((run_farTaskGate_pass (allowed.2 ok) present gate).trans
        (run_bind_error (run_fetchDescOr_none hv))))
    · have reached := found.trans ((run_farTaskGate_pass (allowed.2 ok) present gate).trans
        (run_bind_ok (run_fetchDescOr_found hv)))
      rw [next, ← kind] at reached
      rw [← availTss_iff]
      refine ⟨fun taken => ?_, fun avail absent => ?_, fun avail present => ?_⟩
      · exact farProt_faults ht prot (reached.trans (run_require_fail (Bool.eq_false_iff.2 taken)))
      · exact farProt_faults ht prot (reached.trans ((run_require_pass avail).trans (run_require_fail absent)))
      · exact farProt_switches ht prot (reached.trans ((run_require_pass avail).trans (run_require_pass present)))

/-- Settles O30: the descriptor found says which checks are made, and the first that fails is the instruction's fault. -/
theorem farTransferChecks : Obligations.FarTransferChecks := ⟨farSegmentChecks, farTaskTransfers⟩

end Sys2Proof.Machine

namespace Sys2Proof.Machine

/-! ### The IOPL test (R421) -/

theorem ioplOk_iff (s : State) : s.ioplOk = true ↔
    s.realMode = true ∨ (s.v86Mode = true ∧ s.iopl = 3) ∨ (s.protMode = true ∧ s.cpl.toNat ≤ s.iopl.toNat) := by
  simp [State.ioplOk, or_assoc]

theorem v86Mode_not_real {s : State} (h : s.v86Mode = true) : s.realMode = false := by
  unfold State.v86Mode at h
  unfold State.realMode
  rw [(Bool.and_eq_true_iff.1 h).1]
  rfl

theorem protMode_not_v86 {s : State} (h : s.protMode = true) : s.v86Mode = false := by
  have clear : s.vm = false := by simpa using (Bool.and_eq_true_iff.1 h).2
  unfold State.v86Mode
  rw [clear, Bool.and_false]

theorem v86Mode_not_prot {s : State} (h : s.v86Mode = true) : s.protMode = false :=
  Bool.eq_false_iff.2 fun prot => absurd h (Bool.eq_false_iff.1 (protMode_not_v86 prot))

/-- Only the clause of the mode there is can allow CLI and STI. -/
theorem ioplOk_eq_false {s : State}
    (h : s.protMode = true ∧ s.iopl.toNat < s.cpl.toNat ∨ s.v86Mode = true ∧ s.iopl ≠ 3) : s.ioplOk = false := by
  rw [Bool.eq_false_iff, ne_eq, ioplOk_iff]
  rcases h with ⟨prot, low⟩ | ⟨v86, low⟩
  · rw [protMode_not_real prot, protMode_not_v86 prot]
    rintro (real | ⟨v86, -⟩ | ⟨-, high⟩)
    · cases real
    · cases v86
    · omega
  · rw [v86Mode_not_real v86, v86Mode_not_prot v86]
    rintro (real | ⟨-, full⟩ | ⟨prot, -⟩)
    · cases real
    · exact low full
    · cases prot

theorem v86IoplLow_eq_true {s : State} (v86 : s.v86Mode = true) (low : s.iopl ≠ 3) : s.v86IoplLow = true := by
  have below : ∀ l : BitVec 2, l ≠ 3 → l.toNat < 3 := by decide
  unfold State.v86IoplLow
  rw [v86, decide_eq_true (below _ low)]
  rfl

/-! ### Flag control (R410 to R418) -/

/-- Writing one flag: that flag alone changes, and the instruction pointer goes on. -/
theorem flagStore_sets {i : Instr} {q : Flag} {b : Bool} {s : State}
    (h : exec i s = settle s ((flagStore q b).run s)) : ∃ f : Word,
      exec i s = .next { s with flags := f, eip := s.nextEip } ∧ getFlag f q = b ∧ iopl f = iopl s.flags ∧
      ∀ p : Flag, p ≠ q → getFlag f p = getFlag s.flags p :=
  ⟨putFlag s.flags q b, h, getFlag_putFlag _ _ _, iopl_putFlag _ _ _, fun p => getFlag_putFlag_other _ q p b⟩

theorem exec_cmc (s : State) : exec .cmc s = settle s ((flagStore .cf (!s.flag .cf)).run s) := rfl

theorem exec_cli {s : State} (h : s.ioplOk = true) : exec .cli s = settle s ((flagStore .if_ false).run s) :=
  congrArg (settle s) ((run_bind_ok (run_get s)).trans (run_require_pass h))

theorem exec_sti {s : State} (h : s.ioplOk = true) : exec .sti s = settle s ((flagStore .if_ true).run s) :=
  congrArg (settle s) ((run_bind_ok (run_get s)).trans (run_require_pass h))

theorem flagInstructionsComplete : Claim.FlagInstructionsComplete := by
  intro s
  refine ⟨fun d => ⟨rfl, rfl, rfl, rfl, rfl, rfl, rfl⟩, flagStore_sets rfl, flagStore_sets rfl,
    flagStore_sets (exec_cmc s), flagStore_sets rfl, flagStore_sets rfl,
    fun allowed => ?_⟩
  have ok := (ioplOk_iff s).2 allowed
  exact ⟨flagStore_sets (exec_cli ok), flagStore_sets (exec_sti ok)⟩

/-- `getValue`, bit by bit (R26). -/
theorem flagsValue_bit (f : Word) (i : Nat) (hi : i < 32) : (flagsValue f).getLsbD i =
    (f.getLsbD i && Config.capMask.getLsbD i || decide (i = 1)) := by
  have two : ∀ i, i < 32 → (2 : Word).getLsbD i = decide (i = 1) := by decide
  unfold flagsValue
  rw [BitVec.getLsbD_or, BitVec.getLsbD_and, two i hi]

theorem flagsValue_flag (f : Word) (q : Flag) : (flagsValue f).getLsbD q.bit = getFlag f q := by
  have notOne : q.bit ≠ 1 := by cases q <;> decide
  rw [flagsValue_bit _ _ q.bit_lt, q.capMask_bit]
  simp [notOne, getFlag]

/-- Outside the capability mask only bit 1 reads as 1. -/
theorem flagsValue_reserved (f : Word) {i : Nat} (hi : i < 32) (free : Config.capMask.getLsbD i = false) :
    (flagsValue f).getLsbD i = decide (i = 1) := by
  rw [flagsValue_bit _ _ hi, free, Bool.and_false, Bool.false_or]

/-- The low byte of a word, from its bits. -/
theorem toNat_trunc_w8_bits (v : Word) : (trunc .w8 v).toNat =
    128 * (v.getLsbD 7).toNat + 64 * (v.getLsbD 6).toNat + 32 * (v.getLsbD 5).toNat + 16 * (v.getLsbD 4).toNat +
      8 * (v.getLsbD 3).toNat + 4 * (v.getLsbD 2).toNat + 2 * (v.getLsbD 1).toNat + (v.getLsbD 0).toNat := by
  simp only [toNat_trunc, Width.bits, BitVec.getLsbD, Nat.toNat_testBit]
  omega

/-- The byte LAHF stores (R417). -/
theorem toNat_lowFlags (f : Word) : (trunc .w8 (flagsValue f)).toNat =
    128 * (getFlag f .sf).toNat + 64 * (getFlag f .zf).toNat + 16 * (getFlag f .af).toNat +
      4 * (getFlag f .pf).toNat + 2 + (getFlag f .cf).toNat := by
  simp only [← flagsValue_flag, Flag.bit]
  rw [toNat_trunc_w8_bits, flagsValue_reserved f (i := 1) (by decide) (by decide),
    flagsValue_reserved f (i := 3) (by decide) (by decide), flagsValue_reserved f (i := 5) (by decide) (by decide)]
  rfl

/-- The flags SAHF loads (R418). -/
theorem getFlag_sahf (f v : Word) (q : Flag) : getFlag (setFlags f v sahfMask) q =
    if q ∈ [Flag.sf, .zf, .af, .pf, .cf] then v.getLsbD q.bit else getFlag f q := by
  have mask : sahfMask.getLsbD q.bit = decide (q ∈ [Flag.sf, .zf, .af, .pf, .cf]) := by cases q <;> decide
  unfold getFlag
  rw [setFlags_bit _ _ _ _ q.bit_lt, mask, q.capMask_bit, Bool.and_true]
  simp only [decide_eq_true_eq]

theorem iopl_sahf (f v : Word) : iopl (setFlags f v sahfMask) = iopl f := by
  have apart : ∀ i, i < 2 → sahfMask.getLsbD (12 + i) = false := by decide
  apply BitVec.eq_of_getLsbD_eq
  intro i hi
  simp only [iopl, BitVec.getLsbD_extractLsb', hi, decide_true, Bool.true_and]
  rw [setFlags_bit _ _ _ _ (by omega), apart i hi]
  rfl

theorem lahfAndSahf : Claim.LahfAndSahf := fun s _ =>
  ⟨fun _ => ⟨rfl, rfl⟩, ⟨trunc .w8 (flagsValue s.flags), rfl, toNat_lowFlags s.flags⟩,
    setFlags s.flags (s.reg .w8 .esp) sahfMask, rfl, getFlag_sahf _ _, iopl_sahf _ _⟩

/-- Settles O39: seven instructions write one flag; LAHF and SAHF move the low byte of the flag word, read bit by bit. -/
theorem flagControlComplete : Obligations.FlagControlComplete := ⟨flagInstructionsComplete, lahfAndSahf⟩

/-! ### Privileged and IOPL-sensitive instructions (R531, R532) -/

section
variable {β : Type} {f : Unit → Op β} {s : State}

theorem run_requirePrivilege_fail (h : s.privileged = false) : (requirePrivilege >>= f).run s =
    .error (.fault { kind := .gp, code := some 0, addr := none } false) s :=
  run_bind_error (by
    unfold requirePrivilege
    rw [run_bind_ok (run_get s), h, run_require_false])

theorem run_requireCpl0_fail (h : s.cpl ≠ 0) : (requireCpl0 >>= f).run s =
    .error (.fault { kind := .gp, code := some 0, addr := none } false) s :=
  run_bind_error (by
    unfold requireCpl0
    rw [run_bind_ok (run_get s), decide_eq_false h, run_require_false])

theorem run_requireProtected_pass (h : s.protMode = true) : (requireProtected >>= f).run s = (f ()).run s :=
  run_bind_ok (by
    unfold requireProtected
    rw [run_bind_ok (run_get s), h]
    rfl)

end

/-- An instruction that first tests the state and fails the test. -/
theorem raisesGp_of_test {i : Instr} {s : State} {ok : State → Bool} {f : State → Unit → Op Unit}
    (he : exec i s = run (do let s ← get; require (ok s) .gp 0 >>= f s) s) (h : ok s = false) :
    RaisesFault i s s .gp (some 0) :=
  he.trans (run_of_fault ((run_bind_ok (run_get s)).trans (run_require_fail h)))

/-- The privileged instructions that exist in every mode, and in protected mode LLDT and LTR, stop at their test. -/
theorem privilegedFault {s : State} (notReal : s.realMode = false) (level : s.cpl ≠ 0) (z : Size) (m : MemRef) (rm : RM)
    (r : Reg) (n : BitVec 3) :
    let gp (i : Instr) : Prop := RaisesFault i s s .gp (some 0)
    gp .hlt ∧ gp (.lgdt z (.mem m)) ∧ gp (.lidt z (.mem m)) ∧ gp (.invlpg (.mem m)) ∧
      (n = 0 ∨ n = 2 ∨ n = 3 → gp (.movToCr n r) ∧ gp (.movFromCr r n)) ∧
      (s.protMode = true → gp (.lldt rm) ∧ gp (.ltr rm)) := by
  have denied : s.privileged = false := by
    unfold State.privileged
    rw [notReal, decide_eq_false level]
    rfl
  refine ⟨run_of_fault (run_requirePrivilege_fail denied), run_of_fault (run_requirePrivilege_fail denied),
    run_of_fault (run_requirePrivilege_fail denied), run_of_fault (run_requirePrivilege_fail denied),
    fun numbered => ?_, fun prot => ?_⟩
  · rcases numbered with rfl | rfl | rfl <;>
      exact ⟨run_of_fault (run_requirePrivilege_fail denied), run_of_fault (run_requirePrivilege_fail denied)⟩
  · exact ⟨run_of_fault ((run_requireProtected_pass prot).trans (run_requireCpl0_fail level)),
      run_of_fault ((run_requireProtected_pass prot).trans (run_requireCpl0_fail level))⟩

theorem run_iretFlat_low {z : Size} {s : State} (low : s.v86IoplLow = true) : (iretFlat z).run s =
    .error (.fault { kind := .gp, code := some 0, addr := none } false) s :=
  (run_bind_ok (run_get s)).trans (run_require_fail (by rw [low]; rfl))

theorem run_interruptReturn_low {z : Size} {s : State} (low : s.v86IoplLow = true) (flat : s.protMode = false) :
    (interruptReturn z).run s = .error (.fault { kind := .gp, code := some 0, addr := none } false) s := by
  unfold interruptReturn
  rw [run_bind_ok (run_get s), flat]
  exact run_bind_error (run_iretFlat_low low)

/-- Settles O38: each of these instructions makes its test before anything else, and the test fails. -/
theorem privilegeFaults : Obligations.PrivilegeFaults := by
  intro s z m rm r n ib
  refine ⟨fun notReal level => privilegedFault notReal level z m rm r n, fun forbidden => ?_, fun v86 below => ?_⟩
  · have denied := ioplOk_eq_false forbidden
    exact ⟨raisesGp_of_test rfl denied, raisesGp_of_test rfl denied⟩
  · have low := v86IoplLow_eq_true v86 below
    have denied : (!s.v86IoplLow) = false := by rw [low]; rfl
    exact ⟨raisesGp_of_test rfl denied, raisesGp_of_test rfl denied, raisesGp_of_test rfl denied,
      run_of_fault (run_interruptReturn_low low (v86Mode_not_prot v86))⟩

end Sys2Proof.Machine

namespace Sys2Proof.Machine

/-! ### An operation and then the next instruction -/

/-- How an instruction settles that comes down to an operation in the state `u` and the move to the next instruction. -/
theorem settles_advance {i : Instr} {s u : State} {op : Op Unit}
    (he : exec i s = settle s ((do op; advance : Op Unit).run u)) :
    (∀ t, op.run u = .ok () t → exec i s = .next t.advance) ∧
    (∀ f w, op.run u = .error (.fault f false) w → FaultsWith i s w f) :=
  ⟨fun _ h => he.trans (congrArg (settle s) (run_bind_ok h)),
    fun _ _ h => he.trans (congrArg (settle s) (run_bind_error h))⟩

theorem run_requireCpl0_pass {β : Type} {f : Unit → Op β} {s : State} (h : s.cpl = 0) :
    (requireCpl0 >>= f).run s = (f ()).run s :=
  (run_bind_congr (run_bind_ok (run_get s))).trans (run_require_pass (decide_eq_true h))

/-- A selector stored is a write of an operand, at the selector's width (R202). -/
theorem storeSelector_eq (z : Size) (rm : RM) (sel : Half) :
    storeSelector z rm sel = writeRM (selWidth z rm) rm (sel.setWidth 32) := by
  cases rm <;> rfl

/-- An instruction that stores a selector in protected mode (R437, R439). -/
theorem storesSelector_of {i : Instr} {z : Size} {rm : RM} {sel : Half} {s : State} {f : Unit → Op Unit} (inv : s.Inv)
    (prot : s.protMode = true) (he : exec i s = run (requireProtected >>= f) s)
    (hf : (f ()).run s = (do storeSelector z rm sel; advance : Op Unit).run s) :
    WritesOperand i s s (selWidth z rm) rm (sel.setWidth 32) := by
  rw [storeSelector_eq] at hf
  exact writesOperand_of he ((run_requireProtected_pass prot).trans hf) rfl rfl (.refl s) inv

/-! ### LLDT and SLDT (R436, R437) -/

section
variable {rm : RM} {s u : State} {v : Word}

/-- Where LLDT is permitted its operand is read first. -/
theorem exec_lldt_permitted (prot : s.protMode = true) (level : s.cpl = 0) : exec (.lldt rm) s = settle s ((do
      let v ← readRM .w16 rm
      if nullSel (v.setWidth 16) then
        modify fun s => { s with ldtr := { s.ldtr with selector := v.setWidth 16, valid := false } }
      else loadLdtr (v.setWidth 16)
      advance : Op Unit).run s) :=
  congrArg (settle s) ((run_requireProtected_pass prot).trans (run_requireCpl0_pass level))

theorem exec_lldt_null (prot : s.protMode = true) (level : s.cpl = 0) (hv : (readRM .w16 rm).run s = .ok v u)
    (null : nullSel (v.setWidth 16) = true) : exec (.lldt rm) s =
      .next { u with ldtr := { s.ldtr with selector := v.setWidth 16, valid := false }, eip := s.nextEip } := by
  obtain ⟨-, -, -, next, -, -, -, -, ldtr, -⟩ := (readRM_ok hv).1.only.fields
  rw [exec_lldt_permitted prot level, run_bind_ok hv, if_pos null, ← ldtr, ← next]
  rfl

theorem exec_lldt_named (prot : s.protMode = true) (level : s.cpl = 0) (hv : (readRM .w16 rm).run s = .ok v u)
    (named : nullSel (v.setWidth 16) = false) :
    exec (.lldt rm) s = settle s ((do loadLdtr (v.setWidth 16); advance : Op Unit).run u) := by
  rw [exec_lldt_permitted prot level, run_bind_ok hv, if_neg (Bool.eq_false_iff.1 named)]

end

section
variable {sel : Half} {u t : State} {d : Desc} {a : Word} {e : Stop}

theorem run_loadLdtr_local (ti : selTI sel = true) : (loadLdtr sel).run u =
    .error (.fault { kind := .gp, code := some (selCode sel), addr := none } false) u :=
  run_require_fail (by rw [ti]; rfl)

theorem run_loadLdtr_error (ti : selTI sel = false) (h : (fetchDescOr sel .gp (selCode sel)).run u = .error e t) :
    (loadLdtr sel).run u = .error e t :=
  (run_require_pass (by rw [ti]; rfl)).trans (run_bind_error h)

/-- What LLDT does with the descriptor found. -/
theorem run_loadLdtr_found (ti : selTI sel = false) (h : (fetchDescriptor sel).run u = .ok (some (d, a)) t) :
    (loadLdtr sel).run u = (do
      require (d.cls = .ldt) .gp (selCode sel)
      require d.p .np (selCode sel)
      modify fun s => { s with ldtr := { selector := sel, base := d.base, limit := d.limit, valid := true } } :
        Op Unit).run t :=
  (run_require_pass (by rw [ti]; rfl)).trans (run_bind_ok (run_fetchDescOr_found h))

end

theorem ldtrComplete : Claim.LdtrComplete := by
  refine fun z rm s inv prot => ⟨storesSelector_of inv prot rfl rfl, fun level => ?_, fun v u level hv => ?_⟩
  · exact fun f t h => (exec_lldt_permitted prot level).trans (congrArg (settle s) (run_bind_error h))
  · intro sel code
    have e := (readRM_ok hv).1
    have load (named : nullSel sel = false) := settles_advance (exec_lldt_named prot level hv named)
    refine ⟨e.accessed inv, exec_lldt_null prot level hv, fun named ti => ?_, fun named ti f t h => ?_,
      fun t named ti h => ?_, fun d a t named ti h => ?_⟩
    · exact (load named).2 _ _ (run_loadLdtr_local ti)
    · exact (load named).2 _ _ (run_loadLdtr_error ti (run_fetchDescOr_error h))
    · exact (load named).2 _ _ (run_loadLdtr_error ti (run_fetchDescOr_none h))
    · have found := run_loadLdtr_found ti h
      have frame := e.trans (fetchDescriptor_ok h)
      refine ⟨fun other => ?_, fun isLdt absent => ?_, fun isLdt present => ⟨frame.accessed inv, ?_⟩⟩
      · exact (load named).2 _ _ (found.trans (run_require_fail (decide_eq_false other)))
      · exact (load named).2 _ _ (found.trans ((run_require_pass (decide_eq_true isLdt)).trans
          (run_require_fail absent)))
      · rw [← frame.only.nextEip]
        exact (load named).1 _ (found.trans ((run_require_pass (decide_eq_true isLdt)).trans
          (run_require_pass present)))

/-! ### LTR and STR (R438, R439) -/

section
variable {rm : RM} {s u : State} {v : Word}

/-- Where LTR is permitted its operand is read first. -/
theorem exec_ltr_permitted (prot : s.protMode = true) (level : s.cpl = 0) : exec (.ltr rm) s = settle s ((do
      let v ← readRM .w16 rm
      loadTr (v.setWidth 16)
      advance : Op Unit).run s) :=
  congrArg (settle s) ((run_requireProtected_pass prot).trans (run_requireCpl0_pass level))

theorem exec_ltr_read (prot : s.protMode = true) (level : s.cpl = 0) (hv : (readRM .w16 rm).run s = .ok v u) :
    exec (.ltr rm) s = settle s ((do loadTr (v.setWidth 16); advance : Op Unit).run u) :=
  (exec_ltr_permitted prot level).trans (congrArg (settle s) (run_bind_ok hv))

end

section
variable {sel : Half} {u t x : State} {d : Desc} {a b : Word} {e : Stop}

theorem run_loadTr_null (null : nullSel sel = true) : (loadTr sel).run u =
    .error (.fault { kind := .gp, code := some 0, addr := none } false) u :=
  run_require_fail (by rw [null]; rfl)

theorem run_loadTr_named (named : nullSel sel = false) : (loadTr sel).run u = (do
      require (!selTI sel) .gp (selCode sel)
      let (d, a) ← fetchDescOr sel .gp (selCode sel)
      require d.availTss .gp (selCode sel)
      require d.p .np (selCode sel)
      putBusyBit a true
      modify fun s => { s with tr := { selector := sel, base := d.base, limit := d.limit, busy := true,
                                       type32 := d.cls = .tss32Avail } } : Op Unit).run u :=
  run_require_pass (by rw [named]; rfl)

theorem run_loadTr_local (named : nullSel sel = false) (ti : selTI sel = true) : (loadTr sel).run u =
    .error (.fault { kind := .gp, code := some (selCode sel), addr := none } false) u :=
  (run_loadTr_named named).trans (run_require_fail (by rw [ti]; rfl))

theorem run_loadTr_error (named : nullSel sel = false) (ti : selTI sel = false)
    (h : (fetchDescOr sel .gp (selCode sel)).run u = .error e t) : (loadTr sel).run u = .error e t :=
  (run_loadTr_named named).trans ((run_require_pass (by rw [ti]; rfl)).trans (run_bind_error h))

/-- What LTR does with the descriptor found. -/
theorem run_loadTr_found (named : nullSel sel = false) (ti : selTI sel = false)
    (h : (fetchDescriptor sel).run u = .ok (some (d, a)) t) : (loadTr sel).run u = (do
      require d.availTss .gp (selCode sel)
      require d.p .np (selCode sel)
      putBusyBit a true
      modify fun s => { s with tr := { selector := sel, base := d.base, limit := d.limit, busy := true,
                                       type32 := d.cls = .tss32Avail } } : Op Unit).run t :=
  (run_loadTr_named named).trans
    ((run_require_pass (by rw [ti]; rfl)).trans (run_bind_ok (run_fetchDescOr_found h)))

theorem run_putBusyBit_true (hb : (sysRead (a + 5) .w8).run t = .ok b x) :
    (putBusyBit a true).run t = (sysWrite (a + 5) .w8 (b ||| 2)).run x := run_bind_ok hb

end

/-- A system write stores its bytes, after reads that stored nothing. -/
theorem sysWrite_after {s x y : State} {lin v : Word} {w : Width} (e : Effect s x []) (inv : s.Inv)
    (h : (sysWrite lin w v).run x = .ok () y) : Effect s y [(lin, w.bytes)] ∧ Stored s y lin w v := by
  obtain ⟨e2, stored⟩ := linWrite_effect h
  exact ⟨e.trans e2, (stored (e.inv inv)).since e.events e2.events⟩

theorem taskRegisterComplete : Claim.TaskRegisterComplete := by
  refine fun z rm s inv prot => ⟨storesSelector_of inv prot rfl rfl, fun level => ?_, fun v u level hv => ?_⟩
  · exact fun f t h => (exec_ltr_permitted prot level).trans (congrArg (settle s) (run_bind_error h))
  · intro sel code
    obtain ⟨loads, faults⟩ := settles_advance (exec_ltr_read prot level hv)
    refine ⟨fun null => ?_, fun named ti => ?_, fun named ti f t h => ?_, fun t named ti h => ?_,
      fun d a t named ti h => ?_⟩
    · exact faults _ _ (run_loadTr_null null)
    · exact faults _ _ (run_loadTr_local named ti)
    · exact faults _ _ (run_loadTr_error named ti (run_fetchDescOr_error h))
    · exact faults _ _ (run_loadTr_error named ti (run_fetchDescOr_none h))
    · intro avail
      have found := run_loadTr_found named ti h
      have test : d.availTss = true ↔ avail := availTss_iff d
      have checked (free : avail) (present : d.p = true) :=
        found.trans ((run_require_pass (test.2 free)).trans (run_require_pass present))
      refine ⟨fun taken => ?_, fun free absent => ?_, fun free present => ⟨fun f w hr => ?_, fun b x hb f w hw => ?_⟩,
        fun b x y free present hb hw => ?_⟩
      · exact faults _ _ (found.trans (run_require_fail (Bool.eq_false_iff.2 (mt test.1 taken))))
      · exact faults _ _ (found.trans ((run_require_pass (test.2 free)).trans (run_require_fail absent)))
      · exact faults _ _ ((checked free present).trans (run_bind_error (run_bind_error hr)))
      · exact faults _ _ ((checked free present).trans (run_bind_error ((run_putBusyBit_true hb).trans hw)))
      · have reads := ((readRM_ok hv).1.trans (fetchDescriptor_ok h)).trans (sysRead_ok hb)
        obtain ⟨frame, stored⟩ := sysWrite_after reads inv hw
        refine ⟨?_, frame.accessed inv, stored⟩
        rw [← frame.only.nextEip]
        exact loads _ ((checked free present).trans (run_bind_ok ((run_putBusyBit_true hb).trans hw)))

/-- Settles O43: SLDT and STR come down to the write of their operand; LLDT and LTR make their checks in order, and the
first that fails is the instruction's fault. -/
theorem systemSegmentRegistersComplete : Obligations.SystemSegmentRegistersComplete :=
  ⟨ldtrComplete, taskRegisterComplete⟩

end Sys2Proof.Machine

namespace Sys2Proof.Machine

/-! ### LGDT and LIDT (R432, R433) -/

theorem privileged_iff (s : State) : s.privileged = true ↔ s.realMode = true ∨ s.cpl = 0 := by simp [State.privileged]

theorem run_requirePrivilege_pass {β : Type} {f : Unit → Op β} {s : State} (h : s.privileged = true) :
    (requirePrivilege >>= f).run s = (f ()).run s :=
  (run_bind_congr (run_bind_ok (run_get s))).trans (run_require_pass h)

/-- The offset of the base in a table operand, at the address size. -/
def State.baseOff (s : State) (m : MemRef) : Word := addAsz m.addr (s.off m) 2

section
variable {z : Size} {m : MemRef} {s u t : State} {lim base : Word} {e : Stop}

/-- Behind the privilege test an instruction comes down to what follows it. -/
theorem exec_of_privilege {i : Instr} {op : Op Unit} (he : exec i s = run (requirePrivilege >>= fun _ => op) s)
    (level : s.privileged = true) : exec i s = settle s (op.run s) :=
  he.trans (congrArg (settle s) (run_requirePrivilege_pass level))

/-- Where they are permitted, LGDT and LIDT come down to the read of a table register and its write. -/
theorem exec_loadsTable {i : Instr} (h : i ∈ [Instr.lgdt z (.mem m), .lidt z (.mem m)]) (level : s.privileged = true) :
    ∃ f : TableReg → State → State,
      exec i s = settle s ((do let x ← readTableReg z m; modify (f x); advance : Op Unit).run s) := by
  simp only [List.mem_cons, List.not_mem_nil, or_false] at h
  rcases h with rfl | rfl
  · exact ⟨fun x s => { s with gdtr := x }, exec_of_privilege rfl level⟩
  · exact ⟨fun x s => { s with idtr := x }, exec_of_privilege rfl level⟩

theorem run_readTableReg_limitError (h : (segRead m.seg (s.off m) .w16).run s = .error e t) :
    (readTableReg z m).run s = .error e t := (run_bind_ok (run_get s)).trans (run_bind_error h)

theorem run_readTableReg_baseError (hl : (segRead m.seg (s.off m) .w16).run s = .ok lim u)
    (h : (segRead m.seg (s.baseOff m) .w32).run u = .error e t) : (readTableReg z m).run s = .error e t :=
  (run_bind_ok (run_get s)).trans ((run_bind_ok hl).trans (run_bind_error h))

theorem run_readTableReg (hl : (segRead m.seg (s.off m) .w16).run s = .ok lim u)
    (hb : (segRead m.seg (s.baseOff m) .w32).run u = .ok base t) : (readTableReg z m).run s =
      .ok { base := if z = .s16 then base &&& 0x00FFFFFF else base, limit := lim.setWidth 16 } t :=
  (run_bind_ok (run_get s)).trans ((run_bind_ok hl).trans (run_bind_ok hb))

end

/-! ### SGDT and SIDT (R434, R435) -/

/-- An instruction that looks at the state first. -/
theorem exec_of_get {i : Instr} {op : State → Op Unit} {s : State} (he : exec i s = run (get >>= op) s) :
    exec i s = settle s ((op s).run s) := he.trans (congrArg (settle s) (run_bind_ok (run_get s)))

theorem exec_storesTable {i : Instr} {reg : TableReg} {z : Size} {m : MemRef} {s : State}
    (h : i = .sgdt z (.mem m) ∧ reg = s.gdtr ∨ i = .sidt z (.mem m) ∧ reg = s.idtr) :
    exec i s = settle s ((do writeTableReg z m reg; advance : Op Unit).run s) := by
  rcases h with ⟨rfl, rfl⟩ | ⟨rfl, rfl⟩
  · exact exec_of_get (op := fun x => do writeTableReg z m x.gdtr; advance) rfl
  · exact exec_of_get (op := fun x => do writeTableReg z m x.idtr; advance) rfl

/-- The state after the sixth byte was drawn, where it is (U9). -/
def State.baseDrawn (s : State) (z : Size) : State := if z = .s16 then { s with draws := s.draws + 1 } else s

/-- The base stored, with its top byte drawn where it is (R434, U9). -/
def State.drawnBase (s : State) (z : Size) (base : Word) : Word :=
  if z = .s16 then ((Config.drawByte s.draws).setWidth 32 <<< 24) ||| (base &&& 0x00FFFFFF) else base

theorem run_storedBase (z : Size) (base : Word) (s : State) :
    (storedBase z base).run s = .ok (s.drawnBase z base) (s.baseDrawn z) := by cases z <;> rfl

theorem Effect.baseDrawn (s : State) (z : Size) : Effect s (s.baseDrawn z) [] := by
  cases z with
  | s32 => exact .refl s
  | s16 => exact ⟨rfl, rfl, fun i => ⟨i.mem, i.tlb, i.flags, i.paging, i.map⟩, List.suffix_rfl,
      fun _ _ _ _ => ⟨rfl, fun _ => rfl⟩, fun _ _ h => h⟩

theorem OnlyMemory.linear {s t : State} (h : OnlyMemory s t) (i : Seg) (off : Word) :
    t.linear i off = s.linear i off := by
  obtain ⟨-, -, -, -, segs, -⟩ := h.fields
  exact congrArg (fun x : Segs => (x.get i).base + off) segs

section
variable {z : Size} {m : MemRef} {reg : TableReg} {s u t : State} {e : Stop}

theorem run_writeTableReg_limitError (h : (segWrite m.seg (s.off m) .w16 (reg.limit.setWidth 32)).run s = .error e t) :
    (writeTableReg z m reg).run s = .error e t := (run_bind_ok (run_get s)).trans (run_bind_error h)

/-- After the limit the base is written, in the state in which its sixth byte was drawn. -/
theorem run_writeTableReg (h : (segWrite m.seg (s.off m) .w16 (reg.limit.setWidth 32)).run s = .ok () u) :
    (writeTableReg z m reg).run s =
      (segWrite m.seg (s.baseOff m) .w32 (u.drawnBase z reg.base)).run (u.baseDrawn z) :=
  (run_bind_ok (run_get s)).trans ((run_bind_ok h).trans (run_bind_ok (run_storedBase z reg.base u)))

/-- The limit and the base lie in different places of their page, also where the offset wraps between them. -/
theorem limit_outside_base {k : Nat} {p : Word} (inv : t.Inv) (hk : k < 2)
    (hp : t.physAddr (s.linear m.seg (s.off m) + BitVec.ofNat 32 k) true = some p) :
    t.outside [(s.linear m.seg (s.baseOff m), 4)] p := by
  intro r hr j hj hq
  obtain rfl := List.mem_singleton.1 hr
  refine physAddr_ne_of_offset inv ?_ hp hq rfl
  have limit := offset_add (s.linear m.seg (s.off m)) (BitVec.ofNat 32 k)
  have base := offset_add (s.linear m.seg (s.baseOff m)) (BitVec.ofNat 32 j)
  have limitByte := offset_add (s.seg m.seg).base (s.off m)
  have baseByte := offset_add (s.seg m.seg).base (s.baseOff m)
  have wrapped : (s.baseOff m).toNat % 4096 = _ := offset_trunc (addrSize m.addr) (s.off m + 2)
  have next := offset_add (s.off m) 2
  have two : (2 : Word).toNat = 2 := rfl
  have kth := offset_ofNat k
  have jth := offset_ofNat j
  simp only [State.linear] at limit base ⊢
  omega

/-- What SGDT and SIDT leave: the six bytes, and nothing else. -/
theorem writeTableReg_frame (inv : s.Inv)
    (hl : (segWrite m.seg (s.off m) .w16 (reg.limit.setWidth 32)).run s = .ok () u)
    (hb : (segWrite m.seg (s.baseOff m) .w32 (u.drawnBase z reg.base)).run (u.baseDrawn z) = .ok () t) :
    Accessed s t [(s.linear m.seg (s.off m), 2), (s.linear m.seg (s.baseOff m), 4)] ∧
      Kept s t (s.linear m.seg (s.off m)) .w16 (reg.limit.setWidth 32) ∧
      Kept s t (s.linear m.seg (s.baseOff m)) .w32 (u.drawnBase z reg.base) := by
  obtain ⟨limit, limitStored⟩ := segWrite_ok hl
  obtain ⟨base, baseStored⟩ := segWrite_ok hb
  have drawn := Effect.baseDrawn u z
  have before := limit.trans drawn
  rw [before.only.linear] at base baseStored
  have invDrawn := before.inv inv
  have both := before.trans base
  refine ⟨both.accessed inv, ?_, ?_⟩
  · refine (limitStored inv).kept limit.events (drawn.trans base) (limit.inv inv) fun k p hk hp => ?_
    exact limit_outside_base (both.inv inv) hk hp
  · have stands := (baseStored invDrawn).kept base.events (.refl t) (both.inv inv) fun _ p _ _ => outside_nil t p
    exact stands.since before.events base.events

end

/-- Settles O42: LGDT and LIDT come down to two reads, SGDT and SIDT to two writes that lie in different places of
their page. -/
theorem tableRegistersComplete : Obligations.TableRegistersComplete := by
  intro z m s inv at0 at2
  refine ⟨fun level i hi => ?_, fun lim base u t level hl hb => ?_, fun i reg hi => ?_⟩
  · obtain ⟨f, he⟩ := exec_loadsTable hi ((privileged_iff s).2 level)
    exact ⟨fun g t h => he.trans (congrArg (settle s) (run_bind_error (run_readTableReg_limitError h))),
      fun lim u hl g t h => he.trans (congrArg (settle s) (run_bind_error (run_readTableReg_baseError hl h)))⟩
  · have e := (segRead_ok hl).1.trans (segRead_ok hb).1
    have loaded {i : Instr} (f : TableReg → State → State) (he : exec i s = run (requirePrivilege >>= fun _ => do
        let x ← readTableReg z m; modify (f x); advance) s) : exec i s = .next (f _ t).advance :=
      (exec_of_privilege he ((privileged_iff s).2 level)).trans
        (congrArg (settle s) (run_bind_ok (run_readTableReg hl hb)))
    rw [← e.only.nextEip]
    exact ⟨e.accessed inv, loaded (fun x s => { s with gdtr := x }) rfl, loaded (fun x s => { s with idtr := x }) rfl⟩
  · obtain ⟨writes, faults⟩ := settles_advance (exec_storesTable hi)
    refine ⟨fun g t h => faults _ _ (run_writeTableReg_limitError h), fun u hl => ?_⟩
    intro drawn base
    refine ⟨fun g t h => ?_, fun t hb => ?_⟩
    · exact faults _ _ ((run_writeTableReg hl).trans h)
    · have frame := writeTableReg_frame inv hl hb
      refine ⟨?_, frame⟩
      rw [← frame.1.nextEip]
      exact writes _ ((run_writeTableReg hl).trans hb)

end Sys2Proof.Machine

namespace Sys2Proof.Machine

/-! ### What one instruction changes -/

/-- What an instruction can have changed of CR0, the two descriptor-table registers and the halt state. -/
structure ChangedBy (i : Instr) (s t : State) : Prop where
  cr0    : t.cr0 ≠ s.cr0 → ∃ cr r, i = .movToCr cr r ∧ ctrlOfNum cr = some .cr0
  gdtr   : t.gdtr ≠ s.gdtr → ∃ z rm, i = .lgdt z rm
  idtr   : t.idtr ≠ s.idtr → ∃ z rm, i = .lidt z rm
  halted : t.halted ≠ s.halted → i = .hlt
  stays  : s.halted = true → t.halted = true

/-- It leaves what the platform will do as it is. -/
structure ExecChanges (i : Instr) (s t : State) : Prop extends ChangedBy i s t where
  events : t.events = s.events

theorem changed_trans {α : Type} {a b c : α} {p : Prop} (h1 : b ≠ a → p) (h2 : c ≠ b → p) (h : c ≠ a) : p :=
  Classical.byCases (fun e : b = a => h2 (e ▸ h)) h1

theorem ChangedBy.trans {i : Instr} {s t u : State} (h1 : ChangedBy i s t) (h2 : ChangedBy i t u) : ChangedBy i s u :=
  ⟨changed_trans h1.cr0 h2.cr0, changed_trans h1.gdtr h2.gdtr, changed_trans h1.idtr h2.idtr,
    changed_trans h1.halted h2.halted, fun h => h2.stays (h1.stays h)⟩

/-- CR0, the descriptor-table registers and the halt state are as they were. -/
structure SameControl (s t : State) : Prop where
  cr0    : t.cr0 = s.cr0
  gdtr   : t.gdtr = s.gdtr
  idtr   : t.idtr = s.idtr
  halted : t.halted = s.halted

theorem SameControl.trans {s t u : State} (h1 : SameControl s t) (h2 : SameControl t u) : SameControl s u :=
  ⟨h2.cr0.trans h1.cr0, h2.gdtr.trans h1.gdtr, h2.idtr.trans h1.idtr, h2.halted.trans h1.halted⟩

theorem SameControl.changedBy {s t : State} (h : SameControl s t) (i : Instr) : ChangedBy i s t :=
  ⟨fun n => absurd h.cr0 n, fun n => absurd h.gdtr n, fun n => absurd h.idtr n, fun n => absurd h.halted n,
    h.halted.trans⟩

theorem SameControl.charge (s : State) (n : Nat) : SameControl s (s.charge n) := ⟨rfl, rfl, rfl, rfl⟩
theorem SameControl.beginStep (s : State) : SameControl s s.beginStep := ⟨rfl, rfl, rfl, rfl⟩
theorem SameControl.beginBlock (s : State) : SameControl s s.beginBlock := ⟨rfl, rfl, rfl, rfl⟩

theorem Keeps.sameControl {s t : State} (h : Keeps s t) : SameControl s t := ⟨h.cr0, h.gdtr, h.idtr, h.halted⟩

theorem Keeps.execChanges {s t : State} (h : Keeps s t) (i : Instr) : ExecChanges i s t :=
  ⟨h.sameControl.changedBy i, h.events⟩

theorem execChanges_preorder (i : Instr) : Preorder (ExecChanges i) where
  refl s := (kp.refl s).execChanges i
  trans _ _ _ h1 h2 := ⟨h1.toChangedBy.trans h2.toChangedBy, h2.events.trans h1.events⟩

/-- A rollback puts back all but the halt state, and the dispatch of a fault changes nothing of it (R505). -/
theorem settle_execChanges {i : Instr} {s : State} {r : EStateM.Result Stop State Unit}
    (h : ExecChanges i s (after r)) : OutRel (ExecChanges i) s (settle s r) := by
  have kept {s' o} (k : OutRel Keeps s' o) : OutRel (ExecChanges i) s' o := fun t e => (k t e).execChanges i
  match r, h with
  | .ok _ t, h => exact OutRel.next h
  | .error (.refuse _) _, _ => exact OutRel.refused
  | .error (.fault f true) t, h =>
    exact OutRel.after (execChanges_preorder i) h (kept (dispatchFault_keeps _ _ _ _))
  | .error (.fault f false) t, h =>
    have back : ExecChanges i s (rollback s t) :=
      ⟨⟨fun n => absurd rfl n, fun n => absurd rfl n, fun n => absurd rfl n, h.halted, h.stays⟩, h.events⟩
    exact OutRel.after (execChanges_preorder i) back (kept (dispatchFault_keeps _ _ _ _))

/-- An operation changes at most what its instruction may. -/
abbrev ChangesAtMost {α : Type} (i : Instr) (x : Op α) : Prop := Op.Rel (ExecChanges i) x

section
variable {α β : Type} {i : Instr}

theorem KeepsAll.changesAtMost {x : Op α} (h : KeepsAll x) : ChangesAtMost i x :=
  Op.rel_mono h fun _ _ k => k.execChanges i

theorem ChangesAtMost.bind {x : Op α} {f : α → Op β} (hx : ChangesAtMost i x) (hf : ∀ a, ChangesAtMost i (f a)) :
    ChangesAtMost i (x >>= f) := Op.rel_bind (execChanges_preorder i) hx hf

end

theorem writeCtrl_changes (cr : BitVec 3) (r : Reg) (v : Word) {c : CtrlReg} (h : ctrlOfNum cr = some c) :
    ChangesAtMost (.movToCr cr r) (writeCtrl v c) := by
  cases c with
  | cr2 => exact fun s => ⟨(⟨rfl, rfl, rfl, rfl⟩ : SameControl s { s with cr2 := v }).changedBy _, rfl⟩
  | cr3 => exact fun s => ⟨(⟨rfl, rfl, rfl, rfl⟩ : SameControl s (s.writeCr3 v)).changedBy _, rfl⟩
  | cr0 =>
    refine (keeps_require _ _ _).changesAtMost.bind fun _ s => ?_
    exact ⟨⟨fun _ => ⟨cr, r, rfl, h⟩, fun n => absurd rfl n, fun n => absurd rfl n, fun n => absurd rfl n, id⟩, rfl⟩

theorem movToCr_changes (cr : BitVec 3) (r : Reg) (s : State) :
    OutRel (ExecChanges (.movToCr cr r)) s (exec (.movToCr cr r) s) := by
  refine settle_execChanges ?_
  split
  · exact keeps_raiseUD.changesAtMost s
  · rename_i c numbered
    exact (keeps_requirePrivilege.changesAtMost.bind fun _ => (keeps_readReg _ _).changesAtMost.bind fun v =>
      (writeCtrl_changes cr r v numbered).bind fun _ => KeepsAll.changesAtMost
        (keeps_bind keeps_drawStatus fun _ => keeps_bind keeps_advance fun _ => keeps_endBlock)) s

/-- The operation of LGDT and LIDT. -/
theorem loadsTable_changes {i : Instr} {z : Size} {rm : RM} {f : TableReg → State → State}
    (hf : ∀ x s, ExecChanges i s (f x s)) : ChangesAtMost i (do
      let m ← memOperand rm
      requirePrivilege
      let t ← readTableReg z m
      modify (f t)
      advance) :=
  (keeps_memOperand rm).changesAtMost.bind fun m => keeps_requirePrivilege.changesAtMost.bind fun _ =>
    (keeps_readTableReg z m).changesAtMost.bind fun x => ChangesAtMost.bind (Op.rel_modify (hf x)) fun _ =>
      keeps_advance.changesAtMost

theorem hlt_changes (s : State) : OutRel (ExecChanges .hlt) s (exec .hlt s) := by
  have halt : ChangesAtMost .hlt (modify fun s => { s with halted := true } : Op Unit) := fun s =>
    ⟨⟨fun n => absurd rfl n, fun n => absurd rfl n, fun n => absurd rfl n, fun _ => rfl, fun _ => rfl⟩, rfl⟩
  exact settle_execChanges ((keeps_requirePrivilege.changesAtMost.bind fun _ => halt.bind fun _ =>
    KeepsAll.changesAtMost (keeps_bind keeps_advance fun _ => keeps_endBlock)) s)

theorem exec_changes (i : Instr) (s : State) : OutRel (ExecChanges i) s (exec i s) := by
  cases writes : writesSystem i with
  | false => exact fun t h => (exec_keeps i s writes t h).execChanges i
  | true =>
    cases i
    case movToCr cr r => exact movToCr_changes cr r s
    case hlt => exact hlt_changes s
    case lgdt z rm =>
      exact settle_execChanges (loadsTable_changes (f := fun x s => { s with gdtr := x }) (fun _ _ =>
        ⟨⟨fun n => absurd rfl n, fun _ => ⟨z, rm, rfl⟩, fun n => absurd rfl n, fun n => absurd rfl n, id⟩, rfl⟩) s)
    case lidt z rm =>
      exact settle_execChanges (loadsTable_changes (f := fun x s => { s with idtr := x }) (fun _ _ =>
        ⟨⟨fun n => absurd rfl n, fun n => absurd rfl n, fun _ => ⟨z, rm, rfl⟩, fun n => absurd rfl n, id⟩, rfl⟩) s)
    all_goals exact Bool.noConfusion writes

/-! ### Only a level that may changes them (R531) -/

/-- An operation that stops before it has done anything. -/
theorem run_stopped_keeps {op : Op Unit} {s : State} {e : Stop} (h : op.run s = .error e s) :
    OutRel Keeps s (run op s) :=
  settle_keeps (by rw [h]; exact kp.refl s)

theorem run_memOperand_unprivileged {rm : RM} {f : MemRef → Op Unit} {s : State} (level : s.privileged = false) :
    OutRel Keeps s (run (do let m ← memOperand rm; requirePrivilege; f m) s) := by
  cases rm with
  | reg r => exact run_stopped_keeps (run_bind_error rfl)
  | mem m => exact run_stopped_keeps (run_requirePrivilege_fail level)

/-- At a level that may not, no instruction changes any of them. -/
theorem exec_unprivileged (i : Instr) {s : State} (level : s.privileged = false) : OutRel Keeps s (exec i s) := by
  cases writes : writesSystem i with
  | false => exact exec_keeps i s writes
  | true =>
    cases i
    case hlt => exact run_stopped_keeps (run_requirePrivilege_fail level)
    case lgdt z rm => exact run_memOperand_unprivileged level
    case lidt z rm => exact run_memOperand_unprivileged level
    case movToCr cr r =>
      refine settle_keeps ?_
      split
      · exact kp.refl s
      · rw [run_requirePrivilege_fail level]
        exact kp.refl s
    all_goals exact Bool.noConfusion writes

theorem oneInstructionWrites : Claim.OneInstructionWrites := by
  intro i s t h
  have changed := exec_changes i s t h
  cases level : s.privileged with
  | false =>
    have kept := exec_unprivileged i level t h
    exact ⟨fun n => absurd kept.cr0 n, fun n => absurd kept.gdtr n, fun n => absurd kept.idtr n,
      fun n => absurd kept.halted n⟩
  | true =>
    refine ⟨fun n => ?_, fun n => ?_, fun n => ?_, fun n => ⟨changed.halted n, rfl⟩⟩
    · obtain ⟨cr, r, isMov, numbered⟩ := changed.cr0 n
      exact ⟨cr, r, isMov, numbered, rfl⟩
    · obtain ⟨z, rm, isLgdt⟩ := changed.gdtr n
      exact ⟨z, rm, isLgdt, rfl⟩
    · obtain ⟨z, rm, isLidt⟩ := changed.idtr n
      exact ⟨z, rm, isLidt, rfl⟩

/-! ### The level at which the fetched instruction runs -/

/-- A relation that accesses keep, and the fetch's own updates of the block and of the next EIP, a fetch keeps. -/
theorem fetchInstr_rel {R : State → State → Prop} (p : Preorder R) (access : ∀ s t, OnlyMemory s t → R s t)
    (note : ∀ s q, R s (s.notePara q)) (next : ∀ s n, R s (s.setNextEip n)) : Op.Rel R fetchInstr := by
  have accesses {α : Type} {x : Op α} (h : Op.Rel AccessRel x) : Op.Rel R x :=
    Op.rel_mono h fun s t a => access s t a.only
  have read (q : Word) : Op.Rel R (memRead q .w8) := accesses (Op.rel_mono (memRead_rel q .w8) fun _ _ r => r.access)
  have fetchByte (k : Nat) : Op.Rel R (fetchByte k) := by
    refine Op.rel_ite (Op.rel_raise p _ _) (Op.rel_bind p (Op.rel_get p) fun _ => ?_)
    refine Op.rel_bind p (Op.rel_require p _ _ _) fun _ => Op.rel_bind p (accesses (translate_access _ _ _)) fun q => ?_
    refine Op.rel_bind p (Op.rel_modify (f := (·.notePara q)) fun s => note s q) fun _ => ?_
    exact Op.rel_bind p (read q) fun _ => Op.rel_pure p _
  have runFetch {α : Type} (d : Dec α) (k : Nat) (bs : List Byte) : Op.Rel R (runFetch d k bs) := by
    induction d generalizing k bs with
    | ret a => exact Op.rel_pure p _
    | unadmitted => exact Op.rel_refuse p _
    | byte f ih => exact Op.rel_bind p (fetchByte k) fun b => ih b _ _
  refine Op.rel_bind p (Op.rel_get p) fun _ => Op.rel_bind p (runFetch _ _ _) fun x => ?_
  exact Op.rel_bind p (Op.rel_modify (f := (·.setNextEip x.2)) fun s => next s x.2) fun _ => Op.rel_pure p _

theorem OnlyMemory.privileged {s t : State} (h : OnlyMemory s t) : t.privileged = s.privileged := by
  unfold OnlyMemory at h
  rw [h]
  rfl

theorem fetchInstr_privileged {s t : State} {i : Instr} (h : fetchInstr.run s = .ok i t) :
    t.privileged = s.privileged := by
  have p : Preorder fun s t : State => t.privileged = s.privileged := ⟨fun _ => rfl, fun _ _ _ h1 h2 => h2.trans h1⟩
  refine Op.rel_ofOk (fetchInstr_rel p (fun _ _ o => o.privileged) (fun s q => ?_) fun _ _ => rfl) h
  rw [notePara_only s q]
  rfl

/-! ### The platform's turn -/

/-- The platform does not demand the reset input in its next turn. -/
def State.Quiet (s : State) : Prop := ∀ batch rest, s.events = batch :: rest → PlatformEvent.reset ∉ batch

theorem State.Quiet.of_events {s t : State} (h : s.Quiet) (e : t.events = s.events) : t.Quiet := by
  unfold State.Quiet
  rw [e]
  exact h

theorem insidePort_of_ne_reset {e : PlatformEvent} (h : e ≠ .reset) : insidePort e = true := by
  cases e with
  | reset => exact absurd rfl h
  | requests v => rfl
  | setA20 on => rfl
  | memWrite a v => rfl
  | tlbDrop p => rfl

theorem State.Quiet.updateClock {s : State} (h : s.Quiet) : SameControl s s.updateClock := by
  unfold State.updateClock
  simp only
  split
  · exact ⟨rfl, rfl, rfl, rfl⟩
  · rename_i batch rest events
    have inside : ∀ e ∈ batch, insidePort e = true := fun e he =>
      insidePort_of_ne_reset fun isReset => h batch rest events (isReset ▸ he)
    have start : SameControl s { s with clock := s.clock + s.cycles, cycles := 0, blockParas := [], events := rest } :=
      ⟨rfl, rfl, rfl, rfl⟩
    exact start.trans (State.foldl_events_keeps batch _ inside).sameControl

theorem State.partition_keeps (s : State) : Keeps s s.partition := by
  have plain {t : State} (h : SameForm s t) (c : SameControl s t) (e : t.events = s.events) : Keeps s t :=
    ⟨keepsInv_plain ⟨h.mem, h.tlb, h.flags, h.map, h.cr0⟩, c.cr0, c.gdtr, c.idtr, c.halted, e⟩
  unfold State.partition
  split
  · split <;> exact plain ⟨rfl, rfl, rfl, rfl, rfl, rfl⟩ ⟨rfl, rfl, rfl, rfl⟩ rfl
  · exact kp.refl s

theorem State.Quiet.finish {s : State} (h : s.Quiet) : SameControl s s.finish := by
  have kept := s.partition_keeps
  unfold State.finish
  simp only
  split
  · exact kept.sameControl
  · exact kept.sameControl.trans (h.of_events kept.events).updateClock

/-! ### What one step changes -/

theorem onNext_inv {f : State → State} {o : Host.Outcome State Fault Refusal} {t : State} (h : onNext f o = .next t) :
    ∃ u, o = .next u ∧ t = f u := by
  cases o with
  | next u =>
    cases h
    exact ⟨u, rfl, rfl⟩
  | fault _ => cases h
  | refused _ => cases h

/-- The step fetched an instruction and ran it at a level that may. -/
def State.Ran (s : State) (i : Instr) : Prop :=
  s.shutdown = false ∧ s.privileged = true ∧
    ∃ b u, (s.inBlock = true ∧ b = s ∨ s.inBlock = false ∧ b = s.beginBlock) ∧ fetchInstr.run b.latch = .ok i u

/-- An instruction that a step runs: nothing changed, or it changed it, at a level that may. -/
theorem runInstruction_changes {b t : State} (quiet : b.Quiet) (h : runInstruction b = .next t) :
    SameControl b t ∨ ∃ i u, fetchInstr.run b.latch = .ok i u ∧ b.privileged = true ∧ ChangedBy i b t := by
  have fetched := keeps_fetchInstr b.latch
  have latched : Keeps b b.latch := Keeps.latch b
  cases e : fetchInstr.run b.latch with
  | ok i u =>
    rw [e] at fetched
    have before : Keeps b u := kp.trans _ _ _ latched fetched
    obtain ⟨v, run, rfl⟩ := onNext_inv ((runInstruction_of_ok e).symm.trans h)
    have changed := exec_changes i u v run
    have charged : (v.charge (Config.insnCycles i)).Quiet := quiet.of_events (changed.events.trans before.events)
    have finished := (SameControl.charge v (Config.insnCycles i)).trans charged.finish
    cases level : b.privileged with
    | true =>
      have all := ((before.sameControl.changedBy i).trans changed.toChangedBy).trans (finished.changedBy i)
      exact .inr ⟨i, u, rfl, rfl, all⟩
    | false =>
      have low : u.privileged = false := (fetchInstr_privileged e).trans level
      exact .inl ((before.sameControl.trans (exec_unprivileged i low v run).sameControl).trans finished)
  | error x u =>
    rw [e] at fetched
    obtain ⟨v, run, rfl⟩ := onNext_inv ((runInstruction_of_error e).symm.trans h)
    have kept : Keeps b v := kp.trans _ _ _ latched (settle_keeps fetched v run)
    exact .inl (kept.sameControl.trans (quiet.of_events kept.events).finish)

/-- The delivery of an interrupt leaves the halt state. -/
theorem takeInterrupt_changes {s t : State} (quiet : s.Quiet) (pending : s.pending ≠ [])
    (h : takeInterrupt s = .next t) : SameControl { s with halted := false } t := by
  unfold takeInterrupt at h
  split at h
  · exact absurd ‹_› pending
  · rename_i v rest _
    obtain ⟨u, delivered, rfl⟩ := onNext_inv h
    have kept := dispatchExternal_keeps v _ u delivered
    have charged : (u.charge Config.intAckCycles).Quiet := quiet.of_events kept.events
    have start : SameControl { s with halted := false } { s with halted := false, pending := rest } :=
      ⟨rfl, rfl, rfl, rfl⟩
    exact (start.trans kept.sameControl).trans ((SameControl.charge u _).trans charged.updateClock)

theorem interruptDue_iff (s : State) : s.interruptDue = true ↔ s.pending ≠ [] ∧ s.flag .if_ = true := by
  simp [State.interruptDue]

/-- What a step can have done to them: nothing, the delivery of an interrupt, or what the instruction it ran did. -/
theorem step_changes {s t : State} (quiet : s.Quiet) (h : step s = .next t) :
    SameControl s t ∨
    (SameControl { s with halted := false } t ∧ s.inBlock = false ∧ s.pending ≠ [] ∧ s.flag .if_ = true) ∨
    ∃ i, s.Ran i ∧ ChangedBy i s t := by
  unfold step at h
  cases live : s.shutdown with
  | true =>
    rw [live, if_pos rfl] at h
    unfold shutdownStep at h
    split at h
    · cases h
      exact .inl quiet.updateClock
    · cases h
  | false =>
    rw [live, if_neg Bool.false_ne_true] at h
    cases block : s.inBlock with
    | true =>
      rw [block, if_pos rfl] at h
      obtain same | ⟨i, u, fetched, level, changed⟩ := runInstruction_changes quiet h
      · exact .inl same
      · exact .inr (.inr ⟨i, ⟨live, level, s, u, .inl ⟨block, rfl⟩, fetched⟩, changed⟩)
    | false =>
      rw [block, if_neg Bool.false_ne_true] at h
      unfold startBlock at h
      split at h
      · rename_i due
        obtain ⟨pending, enabled⟩ := (interruptDue_iff s).1 due
        have taken := takeInterrupt_changes (s := s.beginStep) quiet pending h
        exact .inr (.inl ⟨⟨taken.cr0, taken.gdtr, taken.idtr, taken.halted⟩, rfl, pending, enabled⟩)
      · split at h
        · cases h
          have turn := State.Quiet.updateClock (s := s.beginStep.charge Config.haltIdleCycles) quiet
          exact .inl (((SameControl.beginStep s).trans (.charge _ _)).trans turn)
        · have began := SameControl.beginBlock s
          obtain same | ⟨i, u, fetched, level, changed⟩ := runInstruction_changes (b := s.beginBlock) quiet h
          · exact .inl (began.trans same)
          · exact .inr (.inr ⟨i, ⟨live, level, _, u, .inr ⟨block, rfl⟩, fetched⟩, (began.changedBy i).trans changed⟩)

theorem oneStepWrites : Claim.OneStepWrites := by
  intro s t h quiet ran
  obtain same | ⟨same, idle, pending, enabled⟩ | ⟨i, did, changed⟩ := step_changes quiet h
  · exact ⟨fun n => absurd same.cr0 n, fun n => absurd same.gdtr n, fun n => absurd same.idtr n,
      fun awake halt => absurd (same.halted.symm.trans halt) (by rw [awake]; decide),
      fun halt awake => absurd (same.halted.symm.trans awake) (by rw [halt]; decide)⟩
  · exact ⟨fun n => absurd same.cr0 n, fun n => absurd same.gdtr n, fun n => absurd same.idtr n,
      fun _ halt => absurd (same.halted.symm.trans halt) Bool.false_ne_true, fun _ _ => ⟨idle, pending, enabled⟩⟩
  · have did : ran i := did
    refine ⟨fun n => ?_, fun n => ?_, fun n => ?_, fun awake halt => ?_, fun halt awake => ?_⟩
    · obtain ⟨cr, r, rfl, numbered⟩ := changed.cr0 n
      exact ⟨cr, r, did, numbered⟩
    · obtain ⟨z, rm, rfl⟩ := changed.gdtr n
      exact ⟨z, rm, did⟩
    · obtain ⟨z, rm, rfl⟩ := changed.idtr n
      exact ⟨z, rm, did⟩
    · obtain rfl := changed.halted (by rw [awake, halt]; decide)
      exact did
    · exact nomatch (changed.stays halt).symm.trans awake

/-- Settles O5: the operation of every other instruction keeps them all, a fault takes back what its instruction did,
and the rest of a step writes none of them but for the delivery of an interrupt. -/
theorem onlyTheirInstructionsWrite : Obligations.OnlyTheirInstructionsWrite := ⟨oneInstructionWrites, oneStepWrites⟩

end Sys2Proof.Machine

namespace Sys2Proof.Machine

/-! ### The dispatch of an external interrupt (R510, R520) -/

section
variable {v : Byte} {s t : State}

theorem dispatchExternal_of_ok (h : (dispatch v.toNat .external none s.eip).run s.latch = .ok () t) :
    dispatchExternal v s = .next t := by
  unfold dispatchExternal
  rw [h]

/-- A fault of the dispatch is dispatched in turn, in the state and with the return address that `afterFault` gives. -/
theorem dispatchExternal_of_fault {f : GuestFault} {past : Bool}
    (h : (dispatch v.toNat .external none s.eip).run s.latch = .error (.fault f past) t) :
    dispatchExternal v s = dispatchFault faultChain f.withExt (afterFault s.latch t s.eip past).2
      (afterFault s.latch t s.eip past).1 := by
  unfold dispatchExternal
  rw [h]

end

theorem takeInterrupt_of_pending {s : State} {v : Byte} {rest : List Byte} (h : s.pending = v :: rest) :
    takeInterrupt s = onNext (fun u => (u.charge Config.intAckCycles).updateClock)
      (dispatchExternal v { s with halted := false, pending := rest }) := by
  unfold takeInterrupt
  rw [h]

/-! ### A step at a block boundary (R520, R542) -/

section
variable {s : State} (live : s.shutdown = false) (boundary : s.inBlock = false)
include live boundary

theorem step_of_boundary : step s = startBlock s := by
  unfold step
  rw [live, boundary]
  rfl

/-- A pending request with IF set is taken before anything else. -/
theorem step_of_due {v : Byte} {rest : List Byte} (enabled : s.flag .if_ = true) (pending : s.pending = v :: rest) :
    step s = onNext (fun u => (u.charge Config.intAckCycles).updateClock)
      (dispatchExternal v { s.beginStep with halted := false, pending := rest }) := by
  have due : s.interruptDue = true := (interruptDue_iff s).2 ⟨by rw [pending]; exact List.cons_ne_nil _ _, enabled⟩
  rw [step_of_boundary live boundary, startBlock, if_pos due]
  exact takeInterrupt_of_pending (s := s.beginStep) pending

theorem step_of_halted (halted : s.halted = true) (quiet : s.pending = [] ∨ s.flag .if_ = false) :
    step s = .next (s.beginStep.charge Config.haltIdleCycles).updateClock := by
  have notDue : ¬ s.interruptDue = true := by
    rw [interruptDue_iff]
    rintro ⟨pending, enabled⟩
    exact quiet.elim pending (Bool.eq_false_iff.1 · enabled)
  rw [step_of_boundary live boundary, startBlock, if_neg notDue, if_pos halted]
  rfl

end

theorem interruptsAndHalt : Claim.InterruptsAndHalt := by
  refine fun s live boundary => ⟨fun v rest t enabled pending h => ?_, fun halted quiet => ?_⟩
  · rw [step_of_due live boundary enabled pending, dispatchExternal_of_ok h]
    rfl
  · have idle : s.beginStep.charge Config.haltIdleCycles =
        { s with cycles := Config.haltIdleCycles, blockParas := [] } :=
      congrArg (fun n => { s with cycles := n, blockParas := [] }) (Nat.zero_add _)
    rw [step_of_halted live boundary halted quiet, idle]

theorem interruptThatFaults : Claim.InterruptThatFaults := by
  intro s u v rest f past live boundary enabled pending b g charged h
  rw [step_of_due live boundary enabled pending, dispatchExternal_of_fault h]
  cases past <;> rfl

/-! ### Shutdown and the reset input (R511, R547) -/

theorem State.resetDemanded_cons {s : State} {batch : List PlatformEvent} {rest : List (List PlatformEvent)}
    (h : s.events = batch :: rest) : s.resetDemanded = true ↔ PlatformEvent.reset ∈ batch := by
  unfold State.resetDemanded
  rw [h]
  exact List.contains_iff_mem

/-- In shutdown without a demand for the reset input there is no next state. -/
theorem step_of_shutdown {s : State} (down : s.shutdown = true) (h : s.resetDemanded = false) :
    step s = .fault .shutdown := by
  unfold step shutdownStep
  rw [down, h]
  rfl

/-- In shutdown with the demand the step is the platform's turn. -/
theorem step_of_resetDemanded {s : State} (down : s.shutdown = true) (h : s.resetDemanded = true) :
    step s = .next s.updateClock := by
  unfold step shutdownStep
  rw [down, h]
  rfl

/-- The platform's turn is its next batch of events, after the cycles are handed over. -/
theorem State.updateClock_cons {s : State} {batch : List PlatformEvent} {rest : List (List PlatformEvent)}
    (h : s.events = batch :: rest) : s.updateClock = batch.foldl State.applyEvent
      { s with clock := s.clock + s.cycles, cycles := 0, blockParas := [], events := rest } := by
  unfold State.updateClock
  simp only [h]

theorem State.memWriteByte_same (s : State) (a : Nat) (v : Byte) :
    (s.memWriteByte a v).events = s.events ∧ (s.memWriteByte a v).shutdown = s.shutdown := by
  rw [State.memWriteByte_eq]
  exact ⟨rfl, rfl⟩

/-- An event of the platform leaves the later batches as they are, and leaves the shutdown state only by the reset
input. -/
theorem State.applyEvent_same (s : State) (e : PlatformEvent) : (s.applyEvent e).events = s.events ∧
    (s.applyEvent e).shutdown = (s.shutdown && decide (e ≠ .reset)) := by
  cases e with
  | reset => exact ⟨rfl, (Bool.and_false _).symm⟩
  | requests v => exact ⟨rfl, (Bool.and_true _).symm⟩
  | setA20 on => exact ⟨rfl, (Bool.and_true _).symm⟩
  | tlbDrop p => exact ⟨rfl, (Bool.and_true _).symm⟩
  | memWrite a v =>
    obtain ⟨events, shutdown⟩ := s.memWriteByte_same a.toNat v
    exact ⟨events, shutdown.trans (Bool.and_true _).symm⟩

theorem State.foldl_applyEvent_same (l : List PlatformEvent) (s : State) :
    (l.foldl State.applyEvent s).events = s.events ∧
      (l.foldl State.applyEvent s).shutdown = (s.shutdown && decide (PlatformEvent.reset ∉ l)) := by
  induction l generalizing s with
  | nil => exact ⟨rfl, (Bool.and_true _).symm⟩
  | cons e l ih =>
    obtain ⟨events, shutdown⟩ := s.applyEvent_same e
    obtain ⟨laterEvents, laterShutdown⟩ := ih (s.applyEvent e)
    refine ⟨laterEvents.trans events, laterShutdown.trans ?_⟩
    rw [shutdown, Bool.and_assoc, ← Bool.decide_and]
    simp [eq_comm]

theorem shutdownAndReset : Claim.ShutdownAndReset := by
  refine fun s down => ⟨fun none => step_of_shutdown down ?_, fun batch rest events demanded => ?_,
    fun before rest events => ?_⟩
  · unfold State.resetDemanded
    split
    · rfl
    · rename_i batch rest events
      exact Bool.eq_false_iff.2 (mt List.contains_iff_mem.1 (none batch rest events))
  · refine ⟨_, step_of_resetDemanded down ((State.resetDemanded_cons events).2 demanded), ?_⟩
    rw [State.updateClock_cons events]
    obtain ⟨later, shutdown⟩ := State.foldl_applyEvent_same batch
      { s with clock := s.clock + s.cycles, cycles := 0, blockParas := [], events := rest }
    refine ⟨shutdown.trans ?_, later⟩
    rw [decide_eq_false (not_not_intro demanded), Bool.and_false]
  · have demanded : PlatformEvent.reset ∈ before ++ [.reset] := List.mem_append_right _ List.mem_cons_self
    refine ⟨_, step_of_resetDemanded down ((State.resetDemanded_cons events).2 demanded), ?_⟩
    rw [State.updateClock_cons events, List.foldl_append]
    refine ⟨rfl, rfl, rfl, rfl, rfl, rfl, rfl, rfl, rfl, rfl, rfl, rfl, rfl, rfl, rfl, rfl, fun first => ?_⟩
    rw [first]
    rfl

/-- Settles O60: a step at a block boundary delivers the first request or idles, a fault of the delivery is dispatched, and
a turn of the platform that ends with the reset input leaves the reset values. -/
theorem interruptsHaltShutdown : Obligations.InterruptsHaltShutdown :=
  ⟨interruptsAndHalt, interruptThatFaults, shutdownAndReset⟩

end Sys2Proof.Machine

namespace Sys2Proof.Machine

/-! ### The rollback (R505) -/

theorem rollbackRestores : Claim.RollbackRestores := by
  refine fun s0 s => ⟨fun r => ?_, rfl, rfl, rfl, rfl, rfl, rfl, rfl, rfl, rfl, rfl, rfl, rfl, rfl, rfl, rfl, rfl, rfl⟩
  cases r with
  | esp => rfl
  | eax => rfl
  | ecx => rfl
  | edx => rfl
  | ebx => rfl
  | ebp => rfl
  | esi => rfl
  | edi => rfl

/-! ### The dispatch of a fault (R510, R511) -/

section
variable {s t : State} {ret : Word}

theorem dispatchDouble_of_ok (h : (dispatch 8 .fault (some 0) ret).run s.latch = .ok () t) :
    dispatchDouble ret s = .next t.endBlock := by
  unfold dispatchDouble
  rw [h]

theorem dispatchDouble_of_refuse {x : Refusal} (h : (dispatch 8 .fault (some 0) ret).run s.latch = .error (.refuse x) t) :
    dispatchDouble ret s = .refused x := by
  unfold dispatchDouble
  rw [h]

theorem dispatchDouble_of_fault {f : GuestFault} {past : Bool}
    (h : (dispatch 8 .fault (some 0) ret).run s.latch = .error (.fault f past) t) :
    dispatchDouble ret s = .next (afterFault s.latch t ret past).1.shutDown := by
  unfold dispatchDouble
  rw [h]

variable {n : Nat} {f : GuestFault}

theorem dispatchFault_of_ok (h : (dispatch f.kind.vector .fault f.code ret).run s.latch = .ok () t) :
    dispatchFault n f ret s = .next t.endBlock := by
  unfold dispatchFault
  rw [h]

theorem dispatchFault_of_refuse {x : Refusal}
    (h : (dispatch f.kind.vector .fault f.code ret).run s.latch = .error (.refuse x) t) :
    dispatchFault n f ret s = .refused x := by
  unfold dispatchFault
  rw [h]

variable {f2 : GuestFault} {past : Bool}

/-- A second fault that escalates is a double fault. -/
theorem dispatchFault_of_escalates
    (h : (dispatch f.kind.vector .fault f.code ret).run s.latch = .error (.fault f2 past) t)
    (double : escalates f.kind f2.kind = true) : dispatchFault n f ret s =
      dispatchDouble (afterFault s.latch t ret past).2 (afterFault s.latch t ret past).1 := by
  unfold dispatchFault
  rw [h]
  exact if_pos double

/-- A second fault that does not is dispatched in turn. -/
theorem dispatchFault_of_serial
    (h : (dispatch f.kind.vector .fault f.code ret).run s.latch = .error (.fault f2 past) t)
    (serial : escalates f.kind f2.kind = false) : dispatchFault (n + 1) f ret s =
      dispatchFault n f2.withExt (afterFault s.latch t ret past).2 (afterFault s.latch t ret past).1 := by
  rw [dispatchFault, h]
  exact if_neg (Bool.eq_false_iff.1 serial)

end

theorem afterFault_eq (s0 s : State) (ret : Word) (past : Bool) : afterFault s0 s ret past =
    (if past then s else rollback s0 s, if past then s.eip else ret) := by
  cases past <;> rfl

/-- The pairs of R510. -/
theorem escalates_iff (k1 k2 : FaultKind) : escalates k1 k2 = true ↔
    (k1 ∈ [FaultKind.de, .ts, .np, .ss, .gp] ∧ k2 ∈ [FaultKind.de, .ts, .np, .ss, .gp]) ∨
      (k1 = .pf ∧ (k2 = .pf ∨ k2 ∈ [FaultKind.de, .ts, .np, .ss, .gp])) := by
  cases k1 <;> cases k2 <;> decide

theorem faultEscalation : Claim.FaultEscalation := by
  intro n f f2 past ret s t first contributory double back ret2 task
  refine ⟨dispatchFault_of_ok, fun x => dispatchFault_of_refuse, fun h escalated u => ?_, fun h serial => ?_⟩
  · have twice : dispatchFault n f ret s = dispatchDouble ret2 back := by
      rw [dispatchFault_of_escalates h ((escalates_iff _ _).2 escalated), afterFault_eq]
    rw [twice]
    refine ⟨dispatchDouble_of_ok, fun x => dispatchDouble_of_refuse, fun f3 again => ?_,
      fun f3 again => dispatchDouble_of_fault again⟩
    refine ⟨_, dispatchDouble_of_fault again, rfl, ?_⟩
    have same : back.regs = task.regs ∧ back.eip = task.eip ∧ back.flags = task.flags ∧ back.segs = task.segs ∧
        back.cpl = task.cpl ∧ back.ldtr = task.ldtr ∧ back.tr = task.tr ∧ back.cr0 = task.cr0 ∧ back.cr3 = task.cr3 := by
      cases past <;> exact ⟨rfl, rfl, rfl, rfl, rfl, rfl, rfl, rfl, rfl⟩
    exact same
  · rw [dispatchFault_of_serial h (Bool.eq_false_iff.2 (mt (escalates_iff _ _).1 serial)), afterFault_eq]

/-! ### No dispatch raises a benign fault -/

@[simp] theorem faultClass_gp : FaultKind.gp.faultClass = .contributory := by decide
@[simp] theorem faultClass_ts : FaultKind.ts.faultClass = .contributory := by decide
@[simp] theorem faultClass_np : FaultKind.np.faultClass = .contributory := by decide
@[simp] theorem faultClass_ss : FaultKind.ss.faultClass = .contributory := by decide
@[simp] theorem faultClass_segFault (i : Seg) : (segFault i).faultClass = .contributory := by cases i <;> rfl

/-- Every fault of an operation is one that a fault before it can escalate with. -/
def NeverBenign {α : Type} (x : Op α) : Prop :=
  ∀ s f past t, x.run s = .error (.fault f past) t → f.kind.faultClass ≠ .benign

section
variable {α β : Type}

@[simp] theorem neverBenign_pure (a : α) : NeverBenign (pure a : Op α) := fun _ _ _ _ h => nomatch h
@[simp] theorem neverBenign_get : NeverBenign (get : Op State) := fun _ _ _ _ h => nomatch h
@[simp] theorem neverBenign_modify (f : State → State) : NeverBenign (modify f : Op Unit) := fun _ _ _ _ h => nomatch h
@[simp] theorem neverBenign_refuse (r : Refusal) : NeverBenign (refuse r : Op α) := fun _ _ _ _ h => nomatch h

theorem neverBenign_bind {x : Op α} {f : α → Op β} (hx : NeverBenign x) (hf : ∀ a, NeverBenign (f a)) :
    NeverBenign (x >>= f) := by
  intro s f past u h
  cases e : x.run s with
  | ok a t => exact hf a t f past u ((run_bind_ok e).symm.trans h)
  | error r t =>
    rw [run_bind_error e] at h
    cases h
    exact hx s f past u e

theorem neverBenign_ite {c : Prop} [Decidable c] {x y : Op α} (hx : NeverBenign x) (hy : NeverBenign y) :
    NeverBenign (if c then x else y) := by
  split
  · exact hx
  · exact hy

@[simp] theorem neverBenign_raise {k : FaultKind} (c : Option Word) (h : k.faultClass = .contributory) :
    NeverBenign (raise k c : Op α) := fun _ _ _ _ e => by
  cases e
  rw [h]
  decide

@[simp] theorem neverBenign_require {k : FaultKind} (ok : Bool) (c : Word) (h : k.faultClass = .contributory) :
    NeverBenign (require ok k c) := neverBenign_ite (neverBenign_pure _) (neverBenign_raise _ h)

end

/-! Memory and paging -/

theorem neverBenign_pageFault {α : Type} (lin : Word) (p w u : Bool) : NeverBenign (pageFault lin p w u : Op α) := by
  intro s f past t h
  cases h
  exact fun e => nomatch e

theorem neverBenign_memRead (a : Word) (w : Width) : NeverBenign (memRead a w) := by
  intro s f past t h
  obtain ⟨v, u, e, -⟩ := memRead_spec a w s
  exact nomatch e.symm.trans h

theorem neverBenign_setEntryBits (a old new : Word) : NeverBenign (setEntryBits a old new) :=
  neverBenign_ite (neverBenign_pure _) (neverBenign_modify _)

theorem neverBenign_walk (lin : Word) (w u : Bool) : NeverBenign (walk lin w u) := by
  refine neverBenign_bind neverBenign_get fun _ => neverBenign_bind (neverBenign_memRead _ _) fun _ => ?_
  refine neverBenign_ite (neverBenign_pageFault _ _ _ _) (neverBenign_bind (neverBenign_memRead _ _) fun _ => ?_)
  refine neverBenign_ite (neverBenign_pageFault _ _ _ _) (neverBenign_ite (neverBenign_pageFault _ _ _ _)
    (neverBenign_ite (neverBenign_pageFault _ _ _ _) ?_))
  exact neverBenign_bind (neverBenign_setEntryBits _ _ _) fun _ => neverBenign_bind (neverBenign_setEntryBits _ _ _)
    fun _ => neverBenign_bind (neverBenign_modify _) fun _ => neverBenign_pure _

theorem neverBenign_translate (lin : Word) (w u : Bool) : NeverBenign (translate lin w u) := by
  refine neverBenign_bind neverBenign_get fun s => neverBenign_ite (neverBenign_pure _) ?_
  split
  · exact neverBenign_ite (neverBenign_pageFault _ _ _ _)
      (neverBenign_ite (neverBenign_pageFault _ _ _ _) (neverBenign_pure _))
  · exact neverBenign_bind (neverBenign_walk _ _ _) fun _ => neverBenign_pure _

theorem neverBenign_linReadBytes (u : Bool) (n : Nat) (lin : Word) : NeverBenign (linReadBytes u n lin) := by
  induction n generalizing lin with
  | zero => exact neverBenign_pure _
  | succ n ih =>
    exact neverBenign_bind (neverBenign_translate _ _ _) fun _ => neverBenign_bind (neverBenign_memRead _ _) fun _ =>
      neverBenign_bind (ih _) fun _ => neverBenign_pure _

theorem neverBenign_linWriteBytes (u : Bool) (n : Nat) (lin v : Word) : NeverBenign (linWriteBytes u n lin v) := by
  induction n generalizing lin v with
  | zero => exact neverBenign_pure _
  | succ n ih =>
    exact neverBenign_bind (neverBenign_translate _ _ _) fun _ => neverBenign_bind (neverBenign_modify _) fun _ => ih _ _

@[simp] theorem neverBenign_linRead (lin : Word) (w : Width) (u : Bool) : NeverBenign (linRead lin w u) :=
  neverBenign_ite (neverBenign_bind (neverBenign_translate _ _ _) fun _ => neverBenign_memRead _ _)
    (neverBenign_linReadBytes _ _ _)

@[simp] theorem neverBenign_linWrite (lin : Word) (w : Width) (v : Word) (u : Bool) : NeverBenign (linWrite lin w v u) :=
  neverBenign_ite (neverBenign_bind (neverBenign_translate _ _ _) fun _ => neverBenign_modify _)
    (neverBenign_linWriteBytes _ _ _ _)

@[simp] theorem neverBenign_sysRead (l : Word) (w : Width) : NeverBenign (sysRead l w) := neverBenign_linRead _ _ _
@[simp] theorem neverBenign_sysWrite (l : Word) (w : Width) (v : Word) : NeverBenign (sysWrite l w v) :=
  neverBenign_linWrite _ _ _ _

/-! Segments and the stack -/

@[simp] theorem neverBenign_fetchDescriptor (sel : Half) : NeverBenign (fetchDescriptor sel) := by
  unfold fetchDescriptor
  repeat' with_reducible first | refine neverBenign_bind ?_ fun _ => ?_ | refine neverBenign_ite ?_ ?_ | split
  all_goals simp

@[simp] theorem neverBenign_fetchDescOr (sel : Half) {k : FaultKind} (c : Word)
    (h : k.faultClass = .contributory) : NeverBenign (fetchDescOr sel k c) := by
  unfold fetchDescOr
  repeat' with_reducible first | refine neverBenign_bind ?_ fun _ => ?_ | refine neverBenign_ite ?_ ?_ | split
  all_goals simp [h]

@[simp] theorem neverBenign_segWrite (i : Seg) (off : Word) (w : Width) (v : Word) : NeverBenign (segWrite i off w v) := by
  unfold segWrite segCheck
  repeat' with_reducible first | refine neverBenign_bind ?_ fun _ => ?_ | refine neverBenign_ite ?_ ?_ | split
  all_goals simp

@[simp] theorem neverBenign_push (z : Size) (v : Word) : NeverBenign (push z v) := by
  unfold push
  repeat' with_reducible first | refine neverBenign_bind ?_ fun _ => ?_ | refine neverBenign_ite ?_ ?_ | split
  all_goals simp

@[simp] theorem neverBenign_pushSel (z : Size) (v : Half) : NeverBenign (pushSel z v) := neverBenign_push _ _
@[simp] theorem neverBenign_push16 (v : Half) : NeverBenign (push16 v) := neverBenign_push _ _
@[simp] theorem neverBenign_pushError (z : Size) (c : Option Word) : NeverBenign (pushError z c) := by
  cases c <;> simp [pushError]
@[simp] theorem neverBenign_copyDescriptor (i : Seg) (sel : Half) (d : Desc) : NeverBenign (copyDescriptor i sel d) :=
  neverBenign_modify _
@[simp] theorem neverBenign_setCpl (c : BitVec 2) : NeverBenign (setCpl c) := neverBenign_modify _
@[simp] theorem neverBenign_loadCS (sel : Half) (d : Desc) (c : BitVec 2) : NeverBenign (loadCS sel d c) :=
  neverBenign_bind (neverBenign_modify _) fun _ => neverBenign_modify _
@[simp] theorem neverBenign_loadSegReal (i : Seg) (sel : Half) : NeverBenign (loadSegReal i sel) := neverBenign_modify _
@[simp] theorem neverBenign_loadSegV86 (i : Seg) (sel : Half) : NeverBenign (loadSegV86 i sel) := neverBenign_modify _
@[simp] theorem neverBenign_jumpTo (v : Word) : NeverBenign (jumpTo v) := neverBenign_modify _
@[simp] theorem neverBenign_endBlock : NeverBenign endBlock := neverBenign_modify _
@[simp] theorem neverBenign_mapFlags (f : Word → Word) : NeverBenign (mapFlags f) := neverBenign_modify _
@[simp] theorem neverBenign_putFlagOp (f : Flag) (v : Bool) : NeverBenign (putFlagOp f v) := neverBenign_modify _
@[simp] theorem neverBenign_clearSeg (i : Seg) : NeverBenign (clearSeg i) := neverBenign_modify _

/-! The task switch -/

@[simp] theorem neverBenign_tssRead (b : Word) (off : Nat) (w : Width) : NeverBenign (tssRead b off w) :=
  neverBenign_sysRead _ _
@[simp] theorem neverBenign_tssWrite (b : Word) (off : Nat) (w : Width) (v : Word) : NeverBenign (tssWrite b off w v) :=
  neverBenign_sysWrite _ _ _
@[simp] theorem neverBenign_tssSel (b : Word) (off : Nat) : NeverBenign (tssSel b off) :=
  neverBenign_bind (neverBenign_tssRead _ _ _) fun _ => neverBenign_pure _
@[simp] theorem neverBenign_requireTs (ok : Bool) (sel : Half) : NeverBenign (requireTs ok sel) :=
  neverBenign_require _ _ rfl
@[simp] theorem neverBenign_fetchDescTs (sel : Half) : NeverBenign (fetchDescTs sel) := neverBenign_fetchDescOr _ _ rfl

@[simp] theorem neverBenign_putBusyBit (a : Word) (on : Bool) : NeverBenign (putBusyBit a on) := by
  unfold putBusyBit
  repeat' with_reducible first | refine neverBenign_bind ?_ fun _ => ?_ | refine neverBenign_ite ?_ ?_ | split
  all_goals simp

@[simp] theorem neverBenign_readTaskImage (b : Word) : NeverBenign (readTaskImage b) := by
  unfold readTaskImage
  repeat' with_reducible first | refine neverBenign_bind ?_ fun _ => ?_ | refine neverBenign_ite ?_ ?_ | split
  all_goals simp

@[simp] theorem neverBenign_switchStep7 (m : TaskImage) : NeverBenign (switchStep7 m) := by
  unfold switchStep7 switchLdt switchCs switchSs switchData
  repeat' with_reducible first | refine neverBenign_bind ?_ fun _ => ?_ | refine neverBenign_ite ?_ ?_ | split
  all_goals simp

theorem neverBenign_pastCommit {α : Type} {x : Op α} (h : NeverBenign x) : NeverBenign (pastCommit x) := by
  intro s f past t e
  unfold pastCommit EStateM.run at e
  dsimp only at e
  split at e
  · cases e
  · rename_i stopped
    cases e
    exact h _ _ _ _ stopped
  · cases e

@[simp] theorem neverBenign_switchToTask (sel : Half) (d : Desc) (a : Word) (op : SwitchOp) (ret : Word) :
    NeverBenign (switchToTask sel d a op ret) := by
  unfold switchToTask switchStep1 switchStep2 switchStep3 switchStep56 switchCpl
  repeat' with_reducible first
    | refine neverBenign_bind ?_ fun _ => ?_
    | refine neverBenign_ite ?_ ?_
    | refine neverBenign_pastCommit ?_
    | split
  all_goals simp

/-! Dispatch -/

@[simp] theorem neverBenign_innerStack (k : DispatchKind) (n : BitVec 2) : NeverBenign (innerStack k n) := by
  unfold innerStack tssStack
  repeat' with_reducible first | refine neverBenign_bind ?_ fun _ => ?_ | refine neverBenign_ite ?_ ?_ | split
  all_goals simp

@[simp] theorem neverBenign_dispatchGate (k : DispatchKind) (g : Desc) (c : Option Word) (ret : Word) : NeverBenign (dispatchGate k g c ret) := by
  unfold dispatchGate dispatchInner dispatchV86 dispatchSame enterStack
  repeat' with_reducible first | refine neverBenign_bind ?_ fun _ => ?_ | refine neverBenign_ite ?_ ?_ | split
  all_goals simp

@[simp] theorem neverBenign_dispatchTask (k : DispatchKind) (g : Desc) (c : Option Word) (ret : Word) : NeverBenign (dispatchTask k g c ret) := by
  unfold dispatchTask
  repeat' with_reducible first
    | refine neverBenign_bind ?_ fun _ => ?_
    | refine neverBenign_ite ?_ ?_
    | refine neverBenign_pastCommit ?_
    | split
  all_goals simp

@[simp] theorem neverBenign_dispatch (v : Nat) (k : DispatchKind) (c : Option Word) (ret : Word) : NeverBenign (dispatch v k c ret) := by
  unfold dispatch dispatchReal dispatchProt
  repeat' with_reducible first | refine neverBenign_bind ?_ fun _ => ?_ | refine neverBenign_ite ?_ ?_ | split
  all_goals simp

/-! ### The chain of faults ends (R510) -/

/-- How many more faults a fault can be followed by in a chain that does not escalate. -/
def FaultClass.faultsLeft : FaultClass → Nat
  | .benign => 2
  | .contributory => 1
  | .page => 0

/-- A second fault that does not escalate, and is not benign, leaves fewer faults to come. -/
theorem faultsLeft_lt {k1 k2 : FaultKind} (serial : escalates k1 k2 = false) (raised : k2.faultClass ≠ .benign) :
    k2.faultClass.faultsLeft < k1.faultClass.faultsLeft := by
  unfold escalates at serial
  cases h1 : k1.faultClass <;> cases h2 : k2.faultClass <;> simp_all [FaultClass.faultsLeft]

theorem GuestFault.withExt_kind (f : GuestFault) : f.withExt.kind = f.kind := by
  unfold GuestFault.withExt
  split <;> rfl

/-- Two bounds that are long enough for what a fault can be followed by give the same outcome. -/
theorem dispatchFault_bound {m n : Nat} {f : GuestFault} {ret : Word} {s : State}
    (hm : f.kind.faultClass.faultsLeft ≤ m) (hn : f.kind.faultClass.faultsLeft ≤ n) :
    dispatchFault m f ret s = dispatchFault n f ret s := by
  induction left : f.kind.faultClass.faultsLeft using Nat.strongRecOn generalizing m n f ret s with
  | ind left ih
  cases h : (dispatch f.kind.vector .fault f.code ret).run s.latch with
  | ok _ t => rw [dispatchFault_of_ok h, dispatchFault_of_ok h]
  | error e t =>
    cases e with
    | refuse x => rw [dispatchFault_of_refuse h, dispatchFault_of_refuse h]
    | fault f2 past =>
      cases double : escalates f.kind f2.kind with
      | true => rw [dispatchFault_of_escalates h double, dispatchFault_of_escalates h double]
      | false =>
        have fewer := faultsLeft_lt double (neverBenign_dispatch _ _ _ _ _ _ _ _ h)
        obtain ⟨m, rfl⟩ := Nat.exists_eq_succ_of_ne_zero (n := m) (by omega)
        obtain ⟨n, rfl⟩ := Nat.exists_eq_succ_of_ne_zero (n := n) (by omega)
        rw [dispatchFault_of_serial h double, dispatchFault_of_serial h double]
        rw [← f2.withExt_kind] at fewer
        exact ih _ (left ▸ fewer) (by omega) (by omega) rfl

theorem faultChainIsLongEnough : Claim.FaultChainIsLongEnough := by
  intro n f ret s long
  have enough : f.kind.faultClass.faultsLeft ≤ faultChain := by cases f.kind.faultClass <;> decide
  exact dispatchFault_bound (Nat.le_trans enough long) enough

/-- Settles O53: the rollback and the dispatch of a fault, case by case; and no dispatch raises a benign fault, so a chain
that does not escalate is over after a contributory fault and a page fault. -/
theorem faultDispatch : Obligations.FaultDispatch := ⟨rollbackRestores, faultEscalation, faultChainIsLongEnough⟩

end Sys2Proof.Machine

namespace Sys2Proof.Machine

/-! ### Several fields of a task-state segment (R470) -/

/-- A field of a task-state segment: its offset and its width. -/
abbrev TssField := Nat × Width

/-- The linear range of a field in the segment at a base. -/
def TssField.range (b : Word) (f : TssField) : Word × Nat := (b + BitVec.ofNat 32 f.1, f.2.bytes)

/-- Write values to fields one after the other. -/
def tssWriteAll (b : Word) : List (TssField × Word) → Op Unit
  | [] => pure ()
  | (f, v) :: l => do
    tssWrite b f.1 f.2 v
    tssWriteAll b l

/-- Each field ends before the later ones begin, and all lie within the size of a page. -/
def TssField.InOrder (l : List TssField) : Prop :=
  (l.Pairwise fun f g => f.1 + f.2.bytes ≤ g.1) ∧ ∀ f ∈ l, f.1 + f.2.bytes ≤ 4096

theorem TssField.InOrder.tail {f : TssField} {l : List TssField} (h : TssField.InOrder (f :: l)) : TssField.InOrder l :=
  ⟨(List.pairwise_cons.1 h.1).2, fun g hg => h.2 g (List.mem_cons_of_mem _ hg)⟩

/-- A byte of a field lies outside the later fields. -/
theorem TssField.InOrder.outside {b : Word} {f : TssField} {l : List TssField} (h : TssField.InOrder (f :: l)) {t : State}
    {m : Nat} {p : Word} (i : t.Inv) (hm : m < f.2.bytes)
    (hp : t.physAddr (b + BitVec.ofNat 32 f.1 + BitVec.ofNat 32 m) true = some p) :
    t.outside (l.map (TssField.range b)) p := by
  intro r hr j hj hq
  obtain ⟨g, hg, rfl⟩ := List.mem_map.1 hr
  have before := (List.pairwise_cons.1 h.1).1 g hg
  have inside := h.2 g (List.mem_cons_of_mem _ hg)
  have offset (k n : Nat) : (b + BitVec.ofNat 32 k + BitVec.ofNat 32 n).toNat % 4096 = (b.toNat + k + n) % 4096 := by
    have outer := offset_add (b + BitVec.ofNat 32 k) (BitVec.ofNat 32 n)
    have inner := offset_add b (BitVec.ofNat 32 k)
    have kth := offset_ofNat k
    have nth := offset_ofNat n
    omega
  have here := offset f.1 m
  have there := offset g.1 j
  refine physAddr_ne_of_offset i ?_ hp hq rfl
  simp only [TssField.range] at hj ⊢
  omega

/-- The values written stand in the fields, and nothing else was stored. -/
theorem tssWriteAll_ok {b : Word} {l : List (TssField × Word)} {s t : State} (h : (tssWriteAll b l).run s = .ok () t)
    (apart : TssField.InOrder (l.map Prod.fst)) : Effect s t ((l.map Prod.fst).map (TssField.range b)) ∧
      (s.Inv → ∀ e ∈ l, Kept s t (b + BitVec.ofNat 32 e.1.1) e.1.2 e.2) := by
  induction l generalizing s with
  | nil =>
    cases h
    exact ⟨.refl _, fun _ e he => nomatch he⟩
  | cons e l ih =>
    obtain ⟨_, u, first, rest⟩ := run_bind_inv h
    obtain ⟨effect, stored⟩ := linWrite_effect first
    obtain ⟨later, kept⟩ := ih rest apart.tail
    refine ⟨effect.trans later, fun inv d hd => ?_⟩
    obtain rfl | hd := List.mem_cons.1 hd
    · exact (stored inv).kept effect.events later (effect.inv inv) fun m p hm hp =>
        apart.outside (later.inv (effect.inv inv)) hm hp
    · exact (kept (effect.inv inv) d hd).since effect.events later.events

/-! ### The outgoing task (R477) -/

/-- The doubleword fields that a task switch saves, with their values. -/
def savedLongs (op : SwitchOp) (ret : Word) (s : State) : List (Nat × Word) :=
  [(0x1C, s.cr3), (0x20, ret), (0x24, savedFlags op s.flags), (0x28, s.regs.eax), (0x2C, s.regs.ecx),
    (0x30, s.regs.edx), (0x34, s.regs.ebx), (0x38, s.regs.esp), (0x3C, s.regs.ebp), (0x40, s.regs.esi),
    (0x44, s.regs.edi)]

/-- The selectors that a task switch saves. -/
def savedShorts (s : State) : List (Nat × Word) :=
  [(0x48, s.segs.es.selector.setWidth 32), (0x4C, s.segs.cs.selector.setWidth 32),
    (0x50, s.segs.ss.selector.setWidth 32), (0x54, s.segs.ds.selector.setWidth 32),
    (0x58, s.segs.fs.selector.setWidth 32), (0x5C, s.segs.gs.selector.setWidth 32)]

/-- All that step 2 writes, in its order. -/
def savedFields (op : SwitchOp) (ret : Word) (s : State) : List (TssField × Word) :=
  ((savedLongs op ret s).map fun e => ((e.1, .w32), e.2)) ++ (savedShorts s).map fun e => ((e.1, .w16), e.2)

theorem run_switchStep2 (op : SwitchOp) (ret : Word) (s : State) :
    (switchStep2 op ret).run s = (tssWriteAll s.tr.base (savedFields op ret s)).run s := by
  unfold switchStep2
  rw [run_bind_ok (run_get s)]
  simp [savedFields, savedLongs, savedShorts, tssWriteAll]

theorem savedFields_inOrder (op : SwitchOp) (ret : Word) (s : State) :
    TssField.InOrder ((savedFields op ret s).map Prod.fst) := by
  have names : (savedFields op ret s).map Prod.fst =
      [(0x1C, .w32), (0x20, .w32), (0x24, .w32), (0x28, .w32), (0x2C, .w32), (0x30, .w32), (0x34, .w32), (0x38, .w32),
        (0x3C, .w32), (0x40, .w32), (0x44, .w32), (0x48, .w16), (0x4C, .w16), (0x50, .w16), (0x54, .w16), (0x58, .w16),
        (0x5C, .w16)] := rfl
  rw [names]
  unfold TssField.InOrder
  decide

/-- Settles O54: step 2 is a list of writes to fields that lie apart in their page. -/
theorem taskSaved : Obligations.TaskSaved := by
  intro op ret s t inv h fl sel longs shorts
  rw [run_switchStep2] at h
  obtain ⟨effect, kept⟩ := tssWriteAll_ok h (savedFields_inOrder op ret s)
  have kept := kept inv
  have isLongs : savedLongs op ret s = longs := rfl
  have isShorts : savedShorts s = shorts := rfl
  simp only [savedFields, isLongs, isShorts] at kept effect
  refine ⟨fun e he => ?_, fun e he => ?_, ?_⟩
  · exact kept ((e.1, .w32), e.2) (List.mem_append_left _ (List.mem_map_of_mem he))
  · exact kept ((e.1, .w16), e.2) (List.mem_append_right _ (List.mem_map_of_mem he))
  · exact effect.accessed inv

end Sys2Proof.Machine

namespace Sys2Proof.Machine

/-- One choice under two conditions that mean the same. -/
theorem ite_of_iff {α : Type} {p q : Prop} [Decidable p] [Decidable q] {a b : α} (h : p ↔ q) :
    (if p then a else b) = if q then a else b := ite_congr (propext h) (fun _ => rfl) fun _ => rfl

/-! ### The image of the incoming task (R479) -/

/-- Read fields of a task-state segment one after the other. -/
def tssReadAll (b : Word) : List TssField → Op (List Word)
  | [] => pure []
  | f :: l => do
    let v ← tssRead b f.1 f.2
    let vs ← tssReadAll b l
    pure (v :: vs)

/-- The values are what memory holds in the fields, one by one. -/
inductive FieldsLoaded (s t : State) (b : Word) : List TssField → List Word → Prop
  | nil : FieldsLoaded s t b [] []
  | cons {f : TssField} {v : Word} {l : List TssField} {vs : List Word}
      (head : Loaded s t (b + BitVec.ofNat 32 f.1) f.2 v) (tail : FieldsLoaded s t b l vs) :
      FieldsLoaded s t b (f :: l) (v :: vs)

/-- What was read after accesses that store nothing was there before them. -/
theorem FieldsLoaded.since {s u t : State} {b : Word} {l : List TssField} {vs : List Word} (h : FieldsLoaded u t b l vs)
    (effect : Effect s u []) (inv : s.Inv) (events : t.ioEvents <:+ u.ioEvents) : FieldsLoaded s t b l vs := by
  induction h with
  | nil => exact .nil
  | cons head _ ih => exact .cons (head.since effect inv events) ih

/-- The values read are what memory held in the fields, and nothing was stored. -/
theorem tssReadAll_ok {b : Word} {l : List TssField} {vs : List Word} {s t : State}
    (h : (tssReadAll b l).run s = .ok vs t) : Effect s t [] ∧ ReadsPersist s t ∧
      (s.Inv → FieldsLoaded s t b l vs) := by
  induction l generalizing s vs with
  | nil =>
    cases h
    exact ⟨.refl _, fun _ _ hp => hp, fun _ => .nil⟩
  | cons f l ih =>
    obtain ⟨v, u, first, h⟩ := run_bind_inv h
    obtain ⟨rest, w, read, h⟩ := run_bind_inv h
    cases h
    obtain ⟨effect, loaded⟩ := linRead_effect first
    obtain ⟨later, reads, values⟩ := ih read
    refine ⟨effect.trans later, fun lin p hp => reads lin p (linRead_readsPersist first lin p hp), fun inv => ?_⟩
    exact .cons ((loaded inv).later effect.events later.events reads)
      ((values (effect.inv inv)).since effect inv later.events)

/-- The fields that step 4 reads, in its order. -/
def imageFields : List TssField :=
  [(0x1C, .w32), (0x20, .w32), (0x24, .w32), (0x28, .w32), (0x2C, .w32), (0x30, .w32), (0x34, .w32), (0x38, .w32),
    (0x3C, .w32), (0x40, .w32), (0x44, .w32), (0x48, .w16), (0x4C, .w16), (0x50, .w16), (0x54, .w16), (0x58, .w16),
    (0x5C, .w16), (0x60, .w16)]

/-- The image that the values of the fields make. -/
def imageOf (vs : List Word) : TaskImage :=
  let sel (k : Nat) : Half := (vs.getD k 0).setWidth 16
  { cr3 := vs.getD 0 0, eip := vs.getD 1 0, fl := vs.getD 2 0
    regs := { eax := vs.getD 3 0, ecx := vs.getD 4 0, edx := vs.getD 5 0, ebx := vs.getD 6 0, esp := vs.getD 7 0
              ebp := vs.getD 8 0, esi := vs.getD 9 0, edi := vs.getD 10 0 }
    es := sel 11, cs := sel 12, ss := sel 13, ds := sel 14, fs := sel 15, gs := sel 16, ldt := sel 17 }

theorem readTaskImage_eq (b : Word) :
    readTaskImage b = (do let vs ← tssReadAll b imageFields; pure (imageOf vs) : Op TaskImage) := by
  simp [readTaskImage, tssSel, imageFields, tssReadAll, imageOf]

/-- A word loaded is no wider than the selector it is cut to. -/
theorem Loaded.selector {s t : State} {lin v : Word} (h : Loaded s t lin .w16 v) :
    Loaded s t lin .w16 ((v.setWidth 16 : Half).setWidth 32) := by
  have small := toNat_lt_of_fits h.1
  have same : (v.setWidth 16 : Half).setWidth 32 = v := by
    apply BitVec.eq_of_toNat_eq
    simp only [BitVec.toNat_setWidth, Width.bits] at small ⊢
    omega
  rwa [same]

theorem taskImageRead : Claim.TaskImageRead := by
  intro b s t m inv h longs shorts
  rw [readTaskImage_eq] at h
  obtain ⟨vs, u, read, h⟩ := run_bind_inv h
  obtain ⟨effect, -, values⟩ := tssReadAll_ok read
  have values := values inv
  cases h
  unfold imageFields at values
  obtain _ | ⟨cr3, _ | ⟨eip, _ | ⟨fl, _ | ⟨eax, _ | ⟨ecx, _ | ⟨edx, _ | ⟨ebx, _ | ⟨esp, _ | ⟨ebp, _ | ⟨esi, _ | ⟨edi,
    _ | ⟨es, _ | ⟨cs, _ | ⟨ss, _ | ⟨ds, _ | ⟨fs, _ | ⟨gs, _ | ⟨ldt, ⟨⟩⟩⟩⟩⟩⟩⟩⟩⟩⟩⟩⟩⟩⟩⟩⟩⟩⟩⟩ := values
  refine ⟨?_, ?_, effect.accessed inv⟩
  · simp only [longs, List.forall_mem_cons]
    exact ⟨cr3, eip, fl, eax, ecx, edx, ebx, esp, ebp, esi, edi, fun _ h => nomatch h⟩
  · simp only [shorts, List.forall_mem_cons]
    exact ⟨es.selector, cs.selector, ss.selector, ds.selector, fs.selector, gs.selector, ldt.selector,
      fun _ h => nomatch h⟩

/-! ### The links and the busy bits (R476, R478, R480) -/

theorem SwitchOp.nests_iff (op : SwitchOp) : op.nests = true ↔ op = .call ∨ op = .interrupt := by cases op <;> decide

theorem SwitchOp.leaves_eq (op : SwitchOp) : op.leaves = !op.nests := by cases op <;> rfl

/-- The busy bit is written into the byte read before, and nothing else is. -/
theorem putBusyBit_ok {a : Word} {on : Bool} {s t : State} (h : (putBusyBit a on).run s = .ok () t) :
    ∃ v u, (sysRead (a + 5) .w8).run s = .ok v u ∧ Effect s t [(a + 5, 1)] ∧
      (s.Inv → Stored s t (a + 5) .w8 (if on then v ||| 2 else v &&& 0xFD)) := by
  obtain ⟨v, u, read, write⟩ := run_bind_inv h
  obtain ⟨effect, stored⟩ := linWrite_effect write
  have before := sysRead_ok read
  exact ⟨v, u, read, before.trans effect, fun inv => (stored (before.inv inv)).since before.events effect.events⟩

/-- The state in which NT is set where the new task is nested (R480). -/
def State.nested (s : State) (op : SwitchOp) : State :=
  if op.nests then s.putFlag .nt true else s

theorem run_switchStep56 (op : SwitchOp) (a : Word) (s : State) : (switchStep56 op a).run s =
    ((if op ≠ .iret then putBusyBit a true else pure ()) >>= fun _ =>
      modify fun s => { s with tr := { s.tr with busy := true } } : Op Unit).run (s.nested op) := by
  unfold State.nested
  cases op <;> rfl

/-- Steps 5 and 6 that end: NT, the descriptor's busy bit, and the busy bit of the task register. -/
theorem switchStep56_ok {op : SwitchOp} {a : Word} {s t : State} (h : (switchStep56 op a).run s = .ok () t) :
    ∃ y, t = { y with tr := { s.tr with busy := true } } ∧
      ((op = .iret ∧ y = s) ∨ (op ≠ .iret ∧ (putBusyBit a true).run (s.nested op) = .ok () y)) := by
  rw [run_switchStep56] at h
  obtain ⟨_, y, marked, h⟩ := run_bind_inv h
  cases h
  by_cases iret : op = .iret
  · subst iret
    cases marked
    exact ⟨s, rfl, .inl ⟨rfl, rfl⟩⟩
  · rw [if_pos iret] at marked
    obtain ⟨v, u, -, effect, -⟩ := putBusyBit_ok marked
    obtain ⟨-, -, -, -, -, -, -, -, -, tr, -⟩ := effect.only.fields
    have tr : y.tr = s.tr := tr.trans (by unfold State.nested; split <;> rfl)
    exact ⟨y, by rw [← tr], .inr ⟨iret, marked⟩⟩

theorem State.Inv.nested {s : State} (i : s.Inv) (op : SwitchOp) : (s.nested op).Inv := by
  unfold State.nested
  split
  · exact ⟨i.mem, i.tlb, flagsOk_putFlag i.flags _ _, i.paging, i.map⟩
  · exact i

theorem taskLinksWritten : Claim.TaskLinksWritten := by
  intro op d a s t inv nests out
  refine ⟨fun h => ?_, fun h => ?_, fun h => ?_⟩
  · unfold switchStep1 at h
    rw [op.leaves_eq] at h
    refine ⟨fun yes => ?_, fun no => ?_⟩
    · rw [op.nests_iff.2 yes] at h
      cases h
      rfl
    · rw [Bool.eq_false_iff.2 (mt op.nests_iff.1 no)] at h
      obtain ⟨v, u, read, effect, stored⟩ := putBusyBit_ok ((run_bind_ok (run_get s)).symm.trans h)
      exact ⟨v, u, read, effect.accessed inv, stored inv⟩
  · unfold switchStep3 at h
    refine ⟨fun yes => ?_, fun no => ?_⟩
    · rw [op.nests_iff.2 yes] at h
      obtain ⟨effect, stored⟩ := linWrite_effect ((run_bind_ok (run_get s)).symm.trans h)
      have base : d.base + BitVec.ofNat 32 0 = d.base := BitVec.add_zero _
      rw [base] at effect stored
      exact ⟨effect.accessed inv, stored inv⟩
    · rw [Bool.eq_false_iff.2 (mt op.nests_iff.1 no)] at h
      cases h
      rfl
  · intro s1
    have start : s.nested op = s1 := ite_of_iff op.nests_iff
    obtain ⟨y, rfl, ⟨iret, rfl⟩ | ⟨other, marked⟩⟩ := switchStep56_ok h
    · exact ⟨fun _ => rfl, fun other => absurd iret other⟩
    · refine ⟨fun iret => absurd iret other, fun _ => ?_⟩
      obtain ⟨v, u, read, effect, stored⟩ := putBusyBit_ok marked
      have began := inv.nested op
      rw [start] at read effect stored began
      exact ⟨v, u, y, read, rfl, effect.accessed began, stored began⟩

end Sys2Proof.Machine

namespace Sys2Proof.Machine

/-! ### The segment loads of a task switch (R482) -/

/-- `T(sel)`: the fault that a load of a task switch raises (R482). -/
def tsStop (sel : Half) : Stop := .fault { kind := .ts, code := some (selCode sel), addr := none } false

theorem run_requireTs_then {β : Type} (ok : Bool) (sel : Half) (f : Unit → Op β) (s : State) :
    (requireTs ok sel >>= f).run s = if ok = true then (f ()).run s else .error (tsStop sel) s := by
  cases ok <;> rfl

/-- Two tests with one fault are one test. -/
theorem run_requireTs_and {β : Type} (a b : Bool) (sel : Half) (f : Unit → Op β) (s : State) :
    (requireTs a sel >>= fun _ => requireTs b sel >>= f).run s = (requireTs (a && b) sel >>= f).run s :=
  run_require_and a b .ts (selCode sel) f s

section
variable {sel : Half} {s u : State} {d : Desc} {a : Word} {i : Seg}

theorem run_fetchDescTs_found (h : (fetchDescriptor sel).run s = .ok (some (d, a)) u) :
    (fetchDescTs sel).run s = .ok (d, a) u := run_fetchDescOr_found h

theorem run_fetchDescTs_none (h : (fetchDescriptor sel).run s = .ok none u) :
    (fetchDescTs sel).run s = .error (tsStop sel) u := run_fetchDescOr_none h

theorem run_switchLdt_null (null : nullSel sel = true) : (switchLdt sel).run s = .ok () s := by
  unfold switchLdt
  rw [if_pos null]
  rfl

theorem run_switchData_null (null : nullSel sel = true) : (switchData i sel).run s = .ok () s := by
  unfold switchData
  rw [if_pos null]
  rfl

theorem run_switchCs_null (null : nullSel sel = true) : (switchCs sel).run s = .error (tsStop sel) s :=
  run_require_fail (by rw [null]; rfl)

theorem run_switchSs_null (null : nullSel sel = true) : (switchSs sel).run s = .error (tsStop sel) s :=
  run_require_fail (by rw [null]; rfl)

variable (named : nullSel sel = false)
include named

theorem run_switchLdt_local (ti : selTI sel = true) : (switchLdt sel).run s = .error (tsStop sel) s := by
  unfold switchLdt
  rw [if_neg (Bool.eq_false_iff.1 named)]
  exact run_require_fail (by rw [ti]; rfl)

/-- A selector of the GDT leads LDTR's load to the descriptor. -/
theorem run_switchLdt_global (ti : selTI sel = false) : (switchLdt sel).run s =
    (fetchDescTs sel >>= fun x => do
      requireTs (x.1.cls = .ldt && x.1.p) sel
      modify fun s => { s with ldtr := { s.ldtr with base := x.1.base, limit := x.1.limit, valid := true } } :
        Op Unit).run s := by
  unfold switchLdt
  rw [if_neg (Bool.eq_false_iff.1 named)]
  exact run_require_pass (by rw [ti]; rfl)

theorem run_switchCs_named : (switchCs sel).run s =
    (fetchDescTs sel >>= fun x => do
      requireTs x.1.isCode sel
      requireTs (x.1.codeFits (rpl sel)) sel
      requireTs x.1.p sel
      loadCS sel x.1 (rpl sel) : Op Unit).run s := run_require_pass (by rw [named]; rfl)

theorem run_switchSs_named : (switchSs sel).run s =
    (fetchDescTs sel >>= fun x => do
      let s ← get
      requireTs (rpl sel = s.cpl && x.1.dpl = s.cpl) sel
      requireTs (x.1.writableData && x.1.p) sel
      copyDescriptor .ss sel x.1 : Op Unit).run s := run_require_pass (by rw [named]; rfl)

theorem run_switchData_named : (switchData i sel).run s =
    (fetchDescTs sel >>= fun x => do
      let s ← get
      requireTs (usable x.1 sel s.cpl && x.1.p) sel
      copyDescriptor i sel x.1 : Op Unit).run s := by
  unfold switchData
  rw [if_neg (Bool.eq_false_iff.1 named)]

variable (h : (fetchDescriptor sel).run s = .ok (some (d, a)) u)
include h

theorem run_switchLdt_found (ti : selTI sel = false) : (switchLdt sel).run s =
    if d.cls = .ldt ∧ d.p = true then
      .ok () { u with ldtr := { u.ldtr with base := d.base, limit := d.limit, valid := true } }
    else .error (tsStop sel) u := by
  rw [run_switchLdt_global named ti, run_bind_ok (run_fetchDescTs_found h), run_requireTs_then]
  exact ite_of_iff (by simp)

theorem run_switchCs_found : (switchCs sel).run s =
    if d.isCode = true ∧ (if d.conforming then d.dpl.toNat ≤ (rpl sel).toNat else d.dpl = rpl sel) ∧ d.p = true then
      .ok () { u.setSeg .cs (codeReg sel d (rpl sel)) with cpl := rpl sel } else .error (tsStop sel) u := by
  rw [run_switchCs_named named, run_bind_ok (run_fetchDescTs_found h), run_requireTs_and, run_requireTs_and,
    run_requireTs_then]
  exact ite_of_iff (by rw [Bool.and_eq_true, Bool.and_eq_true, codeFits_iff, and_assoc])

theorem run_switchSs_found : (switchSs sel).run s =
    if rpl sel = s.cpl ∧ d.dpl = s.cpl ∧ d.cls = .data ∧ d.type.getLsbD 1 = true ∧ d.p = true then
      .ok () (u.setSeg .ss (.ofDesc sel d)) else .error (tsStop sel) u := by
  rw [run_switchSs_named named, run_bind_ok (run_fetchDescTs_found h), run_bind_ok (run_get u), run_requireTs_and,
    run_requireTs_then, (fetchDescriptor_ok h).only.cpl]
  exact ite_of_iff (by simp [Desc.writableData, and_assoc])

end

/-- A descriptor of a code or a data segment is no system descriptor (R92). -/
theorem Desc.s_of_cls {d : Desc} (h : d.cls = .data ∨ d.cls = .code) : d.s = true := by
  cases system : d.s with
  | true => rfl
  | false =>
    unfold Desc.cls at h
    rw [system, if_neg Bool.false_ne_true] at h
    split at h <;> simp at h

/-- The two parts of the test (R106). -/
theorem usable_iff (d : Desc) (sel : Half) (cpl : BitVec 2) : usable d sel cpl = true ↔
    (d.cls = .data ∨ (d.cls = .code ∧ d.type.getLsbD 1 = true)) ∧
      ((d.cls = .code ∧ d.type.getLsbD 2 = true) ∨ max cpl.toNat (rpl sel).toNat ≤ d.dpl.toNat) := by
  have segment : (d.cls = .data ∨ (d.cls = .code ∧ d.type.getLsbD 1 = true)) → d.s = true :=
    fun h => Desc.s_of_cls (h.imp_right And.left)
  simp only [usable, Desc.conforming, Bool.and_eq_true, Bool.or_eq_true, decide_eq_true_eq]
  constructor
  · exact fun h => ⟨h.1.2, h.2⟩
  · exact fun h => ⟨⟨segment h.1, h.1⟩, h.2⟩

theorem run_switchData_found {sel : Half} {s u : State} {d : Desc} {a : Word} {i : Seg} (named : nullSel sel = false)
    (h : (fetchDescriptor sel).run s = .ok (some (d, a)) u) : (switchData i sel).run s =
      if (d.cls = .data ∨ (d.cls = .code ∧ d.type.getLsbD 1 = true)) ∧
          ((d.cls = .code ∧ d.type.getLsbD 2 = true) ∨ max s.cpl.toNat (rpl sel).toNat ≤ d.dpl.toNat) ∧ d.p = true then
        .ok () (u.setSeg i (.ofDesc sel d)) else .error (tsStop sel) u := by
  rw [run_switchData_named named, run_bind_ok (run_fetchDescTs_found h), run_bind_ok (run_get u), run_requireTs_then,
    (fetchDescriptor_ok h).only.cpl]
  exact ite_of_iff (by rw [Bool.and_eq_true, usable_iff, and_assoc])

/-- The load of LDTR changes, beside memory, the hidden part of LDTR only. -/
theorem switchLdt_ok {sel : Half} {s t : State} (h : (switchLdt sel).run s = .ok () t) :
    ∃ u, Effect s u [] ∧ t = { u with ldtr := t.ldtr } ∧ t.ldtr.selector = s.ldtr.selector := by
  cases null : nullSel sel with
  | true =>
    cases (run_switchLdt_null null).symm.trans h
    exact ⟨s, .refl s, rfl, rfl⟩
  | false =>
    unfold switchLdt at h
    rw [if_neg (Bool.eq_false_iff.1 null)] at h
    obtain ⟨⟨d, a⟩, u, fetched, h⟩ := run_bind_inv (run_require_then_inv h)
    cases run_require_then_inv h
    have effect := fetchDescOr_ok fetched
    obtain ⟨-, -, -, -, -, -, -, -, ldtr, -⟩ := effect.only.fields
    exact ⟨u, effect, rfl, (congrArg Ldtr.selector ldtr :)⟩

theorem switchLdt_vm {sel : Half} {s t : State} (h : (switchLdt sel).run s = .ok () t) : t.vm = s.vm := by
  obtain ⟨u, effect, same, -⟩ := switchLdt_ok h
  obtain ⟨-, flags, -⟩ := effect.only.fields
  rw [same]
  exact congrArg (getFlag · .vm) flags

/-- After the load of LDTR the mode of the incoming task says which path the others take. -/
theorem run_switchStep7_ldt {m : TaskImage} {s u : State} (h : (switchLdt m.ldt).run s = .ok () u) :
    (switchStep7 m).run s = (if s.vm then do
        loadSegV86 .cs m.cs
        loadSegV86 .ss m.ss
        loadSegV86 .es m.es
        loadSegV86 .ds m.ds
        loadSegV86 .fs m.fs
        loadSegV86 .gs m.gs
      else do
        switchCs m.cs
        switchSs m.ss
        switchData .es m.es
        switchData .ds m.ds
        switchData .fs m.fs
        switchData .gs m.gs : Op Unit).run u := by
  rw [← switchLdt_vm h]
  exact (run_bind_ok h).trans (run_bind_ok (run_get u))

theorem run_switchStep7_error {m : TaskImage} {s u : State} {e : Stop} (h : (switchLdt m.ldt).run s = .error e u) :
    (switchStep7 m).run s = .error e u := run_bind_error h

theorem switchStep7_prot {m : TaskImage} {s : State} (prot : s.vm = false) : (switchStep7 m).run s = (do
    switchLdt m.ldt
    switchCs m.cs
    switchSs m.ss
    switchData .es m.es
    switchData .ds m.ds
    switchData .fs m.fs
    switchData .gs m.gs : Op Unit).run s := by
  cases h : (switchLdt m.ldt).run s with
  | ok _ u => rw [run_switchStep7_ldt h, prot, run_bind_ok h]; rfl
  | error e u => rw [run_switchStep7_error h, run_bind_error h]

theorem taskSegmentLoads : Claim.TaskSegmentLoads := by
  constructor
  · intro sel s i ts inGdt
    refine ⟨fun null => ?_, fun named notGlobal => ?_, fun u named h => ?_, fun d a u named h => ?_⟩
    · exact ⟨run_switchLdt_null null, run_switchData_null null, run_switchCs_null null, run_switchSs_null null⟩
    · exact run_switchLdt_local named (Bool.not_eq_false _ ▸ notGlobal)
    · have missing := run_fetchDescTs_none h
      exact ⟨fun global => (run_switchLdt_global named global).trans (run_bind_error missing),
        (run_switchCs_named named).trans (run_bind_error missing),
        (run_switchSs_named named).trans (run_bind_error missing),
        (run_switchData_named named).trans (run_bind_error missing)⟩
    · exact ⟨run_switchLdt_found named h, run_switchCs_found named h, run_switchSs_found named h,
        run_switchData_found named h⟩
  · intro m s
    refine ⟨switchStep7_prot, fun u v86 h => ?_, fun e u _ => run_switchStep7_error⟩
    have vm : s.vm = true := v86
    rw [run_switchStep7_ldt h, vm]
    rfl

end Sys2Proof.Machine

namespace Sys2Proof.Machine

/-! ### The order of the steps (R475, R482) -/

section
variable {α : Type} {x : Op α} {s t : State}

theorem run_pastCommit_ok {a : α} (h : x.run s = .ok a t) : (pastCommit x).run s = .ok a t := by
  unfold EStateM.run at h
  simp only [pastCommit, EStateM.run, h]

theorem run_pastCommit_fault {f : GuestFault} {past : Bool} (h : x.run s = .error (.fault f past) t) :
    (pastCommit x).run s = .error (.fault f true) t := by
  unfold EStateM.run at h
  simp only [pastCommit, EStateM.run, h]

theorem pastCommit_ok {a : α} (h : (pastCommit x).run s = .ok a t) : x.run s = .ok a t := by
  cases e : x.run s with
  | ok b u => exact (run_pastCommit_ok e).symm.trans h
  | error r u =>
    unfold EStateM.run at e
    cases r <;> simp only [pastCommit, EStateM.run, e] at h <;> cases h

end

/-- The steps up to the commit point that write (R476 to R478). -/
def leaveTask (op : SwitchOp) (retEip : Word) (d : Desc) : Op Unit := do
  switchStep1 op
  switchStep2 op retEip
  switchStep3 op d

/-- The steps from the commit point on: the image is loaded, then steps 5 to 7 (R479 to R482). -/
def enterTask (sel : Half) (d : Desc) (a : Word) (op : SwitchOp) (m : TaskImage) : Op Unit := do
  modify (·.loadTask sel d m)
  switchStep56 op a
  switchCpl m
  switchStep7 m

section
variable {sel : Half} {d : Desc} {a ret : Word} {op : SwitchOp} {s : State}

/-- Whether the task switch meets a 16-bit task-state segment (R473). -/
theorem small_iff : (d.tss16 || !s.tr.type32) = true ↔
    d.cls = .tss16Avail ∨ d.cls = .tss16Busy ∨ s.tr.type32 = false := by simp [Desc.tss16, or_assoc]

theorem run_switchToTask_small (small : (d.tss16 || !s.tr.type32) = true) :
    (switchToTask sel d a op ret).run s = .error (.refuse .tss16) s := by
  unfold switchToTask
  rw [run_bind_ok (run_get s), if_pos small]
  rfl

theorem run_switchToTask_limit (large : (d.tss16 || !s.tr.type32) = false) (short : d.limit.toNat < 103) :
    (switchToTask sel d a op ret).run s = .error (tsStop sel) s := by
  unfold switchToTask
  rw [run_bind_ok (run_get s), if_neg (Bool.eq_false_iff.1 large)]
  exact run_require_fail (decide_eq_false (Nat.not_le_of_lt short))

theorem run_switchToTask (large : (d.tss16 || !s.tr.type32) = false) (limit : 103 ≤ d.limit.toNat) :
    (switchToTask sel d a op ret).run s =
      ((leaveTask op ret d >>= fun _ => readTaskImage d.base) >>= fun m =>
        pastCommit (enterTask sel d a op m) >>= fun _ => endBlock : Op Unit).run s := by
  unfold switchToTask
  rw [run_bind_ok (run_get s), if_neg (Bool.eq_false_iff.1 large), run_require_pass (decide_eq_true limit)]
  simp only [leaveTask, bind_assoc]
  rfl

theorem run_switchToTask_read {m : TaskImage} {u : State} (large : (d.tss16 || !s.tr.type32) = false)
    (limit : 103 ≤ d.limit.toNat) (h : (leaveTask op ret d >>= fun _ => readTaskImage d.base).run s = .ok m u) :
    (switchToTask sel d a op ret).run s = (pastCommit (enterTask sel d a op m) >>= fun _ => endBlock : Op Unit).run u :=
  (run_switchToTask large limit).trans (run_bind_ok h)

end

section
variable {sel : Half} {d : Desc} {a : Word} {op : SwitchOp} {m : TaskImage} {s t w : State}

theorem run_switchCpl (m : TaskImage) (s : State) :
    (switchCpl m).run s = .ok () { s with cpl := if s.vm then 3 else rpl m.cs } := rfl

/-- Loading a whole flag word gives every flag of it (R26). -/
theorem getFlag_setFlags_all (f v : Word) (q : Flag) : getFlag (setFlags f v 0xFFFFFFFF) q = v.getLsbD q.bit := by
  have all : (0xFFFFFFFF : Word).getLsbD q.bit = true := by cases q <;> decide
  unfold getFlag
  rw [setFlags_bit _ _ _ _ q.bit_lt, all, q.capMask_bit]
  rfl

theorem iopl_setFlags_all (f v : Word) : iopl (setFlags f v 0xFFFFFFFF) = v.extractLsb' 12 2 := by
  have all : ∀ k, k < 2 → ((0xFFFFFFFF : Word).getLsbD (12 + k) && Config.capMask.getLsbD (12 + k)) = true := by decide
  apply BitVec.eq_of_getLsbD_eq
  intro k hk
  simp only [iopl, BitVec.getLsbD_extractLsb', hk, decide_true, Bool.true_and]
  rw [setFlags_bit _ _ _ _ (by omega), all k hk]
  rfl

/-- The registers that steps 5 and 6 leave: NT is set where the task is nested, the task register is busy. -/
structure Marked (op : SwitchOp) (s t : State) : Prop where
  regs     : t.regs = s.regs
  eip      : t.eip = s.eip
  cr3      : t.cr3 = s.cr3
  segs     : t.segs = s.segs
  selector : t.ldtr.selector = s.ldtr.selector
  flags    : t.flags = (s.nested op).flags
  tr       : t.tr = { s.tr with busy := true }

theorem switchStep56_marked (h : (switchStep56 op a).run s = .ok () t) : Marked op s t := by
  obtain ⟨y, rfl, ⟨iret, rfl⟩ | ⟨-, marked⟩⟩ := switchStep56_ok h
  · subst iret
    exact ⟨rfl, rfl, rfl, rfl, rfl, rfl, rfl⟩
  · obtain ⟨v, u, -, effect, -⟩ := putBusyBit_ok marked
    obtain ⟨regs, flags, eip, -, segs, -, -, -, ldtr, -, -, cr3, -⟩ := effect.only.fields
    have same : (s.nested op).regs = s.regs ∧ (s.nested op).eip = s.eip ∧ (s.nested op).segs = s.segs ∧
        (s.nested op).ldtr = s.ldtr ∧ (s.nested op).cr3 = s.cr3 := by
      unfold State.nested
      split <;> exact ⟨rfl, rfl, rfl, rfl, rfl⟩
    obtain ⟨regs', eip', segs', ldtr', cr3'⟩ := same
    exact ⟨regs.trans regs', eip.trans eip', cr3.trans cr3', segs.trans segs',
      congrArg Ldtr.selector (ldtr.trans ldtr'), flags, rfl⟩

/-- NT set by a call or an interrupt, the other flags as loaded. -/
theorem getFlag_nested (s : State) (op : SwitchOp) (q : Flag) : getFlag (s.nested op).flags q =
    if q = .nt ∧ (op = .call ∨ op = .interrupt) then true else getFlag s.flags q := by
  simp only [← op.nests_iff]
  unfold State.nested
  cases op.nests with
  | false => simp
  | true =>
    by_cases nt : q = .nt
    · subst nt
      simp
    · simp [nt, getFlag_putFlag_other _ _ _ _ nt]

theorem iopl_nested (s : State) (op : SwitchOp) : iopl (s.nested op).flags = iopl s.flags := by
  unfold State.nested
  split
  · exact iopl_putFlag _ _ _
  · rfl

/-- Past the commit point, with the image loaded and steps 5 and 6 done, what is left is CPL and step 7. -/
theorem run_enterTask (h : (switchStep56 op a).run (s.loadTask sel d m) = .ok () w) :
    (enterTask sel d a op m).run s =
      (switchStep7 m).run { w with cpl := if m.fl.getLsbD 17 then 3 else rpl m.cs } := by
  have vm : w.vm = m.fl.getLsbD 17 := by
    have flags := (switchStep56_marked h).flags
    have loaded := getFlag_nested (s.loadTask sel d m) op .vm
    rw [← flags] at loaded
    exact loaded.trans (getFlag_setFlags_all s.flags m.fl .vm)
  rw [← vm]
  exact (run_bind_ok (run_modify _ s)).trans ((run_bind_ok h).trans (run_bind_ok (run_switchCpl m w)))

theorem run_enterTask_error {e : Stop} (h : (switchStep56 op a).run (s.loadTask sel d m) = .error e w) :
    (enterTask sel d a op m).run s = .error e w := (run_bind_ok (run_modify _ s)).trans (run_bind_error h)

end

theorem taskSwitchSteps : Claim.TaskSwitchSteps := by
  intro sel d a ret op s answer small first
  have same : first = (leaveTask op ret d >>= fun _ => readTaskImage d.base).run s := by
    simp only [first, leaveTask, bind_assoc]
  have large (h : ¬ small) : (d.tss16 || !s.tr.type32) = false := Bool.eq_false_iff.2 (mt small_iff.1 h)
  refine ⟨fun h => run_switchToTask_small (small_iff.2 h), fun h short => run_switchToTask_limit (large h) short,
    fun e u h limit stopped => ?_, fun m u h limit read => ?_⟩
  · exact (run_switchToTask (large h) limit).trans (run_bind_error (same.symm.trans stopped))
  · intro gone loaded
    have entered : answer = (pastCommit (enterTask sel d a op m) >>= fun _ => endBlock : Op Unit).run u :=
      run_switchToTask_read (large h) limit (same.symm.trans read)
    have isLoaded : u.loadTask sel d m = loaded := rfl
    refine ⟨fun f b w stopped => ?_, fun w marked => ⟨fun f b t stopped => ?_, fun t done => ?_⟩⟩
    · exact entered.trans (run_bind_error (run_pastCommit_fault (run_enterTask_error stopped)))
    · exact entered.trans (run_bind_error (run_pastCommit_fault ((run_enterTask marked).trans stopped)))
    · exact entered.trans (run_bind_ok (run_pastCommit_ok ((run_enterTask marked).trans done)))

/-! ### The registers of the incoming task (R479 to R481) -/

/-- The selector of a segment register in an image. -/
def TaskImage.sel (m : TaskImage) : Seg → Half
  | .es => m.es
  | .cs => m.cs
  | .ss => m.ss
  | .ds => m.ds
  | .fs => m.fs
  | .gs => m.gs

/-- What the loads of step 7 leave: the registers that the image gave, its selectors, and the level. -/
structure Stays (m : TaskImage) (level : BitVec 2) (s t : State) : Prop where
  regs     : t.regs = s.regs
  eip      : t.eip = s.eip
  cr3      : t.cr3 = s.cr3
  tr       : t.tr = s.tr
  flags    : t.flags = s.flags
  selector : t.ldtr.selector = s.ldtr.selector
  segs     : ∀ i, (s.seg i).selector = m.sel i → (t.seg i).selector = m.sel i
  cpl      : s.cpl = level → t.cpl = level

theorem stays_preorder (m : TaskImage) (level : BitVec 2) : Preorder (Stays m level) where
  refl _ := ⟨rfl, rfl, rfl, rfl, rfl, rfl, fun _ h => h, id⟩
  trans _ _ _ h1 h2 := ⟨h2.regs.trans h1.regs, h2.eip.trans h1.eip, h2.cr3.trans h1.cr3, h2.tr.trans h1.tr,
    h2.flags.trans h1.flags, h2.selector.trans h1.selector, fun i h => h2.segs i (h1.segs i h),
    fun h => h2.cpl (h1.cpl h)⟩

section
variable {m : TaskImage} {level : BitVec 2}

theorem OnlyMemory.stays {s t : State} (h : OnlyMemory s t) : Stays m level s t := by
  unfold OnlyMemory at h
  rw [h]
  exact ⟨rfl, rfl, rfl, rfl, rfl, rfl, fun _ h => h, id⟩

/-- A segment register written under the image's selector. -/
theorem Stays.setSeg (s : State) {i : Seg} {g : SegReg} (h : g.selector = m.sel i) : Stays m level s (s.setSeg i g) := by
  refine ⟨rfl, rfl, rfl, rfl, rfl, rfl, fun j hj => ?_, id⟩
  by_cases same : j = i
  · subst same
    exact (congrArg SegReg.selector (Segs.get_set _ _ _)).trans h
  · exact (congrArg SegReg.selector (Segs.get_set_other _ _ _ _ same)).trans hj

theorem Op.stays_requireTs (ok : Bool) (sel : Half) : Op.Rel (Stays m level) (requireTs ok sel) :=
  Op.rel_require (stays_preorder m level) _ _ _

theorem Op.stays_fetchDescTs (sel : Half) : Op.Rel (Stays m level) (fetchDescTs sel) :=
  Op.rel_mono (fetchDescOr_access sel _ _) fun _ _ h => h.only.stays

theorem Op.stays_switchLdt (sel : Half) : Op.Rel (Stays m level) (switchLdt sel) := by
  have p := stays_preorder m level
  refine Op.rel_ite (Op.rel_pure p _) (Op.rel_bind p (Op.stays_requireTs _ _) fun _ =>
    Op.rel_bind p (Op.stays_fetchDescTs _) fun _ => Op.rel_bind p (Op.stays_requireTs _ _) fun _ => ?_)
  exact Op.rel_modify fun _ => ⟨rfl, rfl, rfl, rfl, rfl, rfl, fun _ h => h, id⟩

theorem Op.stays_copyDescriptor {i : Seg} {sel : Half} (h : sel = m.sel i) (d : Desc) :
    Op.Rel (Stays m level) (copyDescriptor i sel d) := Op.rel_modify fun s => Stays.setSeg s h

theorem Op.stays_loadSegV86 {i : Seg} {sel : Half} (h : sel = m.sel i) :
    Op.Rel (Stays m level) (loadSegV86 i sel) := Op.rel_modify fun s => Stays.setSeg s h

theorem Op.stays_switchSs : Op.Rel (Stays m level) (switchSs m.ss) := by
  have p := stays_preorder m level
  exact Op.rel_bind p (Op.stays_requireTs _ _) fun _ => Op.rel_bind p (Op.stays_fetchDescTs _) fun x =>
    Op.rel_bind p (Op.rel_get p) fun _ => Op.rel_bind p (Op.stays_requireTs _ _) fun _ =>
      Op.rel_bind p (Op.stays_requireTs _ _) fun _ => Op.stays_copyDescriptor rfl x.1

theorem Op.stays_switchData {i : Seg} {sel : Half} (h : sel = m.sel i) : Op.Rel (Stays m level) (switchData i sel) := by
  have p := stays_preorder m level
  exact Op.rel_ite (Op.rel_pure p _) (Op.rel_bind p (Op.stays_fetchDescTs _) fun x =>
    Op.rel_bind p (Op.rel_get p) fun _ => Op.rel_bind p (Op.stays_requireTs _ _) fun _ =>
      Op.stays_copyDescriptor h x.1)

end

/-- A selector put together from its index and its own RPL. -/
theorem selector_of_rpl (sel : Half) : (sel &&& 0xFFFC) ||| (rpl sel).setWidth 16 = sel := by
  have mask : ∀ i, i < 16 → (0xFFFC : Half).getLsbD i = decide (2 ≤ i) := by decide
  apply BitVec.eq_of_getLsbD_eq
  intro i hi
  rw [BitVec.getLsbD_or, BitVec.getLsbD_and, mask i hi, BitVec.getLsbD_setWidth, rpl, BitVec.getLsbD_extractLsb']
  by_cases low : i < 2
  · simp [low, hi, Nat.not_le_of_lt low]
  · simp [low, Nat.le_of_not_lt low]

theorem Op.stays_switchCs (m : TaskImage) : Op.Rel (Stays m (rpl m.cs)) (switchCs m.cs) := by
  have p := stays_preorder m (rpl m.cs)
  refine Op.rel_bind p (Op.stays_requireTs _ _) fun _ => Op.rel_bind p (Op.stays_fetchDescTs _) fun x =>
    Op.rel_bind p (Op.stays_requireTs _ _) fun _ => Op.rel_bind p (Op.stays_requireTs _ _) fun _ =>
      Op.rel_bind p (Op.stays_requireTs _ _) fun _ => ?_
  refine Op.rel_bind p (Op.stays_copyDescriptor (selector_of_rpl m.cs) x.1) fun _ => Op.rel_modify fun _ => ?_
  exact ⟨rfl, rfl, rfl, rfl, rfl, rfl, fun _ h => h, fun _ => rfl⟩

/-- Step 7 leaves what the image gave, and the level of its mode. -/
theorem switchStep7_stays {m : TaskImage} {s t : State} (h : (switchStep7 m).run s = .ok () t) :
    Stays m (if s.vm then 3 else rpl m.cs) s t := by
  obtain ⟨_, u, ldt, -⟩ := run_bind_inv h
  refine (stays_preorder _ _).trans _ _ _ (Op.rel_ofOk (Op.stays_switchLdt m.ldt) ldt) ?_
  rw [run_switchStep7_ldt ldt] at h
  split at h
  · have p := stays_preorder m 3
    rename_i v86
    rw [if_pos v86]
    exact Op.rel_ofOk (Op.rel_bind p (Op.stays_loadSegV86 rfl) fun _ => Op.rel_bind p (Op.stays_loadSegV86 rfl) fun _ =>
      Op.rel_bind p (Op.stays_loadSegV86 rfl) fun _ => Op.rel_bind p (Op.stays_loadSegV86 rfl) fun _ =>
        Op.rel_bind p (Op.stays_loadSegV86 rfl) fun _ => Op.stays_loadSegV86 rfl) h
  · have p := stays_preorder m (rpl m.cs)
    rename_i prot
    rw [if_neg prot]
    exact Op.rel_ofOk (Op.rel_bind p (Op.stays_switchCs m) fun _ => Op.rel_bind p Op.stays_switchSs fun _ =>
      Op.rel_bind p (Op.stays_switchData rfl) fun _ => Op.rel_bind p (Op.stays_switchData rfl) fun _ =>
        Op.rel_bind p (Op.stays_switchData rfl) fun _ => Op.stays_switchData rfl) h

end Sys2Proof.Machine

namespace Sys2Proof.Machine

/-- What `loadTask` puts into the registers, by its parts (R479). -/
theorem loadTask_selector (s : State) (sel : Half) (d : Desc) (m : TaskImage) (i : Seg) :
    ((s.loadTask sel d m).seg i).selector = m.sel i := by cases i <;> rfl

/-- A task switch that ends went through every step, the task-state segment being large enough. -/
theorem switchToTask_ok {sel : Half} {d : Desc} {a ret : Word} {op : SwitchOp} {s t : State}
    (h : (switchToTask sel d a op ret).run s = .ok () t) :
    103 ≤ d.limit.toNat ∧ s.tr.type32 = true ∧ ∃ u v m w,
      (leaveTask op ret d).run s = .ok () u ∧ (readTaskImage d.base).run u = .ok m v ∧
      (enterTask sel d a op m).run v = .ok () w ∧ t = w.endBlock := by
  have large : (d.tss16 || !s.tr.type32) = false := by
    cases small : d.tss16 || !s.tr.type32 with
    | false => rfl
    | true => cases (run_switchToTask_small small).symm.trans h
  have limit : 103 ≤ d.limit.toNat := by
    refine Nat.le_of_not_lt fun short => ?_
    cases (run_switchToTask_limit large short).symm.trans h
  rw [run_switchToTask large limit] at h
  obtain ⟨m, v, before, after⟩ := run_bind_inv h
  obtain ⟨_, u, left, read⟩ := run_bind_inv before
  obtain ⟨_, w, entered, ended⟩ := run_bind_inv after
  cases ended
  exact ⟨limit, by simpa using (Bool.or_eq_false_iff.1 large).2, u, v, m, w, left, read, pastCommit_ok entered, rfl⟩

theorem taskRegistersLoaded : Claim.TaskRegistersLoaded := by
  intro sel d a ret op s t h
  obtain ⟨limit, wide, u, v, m, w, left, read, entered, rfl⟩ := switchToTask_ok h
  refine ⟨limit, wide, u, v, m, left, read, ?_⟩
  have kept := Op.rel_ofOk (keeps_switchToTask sel d a op ret) h
  obtain ⟨_, x, marked, -⟩ := run_bind_inv (f := fun _ => switchCpl m >>= fun _ => switchStep7 m)
    ((run_bind_ok (run_modify _ v)).symm.trans entered)
  have mark := switchStep56_marked marked
  rw [run_enterTask marked] at entered
  have flags (q : Flag) := (congrArg (getFlag · q) mark.flags).trans (getFlag_nested (v.loadTask sel d m) op q)
  have loaded (q : Flag) : getFlag (v.loadTask sel d m).flags q = m.fl.getLsbD q.bit :=
    getFlag_setFlags_all v.flags m.fl q
  simp only [loaded] at flags
  have level := (switchStep7_stays entered).cpl
  have stays := switchStep7_stays entered
  have seg (i : Seg) : (w.seg i).selector = m.sel i := by
    refine stays.segs i ?_
    exact (congrArg (fun g : Segs => (g.get i).selector) mark.segs).trans (loadTask_selector v sel d m i)
  have vm : x.vm = m.fl.getLsbD 17 := by simpa [State.vm, Flag.bit] using flags .vm
  refine ⟨stays.regs.trans mark.regs, stays.eip.trans mark.eip, stays.cr3.trans mark.cr3, kept.cr0, kept.gdtr,
    kept.idtr, stays.tr.trans mark.tr, fun q => ?_, ?_, ?_, stays.selector.trans mark.selector,
    seg .es, seg .cs, seg .ss, seg .ds, seg .fs, seg .gs, rfl⟩
  · exact (congrArg (getFlag · q) stays.flags).trans (flags q)
  · exact (congrArg iopl (stays.flags.trans mark.flags)).trans
      ((iopl_nested _ op).trans (iopl_setFlags_all v.flags m.fl))
  · refine (level ?_).trans ?_
    · exact ite_of_iff (by rw [← vm]; rfl)
    · exact ite_of_iff (by rw [← vm]; rfl)

/-- Settles O55: the image read back, its registers through steps 5 to 7, the links, the loads and the order. -/
theorem taskLoaded : Obligations.TaskLoaded :=
  ⟨taskRegistersLoaded, taskImageRead, taskLinksWritten, taskSegmentLoads, taskSwitchSteps⟩

end Sys2Proof.Machine

namespace Sys2Proof.Machine

/-! ### The gate of a vector and its checks (R502, R523) -/

theorem DispatchKind.ext_eq (k : DispatchKind) : k.ext = if k = .software then 0 else 1 := by cases k <;> rfl

theorem extCode_eq (k : DispatchKind) (sel : Half) :
    extCode k sel = (sel.setWidth 32 &&& 0xFFFC) + (if k = .software then 0 else 1) :=
  congrArg (selCode sel + ·) k.ext_eq

theorem idtCode_eq (k : DispatchKind) (v : Nat) :
    idtCode k v = BitVec.ofNat 32 (8 * v + 2) + (if k = .software then 0 else 1) := by
  unfold idtCode
  rw [k.ext_eq, Nat.mul_comm v 8]

theorem Desc.handler_iff (g : Desc) : (g.intGate || g.trapGate) = true ↔
    g.cls ∈ [DescClass.intGate16, .trapGate16, .intGate32, .trapGate32] := by
  unfold Desc.intGate Desc.trapGate
  cases g.cls <;> decide

theorem Desc.gate32_iff (g : Desc) : g.gate32 = true ↔ g.cls = .intGate32 ∨ g.cls = .trapGate32 := by
  simp [Desc.gate32]

theorem Desc.intGate_iff (g : Desc) : g.intGate = true ↔ g.cls = .intGate16 ∨ g.cls = .intGate32 := by
  simp [Desc.intGate]

/-- The checks of the gate of a vector, in their order (R523). -/
def gateChecks (v : Nat) (k : DispatchKind) (g : Desc) (cpl : BitVec 2) : Op Unit := do
  require (g.cls = .taskGate || g.intGate || g.trapGate) .gp (idtCode k v)
  require (k ≠ .software || cpl.toNat ≤ g.dpl.toNat) .gp (BitVec.ofNat 32 (v * 8 + 2))
  require g.p .np (idtCode k v)

/-- What a dispatch does with a gate that has passed its checks (R524, R527). -/
def throughGate (k : DispatchKind) (g : Desc) (code : Option Word) (ret : Word) : Op Unit :=
  if g.cls = .taskGate then dispatchTask k g code ret else dispatchGate k g code ret

section
variable {v : Nat} {k : DispatchKind} {code : Option Word} {ret : Word} {s : State}

theorem run_dispatch_prot (prot : s.realMode = false) :
    (dispatch v k code ret).run s = (dispatchProt v k code ret).run s := by
  unfold dispatch
  rw [run_bind_ok (run_get s), if_neg (Bool.eq_false_iff.1 prot)]

theorem run_dispatch_limit (prot : s.realMode = false) (short : s.idtr.limit.toNat < 8 * v + 7) :
    (dispatch v k code ret).run s =
      .error (.fault { kind := .gp, code := some (idtCode k v), addr := none } false) s :=
  (run_dispatch_prot prot).trans ((run_bind_ok (run_get s)).trans
    (run_require_fail (decide_eq_false (Nat.not_le_of_lt short))))

/-- The gate read, its checks follow. -/
theorem run_dispatch_read {lo hi : Word} {u w : State} (prot : s.realMode = false)
    (limit : 8 * v + 7 ≤ s.idtr.limit.toNat)
    (first : (sysRead (s.idtr.base + BitVec.ofNat 32 (8 * v)) .w32).run s = .ok lo u)
    (second : (sysRead (s.idtr.base + BitVec.ofNat 32 (8 * v + 4)) .w32).run u = .ok hi w) :
    (dispatch v k code ret).run s =
      (gateChecks v k (parseDesc lo hi) s.cpl >>= fun _ => throughGate k (parseDesc lo hi) code ret).run w := by
  refine (run_dispatch_prot prot).trans ((run_bind_ok (run_get s)).trans
    ((run_require_pass (decide_eq_true limit)).trans ((run_bind_ok first).trans ((run_bind_ok second).trans ?_))))
  simp only [gateChecks, bind_assoc]
  rfl

end

section
variable {v : Nat} {k : DispatchKind} {g : Desc} {cpl : BitVec 2} {w : State}

/-- A gate that a vector may have: one of a handler, or a task gate. -/
theorem gateClass_iff : (decide (g.cls = .taskGate) || g.intGate || g.trapGate) = true ↔
    g.cls ∈ [DescClass.intGate16, .trapGate16, .intGate32, .trapGate32] ∨ g.cls = .taskGate := by
  rw [Bool.or_assoc, Bool.or_eq_true, g.handler_iff, decide_eq_true_iff, or_comm]

theorem gateLevel_iff : (decide (k ≠ .software) || decide (cpl.toNat ≤ g.dpl.toNat)) = true ↔
    (k = .software → cpl.toNat ≤ g.dpl.toNat) := by
  simp [Decidable.or_iff_not_imp_left]

theorem run_gateChecks_class (h : ¬ (g.cls ∈ [DescClass.intGate16, .trapGate16, .intGate32, .trapGate32] ∨
    g.cls = .taskGate)) : (gateChecks v k g cpl).run w =
      .error (.fault { kind := .gp, code := some (idtCode k v), addr := none } false) w :=
  run_require_fail (Bool.eq_false_iff.2 (mt gateClass_iff.1 h))

variable (cls : g.cls ∈ [DescClass.intGate16, .trapGate16, .intGate32, .trapGate32] ∨ g.cls = .taskGate)
include cls

theorem run_gateChecks_level (h : ¬ (k = .software → cpl.toNat ≤ g.dpl.toNat)) : (gateChecks v k g cpl).run w =
    .error (.fault { kind := .gp, code := some (BitVec.ofNat 32 (8 * v + 2)), addr := none } false) w := by
  rw [Nat.mul_comm 8 v]
  exact (run_require_pass (gateClass_iff.2 cls)).trans (run_require_fail (Bool.eq_false_iff.2 (mt gateLevel_iff.1 h)))

variable (level : k = .software → cpl.toNat ≤ g.dpl.toNat)
include level

theorem run_gateChecks_present : (gateChecks v k g cpl).run w = (require g.p .np (idtCode k v)).run w :=
  (run_require_pass (gateClass_iff.2 cls)).trans (run_require_pass (gateLevel_iff.2 level))

theorem run_gateChecks_absent (absent : g.p = false) : (gateChecks v k g cpl).run w =
    .error (.fault { kind := .np, code := some (idtCode k v), addr := none } false) w := by
  rw [run_gateChecks_present cls level, run_require, absent]
  rfl

theorem run_gateChecks_ok (present : g.p = true) : (gateChecks v k g cpl).run w = .ok () w := by
  rw [run_gateChecks_present cls level, run_require, present]
  rfl

end

/-! ### The handler's code segment (R524, R529) -/

/-- Entry into the code segment behind a gate, by the levels; `s` is the state before (R524 to R526). -/
def enterGate (k : DispatchKind) (g d : Desc) (code : Option Word) (ret : Word) (s : State) : Op Unit :=
  if !d.conforming && d.dpl.toNat < s.cpl.toNat then
    if s.v86Mode then dispatchV86 k g d code ret else dispatchInner k g d code ret
  else dispatchSame k g d code ret

section
variable {k : DispatchKind} {g d : Desc} {code : Option Word} {ret a : Word} {s w x : State}

theorem throughGate_handler (h : g.cls ∈ [DescClass.intGate16, .trapGate16, .intGate32, .trapGate32]) :
    throughGate k g code ret = dispatchGate k g code ret :=
  if_neg fun task => by simp [task] at h

theorem throughGate_task (h : g.cls = .taskGate) : throughGate k g code ret = dispatchTask k g code ret := if_pos h

theorem run_dispatchGate_null (null : nullSel g.gateSel = true) : (dispatchGate k g code ret).run w =
    .error (.fault { kind := .gp, code := some k.ext, addr := none } false) w :=
  (run_bind_ok (run_get w)).trans (run_require_fail (by rw [null]; rfl))

variable (named : nullSel g.gateSel = false)
include named

theorem run_dispatchGate_none (h : (fetchDescriptor g.gateSel).run w = .ok none x) :
    (dispatchGate k g code ret).run w =
      .error (.fault { kind := .gp, code := some (extCode k g.gateSel), addr := none } false) x :=
  (run_bind_ok (run_get w)).trans ((run_require_pass (by rw [named]; rfl)).trans
    (run_bind_error (run_fetchDescOr_none h)))

/-- The descriptor found, the last two checks follow and then the entry. -/
theorem run_dispatchGate_found (h : (fetchDescriptor g.gateSel).run w = .ok (some (d, a)) x) :
    (dispatchGate k g code ret).run w =
      (do require (d.isCode && d.dpl.toNat ≤ w.cpl.toNat) .gp (extCode k g.gateSel)
          require d.p .np (extCode k g.gateSel)
          enterGate k g d code ret w : Op Unit).run x :=
  (run_bind_ok (run_get w)).trans ((run_require_pass (by rw [named]; rfl)).trans
    (run_bind_ok (run_fetchDescOr_found h)))

end

theorem OnlyMemory.v86Mode {s t : State} (h : OnlyMemory s t) : t.v86Mode = s.v86Mode := by
  unfold OnlyMemory at h
  rw [h]
  rfl

/-- The entry depends on the level and the mode of the state before. -/
theorem OnlyMemory.enterGate {s t : State} (h : OnlyMemory s t) (k : DispatchKind) (g d : Desc) (code : Option Word)
    (ret : Word) : enterGate k g d code ret t = enterGate k g d code ret s := by
  unfold Machine.enterGate
  rw [h.cpl, h.v86Mode]

/-- Two reads, as of a gate or of an inner stack, store nothing. -/
theorem twoReads_effect {lin1 lin2 lo hi : Word} {w1 w2 : Width} {s u w : State}
    (first : (sysRead lin1 w1).run s = .ok lo u) (second : (sysRead lin2 w2).run u = .ok hi w) : Effect s w [] :=
  (sysRead_ok first).trans (sysRead_ok second)

/-- A dispatch that has come to its code segment only stored nothing, and what is left is the entry. -/
theorem run_dispatch_reached {v : Nat} {k : DispatchKind} {code : Option Word} {ret : Word} {s x : State} {g d : Desc}
    (prot : s.realMode = false) (h : Claim.GateReached v k s x g d) :
    Effect s x [] ∧ (dispatch v k code ret).run s = (enterGate k g d code ret s).run x := by
  obtain ⟨lo, hi, a, u, w, limit, first, second, rfl, handler, level, present, named, found, isCode, p, dpl⟩ := h
  have read := twoReads_effect first second
  refine ⟨read.trans (fetchDescriptor_ok found), ?_⟩
  rw [run_dispatch_read prot limit first second, run_bind_ok (run_gateChecks_ok (.inl handler) level present),
    throughGate_handler handler, run_dispatchGate_found named found, read.only.cpl, read.only.enterGate,
    run_require_pass (by rw [isCode, decide_eq_true dpl]; rfl), run_require_pass p]

theorem dispatchFaults : Claim.DispatchFaults := by
  intro v k code ret s prot ext ic sc stops
  have icode : idtCode k v = ic := idtCode_eq k v
  have scode (sel : Half) : extCode k sel = sc sel := extCode_eq k sel
  have kext : k.ext = ext := k.ext_eq
  refine ⟨fun short => icode ▸ run_dispatch_limit prot short, fun lo hi u w limit first second => ?_⟩
  intro g handler mayUse
  have read := run_dispatch_read (k := k) (code := code) (ret := ret) prot limit first second
  have stop {kind : FaultKind} {c : Word} {x : State} (h : (gateChecks v k g s.cpl).run w =
      .error (.fault { kind := kind, code := some c, addr := none } false) x) : stops kind c x :=
    read.trans (run_bind_error h)
  refine ⟨fun other notTask => stop (icode ▸ run_gateChecks_class (not_or.2 ⟨other, notTask⟩)),
    fun cls low => stop (run_gateChecks_level cls low),
    fun cls level absent => stop (icode ▸ run_gateChecks_absent cls level absent), fun isHandler level present => ?_⟩
  rw [run_bind_ok (run_gateChecks_ok (.inl isHandler) level present), throughGate_handler isHandler] at read
  refine ⟨fun null => read.trans (kext ▸ run_dispatchGate_null null),
    fun x named none => read.trans (scode g.gateSel ▸ run_dispatchGate_none named none), fun d a x named found => ?_⟩
  rw [run_dispatchGate_found named found, (twoReads_effect first second).only.cpl, scode] at read
  refine ⟨fun bad => read.trans (run_require_fail ?_), fun isCode dpl absent => read.trans ?_⟩
  · obtain notCode | outer := bad
    · rw [notCode]
      rfl
    · rw [decide_eq_false (Nat.not_le_of_lt outer), Bool.and_false]
  · exact (run_require_pass (by rw [isCode, decide_eq_true dpl]; rfl)).trans (run_require_fail absent)

/-! ### Entry at the same level (R524, R528) -/

theorem pushError_eq (z : Size) (code : Option Word) : pushError z code = pushAll z code.toList := by
  cases code with
  | none => rfl
  | some c => exact (bind_pure (push z c)).symm

theorem pushAll_append (z : Size) (vs ws : List Word) :
    pushAll z (vs ++ ws) = pushAll z vs >>= fun _ => pushAll z ws := by
  induction vs with
  | nil => rfl
  | cons v vs ih => simp only [List.cons_append, pushAll, ih, bind_assoc]

/-- The code segment and the entry point of a gate, and its flags, after the pushes. -/
def enterHandler (g d : Desc) (n : BitVec 2) : Op Unit := do
  loadCS g.gateSel d n
  jumpTo g.gateTarget
  mapFlags (gateEntryFlags g.intGate)

theorem run_enterHandler (g d : Desc) (n : BitVec 2) (s : State) : (enterHandler g d n).run s =
    .ok () { s with segs := { s.segs with cs := codeReg g.gateSel d n }, cpl := n, eip := g.gateTarget,
                    flags := gateEntryFlags g.intGate s.flags } := rfl

theorem dispatchSame_eq (k : DispatchKind) (g d : Desc) (code : Option Word) (ret : Word) :
    dispatchSame k g d code ret = (do
      let s ← get
      require (!s.v86Mode) .gp (extCode k g.gateSel)
      pushAll g.gateSize ([flagsValue s.flags, s.segs.cs.selector.setWidth 32, ret] ++ code.toList)
      enterHandler g d s.cpl) := by
  simp only [pushAll_append, ← pushError_eq, pushAll, enterHandler, bind_assoc, pure_bind]
  rfl

theorem Desc.gateSize_eq (g : Desc) :
    g.gateSize = if g.cls = .intGate32 ∨ g.cls = .trapGate32 then .s32 else .s16 := ite_of_iff g.gate32_iff

theorem Desc.gateTarget_eq (g : Desc) :
    g.gateTarget = if g.cls = .intGate32 ∨ g.cls = .trapGate32 then g.gateOff else g.gateOff &&& 0xFFFF :=
  ite_of_iff g.gate32_iff

/-- The flags that entry through a gate clears (R528). -/
theorem getFlag_gateEntryFlags (i : Bool) (f : Word) (q : Flag) : getFlag (gateEntryFlags i f) q =
    if q = .tf ∨ q = .nt ∨ q = .rf ∨ q = .vm ∨ (q = .if_ ∧ i = true) then false else getFlag f q := by
  unfold gateEntryFlags
  cases i <;> cases q <;> simp [getFlag_putFlag_other]

theorem iopl_gateEntryFlags (i : Bool) (f : Word) : iopl (gateEntryFlags i f) = iopl f := by
  unfold gateEntryFlags
  cases i <;> simp only [iopl_putFlag, if_true, Bool.false_eq_true, if_false]

theorem gateFlags (s : State) (g : Desc) : Claim.GateFlags s g (gateEntryFlags g.intGate s.flags) := by
  refine ⟨fun q => ?_, iopl_gateEntryFlags _ _⟩
  rw [getFlag_gateEntryFlags]
  simp only [g.intGate_iff]

theorem enterGate_same {k : DispatchKind} {g d : Desc} {code : Option Word} {ret : Word} {s : State}
    (h : ¬ (d.conforming = false ∧ d.dpl.toNat < s.cpl.toNat)) :
    enterGate k g d code ret s = dispatchSame k g d code ret := by
  unfold enterGate
  rw [if_neg (by simpa using h)]

theorem sameLevelEntry : Claim.SameLevelEntry := by
  intro v k code ret s x t g d inv prot reached levels big z vs pushed
  obtain ⟨effect, run⟩ := run_dispatch_reached (code := code) (ret := ret) (protMode_not_real prot) reached
  have same : ¬ (d.conforming = false ∧ d.dpl.toNat < s.cpl.toNat) := by
    rintro ⟨outer, lower⟩
    obtain conforms | level := levels
    · exact absurd conforms (Bool.eq_false_iff.1 outer)
    · exact Nat.lt_irrefl _ (level ▸ lower)
  obtain ⟨-, flags, -, -, segs, cpl, -⟩ := effect.only.fields
  have stack := pushAll_pushed (effect.inv inv) (by cases code <;> simp [vs]) pushed
  refine ⟨gateEntryFlags g.intGate s.flags, ?_, gateFlags s g, effect.accessed inv, stack⟩
  have size : g.gateSize = z := g.gateSize_eq
  have prot' : (!x.v86Mode) = true := by rw [effect.only.v86Mode, protMode_not_v86 prot]; rfl
  rw [run, enterGate_same same, dispatchSame_eq, run_bind_ok (run_get x), run_require_pass prot', size, flags, segs,
    run_bind_ok pushed, run_enterHandler, g.gateTarget_eq, cpl]
  have levelAfter : t.cpl = s.cpl := stack.frame.system.cpl.trans cpl
  have segsAfter : t.segs = s.segs := stack.frame.system.segs.trans segs
  have flagsAfter : t.flags = s.flags := stack.frame.flags.trans flags
  rw [← levelAfter, ← segsAfter, ← flagsAfter]

/-! ### Task gates (R527, R483) -/

section
variable {k : DispatchKind} {g td : Desc} {code : Option Word} {ret ta : Word} {w x : State}

theorem run_dispatchTask_unnamed (h : ¬ (nullSel g.gateSel = false ∧ g.gateSel.getLsbD 2 = false)) :
    (dispatchTask k g code ret).run w =
      .error (.fault { kind := .gp, code := some (extCode k g.gateSel), addr := none } false) w :=
  run_require_fail (Bool.eq_false_iff.2 (mt (gateTest_iff _).1 h))

variable (named : nullSel g.gateSel = false ∧ g.gateSel.getLsbD 2 = false)
include named

theorem run_dispatchTask_none (h : (fetchDescriptor g.gateSel).run w = .ok none x) :
    (dispatchTask k g code ret).run w =
      .error (.fault { kind := .gp, code := some (extCode k g.gateSel), addr := none } false) x :=
  (run_require_pass ((gateTest_iff _).2 named)).trans (run_bind_error (run_fetchDescOr_none h))

theorem run_dispatchTask_found (h : (fetchDescriptor g.gateSel).run w = .ok (some (td, ta)) x) :
    (dispatchTask k g code ret).run w =
      (do require td.availTss .gp (extCode k g.gateSel)
          require td.p .np (extCode k g.gateSel)
          switchToTask g.gateSel td ta .interrupt ret
          pastCommit (pushError .s32 code) : Op Unit).run x :=
  (run_require_pass ((gateTest_iff _).2 named)).trans (run_bind_ok (run_fetchDescOr_found h))

end

theorem taskGateDispatch : Claim.TaskGateDispatch := by
  intro v k code ret lo hi s u w inv prot limit first second g cls level present sel sc answer stops named
  have run : answer = (dispatchTask k g code ret).run w := by
    rw [← throughGate_task cls]
    exact (run_dispatch_read prot limit first second).trans
      (run_bind_ok (run_gateChecks_ok (.inr cls) level present))
  have scode : extCode k sel = sc := extCode_eq k sel
  refine ⟨fun unnamed => run.trans (scode ▸ run_dispatchTask_unnamed unnamed),
    fun x ok none => run.trans (scode ▸ run_dispatchTask_none ok none), fun td ta x ok found => ?_⟩
  intro avail switch
  rw [run_dispatchTask_found ok found, scode] at run
  refine ⟨fun taken => run.trans (run_require_fail (Bool.eq_false_iff.2 (mt (availTss_iff td).1 taken))),
    fun free absent => ?_, fun e y free here stopped => ?_, fun y free here done => ?_⟩
  · exact run.trans ((run_require_pass ((availTss_iff td).2 free)).trans (run_require_fail absent))
  · exact run.trans ((run_require_pass ((availTss_iff td).2 free)).trans ((run_require_pass here).trans
      (run_bind_error stopped)))
  · have left : answer = (pastCommit (pushAll .s32 code.toList)).run y := by
      rw [← pushError_eq]
      exact run.trans ((run_require_pass ((availTss_iff td).2 free)).trans ((run_require_pass here).trans
        (run_bind_ok done)))
    have invAfter : y.Inv := (Op.rel_ofOk (keeps_switchToTask sel td ta .interrupt ret) done).inv
      (((twoReads_effect first second).trans (fetchDescriptor_ok found)).inv inv)
    refine ⟨fun h => ?_, fun c t h pushed => ?_, fun c f b t h stopped => ?_⟩
    · subst h
      exact left.trans (run_pastCommit_ok rfl)
    · subst h
      exact ⟨left.trans (run_pastCommit_ok pushed), pushAll_pushed invAfter (by decide : 1 ≤ 16) pushed⟩
    · subst h
      exact left.trans (run_pastCommit_fault stopped)

/-- Settles O34: the gate and its checks first, then the entry or the task switch that they lead to. -/
theorem gateSameLevel : Obligations.GateSameLevel := ⟨sameLevelEntry, dispatchFaults, taskGateDispatch⟩

end Sys2Proof.Machine

namespace Sys2Proof.Machine

/-! ### The stack of an inner level (R471, R525) -/

section
variable {n : Nat} {x p q : State} {nesp ss : Word}

theorem run_tssStack_small (small : x.tr.type32 = false) : (tssStack n).run x = .error (.refuse .tss16) x := by
  unfold tssStack
  rw [run_bind_ok (run_get x), small]
  rfl

theorem run_tssStack_large (large : x.tr.type32 = true) : (tssStack n).run x =
    (do require (8 * n + 11 ≤ x.tr.limit.toNat) .ts (selCode x.tr.selector)
        let esp ← tssRead x.tr.base (4 + 8 * n) .w32
        let ss ← tssRead x.tr.base (8 + 8 * n) .w16
        pure (ss.setWidth 16, esp) : Op (Half × Word)).run x := by
  unfold tssStack
  rw [run_bind_ok (run_get x), large]
  rfl

theorem run_tssStack_limit (large : x.tr.type32 = true) (short : x.tr.limit.toNat < 8 * n + 11) :
    (tssStack n).run x =
      .error (.fault { kind := .ts, code := some (selCode x.tr.selector), addr := none } false) x :=
  (run_tssStack_large large).trans (run_require_fail (decide_eq_false (Nat.not_le_of_lt short)))

theorem run_tssStack_read (large : x.tr.type32 = true) (limit : 8 * n + 11 ≤ x.tr.limit.toNat)
    (first : (sysRead (x.tr.base + BitVec.ofNat 32 (4 + 8 * n)) .w32).run x = .ok nesp p)
    (second : (sysRead (x.tr.base + BitVec.ofNat 32 (8 + 8 * n)) .w16).run p = .ok ss q) :
    (tssStack n).run x = .ok (ss.setWidth 16, nesp) q :=
  (run_tssStack_large large).trans ((run_require_pass (decide_eq_true limit)).trans
    ((run_bind_ok first).trans (run_bind_ok second)))

end

section
variable {k : DispatchKind} {n : BitVec 2} {x q y : State} {nss : Half} {nesp a : Word} {kd : Desc}

/-- What the stack segment of an inner level must be (R525). -/
def stackFits (nss : Half) (kd : Desc) (n : BitVec 2) : Bool := rpl nss = n && kd.dpl = n && kd.writableData

theorem stackFits_iff : stackFits nss kd n = true ↔
    rpl nss = n ∧ kd.dpl = n ∧ kd.cls = .data ∧ kd.type.getLsbD 1 = true := by
  simp [stackFits, Desc.writableData, and_assoc]

variable (stack : (tssStack n.toNat).run x = .ok (nss, nesp) q)
include stack

theorem run_innerStack_null (null : nullSel nss = true) : (innerStack k n).run x =
    .error (.fault { kind := .ts, code := some k.ext, addr := none } false) q :=
  (run_bind_ok stack).trans (run_require_fail (by rw [null]; rfl))

variable (named : nullSel nss = false)
include named

theorem run_innerStack_none (h : (fetchDescriptor nss).run q = .ok none y) : (innerStack k n).run x =
    .error (.fault { kind := .ts, code := some (extCode k nss), addr := none } false) y :=
  (run_bind_ok stack).trans ((run_require_pass (by rw [named]; rfl)).trans (run_bind_error (run_fetchDescOr_none h)))

variable (h : (fetchDescriptor nss).run q = .ok (some (kd, a)) y)
include h

/-- The descriptor found, the last two checks follow. -/
theorem run_innerStack_found : (innerStack k n).run x =
    (do require (stackFits nss kd n) .ts (extCode k nss)
        require kd.p .ss (extCode k nss)
        pure (nss, kd, nesp) : Op (Half × Desc × Word)).run y :=
  (run_bind_ok stack).trans ((run_require_pass (by rw [named]; rfl)).trans (run_bind_ok (run_fetchDescOr_found h)))

theorem run_innerStack_unfit (unfit : stackFits nss kd n = false) : (innerStack k n).run x =
    .error (.fault { kind := .ts, code := some (extCode k nss), addr := none } false) y :=
  (run_innerStack_found stack named h).trans (run_require_fail unfit)

theorem run_innerStack_absent (fits : stackFits nss kd n = true) (absent : kd.p = false) : (innerStack k n).run x =
    .error (.fault { kind := .ss, code := some (extCode k nss), addr := none } false) y :=
  (run_innerStack_found stack named h).trans ((run_require_pass fits).trans (run_require_fail absent))

theorem run_innerStack_ok (fits : stackFits nss kd n = true) (present : kd.p = true) :
    (innerStack k n).run x = .ok (nss, kd, nesp) y :=
  (run_innerStack_found stack named h).trans ((run_require_pass fits).trans (run_require_pass present))

end

/-- A stack read and checked: only reads, and what the entry goes on with. -/
theorem newStack_ok {n : BitVec 2} {x y : State} {nss : Half} {nesp : Word} {kd : Desc}
    (h : Claim.NewStack n x y nss nesp kd) (k : DispatchKind) :
    Effect x y [] ∧ (innerStack k n).run x = .ok (nss, kd, nesp) y := by
  obtain ⟨ss, a, p, q, large, limit, first, second, rfl, named, found, rpl, dpl, cls, writable, present⟩ := h
  exact ⟨(twoReads_effect first second).trans (fetchDescriptor_ok found),
    run_innerStack_ok (run_tssStack_read large limit first second) named found
      (stackFits_iff.2 ⟨rpl, dpl, cls, writable⟩) present⟩

/-! ### Entry at an inner level (R525, R526) -/

section
variable {k : DispatchKind} {g d : Desc} {code : Option Word} {ret : Word} {s : State}
  (inner : d.conforming = false ∧ d.dpl.toNat < s.cpl.toNat)
include inner

theorem enterGate_inner : enterGate k g d code ret s =
    if s.v86Mode then dispatchV86 k g d code ret else dispatchInner k g d code ret := by
  unfold enterGate
  rw [if_pos (by simpa using inner)]

/-- A fault of the new stack is the dispatch's, from protected and from virtual-8086 mode. -/
theorem run_enterGate_stackStop {x y : State} {e : Stop} (h : (innerStack k d.dpl).run x = .error e y)
    (v86 : s.v86Mode = true → d.dpl = 0 ∧ (g.cls = .intGate32 ∨ g.cls = .trapGate32)) :
    (enterGate k g d code ret s).run x = .error e y := by
  rw [enterGate_inner inner]
  cases mode : s.v86Mode with
  | false => exact run_bind_error h
  | true =>
    obtain ⟨level, big⟩ := v86 mode
    rw [level] at h
    unfold dispatchV86
    rw [if_pos rfl, run_require_pass (decide_eq_true level), if_neg (by rw [g.gate32_iff.2 big]; decide)]
    exact run_bind_error h

end

theorem newStackChecks : Claim.NewStackChecks := by
  intro v k code ret s x g d prot reached outer lower v86 n ext stops
  obtain ⟨effect, run⟩ := run_dispatch_reached (code := code) (ret := ret) prot reached
  obtain ⟨-, -, -, -, -, -, -, -, -, tr, -⟩ := effect.only.fields
  have stop {e : Stop} {y : State} (h : (innerStack k d.dpl).run x = .error e y) :
      (dispatch v k code ret).run s = .error e y := run.trans (run_enterGate_stackStop ⟨outer, lower⟩ h v86)
  have kext : k.ext = ext := k.ext_eq
  rw [← tr]
  refine ⟨fun small => stop (run_bind_error (run_tssStack_small small)),
    fun large short => stop (run_bind_error (run_tssStack_limit large short)),
    fun nesp ss p q large limit first second => ?_⟩
  intro nss sc
  have stack : (tssStack d.dpl.toNat).run x = .ok (nss, nesp) q := run_tssStack_read large limit first second
  have scode : extCode k nss = sc := extCode_eq k nss
  refine ⟨fun null => stop (kext ▸ run_innerStack_null stack null),
    fun y named none => stop (scode ▸ run_innerStack_none stack named none), fun kd a y named found => ?_⟩
  rw [← stackFits_iff]
  exact ⟨fun unfit => stop (scode ▸ run_innerStack_unfit stack named found (Bool.eq_false_iff.2 unfit)),
    fun fits absent => stop (scode ▸ run_innerStack_absent stack named found fits absent)⟩

/-- The state in which the pushes of an entry to an inner level begin. -/
def State.onStack (s : State) (nss : Half) (kd : Desc) (n : BitVec 2) (nesp : Word) : State :=
  { s with segs := { s.segs with ss := .ofDesc nss kd }, cpl := n
           regs := s.regs.setView (if kd.db then .w32 else .w16) .esp nesp }

/-- The stack segment's size decides how much of ESP is written. -/
theorem State.onStack_eq (s : State) (nss : Half) (kd : Desc) (n : BitVec 2) (nesp : Word) :
    State.setSp { s.setSeg .ss (.ofDesc nss kd) with cpl := n } nesp = s.onStack nss kd n nesp := by
  have width : (if kd.db then Width.w32 else .w16) = (if kd.db then Size.s32 else .s16).width := by
    cases kd.db <;> rfl
  unfold State.onStack
  rw [width]
  rfl

theorem State.Inv.onStack {s : State} (i : s.Inv) (nss : Half) (kd : Desc) (n : BitVec 2) (nesp : Word) :
    (s.onStack nss kd n nesp).Inv := ⟨i.mem, i.tlb, i.flags, i.paging, i.map⟩

theorem State.Inv.putFlag {s : State} (i : s.Inv) (q : Flag) (v : Bool) : (s.putFlag q v).Inv :=
  ⟨i.mem, i.tlb, flagsOk_putFlag i.flags q v, i.paging, i.map⟩

theorem run_enterStack (nss : Half) (kd : Desc) (n : BitVec 2) (nesp : Word) (s : State) :
    (enterStack nss kd n nesp).run s = .ok () (s.onStack nss kd n nesp) := congrArg _ (s.onStack_eq nss kd n nesp)

/-- The entry to an inner level, once its stack is there. -/
theorem run_dispatchInner {k : DispatchKind} {g d kd : Desc} {code : Option Word} {ret nesp : Word} {nss : Half}
    {x y : State} (h : (innerStack k d.dpl).run x = .ok (nss, kd, nesp) y) :
    (dispatchInner k g d code ret).run x =
      (pushAll g.gateSize ([y.segs.ss.selector.setWidth 32, y.regs.esp, flagsValue y.flags,
          y.segs.cs.selector.setWidth 32, ret] ++ code.toList) >>= fun _ =>
        enterHandler g d d.dpl : Op Unit).run (y.onStack nss kd d.dpl nesp) := by
  refine (run_bind_ok h).trans ((run_bind_ok (run_get y)).trans
    ((run_bind_ok (run_enterStack nss kd d.dpl nesp y)).trans ?_))
  simp only [pushAll_append, ← pushError_eq, pushAll, enterHandler, bind_assoc, pure_bind]
  rfl

theorem innerLevelEntry : Claim.InnerLevelEntry := by
  intro v k code ret s x y t g d kd nesp nss inv prot reached outer lower new big z vs inner pushed
  obtain ⟨reach, run⟩ := run_dispatch_reached (code := code) (ret := ret) (protMode_not_real prot) reached
  obtain ⟨reads, stack⟩ := newStack_ok new k
  have effect : Effect s y [] := reach.trans reads
  obtain ⟨regs, flags, -, -, segs, -⟩ := effect.only.fields
  have entered : y.onStack nss kd d.dpl nesp = inner := by
    unfold State.onStack
    rw [regs, segs]
  have invInner : inner.Inv := entered ▸ (effect.inv inv).onStack nss kd d.dpl nesp
  have pushes := pushAll_pushed invInner (by cases code <;> simp [vs]) pushed
  refine ⟨gateEntryFlags g.intGate s.flags, ?_, gateFlags s g, effect.accessed inv, pushes⟩
  have size : g.gateSize = z := g.gateSize_eq
  rw [run, enterGate_inner ⟨outer, lower⟩, protMode_not_v86 prot, if_neg Bool.false_ne_true, run_dispatchInner stack,
    entered, size, regs, flags, segs, run_bind_ok pushed, run_enterHandler, g.gateTarget_eq]
  have levelAfter : t.cpl = d.dpl := pushes.frame.system.cpl
  have segsAfter : t.segs = { s.segs with ss := .ofDesc nss kd } := pushes.frame.system.segs
  have flagsAfter : t.flags = s.flags := pushes.frame.flags.trans flags
  rw [segsAfter, flagsAfter, ← levelAfter]

/-! ### Entry from virtual-8086 mode (R526) -/

/-- The four data segment registers are emptied, and then the handler is entered at level 0. -/
def leaveV86 (g d : Desc) : Op Unit := do
  clearSeg .es
  clearSeg .ds
  clearSeg .fs
  clearSeg .gs
  enterHandler g d 0

/-- The data segment registers as they are left on the way out of virtual-8086 mode. -/
def Segs.emptied (x : Segs) (cs : SegReg) : Segs :=
  { es := x.es.invalidate 0, cs := cs, ss := x.ss, ds := x.ds.invalidate 0, fs := x.fs.invalidate 0,
    gs := x.gs.invalidate 0 }

theorem run_clearSeg (i : Seg) (s : State) :
    (clearSeg i).run s = .ok () { s with segs := s.segs.set i ((s.segs.get i).invalidate 0) } := rfl

theorem run_leaveV86 (g d : Desc) (s : State) : (leaveV86 g d).run s =
    .ok () { s with segs := s.segs.emptied (codeReg g.gateSel d 0), cpl := 0, eip := g.gateTarget
                    flags := gateEntryFlags g.intGate s.flags } :=
  (run_bind_ok (run_clearSeg .es s)).trans ((run_bind_ok (run_clearSeg .ds _)).trans
    ((run_bind_ok (run_clearSeg .fs _)).trans ((run_bind_ok (run_clearSeg .gs _)).trans (run_enterHandler g d 0 _))))

/-- The values that an entry from virtual-8086 mode pushes before the error code. -/
def State.v86Frame (s : State) (ret : Word) : List Word :=
  [s.segs.gs.selector.setWidth 32, s.segs.fs.selector.setWidth 32, s.segs.ds.selector.setWidth 32,
    s.segs.es.selector.setWidth 32, s.segs.ss.selector.setWidth 32, s.regs.esp, flagsValue s.flags,
    s.segs.cs.selector.setWidth 32, ret]

section
variable {k : DispatchKind} {g d : Desc} {code : Option Word} {ret : Word} {x : State}

theorem run_dispatchV86_level (level : d.dpl ≠ 0) : (dispatchV86 k g d code ret).run x =
    .error (.fault { kind := .gp, code := some (extCode k g.gateSel), addr := none } false) x :=
  run_require_fail (decide_eq_false level)

theorem run_dispatchV86_small (level : d.dpl = 0) (small : g.gate32 = false) :
    (dispatchV86 k g d code ret).run x = .error (.refuse .v86Gate16) x := by
  unfold dispatchV86
  rw [run_require_pass (decide_eq_true level), small]
  rfl

/-- The entry from virtual-8086 mode, once its stack is there. -/
theorem run_dispatchV86 {kd : Desc} {nesp : Word} {nss : Half} {y : State} (level : d.dpl = 0)
    (large : g.gate32 = true) (h : (innerStack k 0).run x = .ok (nss, kd, nesp) y) :
    (dispatchV86 k g d code ret).run x =
      (pushAll .s32 (y.v86Frame ret ++ code.toList) >>= fun _ => leaveV86 g d : Op Unit).run
        ((y.putFlag .vm false).onStack nss kd 0 nesp) := by
  have moved : State.setSp (State.putFlag { y.setSeg .ss (.ofDesc nss kd) with cpl := 0 } .vm false) nesp =
      (y.putFlag .vm false).onStack nss kd 0 nesp := (y.putFlag .vm false).onStack_eq nss kd 0 nesp
  unfold dispatchV86
  rw [run_require_pass (decide_eq_true level), large, if_neg (by decide), run_bind_ok h, run_bind_ok (run_get y),
    ← moved]
  refine (run_bind_ok (run_modify _ _)).trans ((run_bind_ok (run_setCpl 0 _)).trans
    ((run_bind_ok (run_putFlagOp _ _ _)).trans ((run_bind_ok (run_modify _ _)).trans ?_)))
  simp only [State.v86Frame, pushAll_append, ← pushError_eq, pushAll, leaveV86, enterHandler, bind_assoc, pure_bind]
  rfl

end

/-- VM is cleared by the entry itself, so that it may be cleared before it. -/
theorem gateFlags_vmCleared (s : State) (g : Desc) :
    Claim.GateFlags s g (gateEntryFlags g.intGate (putFlag s.flags .vm false)) := by
  obtain ⟨flags, level⟩ := gateFlags (s.putFlag .vm false) g
  refine ⟨fun q => (flags q).trans ?_, level.trans (iopl_putFlag _ _ _)⟩
  by_cases vm : q = .vm
  · subst vm
    rfl
  · exact congrArg _ (getFlag_putFlag_other _ _ _ _ vm)

theorem dispatchFromV86 : Claim.DispatchFromV86 := by
  intro v k code ret s x g d inv v86 reached answer sc inner big
  obtain ⟨reach, run⟩ := run_dispatch_reached (code := code) (ret := ret) (v86Mode_not_real v86) reached
  have scode : extCode k g.gateSel = sc := extCode_eq k g.gateSel
  have deeper (h : inner) : answer = (dispatchV86 k g d code ret).run x := by
    refine run.trans ?_
    rw [enterGate_inner h, if_pos v86]
  refine ⟨fun bad => ?_, fun h level small => ?_, fun y nss nesp kd t h level large new => ?_⟩
  · by_cases h : inner
    · obtain same | level := bad
      · exact absurd h same
      · exact (deeper h).trans (scode ▸ run_dispatchV86_level level)
    · refine run.trans ?_
      rw [enterGate_same h, dispatchSame_eq, run_bind_ok (run_get x), scode]
      exact run_require_fail (by rw [reach.only.v86Mode, v86]; rfl)
  · exact (deeper h).trans (run_dispatchV86_small level (Bool.eq_false_iff.2 (mt g.gate32_iff.1 small)))
  · intro sel vs entered pushed empty
    obtain ⟨reads, stack⟩ := newStack_ok new k
    have effect : Effect s y [] := reach.trans reads
    obtain ⟨regs, flags, -, -, segs, -⟩ := effect.only.fields
    have stacked : (y.putFlag .vm false).onStack nss kd 0 nesp = entered := by
      unfold State.onStack State.putFlag State.setFlagWord
      rw [regs, segs, flags]
    have frame : y.v86Frame ret ++ code.toList = vs := by
      unfold State.v86Frame
      rw [regs, segs, flags]
      rfl
    have cleared : (y.putFlag .vm false).Inv := (effect.inv inv).putFlag _ _
    have pushes := pushAll_pushed (stacked ▸ cleared.onStack nss kd 0 nesp) (by cases code <;> simp [vs]) pushed
    have size := g.gate32_iff.2 large
    have levelAfter : t.cpl = 0 := pushes.frame.system.cpl
    have segsAfter : t.segs = { s.segs with ss := .ofDesc nss kd } := pushes.frame.system.segs
    have flagsAfter : t.flags = putFlag s.flags .vm false := pushes.frame.flags
    refine ⟨gateEntryFlags g.intGate t.flags, ?_, levelAfter, ?_, effect.accessed inv, pushes⟩
    · rw [deeper h, run_dispatchV86 level size stack, stacked, frame, run_bind_ok pushed, run_leaveV86, segsAfter,
        g.gateTarget_eq, if_pos large, ← levelAfter]
      rfl
    · rw [flagsAfter]
      exact gateFlags_vmCleared s g

/-- Settles O35: the entry comes down to the new stack, then the pushes on it and the handler's segment. -/
theorem gateInnerLevel : Obligations.GateInnerLevel := ⟨innerLevelEntry, newStackChecks, dispatchFromV86⟩

end Sys2Proof.Machine

namespace Sys2Proof.Machine

/-! ### Dispatch in real mode (R522) -/

section
variable {v : Nat} {k : DispatchKind} {code : Option Word} {ret : Word} {s : State}

theorem run_dispatch_real (real : s.realMode = true) :
    (dispatch v k code ret).run s = (dispatchReal v ret).run s := by
  unfold dispatch
  rw [run_bind_ok (run_get s), if_pos real]

theorem run_dispatchReal_limit (short : s.idtr.limit.toNat < 4 * v + 3) : (dispatchReal v ret).run s =
    .error (.fault { kind := .gp, code := some 0, addr := none } false) s :=
  (run_bind_ok (run_get s)).trans (run_require_fail (decide_eq_false (Nat.not_le_of_lt short)))

/-- The flags, CS and IP of a handler in real mode, after the pushes. -/
def enterRealHandler (off seg : Word) : Op Unit := do
  mapFlags realEntryFlags
  loadSegReal .cs (seg.setWidth 16)
  jumpTo off

theorem run_enterRealHandler (off seg : Word) (t : State) : (enterRealHandler off seg).run t =
    .ok () { t with flags := realEntryFlags t.flags, eip := off
                    segs := { t.segs with cs := t.segs.cs.loadReal (seg.setWidth 16) } } := rfl

/-- The vector read, the pushes and the handler follow. -/
theorem run_dispatchReal_read {off seg : Word} {u w : State} (limit : 4 * v + 3 ≤ s.idtr.limit.toNat)
    (first : (sysRead (s.idtr.base + BitVec.ofNat 32 (4 * v)) .w16).run s = .ok off u)
    (second : (sysRead (s.idtr.base + BitVec.ofNat 32 (4 * v + 2)) .w16).run u = .ok seg w) :
    (dispatchReal v ret).run s =
      (pushAll .s16 [flagsValue s.flags, s.segs.cs.selector.setWidth 32, ret] >>= fun _ =>
        enterRealHandler off seg).run w := by
  refine (run_bind_ok (run_get s)).trans ((run_require_pass (decide_eq_true limit)).trans
    ((run_bind_ok first).trans ((run_bind_ok second).trans ?_)))
  simp only [pushAll, enterRealHandler, bind_assoc, pure_bind]
  rfl

end

/-- Settles O33: the vector beyond the table faults; the reads of one within it store nothing, the pushes leave flags and
segments alone, and the handler's entry sets them. -/
theorem realModeDispatch : Obligations.RealModeDispatch := by
  refine ⟨rfl, fun v k code ret s inv real => ⟨fun short => ?_, ?_⟩⟩
  · exact (run_dispatch_real real).trans (run_dispatchReal_limit short)
  · intro off seg u w t limit first second vs pushed
    have effect := twoReads_effect first second
    have stack := pushAll_pushed (effect.inv inv) (by simp [vs]) pushed
    obtain ⟨-, flags, -, -, segs, -⟩ := effect.only.fields
    have segsAfter : t.segs = s.segs := stack.frame.system.segs.trans segs
    have flagsAfter : t.flags = s.flags := stack.frame.flags.trans flags
    refine ⟨?_, effect.accessed inv, stack⟩
    rw [run_dispatch_real real, run_dispatchReal_read limit first second, run_bind_ok pushed, run_enterRealHandler,
      segsAfter, flagsAfter]
    rfl

end Sys2Proof.Machine

namespace Sys2Proof

/-! ### Decoders that read exactly the bytes given -/

/-- A decoder reads a value from bytes and leaves whatever follows them. -/
def Reads {α : Type} (d : Dec α) (bs : List Byte) (a : α) : Prop := ∀ rest, d.run (bs ++ rest) = .ok a rest

theorem Reads.ret {α : Type} (a : α) : Reads (.ret a) [] a := fun _ => rfl

theorem Reads.bind {α β : Type} {d : Dec α} {f : α → Dec β} {bs cs : List Byte} {a : α} {b : β}
    (hd : Reads d bs a) (hf : Reads (f a) cs b) : Reads (d.bind f) (bs ++ cs) b := fun rest => by
  rw [List.append_assoc, Dec.run_bind, hd]
  exact hf rest

/-- What follows reads no bytes. -/
theorem Reads.then {α β : Type} {d : Dec α} {f : α → Dec β} {bs : List Byte} {a : α} {b : β}
    (hd : Reads d bs a) (hf : Reads (f a) [] b) : Reads (d.bind f) bs b := by
  simpa using hd.bind hf

theorem Reads.map {α β : Type} {d : Dec α} {bs : List Byte} {a : α} (f : α → β)
    (hd : Reads d bs a) : Reads (d.map f) bs (f a) := fun rest => by
  rw [Dec.run_map, hd]

theorem Reads.map_eq {α β : Type} {d : Dec α} {bs : List Byte} {a : α} {f : α → β} {b : β}
    (hd : Reads d bs a) (hf : f a = b) : Reads (d.map f) bs b := hf ▸ hd.map f

theorem Reads.byte {α : Type} {k : Byte → Dec α} {b : Byte} {bs : List Byte} {a : α} (h : Reads (k b) bs a) :
    Reads (.byte k) (b :: bs) a := h

/-! ### Immediates and offsets (R170, R172) -/

theorem reads_u8 (b : Byte) : Reads Dec.u8 [b] b := fun _ => rfl

theorem reads_u16 (v : Half) : Reads Dec.u16 (halfBytes v) v := fun rest => by
  show Dec.Outcome.ok (v.extractLsb' 8 8 ++ v.setWidth 8) rest = .ok v rest
  congr 1
  ext i hi
  simp; grind

theorem reads_u32 (v : Word) : Reads Dec.u32 (leBytes v .w32) v := fun rest => by
  show Dec.Outcome.ok (v.extractLsb' 24 8 ++ v.extractLsb' 16 8 ++ v.extractLsb' 8 8 ++ v.setWidth 8) rest = .ok v rest
  congr 1
  ext i hi
  simp; grind

/-- A value that fits a width is its own low part, extended again. -/
theorem setWidth_of_fits {v : Word} {n : Nat} (h : v.toNat < 2 ^ n) : (v.setWidth n).setWidth 32 = v := by
  apply BitVec.eq_of_toNat_eq
  rw [BitVec.toNat_setWidth, BitVec.toNat_setWidth, Nat.mod_eq_of_lt h, Nat.mod_eq_of_lt v.isLt]

theorem leBytes_w16 (v : Word) : leBytes v .w16 = halfBytes (v.setWidth 16) := by
  have hlow : (v.setWidth 16).setWidth 8 = v.setWidth 8 := by simp
  have hhigh : (v.setWidth 16).extractLsb' 8 8 = v.extractLsb' 8 8 := by
    ext i hi
    simp only [BitVec.getElem_extractLsb', BitVec.getLsbD_setWidth]
    have : 8 + i < 16 := by omega
    simp [this]
  rw [leBytes, halfBytes, hlow, hhigh]

theorem reads_imm {w : Width} {v : Word} (h : w.fits v = true) : Reads (Dec.imm w) (leBytes v w) v := by
  have hv : v.toNat < 2 ^ w.bits := by simpa [Width.fits] using h
  cases w with
  | w8 =>
    have := (reads_u8 (v.setWidth 8)).map (·.setWidth 32)
    rwa [setWidth_of_fits (n := 8) hv] at this
  | w16 =>
    have := (reads_u16 (v.setWidth 16)).map (·.setWidth 32)
    rwa [setWidth_of_fits (n := 16) hv, ← leBytes_w16] at this
  | w32 => exact reads_u32 v

theorem reads_farPtr {z : Size} {off : Word} (h : z.width.fits off = true) (sel : Half) :
    Reads (decFarPtr z) (leBytes off z.width ++ halfBytes sel) (sel, off) :=
  (reads_imm h).bind ((reads_u16 sel).map _)

/-! ### ModRM operands (R165 to R167) -/

@[simp] theorem Reg.ofNum_num (r : Reg) : Reg.ofNum r.num = r := by cases r <;> rfl

@[simp] theorem Cond.ofNum_num (c : Cond) : Cond.ofNum c.num = c := by cases c <;> rfl

@[simp] theorem Base16.ofNum_num (b : Base16) : Base16.ofNum b.num = b := by cases b <;> rfl

@[simp] theorem ModRM.ofByte_toByte (m : ModRM) : ModRM.ofByte m.toByte = m := by
  obtain ⟨mod, reg, rm⟩ := m
  simp only [ModRM.ofByte, ModRM.toByte, ModRM.mk.injEq]
  refine ⟨?_, ?_, ?_⟩ <;> (ext i hi; simp; grind)

theorem decIndex_indexNum {x : Option Reg} (h : x ≠ some .esp) : decIndex (indexNum x) = x := by
  cases x with
  | none => rfl
  | some r =>
    cases r with
    | esp => exact absurd rfl h
    | eax | ecx | edx | ebx | ebp | esi | edi => rfl

/-- A displacement of either size, read by its mod field. -/
theorem reads_disp16 (d : Disp Half) : Reads (decDisp Dec.u16 d.mod) d.bytes16 d := by
  cases d with
  | none => exact .ret _
  | d8 b => exact (reads_u8 b).map _
  | full v => exact (reads_u16 v).map _

theorem reads_disp32 (d : Disp Word) : Reads (decDisp Dec.u32 d.mod) d.bytes32 d := by
  cases d with
  | none => exact .ret _
  | d8 b => exact (reads_u8 b).map _
  | full v => exact (reads_u32 v).map _

theorem Disp.mod_ne_three {α : Type} (d : Disp α) : d.mod ≠ 3 := by cases d <;> simp [Disp.mod]

/-- The bytes of an address are a ModRM byte with mod other than 3 and what that byte calls for. -/
theorem rmBytes_mem (reg : BitVec 3) (seg : Seg) {a : Addr} (h : a.wf = true) :
    ∃ mod rm bs, rmBytes reg (.mem ⟨seg, a⟩) = ModRM.toByte ⟨mod, reg, rm⟩ :: bs ∧ mod ≠ 3 ∧
      Reads (decAddr a.asz ⟨mod, reg, rm⟩) bs a := by
  cases a with
  | abs16 v => exact ⟨0, 6, _, rfl, by decide, (reads_u16 v).map _⟩
  | based16 b d =>
    refine ⟨d.mod, b.num, _, rfl, d.mod_ne_three, ?_⟩
    have hrow : ¬ (d.mod = 0 ∧ b.num = 6) := by
      cases d <;> cases b <;> simp_all [Addr.wf, Disp.mod, Base16.num, Disp.present]
    have := (reads_disp16 d).map (Addr.based16 (Base16.ofNum b.num))
    simpa only [Addr.asz, decAddr, hrow, if_false, Base16.ofNum_num] using this
  | abs32 v => exact ⟨0, 5, _, rfl, by decide, (reads_u32 v).map _⟩
  | based32 b d =>
    refine ⟨d.mod, b.num, _, rfl, d.mod_ne_three, ?_⟩
    have hsib : b.num ≠ 4 := by cases b <;> simp_all [Addr.wf, Reg.num]
    have hrow : ¬ (d.mod = 0 ∧ b.num = 5) := by
      cases d <;> cases b <;> simp_all [Addr.wf, Disp.mod, Reg.num, Disp.present]
    have := (reads_disp32 d).map (Addr.based32 (Reg.ofNum b.num))
    simpa only [Addr.asz, decAddr, hsib, hrow, if_false, Reg.ofNum_num] using this
  | sib b x s d =>
    refine ⟨d.mod, 4, _, rfl, d.mod_ne_three, (reads_u8 _).bind (cs := d.bytes32) ?_⟩
    have hx : x ≠ some .esp := by simp_all [Addr.wf]
    have hrow : ¬ (b.num = 5 ∧ d.mod = 0) := by
      cases d <;> cases b <;> simp_all [Addr.wf, Disp.mod, Reg.num, Disp.present]
    have := (reads_disp32 d).map (Addr.sib (Reg.ofNum b.num) (decIndex (indexNum x)) s)
    rw [decIndex_indexNum hx, Reg.ofNum_num] at this
    simpa only [ModRM.ofByte_toByte, hrow, if_false, Reg.ofNum_num, decIndex_indexNum hx] using this
  | sibAbs x s v =>
    refine ⟨0, 4, _, rfl, by decide, (reads_u8 _).bind (cs := leBytes v .w32) ?_⟩
    have hx : x ≠ some .esp := by simp_all [Addr.wf]
    have := (reads_u32 v).map (Addr.sibAbs x s)
    simpa only [ModRM.ofByte_toByte, decIndex_indexNum hx, and_self, if_true] using this

/-- A context gives an r/m operand its address size and its segment override. -/
def Ctx.fitsRM (c : Ctx) (rm : RM) : Prop := (∀ a, rm.asz? = some a → c.asz = a) ∧ c.seg = rm.override?

theorem rmBytes_reads {c : Ctx} (reg : BitVec 3) {rm : RM} (h : rm.wf = true) (hc : c.fitsRM rm) :
    ∃ m bs, rmBytes reg rm = ModRM.toByte m :: bs ∧ m.reg = reg ∧ Reads (decRM c m) bs rm := by
  obtain ⟨hasz, hseg⟩ := hc
  cases rm with
  | reg r =>
    refine ⟨⟨3, reg, r.num⟩, [], rfl, rfl, ?_⟩
    simpa [decRM] using Reads.ret (RM.reg r)
  | mem m =>
    obtain ⟨seg, a⟩ := m
    obtain ⟨mod, rm, bs, hbs, hmod, hr⟩ := rmBytes_mem reg seg h
    refine ⟨⟨mod, reg, rm⟩, bs, hbs, rfl, ?_⟩
    have hover : (c.seg.getD a.defaultSeg) = seg := by
      rw [hseg, RM.override?]
      by_cases hs : seg = a.defaultSeg <;> simp [hs]
    have := hr.map fun a => RM.mem { seg := c.seg.getD a.defaultSeg, addr := a }
    rw [hover] at this
    rw [decRM, if_neg hmod, hasz a.asz rfl]
    exact this

theorem reads_modRM {c : Ctx} (reg : BitVec 3) {rm : RM} (h : rm.wf = true) (hc : c.fitsRM rm) :
    Reads (decModRM c) (rmBytes reg rm) (reg, rm) := by
  obtain ⟨m, bs, hbs, hreg, hr⟩ := rmBytes_reads reg h hc
  rw [hbs, ← hreg]
  refine (reads_u8 _).bind (cs := bs) ?_
  simpa only [ModRM.ofByte_toByte] using hr.map fun rm => (m.reg, rm)

theorem reads_modRMOf {c : Ctx} {admitted : BitVec 3 → Bool} {reg : BitVec 3} (ha : admitted reg = true)
    {rm : RM} (h : rm.wf = true) (hc : c.fitsRM rm) :
    Reads (decModRMOf admitted c) (rmBytes reg rm) (reg, rm) := by
  obtain ⟨m, bs, hbs, hreg, hr⟩ := rmBytes_reads reg h hc
  rw [hbs, ← hreg]
  refine (reads_u8 _).bind (cs := bs) ?_
  simpa only [ModRM.ofByte_toByte, hreg, ha, if_true] using hr.map fun rm => (m.reg, rm)

/-! ### Prefixes (R161 to R164) -/

/-- What an instruction's own sizes, override and repetition settle in a code segment of default size `d`. -/
def ctxOf (d : Size) (osz asz : Option Size) (seg : Option Seg) (rep : Rep) : Ctx where
  osz := osz.getD d
  asz := asz.getD d
  seg := seg
  rep := rep

/-- The prefixes that a list of bytes adds, where each byte is one of the prefixes. -/
def Prefixes.addAll (p : Prefixes) (bs : List Byte) : Option Prefixes := bs.foldlM Prefixes.add p

theorem decPrefixes_run {bs : List Byte} {n : Nat} {p q : Prefixes} {b : Byte} (hn : bs.length < n)
    (hbs : p.addAll bs = some q) (hb : q.add b = none) (rest : List Byte) :
    (decPrefixes n p).run (bs ++ b :: rest) = .ok (q, b) rest := by
  induction bs generalizing n p with
  | nil =>
    obtain ⟨n, rfl⟩ : ∃ k, n = k + 1 := ⟨n - 1, by simp at hn; omega⟩
    cases hbs
    simp only [List.nil_append, decPrefixes, Dec.run, hb]
  | cons x xs ih =>
    obtain ⟨n, rfl⟩ : ∃ k, n = k + 1 := ⟨n - 1, by simp at hn; omega⟩
    rw [Prefixes.addAll, List.foldlM_cons, Option.bind_eq_bind, Option.bind_eq_some_iff] at hbs
    obtain ⟨p', hx, hxs⟩ := hbs
    simp only [List.cons_append, decPrefixes, Dec.run, hx]
    exact ih (by simpa using hn) hxs

theorem Prefixes.addAll_append (p : Prefixes) (xs ys : List Byte) :
    p.addAll (xs ++ ys) = (p.addAll xs).bind (·.addAll ys) := List.foldlM_append

theorem addAll_opsize (d : Size) (osz : Option Size) (p : Prefixes) (h : p.opsize = false) :
    p.addAll (prefixBytes d osz none none .none) = some { p with opsize := osz.getD d ≠ d } := by
  obtain ⟨o, a, s, r⟩ := p
  cases h
  cases d <;> rcases osz with - | (_ | _) <;> rfl

theorem addAll_adsize (d : Size) (asz : Option Size) (p : Prefixes) (h : p.adsize = false) :
    p.addAll (prefixBytes d none asz none .none) = some { p with adsize := asz.getD d ≠ d } := by
  obtain ⟨o, a, s, r⟩ := p
  cases h
  cases d <;> rcases asz with - | (_ | _) <;> rfl

theorem addAll_override (d : Size) (seg : Option Seg) (p : Prefixes) (h : p.seg = none) :
    p.addAll (prefixBytes d none none seg .none) = some { p with seg := seg } := by
  obtain ⟨o, a, s, r⟩ := p
  cases h
  cases seg with
  | none => rfl
  | some s => cases s <;> rfl

theorem addAll_repeat (d : Size) (rep : Rep) (p : Prefixes) (h : p.rep = .none) :
    p.addAll (prefixBytes d none none none rep) = some { p with rep := rep } := by
  obtain ⟨o, a, s, r⟩ := p
  cases h
  cases rep <;> rfl

theorem prefixBytes_append (d : Size) (osz asz : Option Size) (seg : Option Seg) (rep : Rep) :
    prefixBytes d osz asz seg rep = prefixBytes d osz none none .none ++ prefixBytes d none asz none .none ++
      prefixBytes d none none seg .none ++ prefixBytes d none none none rep := by
  simp [prefixBytes]

theorem prefixBytes_length (d : Size) (osz asz : Option Size) (seg : Option Seg) (rep : Rep) :
    (prefixBytes d osz asz seg rep).length ≤ 4 := by
  have hosz : (prefixBytes d osz none none .none).length ≤ 1 := by
    cases d <;> rcases osz with - | (_ | _) <;> decide
  have hasz : (prefixBytes d none asz none .none).length ≤ 1 := by
    cases d <;> rcases asz with - | (_ | _) <;> decide
  have hseg : (prefixBytes d none none seg .none).length ≤ 1 := by cases seg <;> simp [prefixBytes]
  have hrep : (prefixBytes d none none none rep).length ≤ 1 := by cases rep <;> simp [prefixBytes]
  rw [prefixBytes_append]
  simp only [List.length_append]
  omega

theorem Size.toggle_of_ne {z d : Size} (h : z ≠ d) : d.toggle = z := by cases z <;> cases d <;> trivial

/-- The prefixes that the encoder writes settle the instruction's own sizes, override and repetition. -/
theorem prefixBytes_addAll (d : Size) (osz asz : Option Size) (seg : Option Seg) (rep : Rep) :
    ∃ q : Prefixes, Prefixes.addAll {} (prefixBytes d osz asz seg rep) = some q ∧
      q.ctx d = ctxOf d osz asz seg rep := by
  refine ⟨{ opsize := osz.getD d ≠ d, adsize := asz.getD d ≠ d, seg := seg, rep := rep }, ?_, ?_⟩
  · rw [prefixBytes_append, Prefixes.addAll_append, Prefixes.addAll_append, Prefixes.addAll_append,
      addAll_opsize d osz _ rfl, Option.bind_some, addAll_adsize d asz _ rfl, Option.bind_some,
      addAll_override d seg _ rfl, Option.bind_some, addAll_repeat d rep _ rfl]
  · have hsize : ∀ z : Size, (if z ≠ d then d.toggle else d) = z := fun z => by
      by_cases h : z = d
      · simp [h]
      · simpa [h] using Size.toggle_of_ne h
    simp only [Prefixes.ctx, ctxOf, decide_eq_true_eq, hsize]

/-- A byte is none of the prefixes, whichever prefixes were read. -/
def IsOpcode (b : Byte) : Prop := Prefixes.add {} b = none

theorem IsOpcode.add {b : Byte} (h : IsOpcode b) (q : Prefixes) : q.add b = none := by
  unfold IsOpcode Prefixes.add at h
  unfold Prefixes.add
  split at h <;> simp_all

/-- Bytes are an encoding of an instruction: no longer than one may be, and read back as it (R130). -/
def Encodes (d : Size) (i : Instr) (bs : List Byte) : Prop := bs.length ≤ 15 ∧ Reads (decInstr d) bs i

/-- After the prefixes comes the opcode, in the context they settle (R160). -/
theorem encodes_of_opcode {d : Size} {osz asz : Option Size} {seg : Option Seg} {rep : Rep} {b : Byte}
    {bs : List Byte} {i : Instr} (hb : IsOpcode b) (hlen : bs.length ≤ 10)
    (h : Reads (decOpcode (ctxOf d osz asz seg rep) b) bs i) :
    Encodes d i (prefixBytes d osz asz seg rep ++ b :: bs) := by
  have hpre := prefixBytes_length d osz asz seg rep
  refine ⟨by simp only [List.length_append, List.length_cons]; omega, fun rest => ?_⟩
  obtain ⟨q, hq, hctx⟩ := prefixBytes_addAll d osz asz seg rep
  have hmax : (prefixBytes d osz asz seg rep).length < maxInsnLen := lt_of_le_of_lt hpre (by decide)
  rw [List.append_assoc, List.cons_append, decInstr, Dec.run_bind, decPrefixes_run hmax hq (hb.add q)]
  show (decOpcode (q.ctx d) b).run _ = _
  rw [hctx]
  exact h rest

/-! ### Rows with an r/m operand -/

theorem rmBytes_length (reg : BitVec 3) (rm : RM) : (rmBytes reg rm).length ≤ 6 := by
  rcases rm with r | ⟨seg, v | ⟨b, _ | _ | _⟩ | v | ⟨b, _ | _ | _⟩ | ⟨b, x, s, _ | _ | _⟩ | ⟨x, s, v⟩⟩ <;>
    simp [rmBytes, halfBytes, leBytes, Disp.bytes16, Disp.bytes32]

theorem leBytes_length (v : Word) (w : Width) : (leBytes v w).length = w.bytes := by cases w <;> rfl

theorem Width.bytes_le (w : Width) : w.bytes ≤ 4 := by cases w <;> decide

theorem ctxOf_fitsRM (d : Size) (osz : Option Size) (rm : RM) :
    (ctxOf d osz rm.asz? rm.override? .none).fitsRM rm :=
  ⟨fun a h => by simp [ctxOf, h], rfl⟩

/-- A one-byte opcode with an r/m operand, and an immediate after it. -/
theorem encodes_rm {d : Size} {osz : Option Size} {b : Byte} {reg : BitVec 3} {rm : RM} {tail : List Byte}
    {i : Instr} (hb : IsOpcode b) (htail : tail.length ≤ 4)
    (h : ∀ c : Ctx, c.osz = osz.getD d → c.fitsRM rm → Reads (decOpcode c b) (rmBytes reg rm ++ tail) i) :
    Encodes d i (rmPrefix d osz rm ++ b :: (rmBytes reg rm ++ tail)) := by
  have := rmBytes_length reg rm
  exact encodes_of_opcode hb (by simp only [List.length_append]; omega) (h _ rfl (ctxOf_fitsRM d osz rm))

/-- A two-byte opcode with an r/m operand (R174). -/
theorem encodes_rm0F {d : Size} {osz : Option Size} {b : Byte} {reg : BitVec 3} {rm : RM} {i : Instr}
    (h : ∀ c : Ctx, c.osz = osz.getD d → c.fitsRM rm → Reads (decOpcode0F c b) (rmBytes reg rm) i) :
    Encodes d i (encRM d osz [0x0F, b] reg rm) := by
  have := rmBytes_length reg rm
  exact encodes_of_opcode (b := 0x0F) (bs := b :: rmBytes reg rm) rfl (by simp only [List.length_cons]; omega)
    (Reads.byte (h _ rfl (ctxOf_fitsRM d osz rm)))

/-- The rows of an even opcode and the odd one after it: the byte row, and the row at the operand size (R173). -/
structure OpcodePair (op : Byte) (row : Ctx → Width → Dec Instr) : Prop where
  even    : ∀ c, decOpcode c op = row c .w8
  odd     : ∀ c, decOpcode c (op + 1) = row c c.osz.width
  opcodes : IsOpcode op ∧ IsOpcode (op + 1)

theorem OpcodePair.isOpcode {op : Byte} {row : Ctx → Width → Dec Instr} (hp : OpcodePair op row) (w : Width) :
    IsOpcode (op + w.opBit) := by
  obtain ⟨h0, h1⟩ := hp.opcodes
  cases w with
  | w8 => simpa [Width.opBit] using h0
  | w16 => exact h1
  | w32 => exact h1

theorem OpcodePair.row {op : Byte} {row : Ctx → Width → Dec Instr} (hp : OpcodePair op row) {c : Ctx} {d : Size}
    {w : Width} (hc : c.osz = w.size?.getD d) : decOpcode c (op + w.opBit) = row c w := by
  cases w with
  | w8 => simpa [Width.opBit] using hp.even c
  | w16 => exact (hp.odd c).trans (by rw [hc]; rfl)
  | w32 => exact (hp.odd c).trans (by rw [hc]; rfl)

theorem OpcodePair.encodes_rm {op : Byte} {row : Ctx → Width → Dec Instr} (hp : OpcodePair op row) {d : Size}
    {w : Width} {reg : BitVec 3} {rm : RM} {tail : List Byte} {i : Instr} (htail : tail.length ≤ 4)
    (h : ∀ c : Ctx, c.fitsRM rm → Reads (row c w) (rmBytes reg rm ++ tail) i) :
    Encodes d i (rmPrefix d w.size? rm ++ (op + w.opBit) :: (rmBytes reg rm ++ tail)) :=
  Sys2Proof.encodes_rm (hp.isOpcode w) htail fun c hc hrm => by
    rw [hp.row hc]
    exact h c hrm

/-- A row with an r/m operand and nothing after it. -/
theorem OpcodePair.encodes_encRM {op : Byte} {row : Ctx → Width → Dec Instr} (hp : OpcodePair op row) {d : Size}
    {w : Width} {reg : BitVec 3} {rm : RM} {i : Instr}
    (h : ∀ c : Ctx, c.fitsRM rm → Reads (row c w) (rmBytes reg rm) i) :
    Encodes d i (encRM d w.size? [op + w.opBit] reg rm) := by
  simpa [encRM] using hp.encodes_rm (d := d) (tail := []) (by simp) fun c hc => by simpa using h c hc

/-- A row without an r/m operand. -/
theorem OpcodePair.encodes_op {op : Byte} {row : Ctx → Width → Dec Instr} (hp : OpcodePair op row) {d : Size}
    {w : Width} {bs : List Byte} {i : Instr} (hlen : bs.length ≤ 10) (h : ∀ c : Ctx, Reads (row c w) bs i) :
    Encodes d i (opPrefix d w.size? ++ (op + w.opBit) :: bs) :=
  encodes_of_opcode (hp.isOpcode w) hlen (by rw [hp.row rfl]; exact h _)

/-- A one-byte opcode with an r/m operand and nothing after it. -/
theorem encodes_encRM {d : Size} {osz : Option Size} {b : Byte} {reg : BitVec 3} {rm : RM} {i : Instr}
    (hb : IsOpcode b)
    (h : ∀ c : Ctx, c.osz = osz.getD d → c.fitsRM rm → Reads (decOpcode c b) (rmBytes reg rm) i) :
    Encodes d i (encRM d osz [b] reg rm) := by
  simpa [encRM] using encodes_rm (tail := []) hb (by simp) fun c ho hc => by simpa using h c ho hc

/-- A one-byte opcode with an r/m operand, and an immediate after it. -/
theorem encodes_encRM_append {d : Size} {osz : Option Size} {b : Byte} {reg : BitVec 3} {rm : RM} {tail : List Byte}
    {i : Instr} (hb : IsOpcode b) (htail : tail.length ≤ 4)
    (h : ∀ c : Ctx, c.osz = osz.getD d → c.fitsRM rm → Reads (decOpcode c b) (rmBytes reg rm ++ tail) i) :
    Encodes d i (encRM d osz [b] reg rm ++ tail) := by
  simpa [encRM] using encodes_rm hb htail h

/-- An opcode without a memory operand. -/
theorem encodes_encOp {d : Size} {osz : Option Size} {b : Byte} {bs : List Byte} {i : Instr} (hb : IsOpcode b)
    (hlen : bs.length ≤ 10) (h : ∀ c : Ctx, c.osz = osz.getD d → Reads (decOpcode c b) bs i) :
    Encodes d i (encOp d osz (b :: bs)) :=
  encodes_of_opcode hb hlen (h _ rfl)

theorem Reg.num_ofNum (n : BitVec 3) : (Reg.ofNum n).num = n := by revert n; decide

/-- Every number of three bits is a register's. -/
theorem Reg.exists_num (n : BitVec 3) : ∃ r : Reg, n = r.num := ⟨_, (Reg.num_ofNum n).symm⟩

/-! ### Arithmetic, shifts and the groups (R260, R269 to R273, R320, R175) -/

theorem aluPair_rmReg (digit : BitVec 3) : OpcodePair (0#2 ++ digit ++ 0#3) fun c w =>
    ((decModRM c).map fun (r, rm) => AluForm.rmReg w rm (Reg.ofNum r)).map (aluInstr digit) := by
  obtain ⟨r, rfl⟩ := Reg.exists_num digit
  cases r <;> exact ⟨fun _ => rfl, fun _ => rfl, rfl, rfl⟩

theorem aluPair_regRm (digit : BitVec 3) : OpcodePair (0#2 ++ digit ++ 2#3) fun c w =>
    ((decModRM c).map fun (r, rm) => AluForm.regRm w (Reg.ofNum r) rm).map (aluInstr digit) := by
  obtain ⟨r, rfl⟩ := Reg.exists_num digit
  cases r <;> exact ⟨fun _ => rfl, fun _ => rfl, rfl, rfl⟩

theorem aluPair_accImm (digit : BitVec 3) : OpcodePair (0#2 ++ digit ++ 4#3) fun _ w =>
    ((Dec.imm w).map (AluForm.accImm w)).map (aluInstr digit) := by
  obtain ⟨r, rfl⟩ := Reg.exists_num digit
  cases r <;> exact ⟨fun _ => rfl, fun _ => rfl, rfl, rfl⟩

theorem group1Pair : OpcodePair 0x80 decGroup1 := ⟨fun _ => rfl, fun _ => rfl, rfl, rfl⟩

theorem group3Pair : OpcodePair 0xF6 decGroup3 := ⟨fun _ => rfl, fun _ => rfl, rfl, rfl⟩

theorem leBytes_length_le (v : Word) (w : Width) : (leBytes v w).length ≤ 4 :=
  (leBytes_length v w).trans_le w.bytes_le

theorem AluForm.encodes {f : AluForm} (h : f.wf = true) (d : Size) (digit : BitVec 3) :
    Encodes d (aluInstr digit f) (f.encode d digit) := by
  cases f with
  | rmReg w rm r =>
    refine (aluPair_rmReg digit).encodes_encRM fun c hc => ?_
    exact ((reads_modRM r.num h hc).map_eq (by simp)).map _
  | regRm w r rm =>
    refine (aluPair_regRm digit).encodes_encRM fun c hc => ?_
    exact ((reads_modRM r.num h hc).map_eq (by simp)).map _
  | accImm w imm =>
    exact (aluPair_accImm digit).encodes_op ((leBytes_length_le _ _).trans (by decide))
      fun _ => ((reads_imm h).map _).map _
  | rmImm w rm imm =>
    obtain ⟨hrm, himm⟩ := Bool.and_eq_true_iff.mp h
    exact group1Pair.encodes_rm (leBytes_length_le _ _) fun c hc =>
      (reads_modRM digit hrm hc).bind ((reads_imm himm).map _)
  | rmImm8 z rm ib =>
    refine encodes_rm rfl (by simp) fun c ho hc => ?_
    cases ho
    exact (reads_modRM digit h hc).bind ((reads_u8 ib).map _)

/-- INC and DEC: the register row, and the digit's rows of groups 4 and 5 (R269, R270). -/
theorem IncForm.encodes {mk : IncForm → Instr} {digit : BitVec 3}
    (hreg : ∀ c r, decOpcode c (0b01#2 ++ digit ++ Reg.num r) = .ret (mk (.reg c.osz r)))
    (hop : ∀ r, IsOpcode (0b01#2 ++ digit ++ Reg.num r))
    (h4 : ∀ rm, group4Instr digit rm = mk (.rm .w8 rm))
    (h5 : ∀ c rm, group5Instr c digit rm = mk (.rm c.osz.width rm))
    {f : IncForm} (h : f.wf = true) (d : Size) : Encodes d (mk f) (f.encode d digit) := by
  cases f with
  | reg z r =>
    refine encodes_encOp (hop r) (by simp) fun c hc => ?_
    cases hc
    rw [hreg]
    exact .ret _
  | rm w e =>
    cases w with
    | w8 => exact encodes_encRM rfl fun c _ hc => (reads_modRM digit h hc).map_eq (h4 e)
    | w16 => exact encodes_encRM rfl fun c ho hc => (reads_modRM digit h hc).map_eq ((h5 c e).trans (by rw [ho]; rfl))
    | w32 => exact encodes_encRM rfl fun c ho hc => (reads_modRM digit h hc).map_eq ((h5 c e).trans (by rw [ho]; rfl))

theorem encodes_inc {f : IncForm} (h : f.wf = true) (d : Size) : Encodes d (.inc f) (f.encode d 0) :=
  IncForm.encodes (fun _ r => by cases r <;> rfl) (fun r => by cases r <;> rfl) (fun _ => rfl) (fun _ _ => rfl) h d

theorem encodes_dec {f : IncForm} (h : f.wf = true) (d : Size) : Encodes d (.dec f) (f.encode d 1) :=
  IncForm.encodes (fun _ r => by cases r <;> rfl) (fun r => by cases r <;> rfl) (fun _ => rfl) (fun _ _ => rfl) h d

theorem shiftPair_one : OpcodePair 0xD0 fun c w => decGroup2 c w .one := ⟨fun _ => rfl, fun _ => rfl, rfl, rfl⟩

theorem shiftPair_cl : OpcodePair 0xD2 fun c w => decGroup2 c w .cl := ⟨fun _ => rfl, fun _ => rfl, rfl, rfl⟩

theorem shiftPair_imm : OpcodePair 0xC0 decGroup2i := ⟨fun _ => rfl, fun _ => rfl, rfl, rfl⟩

theorem encodes_shift {rm : RM} (h : rm.wf = true) (d : Size) (digit : BitVec 3) (w : Width) (n : Count) :
    Encodes d (shiftInstr digit w rm n) (encShift d digit w rm n) := by
  cases n with
  | one => exact shiftPair_one.encodes_encRM fun c hc => (reads_modRM digit h hc).map _
  | cl => exact shiftPair_cl.encodes_encRM fun c hc => (reads_modRM digit h hc).map _
  | imm ib =>
    exact shiftPair_imm.encodes_rm (by simp) fun c hc => (reads_modRM digit h hc).bind ((reads_u8 ib).map _)

theorem testPair_rmReg : OpcodePair 0x84 fun c w => (decModRM c).map fun (r, rm) =>
    .test (.rmReg w rm (Reg.ofNum r)) := ⟨fun _ => rfl, fun _ => rfl, rfl, rfl⟩

theorem testPair_accImm : OpcodePair 0xA8 fun _ w => (Dec.imm w).map fun i => .test (.accImm w i) :=
  ⟨fun _ => rfl, fun _ => rfl, rfl, rfl⟩

theorem TestForm.encodes {f : TestForm} (h : f.wf = true) (d : Size) : Encodes d (.test f) (f.encode d) := by
  cases f with
  | rmReg w rm r => exact testPair_rmReg.encodes_encRM fun c hc => (reads_modRM r.num h hc).map_eq (by simp)
  | accImm w imm =>
    exact testPair_accImm.encodes_op ((leBytes_length_le _ _).trans (by decide)) fun _ => (reads_imm h).map _
  | rmImm w rm imm =>
    obtain ⟨hrm, himm⟩ := Bool.and_eq_true_iff.mp h
    exact group3Pair.encodes_rm (leBytes_length_le _ _) fun c hc =>
      (reads_modRMOf (reg := 0) rfl hrm hc).bind ((reads_imm himm).map _)

/-! ### Data transfer, strings and branches -/

theorem movPair_rmReg : OpcodePair 0x88 fun c w => (decModRM c).map fun (r, rm) => .movRmReg w rm (Reg.ofNum r) :=
  ⟨fun _ => rfl, fun _ => rfl, rfl, rfl⟩

theorem movPair_regRm : OpcodePair 0x8A fun c w => (decModRM c).map fun (r, rm) => .movRegRm w (Reg.ofNum r) rm :=
  ⟨fun _ => rfl, fun _ => rfl, rfl, rfl⟩

theorem movPair_accMoffs : OpcodePair 0xA0 fun c w => (decMoffs c).map (.movAccMoffs w) :=
  ⟨fun _ => rfl, fun _ => rfl, rfl, rfl⟩

theorem movPair_moffsAcc : OpcodePair 0xA2 fun c w => (decMoffs c).map (.movMoffsAcc w) :=
  ⟨fun _ => rfl, fun _ => rfl, rfl, rfl⟩

theorem group11Pair : OpcodePair 0xC6 fun c w => decGroup11 c w (if w = .w8 then .oC6 else .oC7) :=
  ⟨fun _ => rfl, fun ⟨osz, _, _, _⟩ => by cases osz <;> rfl, rfl, rfl⟩

theorem xchgPair : OpcodePair 0x86 fun c w => (decModRM c).map fun (r, rm) => .xchg w rm (Reg.ofNum r) :=
  ⟨fun _ => rfl, fun _ => rfl, rfl, rfl⟩

theorem getD_override (s : Seg) : (if s = .ds then none else some s).getD .ds = s := by
  by_cases h : s = .ds <;> simp [h]

theorem OpcodePair.encodes_moffs {op : Byte} {mk : Width → Moffs → Instr}
    (hp : OpcodePair op fun c w => (decMoffs c).map (mk w)) {m : Moffs} (h : m.wf = true) (d : Size) (w : Width) :
    Encodes d (mk w m) (encMoffs d w op m) := by
  obtain ⟨asz, seg, off⟩ := m
  refine encodes_of_opcode (hp.isOpcode w) ((leBytes_length_le _ _).trans (by decide)) ?_
  rw [hp.row rfl]
  refine ((reads_imm h).map_eq ?_).map _
  simp only [ctxOf, getD_override, Option.getD_some]

theorem encodes_string {d : Size} {osz : Option Size} {rep : Rep} {asz : Size} {seg : Seg} {b : Byte} {i : Instr}
    (hb : IsOpcode b)
    (h : ∀ c : Ctx, c.osz = osz.getD d → c.rep = rep → c.asz = asz → c.seg.getD .ds = seg →
      decOpcode c b = .ret i) : Encodes d i (encString d osz rep asz seg b) := by
  refine encodes_of_opcode hb (by simp) ?_
  rw [h _ rfl rfl rfl (getD_override seg)]
  exact .ret i

theorem encodes_loop {d z asz : Size} {b cb : Byte} {i : Instr} (hb : IsOpcode b)
    (h : ∀ c : Ctx, c.osz = z → c.asz = asz → Reads (decOpcode c b) [cb] i) :
    Encodes d i (encLoop d z asz b cb) :=
  encodes_of_opcode hb (by simp) (h _ rfl rfl)

theorem halfBytes_length (v : Half) : (halfBytes v).length = 2 := rfl

theorem encodes_movRegImm {w : Width} {imm : Word} (h : w.fits imm = true) (d : Size) (r : Reg) :
    Encodes d (.movRegImm w r imm) (encode d (.movRegImm w r imm)) := by
  have hlen : (leBytes imm w).length ≤ 10 := (leBytes_length_le _ _).trans (by decide)
  refine encodes_encOp (by cases w <;> cases r <;> rfl) hlen fun c hc => ?_
  have hrow : decOpcode c ((if w = .w8 then 0b10110#5 else 0b10111#5) ++ r.num) =
      (Dec.imm w).map (.movRegImm w r) := by
    obtain ⟨osz, _, _, _⟩ := c
    cases w <;> cases hc <;> cases r <;> rfl
  rw [hrow]
  exact (reads_imm h).map _

theorem encodes_pushSeg (d z : Size) (sr : Seg) : Encodes d (.pushSeg z sr) (encode d (.pushSeg z sr)) := by
  cases sr <;> refine encodes_encOp rfl (by simp) ?_ <;> rintro c rfl
  case fs => exact .byte (.ret _)
  case gs => exact .byte (.ret _)
  all_goals exact .ret _

theorem encodes_popSeg {sr : Seg} (h : sr ≠ .cs) (d z : Size) :
    Encodes d (.popSeg z sr) (encode d (.popSeg z sr)) := by
  cases sr
  case cs => exact absurd rfl h
  all_goals refine encodes_encOp rfl (by simp) ?_; rintro c rfl
  case fs => exact .byte (.ret _)
  case gs => exact .byte (.ret _)
  all_goals exact .ret _

theorem encodes_group6 {d : Size} {osz : Option Size} {ext : BitVec 3} {rm : RM} {i : Instr}
    (h : ∀ c : Ctx, c.osz = osz.getD d → c.fitsRM rm → Reads (decGroup6 c) (rmBytes ext rm) i) :
    Encodes d i (encRM d osz [0x0F, 0x00] ext rm) := encodes_rm0F h

theorem encodes_group7 {d : Size} {osz : Option Size} {ext : BitVec 3} {rm : RM} {i : Instr}
    (h : ∀ c : Ctx, c.osz = osz.getD d → c.fitsRM rm → Reads (decGroup7 c) (rmBytes ext rm) i) :
    Encodes d i (encRM d osz [0x0F, 0x01] ext rm) := encodes_rm0F h

theorem hasSlot_oFE {r : Reg} (h : UdOp.oFE.hasSlot r.num = true) : r ≠ .eax ∧ r ≠ .ecx := by
  revert h
  cases r <;> decide

theorem hasSlot_oFF {r : Reg} (h : UdOp.oFF.hasSlot r.num = true) : r = .edi := by
  revert h
  cases r <;> decide

theorem hasSlot_o0F00 {r : Reg} (h : UdOp.o0F00.hasSlot r.num = true) : r = .esi ∨ r = .edi := by
  revert h
  cases r <;> decide

theorem hasSlot_o0F01 {r : Reg} (h : UdOp.o0F01.hasSlot r.num = true) : r = .ebp := by
  revert h
  cases r <;> decide

/-- A slot of group 11 has no immediate. -/
theorem reads_group11_slot {c : Ctx} {ext : BitVec 3} (he : ext ≠ 0) {rm : RM} (h : rm.wf = true)
    (hc : c.fitsRM rm) (w : Width) (op : UdOp) : Reads (decGroup11 c w op) (rmBytes ext rm) (.ud op ext rm) := by
  refine (reads_modRM _ h hc).then ?_
  simpa only [he, if_false] using Reads.ret (Instr.ud op ext rm)

theorem encodes_ud {op : UdOp} {ext : BitVec 3} (hs : op.hasSlot ext = true) {rm : RM} (h : rm.wf = true)
    (d : Size) : Encodes d (.ud op ext rm) (encRM d none op.opcode ext rm) := by
  obtain ⟨r, rfl⟩ := Reg.exists_num ext
  cases op with
  | o8F =>
    have hr : r.num ≠ 0 := by simpa [UdOp.hasSlot] using hs
    exact encodes_encRM rfl fun c _ hc => (reads_modRM _ h hc).map_eq (if_neg hr)
  | oC6 => exact encodes_encRM rfl fun c _ hc => reads_group11_slot (by simpa [UdOp.hasSlot] using hs) h hc _ _
  | oC7 => exact encodes_encRM rfl fun c _ hc => reads_group11_slot (by simpa [UdOp.hasSlot] using hs) h hc _ _
  | oFE =>
    obtain ⟨h0, h1⟩ := hasSlot_oFE hs
    exact encodes_encRM rfl fun c _ hc => (reads_modRM _ h hc).map_eq (by cases r <;> trivial)
  | oFF =>
    cases hasSlot_oFF hs
    exact encodes_encRM rfl fun c _ hc => (reads_modRM _ h hc).map _
  | o0F00 =>
    rcases hasSlot_o0F00 hs with rfl | rfl
    · exact encodes_group6 fun c _ hc => (reads_modRMOf rfl h hc).then (.ret _)
    · exact encodes_group6 fun c _ hc => (reads_modRMOf rfl h hc).then (.ret _)
  | o0F01 =>
    cases hasSlot_o0F01 hs
    exact encodes_group7 fun c _ hc => (reads_modRMOf rfl h hc).then (.ret _)

/-- A row that ends with its opcode. -/
theorem encodes_bare {d : Size} {osz : Option Size} {b : Byte} {i : Instr} (hb : IsOpcode b)
    (h : ∀ c : Ctx, c.osz = osz.getD d → decOpcode c b = .ret i) : Encodes d i (encOp d osz [b]) :=
  encodes_encOp hb (by simp) fun c hc => h c hc ▸ .ret i

/-- Every well-formed instruction's encoding reads back as it, and is no longer than one may be. -/
theorem encode_encodes (d : Size) {i : Instr} (h : i.wf = true) : Encodes d i (encode d i) := by
  cases i with
  | add f | or f | adc f | sbb f | and f | sub f | xor f | cmp f => exact AluForm.encodes h d _
  | inc f => exact encodes_inc h d
  | dec f => exact encodes_dec h d
  | neg w rm | not w rm | mul w rm | imul1 w rm | div w rm | idiv w rm =>
    exact group3Pair.encodes_encRM fun c hc => (reads_modRMOf rfl h hc).then (.ret _)
  | test f => exact TestForm.encodes h d
  | imul2 z r rm | movzxByte z r rm | movzxWord z r rm | movsxByte z r rm | movsxWord z r rm =>
    refine encodes_rm0F fun c ho hc => ?_
    cases ho
    exact (reads_modRM _ h hc).map_eq (by simp)
  | imul3 z r rm imm =>
    obtain ⟨hrm, himm⟩ := Bool.and_eq_true_iff.mp h
    refine encodes_encRM_append rfl (leBytes_length_le _ _) fun c ho hc => ?_
    cases ho
    exact (reads_modRM _ hrm hc).bind ((reads_imm himm).map_eq (by simp))
  | imul3b z r rm ib =>
    refine encodes_encRM_append rfl (by simp) fun c ho hc => ?_
    cases ho
    exact (reads_modRM _ h hc).bind ((reads_u8 ib).map_eq (by simp))
  | rol w rm n | ror w rm n | rcl w rm n | rcr w rm n | shl w rm n | shr w rm n | sal w rm n | sar w rm n =>
    exact encodes_shift h d _ w n
  | movRmReg w rm r => exact movPair_rmReg.encodes_encRM fun c hc => (reads_modRM _ h hc).map_eq (by simp)
  | movRegRm w r rm => exact movPair_regRm.encodes_encRM fun c hc => (reads_modRM _ h hc).map_eq (by simp)
  | movAccMoffs w m => exact movPair_accMoffs.encodes_moffs h d w
  | movMoffsAcc w m => exact movPair_moffsAcc.encodes_moffs h d w
  | movRegImm w r imm => exact encodes_movRegImm h d r
  | movRmImm w rm imm =>
    obtain ⟨hrm, himm⟩ := Bool.and_eq_true_iff.mp h
    simpa [encode, encRM] using group11Pair.encodes_rm (leBytes_length_le _ _) fun c hc =>
      (reads_modRM 0 hrm hc).bind ((reads_imm himm).map _)
  | xchg w rm r => exact xchgPair.encodes_encRM fun c hc => (reads_modRM _ h hc).map_eq (by simp)
  | movSegRm sreg rm => exact encodes_encRM rfl fun c ho hc => (reads_modRM _ h hc).map _
  | arpl rm r => exact encodes_encRM rfl fun c ho hc => (reads_modRM _ h hc).map_eq (by simp)
  | movRmSeg z rm sreg =>
    refine encodes_encRM rfl fun c ho hc => ?_
    cases ho
    exact (reads_modRM _ h hc).map _
  | lea z r rm =>
    refine encodes_encRM rfl fun c ho hc => ?_
    cases ho
    exact (reads_modRM _ h hc).map_eq (by simp)
  | pushRm z rm | popRm z rm | jmpRm z rm | jmpFarMem z rm | callRm z rm | callFarMem z rm =>
    refine encodes_encRM rfl fun c ho hc => ?_
    cases ho
    exact (reads_modRM _ h hc).map _
  | sldt z rm | str z rm =>
    refine encodes_group6 fun c ho hc => ?_
    cases ho
    exact (reads_modRMOf rfl h hc).then (.ret _)
  | lldt rm | ltr rm => exact encodes_group6 fun c _ hc => (reads_modRMOf rfl h hc).then (.ret _)
  | lgdt z rm | lidt z rm | sgdt z rm | sidt z rm =>
    refine encodes_group7 fun c ho hc => ?_
    cases ho
    exact (reads_modRMOf rfl h hc).then (.ret _)
  | invlpg rm => exact encodes_group7 fun c _ hc => (reads_modRMOf rfl h hc).then (.ret _)
  | ud op ext rm =>
    obtain ⟨hs, hrm⟩ := Bool.and_eq_true_iff.mp h
    exact encodes_ud hs hrm d
  | xchgAcc z r =>
    refine encodes_bare (by cases r <;> rfl) fun c hc => ?_
    cases hc
    cases r with
    | eax => exact absurd rfl (of_decide_eq_true (p := Reg.eax ≠ Reg.eax) h)
    | _ => rfl
  | pushReg z r | popReg z r =>
    refine encodes_bare (by cases r <;> rfl) fun c hc => ?_
    cases hc
    cases r <;> rfl
  | pushSeg z sr => exact encodes_pushSeg d z sr
  | popSeg z sr => exact encodes_popSeg (by simpa [Instr.wf] using h) d z
  | pushImm z v | jmpNear z v | callNear z v =>
    refine encodes_encOp rfl ((leBytes_length_le _ _).trans (by decide)) fun c hc => ?_
    cases hc
    exact (reads_imm h).map _
  | jmpFarPtr z sel off | callFarPtr z sel off =>
    have := leBytes_length_le off z.width
    refine encodes_encOp rfl (by simp [halfBytes_length]; omega) fun c hc => ?_
    cases hc
    exact (reads_farPtr h sel).map _
  | jccShort z cc cb =>
    refine encodes_encOp (by cases cc <;> rfl) (by simp) fun c hc => ?_
    cases hc
    cases cc <;> exact (reads_u8 cb).map _
  | jccNear z cc cv =>
    have := leBytes_length_le cv z.width
    refine encodes_encOp rfl (by simp; omega) fun c hc => ?_
    cases hc
    refine .byte ?_
    cases cc <;> exact (reads_imm h).map _
  | jcxz z a cb | loop z a cb | loope z a cb | loopne z a cb =>
    refine encodes_loop rfl fun c hz ha => ?_
    cases hz
    cases ha
    exact (reads_u8 cb).map _
  | retImm z iw | retfImm z iw =>
    refine encodes_encOp rfl (by simp [halfBytes_length]) fun c hc => ?_
    cases hc
    exact (reads_u16 iw).map _
  | pushImm8 z cb | jmpShort z cb =>
    refine encodes_encOp rfl (by simp) fun c hc => ?_
    cases hc
    exact (reads_u8 cb).map _
  | inImm ib | outImm ib | int ib => exact encodes_encOp rfl (by simp) fun c _ => (reads_u8 ib).map _
  | movsb rep a s | cmpsb rep a s | lodsb rep a s =>
    refine encodes_string rfl fun c _ hr ha hs => ?_
    cases hr
    cases ha
    cases hs
    rfl
  | movsw z rep a s | cmpsw z rep a s | lodsw z rep a s =>
    refine encodes_string rfl fun c hz hr ha hs => ?_
    cases hz
    cases hr
    cases ha
    cases hs
    rfl
  | stosb rep a | scasb rep a =>
    refine encodes_string rfl fun c _ hr ha _ => ?_
    cases hr
    cases ha
    rfl
  | stosw z rep a | scasw z rep a =>
    refine encodes_string rfl fun c hz hr ha _ => ?_
    cases hz
    cases hr
    cases ha
    rfl
  | cbw z | cwd z | ret z | retf z | iret z | pushf z | popf z =>
    refine encodes_bare rfl fun c hc => ?_
    cases hc
    rfl
  | inDx | outDx | int3 | into | clc | stc | cmc | cld | std | cli | sti | lahf | sahf | hlt | nop =>
    exact encodes_bare rfl fun _ _ => rfl
  | movToCr cr r | movFromCr r cr =>
    exact encodes_encOp rfl (by simp) fun c _ => .byte ((reads_u8 _).map_eq (by simp))

/-- Settles O56: the encoding reads back as the instruction, and the fifteen bytes that the decoder looks at hold it. -/
theorem decodeEncode : Obligations.DecodeEncode := by
  intro i d rest h
  obtain ⟨hlen, hread⟩ := encode_encodes d h
  refine ⟨hlen, ?_⟩
  have htake : (encode d i ++ rest).take maxInsnLen = encode d i ++ rest.take (maxInsnLen - (encode d i).length) := by
    rw [List.take_append, List.take_of_length_le (show _ ≤ maxInsnLen from hlen)]
  rw [decode, htake, hread]
  simp only [List.length_append, Nat.add_sub_cancel]

/-- Settles O57: the decoder evaluates on each word. -/
theorem wordsDecode : Obligations.WordsDecode := by
  unfold Obligations.WordsDecode
  decide

end Sys2Proof

namespace Sys2Proof.Machine

/-! ### Translation, case by case (R115, R116, R119) -/

section
variable {s : State} {lin : Word} {wr us : Bool}

theorem run_pageFault {α : Type} (lin : Word) (p wr us : Bool) (s : State) : (pageFault lin p wr us : Op α).run s =
    .error (.fault { kind := .pf, code := some (pfCode p wr us), addr := some lin } false) { s with cr2 := lin } := rfl

theorem pfCode_eq_sum (p wr us : Bool) :
    pfCode p wr us = (if p then 1 else 0) + (if wr then 2 else 0) + (if us then 4 else 0) := by
  revert p wr us
  decide

theorem run_translate_unpaged (hpg : s.pg = false) : (translate lin wr us).run s = .ok (lin &&& s.a20Mask) s := by
  unfold translate
  rw [run_bind_ok (run_get s)]
  simp [hpg]

theorem run_translate_miss (hpg : s.pg = true) (miss : s.tlbHit lin wr = none) :
    (translate lin wr us).run s = (do let p ← walk lin wr us; pure (p &&& s.a20Mask) : Op Word).run s := by
  unfold translate
  rw [run_bind_ok (run_get s)]
  simp [hpg, miss]

/-- A right that an access through an entry lacks (R115). -/
def Barred (e : TlbEntry) (wr us : Bool) : Prop :=
  us = true ∧ (e.supervisorOnly = true ∨ (wr = true ∧ e.readOnly = true))

theorem run_translate_hit {e : TlbEntry} (hpg : s.pg = true) (hit : s.tlbHit lin wr = some e)
    (allowed : ¬ Barred e wr us) :
    (translate lin wr us).run s = .ok ((e.physBase ||| (lin &&& 0xFFF)) &&& s.a20Mask) s := by
  unfold translate
  rw [run_bind_ok (run_get s)]
  have sup : (us && e.supervisorOnly) = false := by
    cases hu : us <;> simp_all [Barred]
  have ro : (us && wr && e.readOnly) = false := by
    cases hu : us <;> cases hw : wr <;> simp_all [Barred]
  simp [hpg, hit, sup, ro]

theorem run_translate_barred {e : TlbEntry} (hpg : s.pg = true) (hit : s.tlbHit lin wr = some e)
    (barred : Barred e wr us) : (translate lin wr us).run s = (pageFault lin true wr us : Op Word).run s := by
  unfold translate
  rw [run_bind_ok (run_get s)]
  obtain ⟨rfl, hsup | ⟨rfl, hro⟩⟩ := barred
  · simp [hpg, hit, hsup]
  · cases hsup : e.supervisorOnly <;> simp [hpg, hit, hsup, hro]

theorem tlbHit_of_get {e : TlbEntry} (h : Assoc.get (pageOf lin) s.tlb = some e) :
    s.tlbHit lin wr = if wr = false ∨ e.dirty = true then some e else none := by
  unfold State.tlbHit
  rw [h]
  cases wr <;> cases hd : e.dirty <;> simp [hd]

end

/-- Settles O50: the TLB's entry serves the access, unless it is a write and the entry is clean, which walks again. -/
theorem translationFromTlb : Obligations.TranslationFromTlb := by
  intro s lin wr us e
  refine ⟨run_translate_unpaged, fun hpg hnone => ?_, fun hpg hget => ⟨fun hd allowed => ?_, fun hd barred => ?_, ?_⟩⟩
  · exact run_translate_miss hpg (by unfold State.tlbHit; rw [show Assoc.get (pageOf lin) s.tlb = none from hnone]; rfl)
  · exact run_translate_hit hpg (by rw [tlbHit_of_get hget, if_pos hd]) allowed
  · rw [run_translate_barred hpg (by rw [tlbHit_of_get hget, if_pos hd]) barred, run_pageFault, pfCode_eq_sum]
    rfl
  · rintro rfl hclean
    exact run_translate_miss hpg (by rw [tlbHit_of_get hget, if_neg (by simp [hclean])])

/-! ### The walk, case by case (R111, R113) -/

/-- The TLB entry that a walk makes of a directory entry and a table entry as it was written back. -/
def walkedEntry (pde pte pte' : Word) : TlbEntry where
  physBase := pte &&& 0xFFFFF000
  readOnly := !(pde.getLsbD 1 && pte.getLsbD 1)
  supervisorOnly := !(pde.getLsbD 2 && pte.getLsbD 2)
  dirty := pte'.getLsbD 6

theorem barred_walkedEntry {pde pte pte' : Word} {wr us : Bool} : Barred (walkedEntry pde pte pte') wr us ↔
    us = true ∧ ((pde.getLsbD 2 && pte.getLsbD 2) = false ∨
      (wr = true ∧ (pde.getLsbD 1 && pte.getLsbD 1) = false)) := by
  simp only [Barred, walkedEntry, Bool.not_eq_true']

/-- A table entry with the bits that a walk sets. -/
def usedPte (pte : Word) (wr : Bool) : Word := pte ||| 0x20 ||| (if wr then 0x40 else 0)

theorem or_accessed_eq_self (x : Word) : x ||| 0x20 = x ↔ x.getLsbD 5 = true := by
  constructor
  · intro h
    rw [← h]
    simp
  · intro h
    ext i hi
    simp only [BitVec.getElem_or]
    by_cases h5 : i = 5
    · subst h5
      simp only [BitVec.getLsbD_eq_getElem hi] at h
      simp [h]
    · have : (0x20#32).getLsbD i = false := by
        rw [show (0x20#32) = BitVec.twoPow 32 5 from rfl, BitVec.getLsbD_twoPow]
        simp [Ne.symm h5]
      rw [BitVec.getLsbD_eq_getElem hi] at this
      simp [this]

/-- The walk after its two reads: the checks, then the writes (R113). -/
def walkChecked (s : State) (lin pde pte : Word) (wr us : Bool) : Op Word :=
  let e := walkedEntry pde pte (usedPte pte wr)
  if !pte.getLsbD 0 then pageFault lin false wr us
  else if us && e.supervisorOnly then pageFault lin true wr us
  else if us && wr && e.readOnly then pageFault lin true wr us
  else do
    setEntryBits (pdeAddr s lin) pde (pde ||| 0x20)
    setEntryBits (pteAddr s pde lin) pte (usedPte pte wr)
    modify (·.fillTlb lin e)
    pure ((pte &&& 0xFFFFF000) ||| (lin &&& 0xFFF))

section
variable {s u v : State} {lin pde pte : Word} {wr us : Bool}

theorem run_walk_absent (dir : (memRead (pdeAddr s lin) .w32).run s = .ok pde u) (absent : pde.getLsbD 0 = false) :
    (walk lin wr us).run s = (pageFault lin false wr us : Op Word).run u := by
  unfold walk
  rw [run_bind_ok (run_get s), run_bind_ok dir]
  simp only [absent, Bool.not_false, if_true]

theorem run_walk_present (dir : (memRead (pdeAddr s lin) .w32).run s = .ok pde u) (present : pde.getLsbD 0 = true)
    (tab : (memRead (pteAddr s pde lin) .w32).run u = .ok pte v) :
    (walk lin wr us).run s = (walkChecked s lin pde pte wr us).run v := by
  unfold walk
  rw [run_bind_ok (run_get s), run_bind_ok dir]
  simp only [present, Bool.not_true, Bool.false_eq_true, if_false]
  rw [run_bind_ok tab]
  rfl

theorem walkChecked_absent (absent : pte.getLsbD 0 = false) :
    walkChecked s lin pde pte wr us = pageFault lin false wr us := by
  simp only [walkChecked, absent, Bool.not_false, if_true]

theorem walkChecked_barred (there : pte.getLsbD 0 = true)
    (barred : Barred (walkedEntry pde pte (usedPte pte wr)) wr us) :
    walkChecked s lin pde pte wr us = pageFault lin true wr us := by
  unfold walkChecked
  obtain ⟨rfl, hsup | ⟨rfl, hro⟩⟩ := barred
  · simp only [there, hsup, Bool.not_true, Bool.and_self, Bool.false_eq_true, if_false, if_true]
  · simp only [there, hro, Bool.not_true, Bool.and_self, Bool.false_eq_true, if_false, if_true, ite_self]

/-- The state after the entries were written back and the TLB took the new one. -/
def walkedState (s : State) (lin pde pte : Word) (wr : Bool) (v : State) : State :=
  let x := if pde ||| 0x20 = pde then v else v.memWriteBytes 4 (pdeAddr s lin).toNat (pde ||| 0x20)
  let y := if usedPte pte wr = pte then x else x.memWriteBytes 4 (pteAddr s pde lin).toNat (usedPte pte wr)
  y.fillTlb lin (walkedEntry pde pte (usedPte pte wr))

theorem run_walkChecked_allowed (there : pte.getLsbD 0 = true)
    (allowed : ¬ Barred (walkedEntry pde pte (usedPte pte wr)) wr us) :
    (walkChecked s lin pde pte wr us).run v =
      .ok ((pte &&& 0xFFFFF000) ||| (lin &&& 0xFFF)) (walkedState s lin pde pte wr v) := by
  unfold walkChecked
  generalize he : walkedEntry pde pte (usedPte pte wr) = e at allowed
  have sup : (us && e.supervisorOnly) = false := by
    cases hu : us <;> simp_all [Barred]
  have ro : (us && wr && e.readOnly) = false := by
    cases hu : us <;> cases hw : wr <;> simp_all [Barred]
  simp only [there, sup, ro, Bool.not_true, Bool.false_eq_true, if_false]
  rw [run_bind_ok (run_setEntryBits _ _ _ _), run_bind_ok (run_setEntryBits _ _ _ _), run_bind_ok (run_modify _ _),
    ← he]
  rfl

theorem walkedState_tlb (s : State) (lin pde pte : Word) (wr : Bool) (v : State) :
    (walkedState s lin pde pte wr v).tlb =
      Assoc.set (pageOf lin) (walkedEntry pde pte (usedPte pte wr)) v.tlb := by
  have kept : ∀ (a old new : Word) (x : State),
      (if new = old then x else x.memWriteBytes 4 a.toNat new).tlb = x.tlb := by
    intro a old new x
    split
    · rfl
    · exact x.memWriteBytes_tlb _ _ _
  simp only [walkedState, State.fillTlb, kept]

end

/-- Settles O51: the reads of the two entries decide the case, and the entries are written after every check. -/
theorem pageWalk : Obligations.PageWalk := by
  intro s u v lin pde pte wr us dirAddr tabAddr code fault dir
  have hcode : ∀ p, pfCode p wr us = code p := fun p => pfCode_eq_sum p wr us
  have first := (memRead_effect dir).1
  refine ⟨fun absent => ⟨?_, first.mem⟩, fun present tab => ?_⟩
  · rw [run_walk_absent dir absent, run_pageFault, hcode]
  · have second := (memRead_effect tab).1
    refine ⟨(byDevice_preorder.trans _ _ _ first second).mem, fun absent => ?_, fun there barred => ?_,
      fun there allowed => ?_⟩
    · rw [run_walk_present dir present tab, walkChecked_absent absent, run_pageFault, hcode]
    · rw [run_walk_present dir present tab, walkChecked_barred there (barred_walkedEntry.2 barred), run_pageFault,
        hcode]
    · rw [run_walk_present dir present tab, run_walkChecked_allowed there (mt barred_walkedEntry.1 allowed)]
      simp only [walkedState, or_accessed_eq_self]
      rfl

/-! ### A translation again (R120) -/

/-- The entry that a walk left bars no access of the same kind. -/
theorem walk_ok_allowed {lin : Word} {wr us : Bool} {s t : State} {p : Word} (h : (walk lin wr us).run s = .ok p t) :
    ∃ e, t.tlb = Assoc.set (pageOf lin) e s.tlb ∧ p = e.physBase ||| (lin &&& 0xFFF) ∧ (wr = true → e.dirty = true) ∧
      ¬ Barred e wr us := by
  obtain ⟨pde, u, dir, -, -, -⟩ := memRead_spec (pdeAddr s lin) .w32 s
  obtain ⟨pte, v, tab, -, -, -⟩ := memRead_spec (pteAddr s pde lin) .w32 u
  cases present : pde.getLsbD 0 with
  | false =>
    rw [run_walk_absent dir present] at h
    cases h
  | true =>
    rw [run_walk_present dir present tab] at h
    cases there : pte.getLsbD 0 with
    | false =>
      rw [walkChecked_absent there] at h
      cases h
    | true =>
      by_cases barred : Barred (walkedEntry pde pte (usedPte pte wr)) wr us
      · rw [walkChecked_barred there barred] at h
        cases h
      · rw [run_walkChecked_allowed there barred] at h
        cases h
        refine ⟨_, ?_, rfl, ?_, barred⟩
        · rw [walkedState_tlb, (memRead_effect tab).1.tlb, (memRead_effect dir).1.tlb]
        · rintro rfl
          simp [walkedEntry, usedPte]

/-- Settles O52: without paging and through an entry nothing changes, and the entry that a walk left serves the
access. -/
theorem translationRepeats : Obligations.TranslationRepeats := by
  intro s t lin p wr us _ h
  cases hpg : s.pg with
  | false =>
    obtain ⟨-, -, same⟩ := translate_ok h
    rw [same hpg] at h ⊢
    exact h
  | true =>
    have only := (translate_ok h).1.only
    cases hit : s.tlbHit lin wr with
    | some e =>
      by_cases barred : Barred e wr us
      · rw [run_translate_barred hpg hit barred] at h
        cases h
      · have := run_translate_hit hpg hit barred
        rw [this] at h
        cases h
        exact this
    | none =>
      rw [run_translate_miss hpg hit] at h
      obtain ⟨q, x, hw, hp⟩ := run_bind_inv h
      cases hp
      obtain ⟨e, htlb, rfl, hdirty, allowed⟩ := walk_ok_allowed hw
      have hit' : t.tlbHit lin wr = some e := by
        rw [State.tlbHit_set htlb, if_pos rfl]
        cases wr <;> simp_all
      rw [run_translate_hit (only.pg.trans hpg) hit' allowed, only.a20]

end Sys2Proof.Machine

namespace Sys2Proof.Machine

/-! ### The checks of an access through a segment (R102 to R105) -/

/-- The fault of an access that a segment register turns away (R103). -/
def segStop (i : Seg) : Stop := .fault { kind := if i = .ss then .ss else .gp, code := some 0, addr := none } false

/-- An access passes the checks of a segment register (R102, R103). -/
def State.segAllows (s : State) (i : Seg) (off : Word) (n : Nat) (k : AccessKind) : Prop :=
  (s.seg i).valid = true ∧ (s.seg i).rightsOk s.protMode k = true ∧ (s.seg i).inLimit off n = true

theorem run_segCheck_denied {i : Seg} {off : Word} {n : Nat} {k : AccessKind} {s : State}
    (h : ¬ s.segAllows i off n k) : (segCheck i off n k).run s = .error (segStop i) s := by
  unfold segCheck
  rw [run_bind_ok (run_get s)]
  dsimp only
  cases hv : (s.seg i).valid with
  | false => exact run_bind_error (run_require_false _ _ _)
  | true =>
    rw [run_bind_ok (run_require_true _ _ _)]
    cases hr : (s.seg i).rightsOk s.protMode k with
    | false => exact run_bind_error (run_require_false _ _ _)
    | true =>
      rw [run_bind_ok (run_require_true _ _ _)]
      cases hl : (s.seg i).inLimit off n with
      | false => rfl
      | true => exact absurd ⟨hv, hr, hl⟩ h

theorem run_segCheck_allowed {i : Seg} {off : Word} {n : Nat} {k : AccessKind} {s : State}
    (h : s.segAllows i off n k) : (segCheck i off n k).run s = .ok () s :=
  run_segCheck h.1 h.2.1 h.2.2

theorem run_segRead_denied {i : Seg} {off : Word} {w : Width} {s : State} (h : ¬ s.segAllows i off w.bytes .read) :
    (segRead i off w).run s = .error (segStop i) s := run_bind_error (run_segCheck_denied h)

theorem run_segWrite_denied {i : Seg} {off v : Word} {w : Width} {s : State}
    (h : ¬ s.segAllows i off w.bytes .write) : (segWrite i off w v).run s = .error (segStop i) s :=
  run_bind_error (run_segCheck_denied h)

theorem run_segRead_allowed {i : Seg} {off : Word} {w : Width} {s : State} (h : s.segAllows i off w.bytes .read) :
    (segRead i off w).run s = (linRead (s.linear i off) w s.user).run s := run_bind_ok (run_segCheck_allowed h)

theorem run_segWrite_allowed {i : Seg} {off v : Word} {w : Width} {s : State}
    (h : s.segAllows i off w.bytes .write) :
    (segWrite i off w v).run s = (linWrite (s.linear i off) w v s.user).run s := run_bind_ok (run_segCheck_allowed h)

theorem segAllows_read {i : Seg} {off : Word} {n : Nat} {s : State} : s.segAllows i off n .read ↔
    (s.seg i).valid = true ∧ (s.seg i).readable = true ∧
      (s.seg i).limitMin.toNat ≤ off.toNat ∧ off.toNat + n - 1 ≤ (s.seg i).limitMax.toNat := by
  simp only [State.segAllows, SegReg.rightsOk, SegReg.inLimit, Bool.and_eq_true, decide_eq_true_eq]

theorem segAllows_write {i : Seg} {off : Word} {n : Nat} {s : State} : s.segAllows i off n .write ↔
    (s.seg i).valid = true ∧
      (if (s.seg i).type.getLsbD 3 = true then s.protMode = false else (s.seg i).writable = true) ∧
      (s.seg i).limitMin.toNat ≤ off.toNat ∧ off.toNat + n - 1 ≤ (s.seg i).limitMax.toNat := by
  unfold State.segAllows SegReg.rightsOk SegReg.inLimit
  cases (s.seg i).type.getLsbD 3 <;> simp only [Bool.and_eq_true, decide_eq_true_eq, if_true, if_false,
    Bool.false_eq_true, Bool.not_eq_true']

/-- Settles O47: each clause is one of the checks, all of which raise the segment's own fault. -/
theorem segmentChecks : Obligations.SegmentChecks := by
  intro i off v w s g fault inside mayWrite
  have denied_read (h : ¬ (g.valid = true ∧ g.readable = true ∧ inside)) : (segRead i off w).run s = .error fault s :=
    run_segRead_denied (mt segAllows_read.1 h)
  have denied_write (h : ¬ (g.valid = true ∧ mayWrite ∧ inside)) : (segWrite i off w v).run s = .error fault s :=
    run_segWrite_denied (mt segAllows_write.1 h)
  have invalid_ne (h : g.valid = false) : ¬ g.valid = true := by simp [h]
  exact ⟨fun invalid => ⟨denied_read fun h => invalid_ne invalid h.1, denied_write fun h => invalid_ne invalid h.1⟩,
    fun _ rights => denied_read fun h => by simp [rights] at h,
    fun _ rights => denied_write fun h => rights h.2.1,
    fun _ _ out => denied_read fun h => out h.2.2,
    fun _ _ out => denied_write fun h => out h.2.2,
    fun valid rights within => run_segRead_allowed (segAllows_read.2 ⟨valid, rights, within⟩),
    fun valid rights within => run_segWrite_allowed (segAllows_write.2 ⟨valid, rights, within⟩)⟩

/-! ### What reading an operand gives (R177, R104) -/

/-- Settles O48. -/
theorem operandReads : Obligations.OperandReads := by
  intro w rm s t v inv h
  have hread : Effect s t [] ∧ (s.Inv → w.fits v = true) := h.elim readRM_ok readDst_ok
  refine ⟨hread.1.accessed inv, hread.2 inv, ?_⟩
  cases rm with
  | reg r => rcases h with h | h <;> (cases h; rfl)
  | mem m =>
    rcases h with h | h
    · exact (segRead_ok ((run_bind_ok (run_get s)).symm.trans h)).2 inv
    · exact (segReadForWrite_ok ((run_bind_ok (run_get s)).symm.trans h)).2 inv

end Sys2Proof.Machine

namespace Sys2Proof.Machine

/-! ### Linear accesses without paging (R125, R126) -/

/-- The bytes of a linear range lie in RAM, where nothing translates them (R116). -/
def State.ramAt (s : State) (lin : Word) (n : Nat) : Prop :=
  ∀ k, k < n → regionAt s.physMap ((lin + BitVec.ofNat 32 k) &&& s.a20Mask).toNat = some .ram

theorem OnlyMemory.ramAt {s t : State} (h : OnlyMemory s t) (lin : Word) (n : Nat) :
    t.ramAt lin n ↔ s.ramAt lin n := by
  simp only [State.ramAt, h.physMap, h.a20]

theorem State.ramAt.head {s : State} {lin : Word} {n : Nat} (h : s.ramAt lin (n + 1)) :
    regionAt s.physMap (lin &&& s.a20Mask).toNat = some .ram := by
  simpa using h 0 (by omega)

theorem State.ramAt.tail {s : State} {lin : Word} {n : Nat} (h : s.ramAt lin (n + 1)) : s.ramAt (lin + 1) n :=
  fun k hk => by
    rw [add_ofNat_succ]
    exact h (k + 1) (by omega)

theorem meetsDevice_of_ram {map : List Region} {n a : Nat} (h : ∀ k, k < n → regionAt map (a + k) = some .ram) :
    meetsDevice map n a = false := by
  induction n generalizing a with
  | zero => rfl
  | succ n ih =>
    have h0 : regionAt map a = some .ram := h 0 (by omega)
    have hrest : meetsDevice map n (a + 1) = false := ih fun k hk => by
      rw [show a + 1 + k = a + (k + 1) by omega]
      exact h (k + 1) (by omega)
    simp [meetsDevice, h0, hrest]

/-- An aligned access to RAM lies in RAM as a physical range too. -/
theorem State.ramAt.phys {s : State} {lin : Word} {w : Width} (h : s.ramAt lin w.bytes) (inv : s.Inv)
    (hpg : s.pg = false) (ha : aligned lin w = true) :
    ∀ k, k < w.bytes → regionAt s.physMap ((lin &&& s.a20Mask).toNat + k) = some .ram := fun k hk => by
  have hlin : s.physAddr lin true = some (lin &&& s.a20Mask) := by simp [State.physAddr, hpg]
  obtain ⟨hnext, hnat⟩ := physAddr_next inv ha hlin hk
  have hram := h k hk
  have heq : (lin + BitVec.ofNat 32 k) &&& s.a20Mask = (lin &&& s.a20Mask) + BitVec.ofNat 32 k := by
    simpa [State.physAddr, hpg] using hnext
  rwa [heq, hnat] at hram

theorem run_memRead_ram {a : Word} {w : Width} {s : State}
    (h : ∀ k, k < w.bytes → regionAt s.physMap (a.toNat + k) = some .ram) : ∃ v, (memRead a w).run s = .ok v s := by
  refine ⟨s.readBytes 0 w.bytes a.toNat, ?_⟩
  unfold memRead
  rw [run_bind_ok (run_get s), meetsDevice_of_ram h]
  rfl

section
variable {s : State} (hpg : s.pg = false)
include hpg

theorem linReadBytes_unpaged (u : Bool) (n : Nat) (lin : Word) : ∃ v t, (linReadBytes u n lin).run s = .ok v t := by
  induction n generalizing lin s with
  | zero => exact ⟨0, s, rfl⟩
  | succ n ih =>
    obtain ⟨b, t, hb, hd, -⟩ := memRead_spec (lin &&& s.a20Mask) .w8 s
    obtain ⟨rest, v, hrest⟩ := ih (hd.only.pg.trans hpg) (lin + 1)
    refine ⟨b ||| (rest <<< 8), v, ?_⟩
    unfold linReadBytes
    rw [run_bind_ok (run_translate_unpaged hpg), run_bind_ok hb, run_bind_ok hrest]
    rfl

/-- With paging off no read faults. -/
theorem linRead_unpaged (lin : Word) (w : Width) (u : Bool) : ∃ v t, (linRead lin w u).run s = .ok v t := by
  unfold linRead
  split
  · obtain ⟨v, t, hv, -⟩ := memRead_spec (lin &&& s.a20Mask) w s
    exact ⟨v, t, by rw [run_bind_ok (run_translate_unpaged hpg), hv]⟩
  · exact linReadBytes_unpaged hpg u w.bytes lin

theorem linReadBytes_ram (u : Bool) {n : Nat} {lin : Word} (h : s.ramAt lin n) :
    ∃ v, (linReadBytes u n lin).run s = .ok v s := by
  induction n generalizing lin with
  | zero => exact ⟨0, rfl⟩
  | succ n ih =>
    obtain ⟨b, hb⟩ := run_memRead_ram (w := .w8) (a := lin &&& s.a20Mask) fun k hk => by
      obtain rfl : k = 0 := by simpa [Width.bytes] using hk
      exact h.head
    obtain ⟨rest, hrest⟩ := ih h.tail
    refine ⟨b ||| (rest <<< 8), ?_⟩
    unfold linReadBytes
    rw [run_bind_ok (run_translate_unpaged hpg), run_bind_ok hb, run_bind_ok hrest]
    rfl

/-- A read of RAM with paging off leaves the state. -/
theorem linRead_ram (inv : s.Inv) (u : Bool) {lin : Word} {w : Width} (h : s.ramAt lin w.bytes) :
    ∃ v, (linRead lin w u).run s = .ok v s := by
  unfold linRead
  split
  · rename_i ha
    obtain ⟨v, hv⟩ := run_memRead_ram (h.phys inv hpg ha)
    exact ⟨v, by rw [run_bind_ok (run_translate_unpaged hpg), hv]⟩
  · exact linReadBytes_ram hpg u h

theorem linWriteBytes_unpaged (u : Bool) (n : Nat) (lin v : Word) :
    ∃ t, (linWriteBytes u n lin v).run s = .ok () t ∧ (s.ramAt lin n → t.ioEvents = s.ioEvents) := by
  induction n generalizing lin v s with
  | zero => exact ⟨s, rfl, fun _ => rfl⟩
  | succ n ih =>
    have only := s.memWriteBytes_only 1 (lin &&& s.a20Mask).toNat (v &&& 0xFF)
    obtain ⟨t, ht, hev⟩ := ih (only.pg.trans hpg) (lin + 1) (v >>> 8)
    refine ⟨t, ?_, fun h => (hev ((only.ramAt _ _).2 h.tail)).trans ?_⟩
    · unfold linWriteBytes
      rw [run_bind_ok (run_translate_unpaged hpg)]
      exact ht
    · have quiet : meetsDevice s.physMap 1 (lin &&& s.a20Mask).toNat = false := meetsDevice_of_ram fun k hk => by
        obtain rfl : k = 0 := by omega
        exact h.head
      rw [State.memWriteBytes, quiet, State.storeBytes_eq]
      rfl

/-- With paging off no write faults, and one to RAM calls no device. -/
theorem linWrite_unpaged (inv : s.Inv) (lin : Word) (w : Width) (v : Word) (u : Bool) :
    ∃ t, (linWrite lin w v u).run s = .ok () t ∧ (s.ramAt lin w.bytes → t.ioEvents = s.ioEvents) := by
  unfold linWrite
  split
  · rename_i ha
    refine ⟨s.memWriteBytes w.bytes (lin &&& s.a20Mask).toNat v, ?_, fun h => ?_⟩
    · rw [run_bind_ok (run_translate_unpaged hpg)]
      rfl
    · rw [State.memWriteBytes, meetsDevice_of_ram (h.phys inv hpg ha), State.storeBytes_eq]
      rfl
  · exact linWriteBytes_unpaged hpg u w.bytes lin v

end

/-- Two values of a width with the same bytes are equal. -/
theorem eq_of_byteAt {w : Width} {x y : Word} (hx : w.fits x = true) (hy : w.fits y = true)
    (h : ∀ k, k < w.bytes → byteAt x k = byteAt y k) : x = y := by
  have hi : ∀ v : Word, w.fits v = true → ∀ i, 8 * w.bytes ≤ i → v.getLsbD i = false := fun v hv i hi =>
    Nat.testBit_lt_two_pow ((toNat_lt_of_fits hv).trans_le (Nat.pow_le_pow_right (by decide) (width_bits w ▸ hi)))
  ext i hi32
  rw [← BitVec.getLsbD_eq_getElem, ← BitVec.getLsbD_eq_getElem]
  by_cases hlt : i < 8 * w.bytes
  · have hb := congrArg (·.getLsbD (i % 8)) (h (i / 8) (by omega))
    have hmod : i % 8 < 8 := by omega
    have hdiv : 8 * (i / 8) + i % 8 = i := by omega
    simpa [byteAt, hmod, hdiv] using hb
  · rw [hi x hx i (by omega), hi y hy i (by omega)]

/-- Settles O49: without paging the accesses do not fault, RAM calls no device, and the bytes stored are the bytes
read. -/
theorem storeThenLoad : Obligations.StoreThenLoad := by
  intro s lin v w x y inv hpg hfits
  obtain ⟨t, ht, hev⟩ := linWrite_unpaged hpg inv lin w v x
  obtain ⟨effect, stored⟩ := linWrite_effect ht
  have hpg' : t.pg = false := effect.only.pg.trans hpg
  obtain ⟨q, u, hq⟩ := linRead_unpaged hpg lin w y
  refine ⟨t, ht, effect.inv inv, fun ram => ?_, u, q, hq⟩
  obtain ⟨r, hr⟩ := linRead_ram hpg' (effect.inv inv) y ((effect.only.ramAt lin w.bytes).2 ram)
  obtain ⟨hrfits, hbytes⟩ := (linRead_effect hr).2 (effect.inv inv)
  have hrv : r = v := eq_of_byteAt hrfits hfits fun k hk => by
    have hram := ram k hk
    have hphys : ∀ b, t.physAddr (lin + BitVec.ofNat 32 k) b = some ((lin + BitVec.ofNat 32 k) &&& s.a20Mask) := by
      simp [State.physAddr, hpg', effect.only.a20]
    obtain ⟨p, hp, hload⟩ := hbytes k hk
    obtain ⟨p', hp', hstore⟩ := stored inv k hk
    rw [hphys] at hp hp'
    cases hp
    cases hp'
    rw [effect.only.physMap] at hload hstore
    rw [(hload (.inl hram) (State.untouched_same rfl _)).2 hpg',
      (hstore hram (State.untouched_same (hev ram) _)).2 (.inl hpg')]
  rw [hr, hrv]

end Sys2Proof.Machine

namespace Sys2Proof.Machine

/-! ### Bit fields as numbers -/

theorem toNat_and_high (x : Word) (k : Nat) :
    (x &&& (BitVec.allOnes 32 <<< k)).toNat = x.toNat / 2 ^ k * 2 ^ k := by
  have hx : x &&& (BitVec.allOnes 32 <<< k) = (x >>> k) <<< k := by
    ext i hi
    by_cases h : i < k
    · simp [h]
    · simp only [BitVec.getElem_and, BitVec.getElem_shiftLeft, BitVec.getElem_allOnes, BitVec.getElem_ushiftRight, h,
        decide_false, Bool.not_false, Bool.and_true, Bool.true_and, show k + (i - k) = i by omega,
        BitVec.getLsbD_eq_getElem hi]
  rw [hx, BitVec.toNat_shiftLeft, BitVec.toNat_ushiftRight, Nat.shiftLeft_eq, Nat.shiftRight_eq_div_pow,
    Nat.mod_eq_of_lt]
  exact (Nat.div_mul_le_self _ _).trans_lt x.isLt

theorem toNat_and_low (x : Word) {k : Nat} (hk : k ≤ 32) :
    (x &&& BitVec.ofNat 32 (2 ^ k - 1)).toNat = x.toNat % 2 ^ k := by
  have : 2 ^ k ≤ 2 ^ 32 := Nat.pow_le_pow_right (by decide) hk
  rw [BitVec.toNat_and, BitVec.toNat_ofNat, Nat.mod_eq_of_lt (by omega), Nat.and_two_pow_sub_one_eq_mod]

/-- Fields that share no bit add up. -/
theorem toNat_or_of_fields {x y : Word} (k : Nat) (hx : 2 ^ k ∣ x.toNat) (hy : y.toNat < 2 ^ k) :
    (x ||| y).toNat = x.toNat + y.toNat := by
  obtain ⟨a, ha⟩ := hx
  rw [BitVec.toNat_or, ha, Nat.two_pow_add_eq_or_of_lt hy]

theorem toNat_field (x : Word) (start len : Nat) :
    (x.extractLsb' start len).toNat = x.toNat / 2 ^ start % 2 ^ len := by
  rw [BitVec.extractLsb'_toNat, Nat.shiftRight_eq_div_pow]

/-! ### The fields of a descriptor (R91 to R93) -/

theorem parseDesc_base (lo hi : Word) : (parseDesc lo hi).base.toNat =
    lo.toNat / 2 ^ 16 + hi.toNat % 2 ^ 8 * 2 ^ 16 + hi.toNat / 2 ^ 24 * 2 ^ 24 := by
  have htop : (hi &&& 0xFF000000#32).toNat = hi.toNat / 2 ^ 24 * 2 ^ 24 := toNat_and_high hi 24
  have hlow : (hi &&& 0xFF#32).toNat = hi.toNat % 2 ^ 8 := toNat_and_low hi (k := 8) (by decide)
  have hmid : ((hi &&& 0xFF#32) <<< 16).toNat = hi.toNat % 2 ^ 8 * 2 ^ 16 := by
    rw [BitVec.toNat_shiftLeft, hlow, Nat.shiftLeft_eq, Nat.mod_eq_of_lt (by omega)]
  have hbot : (lo >>> 16).toNat = lo.toNat / 2 ^ 16 := by
    rw [BitVec.toNat_ushiftRight, Nat.shiftRight_eq_div_pow]
  have hupper : ((hi &&& 0xFF000000#32) ||| ((hi &&& 0xFF#32) <<< 16)).toNat =
      hi.toNat / 2 ^ 24 * 2 ^ 24 + hi.toNat % 2 ^ 8 * 2 ^ 16 := by
    rw [toNat_or_of_fields 24 (by omega) (by omega), htop, hmid]
  have hlo := lo.isLt
  show ((hi &&& 0xFF000000#32) ||| ((hi &&& 0xFF#32) <<< 16) ||| (lo >>> 16)).toNat = _
  rw [toNat_or_of_fields 16 (by omega) (by omega), hupper, hbot]
  omega

/-- The limit field of an entry, its twenty bits (R91). -/
def limit20 (lo hi : Word) : Word := (hi &&& 0x000F0000) ||| (lo &&& 0xFFFF)

theorem limit20_toNat (lo hi : Word) :
    (limit20 lo hi).toNat = lo.toNat % 2 ^ 16 + hi.toNat / 2 ^ 16 % 2 ^ 4 * 2 ^ 16 := by
  have hmask : hi &&& 0x000F0000 = (hi &&& 0xFFFFF) &&& 0xFFFF0000 := by rw [BitVec.and_assoc]; rfl
  have htop : (hi &&& 0x000F0000).toNat = hi.toNat % 2 ^ 20 / 2 ^ 16 * 2 ^ 16 := by
    rw [hmask]
    exact (toNat_and_high (hi &&& 0xFFFFF) 16).trans
      (by rw [show (hi &&& 0xFFFFF).toNat = hi.toNat % 2 ^ 20 from toNat_and_low hi (k := 20) (by decide)])
  have hlow : (lo &&& 0xFFFF).toNat = lo.toNat % 2 ^ 16 := toNat_and_low lo (k := 16) (by decide)
  rw [limit20, toNat_or_of_fields 16 (by omega) (by omega), htop, hlow]
  omega

theorem parseDesc_limit (lo hi : Word) : (parseDesc lo hi).limit.toNat =
    if hi.getLsbD 23 then (limit20 lo hi).toNat * 4096 + 4095 else (limit20 lo hi).toNat := by
  have h20 := limit20_toNat lo hi
  show (if hi.getLsbD 23 then (limit20 lo hi <<< 12) ||| 0xFFF else limit20 lo hi).toNat = _
  split
  · have hshift : (limit20 lo hi <<< 12).toNat = (limit20 lo hi).toNat * 4096 := by
      rw [BitVec.toNat_shiftLeft, Nat.shiftLeft_eq, Nat.mod_eq_of_lt (by omega)]
    rw [toNat_or_of_fields 12 (by omega) (by decide), hshift]
    rfl
  · rfl

theorem parseDesc_gateOff (lo hi : Word) :
    (parseDesc lo hi).gateOff.toNat = lo.toNat % 2 ^ 16 + hi.toNat / 2 ^ 16 * 2 ^ 16 := by
  have htop : (hi &&& 0xFFFF0000).toNat = hi.toNat / 2 ^ 16 * 2 ^ 16 := toNat_and_high hi 16
  have hlow : (lo &&& 0xFFFF).toNat = lo.toNat % 2 ^ 16 := toNat_and_low lo (k := 16) (by decide)
  show ((hi &&& 0xFFFF0000) ||| (lo &&& 0xFFFF)).toNat = _
  rw [toNat_or_of_fields 16 (by omega) (by omega), htop, hlow]
  omega

/-- The classes of system entries, by their type (R92). -/
theorem Desc.cls_system {d : Desc} (h : d.s = false) : [DescClass.invalid, .tss16Avail, .ldt, .tss16Busy, .callGate16,
    .taskGate, .intGate16, .trapGate16, .invalid, .tss32Avail, .invalid, .tss32Busy, .callGate32, .invalid, .intGate32,
    .trapGate32][d.type.toNat]? = some d.cls := by
  have hlt := d.type.isLt
  unfold Desc.cls
  simp only [h, Bool.false_eq_true, if_false]
  generalize d.type.toNat = n at hlt
  interval_cases n <;> rfl

theorem Desc.cls_segment {d : Desc} (h : d.s = true) : d.cls = if d.type.getLsbD 3 then .code else .data := by
  unfold Desc.cls
  simp only [h, if_true]

theorem Desc.cls_system_ne {d : Desc} (h : d.s = false) : d.cls ≠ .code ∧ d.cls ≠ .data := by
  unfold Desc.cls
  simp only [h, Bool.false_eq_true, if_false]
  split <;> decide

theorem Desc.isCode_eq (d : Desc) : d.isCode = (d.s && d.type.getLsbD 3) := by
  unfold Desc.isCode
  cases h : d.s with
  | true => 
    rw [Desc.cls_segment h]
    cases d.type.getLsbD 3 <;> rfl
  | false => simpa using (Desc.cls_system_ne h).1

theorem parseDesc_type_bit (lo hi : Word) {k : Nat} (hk : k < 4) :
    (parseDesc lo hi).type.getLsbD k = hi.getLsbD (8 + k) := by
  simp [parseDesc, hk]

theorem descriptorFields : Claim.DescriptorFields := by
  intro lo hi d type
  have htype : d.type.toNat = type := toNat_field hi 8 4
  refine ⟨parseDesc_base lo hi, ?_, htype, rfl, toNat_field hi 13 2, rfl, rfl, fun hs => ?_, fun hs => ?_, ?_,
    parseDesc_type_bit lo hi (by decide), ?_, parseDesc_gateOff lo hi, ?_⟩
  · rw [← limit20_toNat]
    exact parseDesc_limit lo hi
  · rw [Desc.cls_segment hs, parseDesc_type_bit lo hi (by decide)]
  · rw [← htype]
    exact Desc.cls_system hs
  · rw [Desc.isCode_eq, parseDesc_type_bit lo hi (by decide)]
    rfl
  · refine (toNat_field lo 16 16).trans (Nat.mod_eq_of_lt ?_)
    have := lo.isLt
    omega
  · exact (toNat_field hi 0 5).trans (by simp)

/-! ### The descriptor a selector names (R90, R94) -/

theorem nullSel_eq (sel : Half) : nullSel sel = decide (sel.toNat < 4) := by
  have hfield : (sel.extractLsb' 2 14).toNat = sel.toNat / 4 := by
    have := sel.isLt
    rw [BitVec.extractLsb'_toNat, Nat.shiftRight_eq_div_pow, Nat.mod_eq_of_lt (by omega)]
  unfold nullSel
  rw [decide_eq_decide, ← BitVec.toNat_inj, hfield]
  show sel.toNat / 4 = 0 ↔ _
  omega

theorem selector_offset (sel : Half) : sel.setWidth 32 &&& 0xFFF8 = BitVec.ofNat 32 (sel.toNat / 8 * 8) := by
  have hlt := sel.isLt
  have hset : (sel.setWidth 32).toNat = sel.toNat := by simp; omega
  have hmask : sel.setWidth 32 &&& 0xFFF8 = sel.setWidth 32 &&& 0xFFFF &&& 0xFFFFFFF8 := by rw [BitVec.and_assoc]; rfl
  have hlow : (sel.setWidth 32 &&& 0xFFFF).toNat = sel.toNat := by
    rw [show (sel.setWidth 32 &&& 0xFFFF).toNat = _ from toNat_and_low _ (k := 16) (by decide), hset]
    omega
  apply BitVec.eq_of_toNat_eq
  rw [hmask, show (sel.setWidth 32 &&& 0xFFFF &&& 0xFFFFFFF8).toNat = _ from toNat_and_high _ 3, hlow,
    BitVec.toNat_ofNat]
  omega

/-- A selector names no entry: its table is no LDT, or ends before it (R94). -/
def State.noEntry (s : State) (sel : Half) : Prop :=
  (selTI sel = true ∧ s.ldtr.valid = false) ∨
    (if selTI sel then s.ldtr.limit.toNat else s.gdtr.limit.toNat) < selIndex sel * 8 + 7

theorem run_fetchDescriptor_none {sel : Half} {s : State} (h : s.noEntry sel) :
    (fetchDescriptor sel).run s = .ok none s := by
  unfold fetchDescriptor
  rw [run_bind_ok (run_get s)]
  rcases h with ⟨hti, hv⟩ | hlim
  · simp [hti, hv]
  · simp only [gt_iff_lt, hlim, if_true, ite_self]
    rfl

theorem run_fetchDescriptor_some {sel : Half} {s u t : State} {lo hi a : Word} (h : ¬ s.noEntry sel)
    (ha : a = (if selTI sel then s.ldtr.base else s.gdtr.base) + BitVec.ofNat 32 (selIndex sel * 8))
    (hlo : (sysRead a .w32).run s = .ok lo u) (hhi : (sysRead (a + 4) .w32).run u = .ok hi t) :
    (fetchDescriptor sel).run s = .ok (some (parseDesc lo hi, a)) t := by
  obtain ⟨hv, hlim⟩ := not_or.1 h
  have hldt : (selTI sel && !s.ldtr.valid) = false := by
    cases hti : selTI sel <;> simp_all
  subst ha
  unfold fetchDescriptor
  rw [run_bind_ok (run_get s)]
  simp only [hldt, gt_iff_lt, hlim, Bool.false_eq_true, if_false, selector_offset]
  exact (run_bind_ok hlo).trans (run_bind_ok hhi)

theorem descriptorRead : Claim.DescriptorRead := by
  intro sel s ldt base limit index
  refine ⟨nullSel_eq sel, ?_, rfl, run_fetchDescriptor_none, ?_⟩
  · simp [rpl]
  · intro hv hlim lo hi u t a hlo hhi
    exact run_fetchDescriptor_some (not_or.2 ⟨hv, Nat.not_lt.2 hlim⟩) rfl hlo hhi

/-- Settles O46. -/
theorem descriptorFetch : Obligations.DescriptorFetch := ⟨descriptorFields, descriptorRead⟩

end Sys2Proof.Machine

namespace Sys2Proof.Machine

/-! ### Loading a segment register, case by case (R97 to R101, R106, R107) -/

theorem run_loadSeg_real {i : Seg} {sel : Half} {s : State} (h : s.realMode = true) :
    (loadSeg i sel).run s = .ok () (s.setSeg i ((s.seg i).loadReal sel)) := by
  unfold loadSeg
  rw [run_bind_ok (run_get s), if_pos h]
  rfl

theorem run_loadSeg_v86 {i : Seg} {sel : Half} {s : State} (h : s.v86Mode = true) :
    (loadSeg i sel).run s = .ok () (s.setSeg i (.v86 i sel)) := by
  unfold loadSeg
  rw [run_bind_ok (run_get s)]
  simp only [v86Mode_not_real h, h, Bool.false_eq_true, if_false, if_true]
  rfl

theorem run_loadSeg_prot {i : Seg} {sel : Half} {s : State} (h : s.protMode = true) :
    (loadSeg i sel).run s = (if i = .ss then loadSS sel s.cpl else loadSegProt i sel).run s := by
  unfold loadSeg
  rw [run_bind_ok (run_get s)]
  simp only [protMode_not_real h, protMode_not_v86 h, Bool.false_eq_true, if_false]

/-- A fault of a segment load with an error code. -/
def loadStop (k : FaultKind) (c : Word) : Stop := .fault { kind := k, code := some c, addr := none } false

/-- A descriptor fits the register it is loaded into (R101, R106). -/
def loadFits (i : Seg) (sel : Half) (d : Desc) (cpl : BitVec 2) : Bool :=
  if i = .ss then (rpl sel = cpl && d.dpl = cpl) && d.writableData else usable d sel cpl

section
variable {i : Seg} {sel : Half} {s u : State} {d : Desc} {a : Word} (prot : s.protMode = true)
include prot

theorem run_loadSeg_null (null : nullSel sel = true) : (loadSeg i sel).run s =
    if i = .ss then .error (loadStop .gp 0) s else .ok () (s.setSeg i ((s.seg i).invalidate sel)) := by
  rw [run_loadSeg_prot prot]
  split
  · exact run_require_fail (by simp [null])
  · unfold loadSegProt
    rw [if_pos null]
    rfl

variable (named : nullSel sel = false)
include named

theorem run_loadSeg_missing (fetched : (fetchDescriptor sel).run s = .ok none u) :
    (loadSeg i sel).run s = .error (loadStop .gp (selCode sel)) u := by
  rw [run_loadSeg_prot prot]
  split
  · exact (run_require_pass (by simp [named])).trans (run_bind_error (run_fetchDescOr_none fetched))
  · unfold loadSegProt
    rw [if_neg (by simp [named])]
    exact run_bind_error (run_fetchDescOr_none fetched)

/-- A descriptor that was found is checked against the register, then for presence, and is copied. -/
theorem run_loadSeg_found (fetched : (fetchDescriptor sel).run s = .ok (some (d, a)) u) :
    (loadSeg i sel).run s = (do
      require (loadFits i sel d u.cpl) .gp (selCode sel)
      require d.p (if i = .ss then .ss else .np) (selCode sel)
      copyDescriptor i sel d : Op Unit).run u := by
  have cpl : s.cpl = u.cpl := (fetchDescriptor_ok fetched).only.cpl.symm
  rw [run_loadSeg_prot prot, loadFits]
  split
  · subst_vars
    refine (run_require_pass (by simp [named])).trans ((run_bind_ok (run_fetchDescOr_found fetched)).trans ?_)
    rw [cpl]
    exact run_require_and _ _ _ _ _ _
  · unfold loadSegProt
    rw [if_neg (by simp [named]), run_bind_ok (run_fetchDescOr_found fetched)]
    rfl

end

theorem Desc.writableData_iff {d : Desc} : d.writableData = true ↔ d.cls = .data ∧ d.type.getLsbD 1 = true := by
  simp only [Desc.writableData, Bool.and_eq_true, decide_eq_true_eq]

theorem loadFits_iff {i : Seg} {sel : Half} {d : Desc} {cpl : BitVec 2} : loadFits i sel d cpl = true ↔
    if i = .ss then rpl sel = cpl ∧ d.dpl = cpl ∧ d.cls = .data ∧ d.type.getLsbD 1 = true
    else (d.cls = .data ∨ (d.cls = .code ∧ d.type.getLsbD 1 = true)) ∧
      ((d.cls = .code ∧ d.type.getLsbD 2 = true) ∨ max cpl.toNat (rpl sel).toNat ≤ d.dpl.toNat) := by
  unfold loadFits
  split
  · rw [Bool.and_eq_true, Bool.and_eq_true, decide_eq_true_eq, decide_eq_true_eq, Desc.writableData_iff, and_assoc]
  · exact usable_iff _ _ _

/-- What fits a register can be read. -/
theorem readable_of_loadFits {i : Seg} {sel : Half} {d : Desc} {cpl : BitVec 2} (h : loadFits i sel d cpl = true) :
    (decide (d.cls = .data) || d.type.getLsbD 1) = true := by
  have h := loadFits_iff.1 h
  split at h
  · simp [h.2.2.1]
  · rcases h.1 with hd | ⟨-, hr⟩
    · simp [hd]
    · simp [hr]

/-- A readable descriptor as a segment register holds it (R100). -/
theorem SegReg.ofDesc_readable {sel : Half} {d : Desc} (h : (decide (d.cls = .data) || d.type.getLsbD 1) = true) :
    SegReg.ofDesc sel d =
      { selector := sel, base := d.base
        limitMin := if d.cls = .data ∧ d.type.getLsbD 2 = true then d.limit + 1 else 0
        limitMax := if d.cls = .data ∧ d.type.getLsbD 2 = true then (if d.db then 0xFFFFFFFF else 0xFFFF) else d.limit
        type := d.type, dpl := d.dpl, size32 := d.db, readable := true
        writable := decide (d.cls = .data) && d.type.getLsbD 1, valid := true } := by
  unfold SegReg.ofDesc
  simp only [h, Bool.and_eq_true, decide_eq_true_eq]

/-- Settles O45: the mode chooses the load path, and in protected mode the checks come one by one. -/
theorem segmentLoads : Obligations.SegmentLoads := by
  intro i sel s hcs old code fault
  refine ⟨run_loadSeg_real, fun v86 => ?_, fun prot => ⟨run_loadSeg_null prot,
    fun u named => run_loadSeg_missing prot named, ?_⟩⟩
  · rw [run_loadSeg_v86 v86, SegReg.v86, if_neg hcs]
    rfl
  · intro d a u named fetched readable fit down
    have found := run_loadSeg_found (i := i) prot named fetched
    have fits : loadFits i sel d u.cpl = true ↔ fit := loadFits_iff
    refine ⟨fun unfit => ?_, fun hfit absent => ?_, fun hfit present => ?_⟩
    · exact found.trans (run_require_fail (Bool.eq_false_iff.2 (mt fits.1 unfit)))
    · exact found.trans ((run_require_pass (fits.2 hfit)).trans (run_require_fail absent))
    · rw [found, run_require_pass (fits.2 hfit), run_require_pass present,
        ← SegReg.ofDesc_readable (readable_of_loadFits (fits.2 hfit))]
      rfl

end Sys2Proof.Machine

namespace Sys2Proof.Machine

/-! ### A read-modify-write whose rule says whether to write (R108) -/

section
variable {w : Width} {rm : RM} {f : Word → Op (Option Word)} {s s2 u : State} {a r : Word}
  (hd : (readDst w rm).run s = .ok a s2)
include hd

theorem run_modifyRM_some (hf : (f a).run s2 = .ok (some r) u) :
    (do let _ ← modifyRM w rm f; advance : Op Unit).run s = (do writeDst w rm r; advance : Op Unit).run u := by
  have hm : (modifyRM w rm f).run s = (do writeDst w rm r; pure a : Op Word).run u := by
    unfold modifyRM
    rw [run_bind_ok hd, run_bind_ok hf]
  rw [EStateM.run_bind, hm, EStateM.run_bind, EStateM.run_bind]
  cases (writeDst w rm r).run u <;> rfl

theorem run_modifyRM_none (hf : (f a).run s2 = .ok none u) :
    (do let _ ← modifyRM w rm f; advance : Op Unit).run s = .ok () u.advance := by
  have hm : (modifyRM w rm f).run s = .ok a u := by
    unfold modifyRM
    rw [run_bind_ok hd, run_bind_ok hf]
    rfl
  exact run_bind_ok hm

end

/-! ### Shifts and rotates complete (R320 to R327) -/

section
variable {w : Width} {rm : RM} {c : Count} {f : Nat → Word → Op Word} {s s1 : State} {a : Word}

/-- A count of 0 checks and reads the operand and does no more. -/
theorem run_shiftStore_zero (zero : s.count c = 0) (hd : (readDst w rm).run s = .ok a s1) :
    (shiftStore w rm c f).run s = .ok () s1.advance := by
  unfold shiftStore
  rw [run_bind_ok (run_get s)]
  simp only [zero, if_true]
  exact run_modifyRM_none hd rfl

theorem run_shiftStore {u : State} {r : Word} (some_ : s.count c ≠ 0) (hd : (readDst w rm).run s = .ok a s1)
    (hf : (f (s.count c) a).run s1 = .ok r u) :
    (shiftStore w rm c f).run s = (do writeDst w rm r; advance : Op Unit).run u := by
  unfold shiftStore
  rw [run_bind_ok (run_get s)]
  simp only [some_, if_false]
  exact run_modifyRM hd hf

theorem run_shiftStore_error {t : State} {e : Stop} (hd : (readDst w rm).run s = .error e t) :
    (shiftStore w rm c f).run s = .error e t := (run_bind_ok (run_get s)).trans (run_modifyRM_error hd)

end

theorem exec_shift {w : Width} {rm : RM} {c : Count} {i : Instr} (h : i ∈ [Instr.rol w rm c, .ror w rm c, .rcl w rm c,
    .rcr w rm c, .shl w rm c, .sal w rm c, .shr w rm c, .sar w rm c]) :
    ∃ f, ∀ s, exec i s = run (shiftStore w rm c f) s := by
  simp only [List.mem_cons, List.not_mem_nil, or_false] at h
  rcases h with rfl | rfl | rfl | rfl | rfl | rfl | rfl | rfl <;> exact ⟨_, fun _ => rfl⟩

theorem countZeroChangesNothing : Claim.CountZeroChangesNothing := by
  intro w rm c s s1 a inv zero hd
  obtain ⟨effect, -⟩ := readDst_ok hd
  refine ⟨effect.accessed inv, fun i hi => ?_⟩
  obtain ⟨f, hf⟩ := exec_shift hi
  rw [hf, run_of_ok (run_shiftStore_zero zero hd), advance_of_nextEip effect.only.nextEip]

theorem FlagEffect.rotated (s : State) (o : ShiftOut) : FlagEffect s (rotated s o) :=
  ⟨rfl, fun h => flagsOk_putFlag (flagsOk_putFlag h _ _) _ _⟩

theorem FlagEffect.shifted (s : State) (w : Width) (o : ShiftOut) (draws : Nat) : FlagEffect s (shifted s w o draws) :=
  ⟨rfl, fun h => flagsOk_putStatus h _⟩

theorem rotateComplete : Claim.RotateComplete := by
  intro w rm c s s1 a inv some_ hd n d
  obtain ⟨effect, -⟩ := readDst_ok hd
  have carry : s1.flag .cf = s.flag .cf := effect.flag .cf
  refine ⟨storesResult_of rfl effect (.rotated s1 _) inv (run_shiftStore some_ hd rfl),
    storesResult_of rfl effect (.rotated s1 _) inv (run_shiftStore some_ hd rfl),
    storesResult_of rfl effect (.rotated s1 _) inv (run_shiftStore some_ hd ?_),
    storesResult_of rfl effect (.rotated s1 _) inv (run_shiftStore some_ hd ?_)⟩
  · rw [← carry]
    rfl
  · rw [← carry]
    rfl

theorem shiftComplete : Claim.ShiftComplete := by
  intro w rm c s s1 a inv some_ hd n d e
  obtain ⟨effect, -⟩ := readDst_ok hd
  exact ⟨storesResult_of rfl effect (.shifted s1 w _ 2) inv (run_shiftStore some_ hd rfl),
    storesResult_of rfl effect (.shifted s1 w _ 2) inv (run_shiftStore some_ hd rfl),
    storesResult_of rfl effect (.shifted s1 w _ 2) inv (run_shiftStore some_ hd rfl),
    storesResult_of rfl effect (.shifted s1 w _ 1) inv (run_shiftStore some_ hd rfl)⟩

theorem shiftFaults : Claim.ShiftFaults := by
  intro w rm c s i hi
  obtain ⟨f, hf⟩ := exec_shift hi
  exact faultsWhere_of (hf s) fun _ _ => run_shiftStore_error

/-- Settles O17. -/
theorem shiftsComplete : Obligations.ShiftsComplete :=
  ⟨countZeroChangesNothing, rotateComplete, shiftComplete, shiftFaults⟩

end Sys2Proof.Machine

namespace Sys2Proof.Machine

/-! ### MOV of segment registers (R202, R203) -/

theorem segOfNum_table (n : BitVec 3) : segOfNum n = [Seg.es, .cs, .ss, .ds, .fs, .gs][n.toNat]? := by
  revert n
  decide

theorem run_storeSelector (z : Size) (rm : RM) (sel : Half) :
    storeSelector z rm sel = writeRM (selWidth z rm) rm (sel.setWidth 32) := by cases rm <;> rfl

theorem exec_movSegRm {n : BitVec 3} {i : Seg} (hn : segOfNum n = some i) (hcs : i ≠ .cs) (rm : RM) (s : State) :
    exec (.movSegRm n rm) s = run (do
      let v ← readRM .w16 rm
      loadSeg i (v.setWidth 16)
      advance) s := by
  show execMovSegRm n rm s = _
  unfold execMovSegRm
  rw [hn]
  cases i with
  | cs => exact absurd rfl hcs
  | _ => rfl

theorem exec_movRmSeg {n : BitVec 3} {i : Seg} (hn : segOfNum n = some i) (z : Size) (rm : RM) (s : State) :
    exec (.movRmSeg z rm n) s = run (do
      writeRM (selWidth z rm) rm ((s.seg i).selector.setWidth 32)
      advance) s := by
  show execMovRmSeg z rm n s = _
  unfold execMovRmSeg
  rw [hn]
  unfold run
  rw [← run_storeSelector]
  rfl

/-- Settles O20: the selector goes to the operand, or the value read is loaded by the path of the mode. -/
theorem segmentMovesComplete : Obligations.SegmentMovesComplete := by
  refine ⟨fun rm n i s hn hcs => ⟨?_, fun v u hv => ?_⟩, fun z rm n i s inv hn => ?_,
    fun rm n i s u t v inv hn hcs hv ht => ?_, segOfNum_table⟩
  · exact faultsWhere_of (exec_movSegRm hn hcs rm s) fun _ _ => run_bind_error
  · exact faultsWhere_of (exec_movSegRm hn hcs rm s) fun _ _ h => (run_bind_ok hv).trans (run_bind_error h)
  · exact writesOperand_of (exec_movRmSeg hn z rm s) rfl rfl rfl (.refl s) inv
  · obtain ⟨effect, -⟩ := readRM_ok hv
    have loaded := loadSeg_ok ht
    have done : exec (.movSegRm n rm) s = .next { t with eip := s.nextEip } := by
      rw [exec_movSegRm hn hcs, ← advance_of_nextEip (loaded.nextEip.trans effect.only.nextEip)]
      exact run_of_ok ((run_bind_ok hv).trans (run_bind_ok ht))
    exact ⟨done, effect.accessed inv, loaded.segmentLoaded (effect.inv inv)⟩

/-! ### MOVZX, MOVSX, LEA and XCHG (R204 to R207) -/

theorem extendingLoadsComplete : Claim.ExtendingLoadsComplete := by
  intro z r rm s u v inv
  refine ⟨fun hv => ⟨?_, ?_⟩, fun hv => ⟨?_, ?_⟩⟩ <;>
    exact loadsRegister_of rfl (run_bind_ok hv) (readRM_ok hv).1 inv

theorem leaComplete : Claim.LeaComplete := fun _ _ _ _ => rfl

theorem reg16_toNat (s : State) (r : Reg) :
    ((s.reg .w16 r).setWidth 16).toNat = (s.regs.get r).toNat % 2 ^ 16 := by
  rw [BitVec.toNat_setWidth]
  show (s.regs.get r &&& 0xFFFF).toNat % _ = _
  rw [show (s.regs.get r &&& 0xFFFF).toNat = _ from toNat_and_low _ (k := 16) (by decide), Nat.mod_mod]

theorem ea_based16 (s : State) (b : Base16) (d : Disp Half) :
    (s.ea (.based16 b d)).toNat = ((s.base16 b).toNat + (Disp.value d).toNat) % 2 ^ 16 := by
  show ((s.base16 b + Disp.value d).setWidth 32).toNat = _
  rw [BitVec.toNat_setWidth, BitVec.toNat_add, Nat.mod_eq_of_lt (by omega)]

theorem index32_toNat (s : State) (q : Reg) (c : BitVec 2) :
    (s.index32 (some q) c).toNat = (s.regs.get q).toNat * 2 ^ c.toNat % 2 ^ 32 := by
  show (s.regs.get q <<< c.toNat).toNat = _
  rw [BitVec.toNat_shiftLeft, Nat.shiftLeft_eq]

theorem effectiveAddresses : Claim.EffectiveAddresses := by
  intro s r
  refine ⟨fun d => ?_, fun b d => ?_, ?_⟩
  · show (d.setWidth 32).toNat = _
    rw [BitVec.toNat_setWidth, Nat.mod_eq_of_lt (by omega)]
  · rw [ea_based16]
    cases b <;> cases d <;>
      simp only [State.base16, BitVec.toNat_add, reg16_toNat, Nat.mod_add_mod, Nat.add_mod_mod, r] <;> rfl
  · intro b x c d base disp
    have hdisp : (Disp.value d).toNat = disp := by cases d <;> rfl
    have hindex : (s.index32 x c).toNat = base x * 2 ^ c.toNat % 2 ^ 32 := by
      cases x with
      | none => simp [State.index32, base]
      | some q => exact index32_toNat s q c
    refine ⟨?_, ?_, fun _ => rfl, fun v => ?_⟩
    · show (s.regs.get b + Disp.value d).toNat = _
      rw [BitVec.toNat_add, hdisp]
    · show (s.regs.get b + s.index32 x c + Disp.value d).toNat = _
      rw [BitVec.toNat_add, BitVec.toNat_add, hindex, hdisp, Nat.mod_add_mod, Nat.add_right_comm, Nat.add_mod_mod,
        Nat.add_right_comm]
    · show (s.index32 x c + v).toNat = _
      rw [BitVec.toNat_add, hindex, Nat.mod_add_mod]

theorem run_xchg_written {w : Width} {rm : RM} {b a : Word} {s u t : State} {f : Word → Op Unit}
    (hd : (readDst w rm).run s = .ok a u) (ht : (writeDst w rm b).run u = .ok () t) :
    (modifyRM w rm (fun _ => pure (some b)) >>= f).run s = (f a).run t := by
  have hm : (modifyRM w rm fun _ => pure (some b)).run s = .ok a t := (run_bind_ok hd).trans (run_bind_ok ht)
  exact run_bind_ok hm

theorem exchangeComplete : Claim.ExchangeComplete := by
  refine ⟨fun w rm r s u t a inv hd ht => ?_, fun z r s => rfl⟩
  obtain ⟨effect, -⟩ := readDst_ok hd
  obtain ⟨flags, next, system, wrote⟩ := wrote_since effect (.refl u) ht inv
  refine ⟨run_of_ok ?_, flags.trans effect.only.fields.2.1, system, wrote⟩
  refine (run_bind_ok (run_readReg w r s)).trans ((run_xchg_written hd ht).trans ?_)
  rw [← next]
  rfl

theorem loadAndExchangeFaults : Claim.LoadAndExchangeFaults := by
  intro z w r rm s
  refine ⟨fun i hi => ?_, fun i hi => ?_, ?_, fun a u hd => ?_⟩
  · simp only [List.mem_cons, List.not_mem_nil, or_false] at hi
    rcases hi with rfl | rfl <;> exact faultsWhere_of rfl fun _ _ => run_bind_error
  · simp only [List.mem_cons, List.not_mem_nil, or_false] at hi
    rcases hi with rfl | rfl <;> exact faultsWhere_of rfl fun _ _ => run_bind_error
  · exact faultsWhere_of rfl fun _ _ h => (run_bind_ok (run_readReg w r s)).trans (run_bind_error (run_bind_error h))
  · refine faultsWhere_of rfl fun _ _ h => (run_bind_ok (run_readReg w r s)).trans (run_bind_error ?_)
    exact (run_bind_ok hd).trans (run_bind_error h : (writeDst w rm (s.reg w r) >>= fun _ => pure a).run u = _)

/-- Settles O21. -/
theorem loadsAndExchangesComplete : Obligations.LoadsAndExchangesComplete :=
  ⟨extendingLoadsComplete, leaComplete, effectiveAddresses, exchangeComplete, loadAndExchangeFaults⟩

end Sys2Proof.Machine

namespace Sys2Proof.Machine

/-! ### The invalid-opcode exception (R180, R501) -/

/-- An instruction whose operation stops at once with `#UD`. -/
theorem raisesUd_of {i : Instr} {s : State} {op : Op Unit} (he : exec i s = run op s)
    (h : op.run s = (raiseUD : Op Unit).run s) : RaisesFault i s s .ud none := he.trans (run_of_fault h)

theorem run_requireProtected_fail {β : Type} {f : Unit → Op β} {s : State} (h : s.protMode = false) :
    (requireProtected >>= f).run s = .error (.fault { kind := .ud, code := none, addr := none } false) s :=
  run_bind_error (by
    unfold requireProtected
    rw [run_bind_ok (run_get s), h]
    rfl)

theorem ctrlOfNum_none {n : BitVec 3} (h0 : n ≠ 0) (h2 : n ≠ 2) (h3 : n ≠ 3) : ctrlOfNum n = none := by
  revert n
  decide

theorem raisesUd_noControl {n : BitVec 3} (h : ctrlOfNum n = none) (r : Reg) (s : State) :
    RaisesFault (.movToCr n r) s s .ud none ∧ RaisesFault (.movFromCr r n) s s .ud none := by
  constructor
  · show execMovToCr n r s = _
    unfold execMovToCr
    rw [h]
    rfl
  · show execMovFromCr r n s = _
    unfold execMovFromCr
    rw [h]
    rfl

theorem invalidForms : Claim.InvalidForms := by
  intro s z rm r n op ud
  refine ⟨raisesUd_of rfl rfl, fun hn => ?_, fun hn => ?_,
    fun h0 h2 h3 => raisesUd_noControl (ctrlOfNum_none h0 h2 h3) r s, fun q => ?_, fun flat => ?_⟩
  · rcases hn with rfl | rfl <;> exact ⟨raisesUd_of rfl rfl, raisesUd_of rfl rfl⟩
  · subst hn
    exact raisesUd_of rfl rfl
  · exact ⟨raisesUd_of rfl rfl, raisesUd_of rfl rfl, raisesUd_of rfl rfl, raisesUd_of rfl rfl, raisesUd_of rfl rfl,
      raisesUd_of rfl rfl, raisesUd_of rfl rfl, raisesUd_of rfl rfl⟩
  · have denied {f : Unit → Op Unit} := run_requireProtected_fail (f := f) flat
    exact ⟨raisesUd_of rfl denied, raisesUd_of rfl denied, raisesUd_of rfl denied, raisesUd_of rfl denied,
      raisesUd_of rfl denied⟩

theorem undefinedSlotsTakeVector6 : Claim.UndefinedSlotsTakeVector6 := by
  intro op n rm s t h
  have raised : RaisesFault (.ud op n rm) s s .ud none := raisesUd_of rfl rfl
  exact raised.trans (dispatchFault_of_ok h)

/-- Settles O37. -/
theorem invalidOpcodes : Obligations.InvalidOpcodes := ⟨invalidForms, undefinedSlotsTakeVector6⟩

/-! ### HLT, control registers and INVLPG (R430, R444, R445, R448) -/

theorem run_drawStatus (s : State) : drawStatus.run s = .ok () (sixDraws s) := rfl

section
variable {s : State} (permitted : s.realMode = true ∨ s.cpl = 0)
include permitted

/-- A control register is written, the status flags are drawn, and the block ends (R444). -/
theorem exec_movToCr {n : BitVec 3} {c : CtrlReg} (hn : ctrlOfNum n = some c) {r : Reg} {t : State}
    (hw : (writeCtrl (s.regs.get r) c).run s = .ok () t) (next : t.nextEip = s.nextEip) :
    exec (.movToCr n r) s = .next { sixDraws t with eip := s.nextEip, inBlock := false } := by
  show execMovToCr n r s = _
  unfold execMovToCr
  rw [hn, ← next]
  refine run_of_ok ((run_requirePrivilege_pass ((privileged_iff s).2 permitted)).trans ?_)
  exact (run_bind_ok (run_readReg .w32 r s)).trans (run_bind_ok hw)

/-- A control register is read, and the status flags are drawn (R445). -/
theorem exec_movFromCr {n : BitVec 3} {c : CtrlReg} (hn : ctrlOfNum n = some c) (r : Reg) :
    exec (.movFromCr r n) s = .next { sixDraws { s with regs := s.regs.set r (s.ctrl c) } with eip := s.nextEip } := by
  show execMovFromCr r n s = _
  unfold execMovFromCr
  rw [hn]
  exact run_of_ok (run_requirePrivilege_pass ((privileged_iff s).2 permitted))

end

/-- Settles O41: the test of the level passes, and then each instruction does its one thing. -/
theorem systemComplete : Obligations.SystemComplete := by
  intro s r m
  refine ⟨rfl, ?_⟩
  intro permitted v written read
  refine ⟨run_of_ok (run_requirePrivilege_pass ((privileged_iff s).2 permitted)), fun allowed => ?_,
    fun paged unprotected => ?_,
    exec_movToCr (c := .cr2) permitted rfl rfl rfl, exec_movToCr (c := .cr3) permitted rfl rfl rfl,
    exec_movFromCr (c := .cr0) permitted rfl r, exec_movFromCr (c := .cr2) permitted rfl r,
    exec_movFromCr (c := .cr3) permitted rfl r, ?_⟩
  · have ok : (!v.getLsbD 31 || v.getLsbD 0) = true := by
      rcases allowed with h | h <;> simp only [h, Bool.not_false, Bool.true_or, Bool.or_true]
    exact exec_movToCr permitted rfl (run_require_pass ok) rfl
  · have bad : (!v.getLsbD 31 || v.getLsbD 0) = false := by
      rw [paged, unprotected]
      rfl
    refine run_of_fault ((run_requirePrivilege_pass ((privileged_iff s).2 permitted)).trans ?_)
    exact (run_bind_ok (run_readReg .w32 r s)).trans (run_bind_error (run_require_fail bad))
  · exact run_of_ok ((run_bind_ok (run_op_pure m s)).trans (run_requirePrivilege_pass ((privileged_iff s).2 permitted)))

/-! ### ARPL (R446) -/

theorem setWidth16_32 (v : Word) : (v.setWidth 16).setWidth 32 = v &&& 0xFFFF := by
  apply BitVec.eq_of_toNat_eq
  rw [show (v &&& 0xFFFF).toNat = _ from toNat_and_low v (k := 16) (by decide), BitVec.toNat_setWidth,
    BitVec.toNat_setWidth, Nat.mod_eq_of_lt (by omega)]

theorem rpl_toNat (v : Word) : (rpl (v.setWidth 16)).toNat = v.toNat % 4 := by
  rw [rpl, BitVec.extractLsb'_toNat, BitVec.toNat_setWidth]
  simp only [Nat.shiftRight_zero]
  omega

/-- A selector whose RPL is raised, as a word (R446). -/
theorem raised_selector (v src : Word) :
    (((v.setWidth 16 : Half) &&& 0xFFFC) ||| (rpl (src.setWidth 16)).setWidth 16).setWidth 32 =
      (v &&& 0xFFFC) ||| (src &&& 3) := by
  have hrpl : ((rpl (src.setWidth 16)).setWidth 16).setWidth 32 = src &&& 3 := by
    apply BitVec.eq_of_toNat_eq
    rw [show (src &&& 3).toNat = _ from toNat_and_low src (k := 2) (by decide), BitVec.toNat_setWidth,
      BitVec.toNat_setWidth, rpl_toNat]
    omega
  rw [BitVec.setWidth_or, BitVec.setWidth_and, setWidth16_32, hrpl, BitVec.and_assoc]
  rfl

/-- What ARPL does with its destination's value: ZF, and the raised selector where there is one (R446). -/
def arplOp (src v : Word) : Op (Option Word) := do
  putFlagOp .zf (adjustRpl (v.setWidth 16) (src.setWidth 16)).isSome
  pure ((adjustRpl (v.setWidth 16) (src.setWidth 16)).map (·.setWidth 32))

theorem run_arplOp_raises {src v : Word} {u : State}
    (h : (rpl (v.setWidth 16)).toNat < (rpl (src.setWidth 16)).toNat) :
    (arplOp src v).run u = .ok (some ((v &&& 0xFFFC) ||| (src &&& 3))) (u.putFlag .zf true) := by
  have adjusted : adjustRpl (v.setWidth 16) (src.setWidth 16) =
      some ((v.setWidth 16 &&& 0xFFFC) ||| (rpl (src.setWidth 16)).setWidth 16) := if_pos h
  unfold arplOp
  rw [adjusted, ← raised_selector]
  rfl

theorem run_arplOp_keeps {src v : Word} {u : State}
    (h : ¬ (rpl (v.setWidth 16)).toNat < (rpl (src.setWidth 16)).toNat) :
    (arplOp src v).run u = .ok none (u.putFlag .zf false) := by
  have adjusted : adjustRpl (v.setWidth 16) (src.setWidth 16) = none := if_neg h
  unfold arplOp
  rw [adjusted]
  rfl

/-- Settles O44: the RPLs are compared, ZF says which, and the selector is written only when it was raised. -/
theorem arplComplete : Obligations.ArplComplete := by
  refine ⟨fun rm r s prot => ?_, ?_⟩
  · refine faultsWhere_of rfl fun _ _ h => (run_requireProtected_pass prot).trans ?_
    exact (run_bind_ok (run_readReg .w16 r s)).trans (run_modifyRM_error h)
  · intro rm r s u v inv prot hd src low flagged
    obtain ⟨effect, -⟩ := readDst_ok hd
    have flags : u.flags = s.flags := effect.only.fields.2.1
    have compared : (rpl (v.setWidth 16)).toNat < (rpl (src.setWidth 16)).toNat ↔ low v < low src := by
      rw [rpl_toNat, rpl_toNat]
    have adjusts (b : Bool) : u.putFlag .zf b = flagged b :=
      congrArg (fun f => { u with flags := putFlag f .zf b }) flags
    have settled : exec (.arpl rm r) s = run (do let _ ← modifyRM .w16 rm (arplOp src); advance) s :=
      congrArg (settle s) (run_requireProtected_pass prot)
    refine ⟨fun lower => ?_, fun high => ⟨?_, effect.accessed inv⟩⟩
    · have raises := run_arplOp_raises (u := u) (compared.2 lower)
      rw [adjusts] at raises
      exact storesResult_of settled effect ⟨rfl, fun h => flagsOk_putFlag (flags ▸ h) _ _⟩ inv
        (run_modifyRM_some hd raises)
    · have keeps := run_arplOp_keeps (u := u) (mt compared.1 (Nat.not_lt.2 high))
      rw [adjusts] at keeps
      have next : (flagged false).nextEip = s.nextEip := effect.only.nextEip
      rw [settled, run_of_ok (run_modifyRM_none hd keeps), advance_of_nextEip next]

end Sys2Proof.Machine

namespace Sys2Proof.Machine

/-! ### Near and counted jumps (R361 to R366) -/

/-- A branch taken goes to its target, one not taken to the next instruction; the block ends either way (R360). -/
theorem run_branch (take : Bool) (z : Size) (disp : Word) (s : State) : (branch take z disp).run s =
    .ok () { s with eip := if take then trunc z.width (s.nextEip + disp) else s.nextEip, inBlock := false } := by
  cases take <;> rfl

theorem nearDisp_eq (z : Size) (cv : Word) : nearDisp z cv = BitVec.ofInt 32 (sint z.width cv) := rfl

theorem nearJumps : Claim.NearJumps := by
  intro z s goes near
  refine ⟨fun cb => run_of_ok (run_branch true z _ s), fun cv => run_of_ok (run_branch true z _ s), fun cc cb => ?_,
    fun cc cv => ?_, fun rm => faultsWhere_of rfl fun _ _ => run_bind_error, fun rm v u inv hv => ⟨?_, ?_⟩⟩
  · exact run_of_ok ((run_bind_ok (run_get s)).trans (run_branch _ z _ s))
  · exact run_of_ok ((run_bind_ok (run_get s)).trans (run_branch _ z _ s))
  · exact run_of_ok (run_bind_ok hv)
  · exact (readRM_ok hv).1.accessed inv

theorem Regs.setView_trunc (x : Regs) (z : Size) (r : Reg) (v : Word) :
    x.setView z.width r (trunc z.width v) = x.setView z.width r v := by
  cases z with
  | s16 =>
    have : v &&& 0xFFFF &&& 0xFFFF = v &&& 0xFFFF := by rw [BitVec.and_assoc]; rfl
    show x.set r ((x.get r &&& 0xFFFF0000) ||| (v &&& 0xFFFF &&& 0xFFFF)) = _
    rw [this]
    rfl
  | s32 =>
    show x.set r (v &&& 0xFFFFFFFF) = x.set r v
    rw [show v &&& 0xFFFFFFFF = v from BitVec.and_allOnes]

/-- A count of one is the last (R341, R366). -/
theorem trunc_pred_eq_zero {z : Size} {c : Word} (h : z.width.fits c = true) : trunc z.width (c - 1) = 0 ↔ c = 1 := by
  have hlt := toNat_lt_of_fits h
  rw [← BitVec.toNat_inj, ← BitVec.toNat_inj, toNat_trunc, BitVec.toNat_sub]
  cases z with
  | s16 =>
    simp only [Size.width, Width.bits] at hlt ⊢
    simp
    omega
  | s32 =>
    simp only [Size.width, Width.bits] at hlt ⊢
    simp
    omega

/-- The count register goes down by one, and the branch looks at it and at ZF (R366). -/
theorem run_loopStep (z asz : Size) (cb : Byte) (zf : Bool → Bool) (s : State) :
    (loopStep z asz cb zf).run s = .ok () { s with
      regs := s.regs.setView asz.width .ecx (s.reg asz.width .ecx - 1)
      eip := if decide (s.reg asz.width .ecx ≠ 1) && zf (s.flag .zf) then
          trunc z.width (s.nextEip + cb.signExtend 32) else s.nextEip
      inBlock := false } := by
  have hcount : (s.setReg asz.width .ecx (trunc asz.width (s.reg asz.width .ecx - 1))).reg asz.width .ecx =
      trunc asz.width (s.reg asz.width .ecx - 1) := (Regs.view_setView _ _ _ _).trans (trunc_trunc _ _)
  have hzero : decide (trunc asz.width (s.reg asz.width .ecx - 1) ≠ 0) = decide (s.reg asz.width .ecx ≠ 1) :=
    decide_eq_decide.2 (not_congr (trunc_pred_eq_zero (fits_view s.regs asz.width .ecx)))
  unfold loopStep
  rw [run_bind_ok (run_readReg _ _ _), run_bind_ok (run_writeReg _ _ _ _), run_bind_ok (run_get _), run_branch, hcount,
    hzero, ← Regs.setView_trunc]
  rfl

theorem countedJumpsComplete : Claim.CountedJumpsComplete := by
  intro z asz cb s near c down goes
  refine ⟨run_of_ok (run_branch _ z _ s), run_of_ok ?_, run_of_ok (run_loopStep z asz cb _ s),
    run_of_ok (run_loopStep z asz cb _ s)⟩
  rw [run_loopStep]
  simp only [Bool.and_true]
  rfl

/-- Settles O27. -/
theorem jumpsComplete : Obligations.JumpsComplete := ⟨nearJumps, countedJumpsComplete⟩

/-! ### What a call of a device leaves (R82, R83, R142) -/

/-- Only what the platform may touch inside a call differs: assumption logs 10 and 14. -/
def PlatformActed (s t : State) : Prop :=
  t = { s with pending := t.pending, a20On := t.a20On, mem := t.mem, tlb := t.tlb, inBlock := t.inBlock }

theorem platformActed_preorder : Preorder PlatformActed where
  refl _ := rfl
  trans s t u h1 h2 := by
    unfold PlatformActed at *
    rw [h2, h1]

theorem State.applyEvent_platformActed (s : State) {e : PlatformEvent} (h : insidePort e = true) :
    PlatformActed s (s.applyEvent e) := by
  cases e with
  | requests v => rfl
  | setA20 on => rfl
  | memWrite a v =>
    show PlatformActed s (s.memWriteByte a.toNat v)
    rw [State.memWriteByte_eq]
    rfl
  | tlbDrop p => rfl
  | reset => exact absurd h (by decide)

theorem State.foldl_events_platformActed (l : List PlatformEvent) (s : State) (h : ∀ e ∈ l, insidePort e = true) :
    PlatformActed s (l.foldl State.applyEvent s) := by
  induction l generalizing s with
  | nil => rfl
  | cons e l ih =>
    exact platformActed_preorder.trans _ _ _ (s.applyEvent_platformActed (h e List.mem_cons_self))
      (ih _ fun x hx => h x (List.mem_cons_of_mem _ hx))

/-- A call is recorded, uses up a batch, and then the platform acts. -/
theorem State.deviceCall_acted (s : State) (c : DeviceCall) :
    PlatformActed { s with calls := c :: s.calls, ioEvents := s.ioEvents.tail } (s.deviceCall c) := by
  unfold State.deviceCall
  cases hev : s.ioEvents with
  | nil => rfl
  | cons batch rest =>
    exact State.foldl_events_platformActed _ _ fun e he =>
      DeviceCall.insidePort_of_admits (List.mem_filter.mp he).2

theorem deviceCallLeaves : Claim.DeviceCallLeaves := by
  intro x c y
  have acted : PlatformActed { x with calls := c :: x.calls, ioEvents := x.ioEvents.tail } y := x.deviceCall_acted c
  have calls : y.calls = c :: x.calls := by rw [acted]
  have events : y.ioEvents = x.ioEvents.tail := by rw [acted]
  refine ⟨calls, events, ?_, fun none => ?_, fun memory => ?_⟩
  · rw [calls, events]
    exact acted
  · show x.deviceCall c = _
    unfold State.deviceCall
    rw [none]
  · have hc : c.admits = insideMemory := by
      rcases memory with ⟨a, n, rfl⟩ | ⟨a, n, v, rfl⟩ <;> rfl
    have device := x.deviceCall_mem hc
    obtain ⟨-, -, -, -, -, -, -, -, -, -, -, -, a20, -⟩ := device.only.fields
    exact ⟨a20, device.tlb⟩

/-! ### The permission of a port (R230) -/

section
variable {s : State} {p : Half}

/-- A port access that needs no permission bit. -/
def State.portsOpen (s : State) : Bool := s.realMode || (s.protMode && decide (s.cpl.toNat ≤ s.iopl.toNat))

theorem run_ioPermitted_open (h : s.portsOpen = true) : (ioPermitted p).run s = .ok () s := by
  unfold ioPermitted
  rw [run_bind_ok (run_get s)]
  cases hr : s.realMode with
  | true => rfl
  | false =>
    have hp : (s.protMode && decide (s.cpl.toNat ≤ s.iopl.toNat)) = true := by
      simpa [State.portsOpen, hr] using h
    simp only [hp, Bool.false_eq_true, if_false, if_true]
    rfl

/-- The permission bit is looked up in the I/O map of the task-state segment. -/
theorem run_ioPermitted_closed (h : s.portsOpen = false) : (ioPermitted p).run s = (do
    require (s.tr.type32 && decide (103 ≤ s.tr.limit.toNat)) .gp 0
    let mapBase ← sysRead (s.tr.base + 0x66) .w16
    require (decide (mapBase.toNat + p.toNat / 8 + 1 ≤ s.tr.limit.toNat)) .gp 0
    let w ← sysRead (s.tr.base + BitVec.ofNat 32 (mapBase.toNat + p.toNat / 8)) .w16
    require (!w.getLsbD (p.toNat % 8)) .gp 0 : Op Unit).run s := by
  obtain ⟨hr, hp⟩ := Bool.or_eq_false_iff.1 h
  unfold ioPermitted
  rw [run_bind_ok (run_get s)]
  simp only [hr, hp, Bool.false_eq_true, if_false]

end

theorem ioPermitted_effect {p : Half} {s u : State} (h : (ioPermitted p).run s = .ok () u) : Effect s u [] := by
  cases hopen : s.portsOpen with
  | true =>
    rw [run_ioPermitted_open hopen] at h
    cases h
    exact Effect.refl s
  | false =>
    rw [run_ioPermitted_closed hopen] at h
    obtain ⟨base, v, hbase, h⟩ := run_bind_inv (run_require_then_inv h)
    obtain ⟨bits, w, hbits, h⟩ := run_bind_inv (run_require_then_inv h)
    obtain ⟨-, rfl⟩ := run_require_inv h
    exact (sysRead_ok hbase).trans (sysRead_ok hbits)

/-! ### IN and OUT (R232 to R235) -/

theorem run_requirePort (p : Half) (s : State) : (requirePort p).run s =
    if ioRegistered s.ioMap p then .ok () s else .error (.refuse (.unregisteredPort p)) s := by
  unfold requirePort
  rw [run_bind_ok (run_get s)]
  split <;> rfl

section
variable {p : Half} {s u : State} (permitted : (ioPermitted p).run s = .ok () u)
include permitted

theorem run_inPort (device : ioRegistered u.ioMap p = true) : (inPort p).run s =
    .ok () ((({ u with draws := u.draws + 1 }.deviceCall (.readIo p)).setReg .w8 .eax
      ((Config.portByte u.draws p).setWidth 32)).advance) := by
  have port : (requirePort p).run u = .ok () u := by rw [run_requirePort, if_pos device]
  have read : (ioRead8 p).run u =
      .ok (Config.portByte u.draws p) ({ u with draws := u.draws + 1 }.deviceCall (.readIo p)) := run_bind_ok port
  exact (run_bind_ok permitted).trans (run_bind_ok read)

theorem run_outPort (device : ioRegistered u.ioMap p = true) : (outPort p).run s =
    .ok () (u.deviceCall (.writeIo p ((u.reg .w8 .eax).setWidth 8))).advance := by
  have port : (requirePort p).run u = .ok () u := by rw [run_requirePort, if_pos device]
  have write : (ioWrite8 p ((u.reg .w8 .eax).setWidth 8)).run u =
      .ok () (u.deviceCall (.writeIo p ((u.reg .w8 .eax).setWidth 8))) := run_bind_ok port
  exact (run_bind_ok permitted).trans ((run_bind_ok (run_readReg .w8 .eax u)).trans (run_bind_ok write))

theorem run_port_unregistered (noDevice : ioRegistered u.ioMap p = false) :
    (inPort p).run s = .error (.refuse (.unregisteredPort p)) u ∧
      (outPort p).run s = .error (.refuse (.unregisteredPort p)) u := by
  have port : (requirePort p).run u = .error (.refuse (.unregisteredPort p)) u := by
    rw [run_requirePort, noDevice]
    rfl
  exact ⟨(run_bind_ok permitted).trans (run_bind_error (run_bind_error port)),
    (run_bind_ok permitted).trans ((run_bind_ok (run_readReg .w8 .eax u)).trans (run_bind_error (run_bind_error port)))⟩

end

/-- The forms with the port in DX are the port's own access. -/
theorem exec_dx {p : Half} {s : State} (h : p = (s.reg .w16 .edx).setWidth 16) :
    exec .inDx s = run (inPort p) s ∧ exec .outDx s = run (outPort p) s := by
  subst h
  exact ⟨rfl, rfl⟩

theorem exec_imm {p : Half} {ib : Byte} (h : p = ib.setWidth 16) (s : State) :
    exec (.inImm ib) s = run (inPort p) s ∧ exec (.outImm ib) s = run (outPort p) s := by
  subst h
  exact ⟨rfl, rfl⟩

theorem advance_setReg {s t : State} (regs : t.regs = s.regs) (next : t.nextEip = s.nextEip) (w : Width) (r : Reg)
    (v : Word) : (t.setReg w r v).advance = { t with regs := s.regs.setView w r v, eip := s.nextEip } := by
  rw [← regs, ← next]
  rfl

theorem portAccess : Claim.PortAccess := by
  intro s u ib p inv permitted registered drawn read written
  have effect := ioPermitted_effect permitted
  obtain ⟨regs, -, -, next, -, -, -, -, -, -, -, -, -, -, -, -, ioMap, -⟩ := effect.only.fields
  have device : ioRegistered u.ioMap p = true := by rw [ioMap, registered]
  have reads : run (inPort p) s = read := by
    have acted := drawn.deviceCall_acted (.readIo p)
    have regs' : (drawn.deviceCall (.readIo p)).regs = s.regs := by rw [acted]; exact regs
    have next' : (drawn.deviceCall (.readIo p)).nextEip = s.nextEip := by rw [acted]; exact next
    rw [run_of_ok (run_inPort permitted device), advance_setReg regs' next']
  have writes : run (outPort p) s = written := by
    have acted := u.deviceCall_acted (.writeIo p ((u.reg .w8 .eax).setWidth 8))
    have next' : (u.deviceCall (.writeIo p ((u.reg .w8 .eax).setWidth 8))).nextEip = s.nextEip := by
      rw [acted]; exact next
    have value : u.reg .w8 .eax = s.reg .w8 .eax := congrArg (·.view .w8 .eax) regs
    rw [run_of_ok (run_outPort permitted device), advance_of_nextEip next', value]
  refine ⟨effect.accessed inv, fun h => ?_, fun h => ?_⟩
  · rw [(exec_imm h s).1, (exec_imm h s).2]
    exact ⟨reads, writes⟩
  · rw [(exec_dx h).1, (exec_dx h).2]
    exact ⟨reads, writes⟩

theorem portPermission : Claim.PortPermission := by
  intro s p open_ gp
  refine ⟨run_ioPermitted_open, fun closed bad => ?_, fun closed t32 long base u hbase => ?_,
    fun u inv permitted none => ?_, fun f u fault => ?_⟩
  · rw [run_ioPermitted_closed closed]
    refine run_require_fail ?_
    rcases bad with h | h <;> simp [h]
  · have entry : (s.tr.type32 && decide (103 ≤ s.tr.limit.toNat)) = true := by simp [t32, long]
    have reads := (run_ioPermitted_closed (p := p) closed).trans ((run_require_pass entry).trans (run_bind_ok hbase))
    intro o
    refine ⟨fun short => ?_, fun enough bits t hbits => ?_⟩
    · rw [reads]
      exact run_require_fail (decide_eq_false (Nat.not_le_of_lt short))
    · rw [reads, run_require_pass (decide_eq_true enough), run_bind_ok hbits, run_require]
      cases bits.getLsbD (p.toNat % 8) <;> rfl
  · have effect := ioPermitted_effect permitted
    obtain ⟨-, -, -, -, -, -, -, -, -, -, -, -, -, -, -, -, ioMap, -⟩ := effect.only.fields
    obtain ⟨hin, hout⟩ := run_port_unregistered permitted (by rw [ioMap, none])
    refine ⟨fun ib h => ?_, fun h => ?_⟩
    · rw [(exec_imm h s).1, (exec_imm h s).2]
      exact ⟨run_of_refuse hin, run_of_refuse hout⟩
    · rw [(exec_dx h).1, (exec_dx h).2]
      exact ⟨run_of_refuse hin, run_of_refuse hout⟩
  · refine ⟨fun ib h => ⟨(exec_imm h s).1.trans ?_, (exec_imm h s).2.trans ?_⟩,
      fun h => ⟨(exec_dx h).1.trans ?_, (exec_dx h).2.trans ?_⟩⟩ <;>
      exact run_of_fault (run_bind_error fault)

/-- Settles O24. -/
theorem portsComplete : Obligations.PortsComplete := ⟨portAccess, deviceCallLeaves, portPermission⟩

end Sys2Proof.Machine

namespace Sys2Proof.Machine

/-! ### What an element leaves for the repetition (R340, R341) -/

/-- The count registers and the latches of EIP are as they were. -/
structure SameCount (s t : State) : Prop where
  count    : ∀ z : Size, t.reg z.width .ecx = s.reg z.width .ecx
  nextEip  : t.nextEip = s.nextEip
  startEip : t.startEip = s.startEip

theorem sameCount_preorder : Preorder SameCount where
  refl _ := ⟨fun _ => rfl, rfl, rfl⟩
  trans _ _ _ h1 h2 :=
    ⟨fun z => (h2.count z).trans (h1.count z), h2.nextEip.trans h1.nextEip, h2.startEip.trans h1.startEip⟩

theorem OnlyMemory.sameCount {s t : State} (h : OnlyMemory s t) : SameCount s t := by
  obtain ⟨regs, -, -, next, -, -, -, -, -, -, -, -, -, -, -, -, -, start, -⟩ := h.fields
  exact ⟨fun z => congrArg (·.view z.width .ecx) regs, next, start⟩

theorem view_ecx_setView {w : Width} {r : Reg} (h : .ecx ≠ Reg.home w r) (x : Regs) (z : Size) (v : Word) :
    (x.setView w r v).view z.width .ecx = x.view z.width .ecx := by
  have hget := Regs.get_setView_other x w r .ecx v h
  cases z with
  | s16 => exact congrArg (· &&& 0xFFFF) hget
  | s32 => exact hget

theorem setReg_sameCount {w : Width} {r : Reg} (h : .ecx ≠ Reg.home w r) (s : State) (v : Word) :
    SameCount s (s.setReg w r v) := ⟨fun z => view_ecx_setView h s.regs z v, rfl, rfl⟩

theorem moveIndex_sameCount {asz : Size} {w : Width} {r : Reg} (h : .ecx ≠ r) : Op.Rel SameCount (moveIndex asz w r) :=
  Op.rel_modify fun s => setReg_sameCount (by cases asz <;> exact h) s _

theorem sourceElement_sameCount (asz : Size) (w : Width) (sg : Seg) : Op.Rel SameCount (sourceElement asz w sg) :=
  Op.rel_bind sameCount_preorder (Op.rel_get sameCount_preorder) fun _ =>
    Op.rel_mono (segRead_access _ _ _) fun _ _ h => h.only.sameCount

theorem destElement_sameCount (asz : Size) (w : Width) : Op.Rel SameCount (destElement asz w) :=
  Op.rel_bind sameCount_preorder (Op.rel_get sameCount_preorder) fun _ =>
    Op.rel_mono (segRead_access _ _ _) fun _ _ h => h.only.sameCount

theorem storeElement_sameCount (asz : Size) (w : Width) (v : Word) : Op.Rel SameCount (storeElement asz w v) :=
  Op.rel_bind sameCount_preorder (Op.rel_get sameCount_preorder) fun _ =>
    Op.rel_mono (segWrite_rel _ _ _ _) fun _ _ h => h.only.sameCount

theorem putStatusOp_sameCount (t : Status) : Op.Rel SameCount (putStatusOp t) :=
  Op.rel_modify fun _ => ⟨fun _ => rfl, rfl, rfl⟩

/-- No element of a string instruction touches the count register (R341). -/
theorem repeated_sameCount {i : Instr} {rep : Rep} {zf : Bool} {asz : Size} {body : Op Unit}
    (h : repeated i = some (rep, zf, asz, body)) : Op.Rel SameCount body := by
  have pre := sameCount_preorder
  have movs (w : Width) (a : Size) (sg : Seg) : Op.Rel SameCount (movsBody w a sg) :=
    Op.rel_bind pre (sourceElement_sameCount a w sg) fun v => Op.rel_bind pre (storeElement_sameCount a w v) fun _ =>
      Op.rel_bind pre (moveIndex_sameCount (by decide)) fun _ => moveIndex_sameCount (by decide)
  have cmps (w : Width) (a : Size) (sg : Seg) : Op.Rel SameCount (cmpsBody w a sg) :=
    Op.rel_bind pre (sourceElement_sameCount a w sg) fun _ => Op.rel_bind pre (destElement_sameCount a w) fun _ =>
      Op.rel_bind pre (putStatusOp_sameCount _) fun _ =>
        Op.rel_bind pre (moveIndex_sameCount (by decide)) fun _ => moveIndex_sameCount (by decide)
  have stos (w : Width) (a : Size) : Op.Rel SameCount (stosBody w a) :=
    Op.rel_bind pre (fun s => pre.refl s) fun v => Op.rel_bind pre (storeElement_sameCount a w v) fun _ =>
      moveIndex_sameCount (by decide)
  have lods (w : Width) (a : Size) (sg : Seg) : Op.Rel SameCount (lodsBody w a sg) :=
    Op.rel_bind pre (sourceElement_sameCount a w sg) fun v =>
      Op.rel_bind pre (Op.rel_modify fun s => setReg_sameCount (by cases w <;> decide) s v) fun _ =>
        moveIndex_sameCount (by decide)
  have scas (w : Width) (a : Size) : Op.Rel SameCount (scasBody w a) :=
    Op.rel_bind pre (destElement_sameCount a w) fun _ => Op.rel_bind pre (Op.rel_get pre) fun _ =>
      Op.rel_bind pre (putStatusOp_sameCount _) fun _ => moveIndex_sameCount (by decide)
  cases i <;> cases h
  case movsb | movsw => exact movs _ _ _
  case cmpsb | cmpsw => exact cmps _ _ _
  case stosb | stosw => exact stos _ _
  case lodsb | lodsw => exact lods _ _ _
  case scasb | scasw => exact scas _ _

/-! ### One iteration (R341) -/

theorem exec_of_repeated {i : Instr} {rep : Rep} {zf : Bool} {asz : Size} {body : Op Unit}
    (h : repeated i = some (rep, zf, asz, body)) (s : State) : exec i s = stringRun rep zf asz body s := by
  cases i <;> cases h <;> rfl

theorem stringRun_of_repeat {rep : Rep} (h : rep ≠ .none) (zf : Bool) (asz : Size) (body : Op Unit) (s : State) :
    stringRun rep zf asz body s = repLoop rep zf asz body (s.reg asz.width .ecx).toNat s := by
  cases rep with
  | none => exact absurd rfl h
  | repe => rfl
  | repne => rfl

/-- The state after an iteration: the count is down by one (R341). -/
def State.counted (u s : State) (asz : Size) : State :=
  { u with regs := u.regs.setView asz.width .ecx (s.reg asz.width .ecx - 1), inBlock := s.inBlock && u.inBlock }

theorem decCount_stillIn {s u : State} (asz : Size) (h : u.reg asz.width .ecx = s.reg asz.width .ecx) :
    (u.decCount asz).stillIn s = u.counted s asz := by
  have hregs : (u.decCount asz).regs = u.regs.setView asz.width .ecx (s.reg asz.width .ecx - 1) := by
    show u.regs.setView asz.width .ecx (trunc asz.width (u.reg asz.width .ecx - 1)) = _
    rw [Regs.setView_trunc, h]
  unfold State.stillIn State.counted
  rw [hregs]
  rfl

/-- The repetition ends after an element: the count is used up, or ZF says so (R341). -/
def repDone (rep : Rep) (zf : Bool) (s u : State) (asz : Size) : Prop :=
  s.reg asz.width .ecx = 1 ∨
    (zf = true ∧ (rep = .repe ∧ u.flag .zf = false ∨ rep = .repne ∧ u.flag .zf = true))

theorem repDone_iff {rep : Rep} {zf : Bool} {s u : State} {asz : Size} :
    repDone rep zf s u asz ↔
      repStops rep zf (u.counted s asz) = true ∨ (u.counted s asz).idx asz .ecx = 0 := by
  have hcount : (u.counted s asz).idx asz .ecx = trunc asz.width (s.reg asz.width .ecx - 1) :=
    Regs.view_setView _ _ _ _
  have hflag : (u.counted s asz).flag .zf = u.flag .zf := rfl
  rw [hcount, trunc_pred_eq_zero (c := s.reg asz.width .ecx) (fits_view s.regs asz.width .ecx), or_comm]
  unfold repDone repStops
  rw [hflag]
  cases rep <;> simp

section
variable {rep : Rep} {zf : Bool} {asz : Size} {body : Op Unit} {n : Nat} {s u : State}
  (element : body.run { s with inBlock := true } = .ok () u) (count : u.reg asz.width .ecx = s.reg asz.width .ecx)
include element count

theorem repLoop_element : repLoop rep zf asz body (n + 1) s =
    if repStops rep zf (u.counted s asz) then .next (u.counted s asz).advance
    else if (u.counted s asz).idx asz .ecx = 0 then .next (u.counted s asz).advance
    else if (u.counted s asz).interruptDue then .next (u.counted s asz).resumeHere
    else if !u.inBlock then .next (u.counted s asz).resumeHere
    else repLoop rep zf asz body n (u.counted s asz) := by
  rw [repLoop, element]
  simp only [decCount_stillIn asz count]

theorem repLoop_done (done : repDone rep zf s u asz) :
    repLoop rep zf asz body (n + 1) s = .next (u.counted s asz).advance := by
  rw [repLoop_element element count]
  rcases repDone_iff.1 done with h | h
  · rw [if_pos h]
  · rw [if_pos h, ite_self]

variable (more : ¬ repDone rep zf s u asz)
include more

theorem repLoop_left (h : (u.counted s asz).interruptDue = true ∨ u.inBlock = false) :
    repLoop rep zf asz body (n + 1) s = .next (u.counted s asz).resumeHere := by
  obtain ⟨h1, h2⟩ := not_or.1 (mt repDone_iff.2 more)
  rw [repLoop_element element count, if_neg h1, if_neg h2]
  rcases h with h | h
  · rw [if_pos h]
  · rw [h, Bool.not_false, if_pos rfl, ite_self]

theorem repLoop_on (due : (u.counted s asz).interruptDue = false) (block : u.inBlock = true) :
    repLoop rep zf asz body (n + 1) s = repLoop rep zf asz body n (u.counted s asz) := by
  obtain ⟨h1, h2⟩ := not_or.1 (mt repDone_iff.2 more)
  rw [repLoop_element element count, if_neg h1, if_neg h2, due, block]
  rfl

end

theorem trunc_pred_toNat {z : Size} {c : Word} (h : z.width.fits c = true) (h0 : c ≠ 0) :
    (trunc z.width (c - 1)).toNat = c.toNat - 1 := by
  have hlt := toNat_lt_of_fits h
  have hpos : c.toNat ≠ 0 := fun e => h0 (BitVec.eq_of_toNat_eq e)
  have hsub : (c - 1).toNat = c.toNat - 1 := by bv_omega
  rw [toNat_trunc, hsub, Nat.mod_eq_of_lt (by omega)]

/-- Settles O26: the count decides whether there is an element, and after one the count, ZF, the requests and the
block's mark decide how the repetition goes on. -/
theorem repeatLaw : Obligations.RepeatLaw := by
  intro i rep zf asz body s inv hi hrep c
  have runs (t : State) : exec i t = repLoop rep zf asz body (t.reg asz.width .ecx).toNat t :=
    (exec_of_repeated hi t).trans (stringRun_of_repeat hrep zf asz body t)
  have succ (h : c ≠ 0) : (s.reg asz.width .ecx).toNat = (c.toNat - 1) + 1 := by
    have : c.toNat ≠ 0 := fun h0 => h (BitVec.eq_of_toNat_eq h0)
    show c.toNat = _
    omega
  refine ⟨fun h => ?_, ?_, fun f u h fault => ?_⟩
  · rw [runs, show (s.reg asz.width .ecx).toNat = 0 from congrArg BitVec.toNat h]
    rfl
  · intro u h element t done due hit
    have same := Op.rel_ofOk (repeated_sameCount hi) element
    have count : u.reg asz.width .ecx = s.reg asz.width .ecx := same.count asz
    have advances : t.advance = { t with eip := s.nextEip } := advance_of_nextEip same.nextEip
    have resumes : t.resumeHere = { t with eip := s.startEip, inBlock := false } := by
      rw [← show u.startEip = s.startEip from same.startEip]
      rfl
    rw [runs, succ h]
    refine ⟨fun hd => ?_, fun hd leave => ?_, fun hd hdue hhit => ?_⟩
    · exact (repLoop_done element count hd).trans (congrArg _ advances)
    · refine (repLoop_left element count hd (leave.imp_left (interruptDue_iff t).2)).trans (congrArg _ resumes)
    · have down : (t.reg asz.width .ecx).toNat = c.toNat - 1 :=
        (congrArg BitVec.toNat (Regs.view_setView _ _ _ _)).trans (trunc_pred_toNat (fits_view _ _ _) h)
      rw [repLoop_on element count hd (Bool.eq_false_iff.2 (mt (interruptDue_iff t).1 hdue))
        (Bool.eq_true_of_not_eq_false hhit), runs t, down]
      rfl
  · rw [FaultsWith, runs, succ h, repLoop, fault]
    rfl

end Sys2Proof.Machine


namespace Sys2Proof.Machine

/-! ### Far JMP and CALL to code (R380 to R384) -/

/-- The values a far CALL pushes. -/
def State.farBack (s : State) : List Word := [s.segs.cs.selector.setWidth 32, s.nextEip]

theorem OnlyMemory.farBack {s t : State} (h : OnlyMemory s t) : t.farBack = s.farBack := by
  unfold OnlyMemory at h
  rw [h]
  rfl

theorem run_pushFarReturn_jmp (z : Size) (s : State) : (pushFarReturn z .jmp).run s = .ok () s := rfl

theorem run_pushFarReturn_call (z : Size) (s : State) :
    (pushFarReturn z .call).run s = (pushAll z s.farBack).run s := by
  have last : pushAll z [s.nextEip] = push z s.nextEip := bind_pure (push z s.nextEip)
  refine (run_bind_ok (run_get s)).trans ?_
  rw [State.farBack, pushAll, last]
  rfl

/-- What a far transfer to code does once its checks have passed: the pushes of a CALL, CS, EIP. -/
def farGoes (z : Size) (k : FarKind) (load : Op Unit) (off : Word) : Op Unit := do
  pushFarReturn z k
  load
  jumpTo (target z off)

/-- A far transfer to code completes, or takes the fault of a push, where loading CS gives `cs` in every state that
differs in memory and the stack pointer. -/
theorem farGoes_completes {k : FarKind} {i : Instr} {z : Size} {load : Op Unit} {off : Word} {s u : State} {cs : SegReg}
    (he : exec i s = settle s ((do farGoes z k load off; endBlock : Op Unit).run u)) (inv : u.Inv)
    (loads : ∀ n t, OnlyMemory (u.moveSp n) t → load.run t = .ok () (t.setSeg .cs cs)) :
    (k = .jmp → exec i s = .next (u.goesTo cs (trunc z.width off))) ∧
    (k = .call → FaultsWhere i s u (pushAll z u.farBack)) ∧
    (∀ t, k = .call → (pushAll z u.farBack).run u = .ok () t →
      exec i s = .next (t.goesTo cs (trunc z.width off)) ∧ Pushed u t z u.farBack) := by
  have goes : ∀ t, (pushFarReturn z k).run u = .ok () t → load.run t = .ok () (t.setSeg .cs cs) →
      exec i s = .next (t.goesTo cs (trunc z.width off)) := by
    intro t pushed loaded
    have gone : (farGoes z k load off).run u = .ok () _ :=
      (run_bind_ok pushed).trans ((run_bind_ok loaded).trans (run_jumpTo _ _))
    exact he.trans (congrArg (settle s) (run_bind_ok gone))
  refine ⟨?_, ?_, ?_⟩
  · rintro rfl
    have same : OnlyMemory (u.moveSp 0) u := u.moveSp_zero.symm ▸ onlyMemory_preorder.refl u
    exact goes u (run_pushFarReturn_jmp z u) (loads 0 u same)
  · rintro rfl f t faulted
    have pushes := (run_pushFarReturn_call z u).trans faulted
    exact he.trans (congrArg (settle s) (run_bind_error (run_bind_error pushes)))
  · rintro t rfl pushed
    obtain ⟨moved, -⟩ := pushAll_ok pushed (by simp [State.farBack])
    exact ⟨goes t ((run_pushFarReturn_call z u).trans pushed) (loads _ t moved.only),
      pushAll_pushed inv (by simp [State.farBack]) pushed⟩

theorem flatFarTransfersComplete : Claim.FlatFarTransfersComplete := by
  intro k i z sel off s r inv flat ht back
  have e := farTarget_effect ht
  have he : exec i s = settle s ((do farGoes z k (loadCsFlat sel) off; endBlock : Op Unit).run r) := by
    refine (exec_farTarget ht).trans (congrArg (settle s) ((run_bind_ok (run_get r)).trans ?_))
    rw [e.only.protMode, flat]
    rfl
  have loads : ∀ n t, OnlyMemory (r.moveSp n) t → (loadCsFlat sel).run t = .ok () (t.setSeg .cs (s.flatCs sel)) := by
    intro n t only
    have cs : t.flatCs sel = s.flatCs sel := (only.flatCs sel).trans (e.only.flatCs sel)
    rw [run_loadCsFlat, cs]
  have done := farGoes_completes he (e.inv inv) loads
  rw [e.only.farBack] at done
  exact ⟨e.accessed inv, done⟩

theorem run_farCode_pass {z : Size} {k : FarKind} {sel : Half} {off : Word} {d : Desc} {s : State}
    (level : takesFar d sel s.cpl = true) (present : d.p = true) (inside : off.toNat ≤ d.limit.toNat) :
    (farCode z k sel off d).run s = (farGoes z k (loadCS sel d s.cpl) off).run s :=
  (run_bind_ok (run_get s)).trans ((run_require_pass level).trans ((run_require_pass present).trans
    (run_require_pass (decide_eq_true inside))))

theorem farCodeTransfersComplete : Claim.FarCodeTransfersComplete := by
  intro k i z sel off s r u d a inv prot ht named found isCode present inside level back cs
  have e := (farTarget_effect ht).trans (fetchDescriptor_ok found)
  have cpl : u.cpl = s.cpl := e.only.cpl
  have he : exec i s = settle s ((do farGoes z k (loadCS sel d s.cpl) off; endBlock : Op Unit).run u) := by
    have passed := run_farCode_pass (z := z) (k := k) (cpl.symm ▸ (takesFar_iff d sel s.cpl).2 level) present inside
    rw [cpl] at passed
    have reached := run_farProt_found (z := z) (k := k) (off := off) named found
    rw [if_pos isCode] at reached
    exact (exec_farTarget_prot ht prot).trans (congrArg (settle s) (run_bind_congr (reached.trans passed)))
  have done := farGoes_completes he (e.inv inv) fun n t only => run_loadCS_same (only.cpl.trans cpl)
  rw [e.only.farBack] at done
  exact ⟨e.accessed inv, done⟩

theorem farPointerFaults : Claim.FarPointerFaults := by
  intro z m s i hi
  have he : ∃ k, exec i s = run (do
      let (sel, off) ← readFarPtr z m
      farTransfer z k sel off) s := by
    simp only [List.mem_cons, List.not_mem_nil, or_false] at hi
    obtain rfl | rfl := hi
    · exact ⟨.jmp, rfl⟩
    · exact ⟨.call, rfl⟩
  obtain ⟨k, he⟩ := he
  refine ⟨faultsWhere_of he fun f t h => ?_, fun off v offset => faultsWhere_of he fun f t h => ?_⟩
  · exact run_bind_error ((run_bind_ok (run_get s)).trans (run_bind_error h))
  · exact run_bind_error ((run_bind_ok (run_get s)).trans ((run_bind_ok offset).trans (run_bind_error h)))

/-- Settles O29: past its pointer and its checks a transfer pushes, loads CS and jumps, and none of the accesses before
changes what the next step reads of the state. -/
theorem farTransfersComplete : Obligations.FarTransfersComplete :=
  ⟨flatFarTransfersComplete, farCodeTransfersComplete, farPointerFaults⟩

end Sys2Proof.Machine


namespace Sys2Proof.Machine

/-! ### The flags IRET loads (R396, R397) -/

theorem iretMaskReal_eq (z : Size) (v86 : Bool) : iretMaskReal z v86 = popfMask z true (!v86) := by
  cases z <;> cases v86 <;> decide

theorem iretMask_eq (z : Size) (cpl io : BitVec 2) :
    iretMask z cpl io = popfMask z (decide (cpl.toNat ≤ io.toNat)) (decide (cpl = 0)) := by
  simp only [iretMask, popfMask, decide_eq_true_eq]

/-- A flag after a load under a mask of POPF and IRET. -/
theorem getFlag_setFlags_popfMask (f v : Word) (z : Size) (ifOk ioplOk : Bool) (q : Flag) :
    getFlag (setFlags f v (popfMask z ifOk ioplOk)) q =
      if q = .vm ∨ (q = .if_ ∧ ifOk = false) ∨ (z = .s16 ∧ (q = .rf ∨ q = .ac)) then getFlag f q
      else v.getLsbD q.bit := by
  unfold getFlag
  rw [setFlags_bit _ _ _ _ q.bit_lt, popfMask_bit, q.capMask_bit, Bool.and_true]
  by_cases kept : q = .vm ∨ (q = .if_ ∧ ifOk = false) ∨ (z = .s16 ∧ (q = .rf ∨ q = .ac))
  · rw [if_pos kept, decide_eq_true kept]
    rfl
  · rw [if_neg kept, decide_eq_false kept]
    rfl

theorem iopl_setFlags_popfMask (f v : Word) (z : Size) (ifOk ioplOk : Bool) :
    iopl (setFlags f v (popfMask z ifOk ioplOk)) = if ioplOk then v.extractLsb' 12 2 else iopl f := by
  apply BitVec.eq_of_getLsbD_eq
  intro k hk
  have cap : ∀ k, k < 2 → Config.capMask.getLsbD (12 + k) = true := by decide
  unfold iopl
  simp only [BitVec.getLsbD_extractLsb', hk, decide_true, Bool.true_and]
  rw [setFlags_bit _ _ _ _ (by omega), popfMask_iopl _ _ _ _ hk, cap k hk, Bool.and_true]
  cases ioplOk <;> simp [hk]

/-- The flags after IRET in real and virtual-8086 mode. -/
theorem iretFlags_flat (z : Size) (v86 : Bool) (f v : Word) :
    (∀ q : Flag, getFlag (setFlags f v (iretMaskReal z v86)) q =
      if q = .vm ∨ (z = .s16 ∧ (q = .rf ∨ q = .ac)) then getFlag f q else v.getLsbD q.bit) ∧
    iopl (setFlags f v (iretMaskReal z v86)) = if v86 then iopl f else v.extractLsb' 12 2 := by
  rw [iretMaskReal_eq, iopl_setFlags_popfMask]
  refine ⟨fun q => ?_, by cases v86 <;> rfl⟩
  rw [getFlag_setFlags_popfMask]
  simp only [Bool.true_eq_false, and_false, false_or]

/-- The flags after IRET in protected mode. -/
theorem iretFlags_prot (z : Size) (cpl io : BitVec 2) (f v : Word) :
    (∀ q : Flag, getFlag (setFlags f v (iretMask z cpl io)) q =
      if q = .vm ∨ (z = .s16 ∧ (q = .rf ∨ q = .ac)) ∨ (q = .if_ ∧ io.toNat < cpl.toNat) then getFlag f q
      else v.getLsbD q.bit) ∧
    iopl (setFlags f v (iretMask z cpl io)) = if cpl = 0 then v.extractLsb' 12 2 else iopl f := by
  rw [iretMask_eq, iopl_setFlags_popfMask]
  refine ⟨fun q => ?_, by simp only [decide_eq_true_eq]⟩
  rw [getFlag_setFlags_popfMask]
  have raised : decide (cpl.toNat ≤ io.toNat) = false ↔ io.toNat < cpl.toNat := decide_eq_false_iff_not.trans Nat.not_le
  exact if_congr (or_congr_right (or_comm.trans (or_congr_right (and_congr_right fun _ => raised)))) rfl rfl

/-! ### The pops of IRET -/

/-- Pop the frame of an interrupt, EIP, CS and EFLAGS, and go on with it. -/
def popFrame (z : Size) (f : Word → Half → Word → Op Unit) : Op Unit := do
  let vs ← popAll z 3
  f (vs.getD 0 0) ((vs.getD 1 0).setWidth 16) (vs.getD 2 0)

theorem popFrame_eq (z : Size) (f : Word → Half → Word → Op Unit) :
    popFrame z f = (do
      let eip ← pop z
      let cs ← popSel z
      let fl ← pop z
      f eip cs fl) := by
  simp only [popFrame, popSel, popAll, bind_assoc, pure_bind]
  rfl

theorem run_popFrame {z : Size} {f : Word → Half → Word → Op Unit} {s u : State} {ip cs fl : Word}
    (h : (popAll z 3).run s = .ok [ip, cs, fl] u) : (popFrame z f).run s = (f ip (cs.setWidth 16) fl).run u :=
  run_bind_ok h

/-- Pops are pops of a first part and of the rest. -/
theorem popAll_add (z : Size) (n m : Nat) : popAll z (n + m) = (do
    let vs ← popAll z n
    let ws ← popAll z m
    pure (vs ++ ws)) := by
  induction n with
  | zero => simp [popAll]
  | succ n ih =>
    rw [Nat.add_right_comm, popAll, ih]
    simp [popAll, bind_assoc]

theorem popAll_add_inv {z : Size} {n m : Nat} {vs ws : List Word} {s u : State} (length : vs.length = n)
    (h : (popAll z (n + m)).run s = .ok (vs ++ ws) u) :
    ∃ t, (popAll z n).run s = .ok vs t ∧ (popAll z m).run t = .ok ws u := by
  rw [popAll_add] at h
  obtain ⟨xs, t, first, h⟩ := run_bind_inv h
  obtain ⟨ys, v, second, h⟩ := run_bind_inv h
  injection h with values state
  obtain ⟨rfl, rfl⟩ := List.append_inj values ((popAll_ok first).1.trans length.symm)
  exact ⟨t, first, state ▸ second⟩

/-! ### The forms of IRET, up to the pops -/

/-- IRET in real and virtual-8086 mode, after its pops. -/
def iretFlatTo (z : Size) (v86 : Bool) (eip : Word) (cs : Half) (fl : Word) : Op Unit := do
  loadCsFlat cs
  jumpTo eip
  modify (·.loadFlags fl (iretMaskReal z v86))

/-- IRET in protected mode, after its pops. -/
def iretProtTo (z : Size) (cpl : BitVec 2) (eip : Word) (cs : Half) (fl : Word) : Op Unit :=
  if z = .s32 && fl.getLsbD 17 && cpl = 0 then iretV86 eip cs fl else iretProtCs z eip cs fl

/-- IRET comes down to an operation in a state and the end of the block. -/
def IretIs (z : Size) (s u : State) (op : Op Unit) : Prop :=
  exec (.iret z) s = settle s ((do op; endBlock : Op Unit).run u)

section
variable {z : Size} {s t u v : State} {op op' : Op Unit}

theorem IretIs.to (h : IretIs z s u op) (e : op.run u = op'.run v) : IretIs z s v op' :=
  Eq.trans h (congrArg (settle s) (run_bind_congr e))

theorem IretIs.next (h : IretIs z s u op) (e : op.run u = .ok () t) :
    exec (.iret z) s = .next { t with inBlock := false } := (settles_endBlock h).1 t e

theorem IretIs.raises {k : FaultKind} {c : Word} (h : IretIs z s u op)
    (e : op.run u = .error (.fault { kind := k, code := some c, addr := none } false) v) :
    RaisesFault (.iret z) s v k (some c) := (settles_endBlock h).2.1 _ v e

theorem IretIs.faults {α : Type} {access : Op α} (h : IretIs z s u op)
    (e : ∀ f t, access.run v = .error (.fault f false) t → op.run u = .error (.fault f false) t) :
    FaultsWhere (.iret z) s v access := fun f t ht => (settles_endBlock h).2.1 f t (e f t ht)

theorem iretIs_flat (flat : s.protMode = false) (allowed : s.v86Mode = false ∨ s.iopl = 3) :
    IretIs z s s (popFrame z (iretFlatTo z s.v86Mode)) := by
  have he : (interruptReturn z).run s = (do iretFlat z; endBlock : Op Unit).run s := by
    refine (run_bind_ok (run_get s)).trans ?_
    rw [flat]
    rfl
  have low : (!s.v86IoplLow) = true := by rw [v86IoplLow_eq_false allowed]; rfl
  refine IretIs.to (op := iretFlat z) (congrArg (settle s) he) ?_
  rw [popFrame_eq]
  exact (run_bind_ok (run_get s)).trans (run_require_pass low)

theorem iretIs_protMode (prot : s.protMode = true) : IretIs z s s (iretProt z) := by
  refine congrArg (settle s) ((run_bind_ok (run_get s)).trans ?_)
  rw [prot]
  rfl

theorem iretIs_task (prot : s.protMode = true) (nested : s.flag .nt = true) : IretIs z s s iretTask := by
  refine (iretIs_protMode prot).to ((run_bind_ok (run_get s)).trans ?_)
  rw [nested]
  rfl

theorem iretIs_prot (prot : s.protMode = true) (single : s.flag .nt = false) :
    IretIs z s s (popFrame z (iretProtTo z s.cpl)) := by
  refine (iretIs_protMode prot).to ((run_bind_ok (run_get s)).trans ?_)
  rw [single, popFrame_eq]
  rfl

/-- What the accesses of IRET leave, the stack pointer included. -/
theorem popAll_only {n : Nat} {vs : List Word} (h : (popAll z n).run s = .ok vs u) :
    OnlyMemory (s.moveSp (BitVec.ofNat 32 (n * z.width.bytes))) u := (popAll_ok h).2.1.only

theorem popAll_popped {n : Nat} {vs : List Word} (inv : s.Inv) (h : (popAll z n).run s = .ok vs u)
    (few : n ≤ 16 := by decide) : Popped s u z vs := ((stackSequences z vs s u inv).2 n few h).2

theorem popAll_inv {n : Nat} {vs : List Word} (inv : s.Inv) (h : (popAll z n).run s = .ok vs u) : u.Inv :=
  (popAll_ok h).2.1.inv (inv.withRegs _)

end

theorem iretFlatComplete : Claim.IretFlatComplete := by
  intro z s u ip cs fl inv flat allowed popped
  have only := popAll_only popped
  have sameCs : u.flatCs (cs.setWidth 16) = s.flatCs (cs.setWidth 16) := only.flatCs _
  have sameFlags : u.flags = s.flags := only.fields.2.1
  have loaded : (iretFlatTo z s.v86Mode ip (cs.setWidth 16) fl).run u =
      .ok () (((u.setSeg .cs (u.flatCs (cs.setWidth 16))).setEip ip).loadFlags fl (iretMaskReal z s.v86Mode)) :=
    run_bind_ok (run_loadCsFlat _ u)
  rw [sameCs] at loaded
  refine ⟨setFlags s.flags fl (iretMaskReal z s.v86Mode), ?_, popAll_popped inv popped, iretFlags_flat _ _ _ _⟩
  rw [← sameFlags]
  exact ((iretIs_flat flat allowed).to (run_popFrame popped)).next loaded

/-! ### IRET to a code segment in protected mode (R397) -/

/-- The checks of the code segment that raise one fault: its class, the level, its own level. -/
def iretFits (d : Desc) (sel : Half) (cpl : BitVec 2) : Bool :=
  d.isCode && decide (cpl.toNat ≤ (rpl sel).toNat) && d.codeFits (rpl sel)

theorem iretFits_iff (d : Desc) (sel : Half) (cpl : BitVec 2) : iretFits d sel cpl = true ↔
    d.isCode = true ∧ cpl.toNat ≤ (rpl sel).toNat ∧
      (if d.conforming then d.dpl.toNat ≤ (rpl sel).toNat else d.dpl = rpl sel) := by
  unfold iretFits
  rw [Bool.and_eq_true, Bool.and_eq_true, decide_eq_true_eq, codeFits_iff, and_assoc]

/-- The return to the level there is. -/
def iretSame (z : Size) (eip : Word) (cs : Half) (fl : Word) (d : Desc) (cpl io : BitVec 2) : Op Unit := do
  loadCS cs d cpl
  jumpTo eip
  modify (·.loadFlags fl (iretMask z cpl io))

section
variable {z : Size} {s u v : State} {eip fl : Word} {cs : Half} {d : Desc} {a : Word}

theorem run_iretProtCs_null (null : nullSel cs = true) : (iretProtCs z eip cs fl).run u =
    .error (.fault { kind := .gp, code := some 0, addr := none } false) u :=
  (run_bind_ok (run_get u)).trans (run_require_fail (by rw [null]; rfl))

theorem run_iretProtCs_error {e : Stop} (named : nullSel cs = false)
    (h : (fetchDescOr cs .gp (selCode cs)).run u = .error e v) : (iretProtCs z eip cs fl).run u = .error e v :=
  (run_bind_ok (run_get u)).trans ((run_require_pass (by rw [named]; rfl)).trans (run_bind_error h))

/-- The checks of the code segment, in their order, and the two returns. -/
theorem run_iretProtCs_found (named : nullSel cs = false) (h : (fetchDescriptor cs).run u = .ok (some (d, a)) v) :
    (iretProtCs z eip cs fl).run u = (do
      require (iretFits d cs u.cpl) .gp (selCode cs)
      require d.p .np (selCode cs)
      if rpl cs = u.cpl then iretSame z eip cs fl d u.cpl u.iopl else iretOuter z eip cs fl d : Op Unit).run v := by
  refine (run_bind_ok (run_get u)).trans ((run_require_pass (by rw [named]; rfl)).trans
    ((run_bind_ok (run_fetchDescOr_found h)).trans ?_))
  rw [run_require_and, run_require_and]
  rfl

/-- The return to the level there is completes. -/
theorem run_iretSame {cpl io : BitVec 2} (h : v.cpl = cpl) : (iretSame z eip cs fl d cpl io).run v =
    .ok () { v with segs := { v.segs with cs := codeReg cs d cpl }, eip := eip,
                    flags := setFlags v.flags fl (iretMask z cpl io) } :=
  run_bind_ok (run_loadCS_same h)

end

/-! ### The return to an outer level (R397, R398) -/

section
variable {s u : State} {d : Desc} {a : Word} {sel : Half} {cpl : BitVec 2}

theorem run_loadSS_null (null : nullSel sel = true) : (loadSS sel cpl).run s =
    .error (.fault { kind := .gp, code := some 0, addr := none } false) s :=
  run_require_fail (by rw [null]; rfl)

theorem run_loadSS_error {e : Stop} (named : nullSel sel = false)
    (h : (fetchDescOr sel .gp (selCode sel)).run s = .error e u) : (loadSS sel cpl).run s = .error e u :=
  (run_require_pass (by rw [named]; rfl)).trans (run_bind_error h)

theorem run_loadSS_found (named : nullSel sel = false) (h : (fetchDescriptor sel).run s = .ok (some (d, a)) u) :
    (loadSS sel cpl).run s = (do
      require (loadFits .ss sel d cpl) .gp (selCode sel)
      require d.p .ss (selCode sel)
      copyDescriptor .ss sel d : Op Unit).run u :=
  (run_require_pass (by rw [named]; rfl)).trans ((run_bind_ok (run_fetchDescOr_found h)).trans
    (run_require_and _ _ _ _ _ _))

end

/-- What is left of an outer return once the stack segment is loaded. -/
def iretOuterRest (z : Size) (cpl io : BitVec 2) (eip : Word) (cs : Half) (fl nsp : Word) (d : Desc) : Op Unit := do
  loadCS cs d (rpl cs)
  jumpTo eip
  modify (·.loadFlags fl (iretMask z cpl io))
  modify (·.setSp nsp)
  validateOuter .es
  validateOuter .ds
  validateOuter .fs
  validateOuter .gs

/-- An outer return after the pops of the stack pointer and SS. -/
def iretOuterTo (z : Size) (cpl io : BitVec 2) (eip : Word) (cs : Half) (fl : Word) (d : Desc) (nsp : Word)
    (nss : Half) : Op Unit := do
  loadSS nss (rpl cs)
  iretOuterRest z cpl io eip cs fl nsp d

/-- Pop the outer stack pointer and SS and go on with them. -/
def popStack (z : Size) (f : Word → Half → Op Unit) : Op Unit := do
  let vs ← popAll z 2
  f (vs.getD 0 0) ((vs.getD 1 0).setWidth 16)

theorem run_popStack {z : Size} {f : Word → Half → Op Unit} {s u : State} {nsp ssv : Word}
    (h : (popAll z 2).run s = .ok [nsp, ssv] u) : (popStack z f).run s = (f nsp (ssv.setWidth 16)).run u :=
  run_bind_ok h

theorem run_iretOuter (z : Size) (eip : Word) (cs : Half) (fl : Word) (d : Desc) (v : State) :
    (iretOuter z eip cs fl d).run v = (popStack z (iretOuterTo z v.cpl v.iopl eip cs fl d)).run v := by
  refine (run_bind_ok (run_get v)).trans ?_
  simp only [popStack, iretOuterTo, popSel, popAll, bind_assoc, pure_bind]
  rfl

theorem run_iretOuterRest (z : Size) (cpl io : BitVec 2) (eip : Word) (cs : Half) (fl nsp : Word) (d : Desc)
    (x : State) : (iretOuterRest z cpl io eip cs fl nsp d).run x = .ok () { x with
      regs := x.regs.setView x.ssz.width .esp nsp
      segs := { es := x.segs.es.validateOuter (rpl cs), cs := codeReg cs d (rpl cs), ss := x.segs.ss,
                ds := x.segs.ds.validateOuter (rpl cs), fs := x.segs.fs.validateOuter (rpl cs),
                gs := x.segs.gs.validateOuter (rpl cs) }
      cpl := rpl cs, eip := eip, flags := setFlags x.flags fl (iretMask z cpl io) } := rfl

theorem SegReg.stillUsable_iff (g : SegReg) (n : BitVec 2) : g.stillUsable n = true ↔
    (¬ g.type.getLsbD 3 = true ∨ g.type.getLsbD 1 = true) ∧
      ((g.type.getLsbD 3 = true ∧ g.type.getLsbD 2 = true) ∨ max n.toNat (rpl g.selector).toNat ≤ g.dpl.toNat) := by
  simp only [SegReg.stillUsable, Bool.and_eq_true, Bool.or_eq_true, Bool.not_eq_true', Bool.not_eq_true,
    decide_eq_true_eq]

/-- A segment register after a return to a level that may not use it (R398), as the claim writes it. -/
theorem SegReg.validateOuter_eq (g : SegReg) (n : BitVec 2) : g.validateOuter n =
    if g.valid = true ∧ ¬ ((¬ g.type.getLsbD 3 = true ∨ g.type.getLsbD 1 = true) ∧
      ((g.type.getLsbD 3 = true ∧ g.type.getLsbD 2 = true) ∨ max n.toNat (rpl g.selector).toNat ≤ g.dpl.toNat))
    then { g with selector := 0, valid := false } else g := by
  refine if_congr ?_ rfl rfl
  rw [Bool.and_eq_true, ← g.stillUsable_iff n, Bool.not_eq_true, Bool.not_eq_true']

/-- IRET to a code segment, after its pops and with its descriptor read. -/
theorem iretIs_cs {z : Size} {s u : State} {ip cs fl : Word} (prot : s.protMode = true) (single : s.flag .nt = false)
    (popped : (popAll z 3).run s = .ok [ip, cs, fl] u) (stays : z = .s16 ∨ fl.getLsbD 17 = false ∨ s.cpl ≠ 0) :
    IretIs z s u (iretProtCs z ip (cs.setWidth 16) fl) := by
  have notV86 : ¬ (z = .s32 && fl.getLsbD 17 && s.cpl = 0) = true := by
    simp only [Bool.and_eq_true, decide_eq_true_eq]
    rintro ⟨⟨rfl, vm⟩, top⟩
    exact stays.elim nofun fun h => h.elim (fun h => absurd (h.symm.trans vm) nofun) (· top)
  refine (iretIs_prot prot single).to ((run_popFrame popped).trans ?_)
  rw [iretProtTo, if_neg notV86]

theorem iretIs_found {z : Size} {s u v : State} {ip cs fl : Word} {d : Desc} {a : Word} (prot : s.protMode = true)
    (single : s.flag .nt = false) (popped : (popAll z 3).run s = .ok [ip, cs, fl] u)
    (stays : z = .s16 ∨ fl.getLsbD 17 = false ∨ s.cpl ≠ 0) (named : nullSel (cs.setWidth 16) = false)
    (found : (fetchDescriptor (cs.setWidth 16)).run u = .ok (some (d, a)) v) :
    IretIs z s v (do
      require (iretFits d (cs.setWidth 16) s.cpl) .gp (selCode (cs.setWidth 16))
      require d.p .np (selCode (cs.setWidth 16))
      if rpl (cs.setWidth 16) = s.cpl then iretSame z ip (cs.setWidth 16) fl d s.cpl s.iopl
      else iretOuter z ip (cs.setWidth 16) fl d) := by
  have only := popAll_only popped
  have cpl : u.cpl = s.cpl := only.cpl
  have io : u.iopl = s.iopl := congrArg iopl only.fields.2.1
  have run := run_iretProtCs_found (z := z) (eip := ip) (fl := fl) named found
  rw [cpl, io] at run
  exact (iretIs_cs prot single popped stays).to run

/-- The outer return, after the checks of its code segment. -/
theorem iretIs_outer {z : Size} {s u v : State} {ip cs fl : Word} {d : Desc} {a : Word} (prot : s.protMode = true)
    (single : s.flag .nt = false) (popped : (popAll z 3).run s = .ok [ip, cs, fl] u)
    (stays : z = .s16 ∨ fl.getLsbD 17 = false ∨ s.cpl ≠ 0) (named : nullSel (cs.setWidth 16) = false)
    (found : (fetchDescriptor (cs.setWidth 16)).run u = .ok (some (d, a)) v)
    (fits : iretFits d (cs.setWidth 16) s.cpl = true) (present : d.p = true) (outer : rpl (cs.setWidth 16) ≠ s.cpl) :
    IretIs z s v (popStack z (iretOuterTo z s.cpl s.iopl ip (cs.setWidth 16) fl d)) := by
  have e := fetchDescriptor_ok found
  have only := popAll_only popped
  have cpl : v.cpl = s.cpl := e.only.cpl.trans only.cpl
  have io : v.iopl = s.iopl := congrArg iopl (e.only.fields.2.1.trans only.fields.2.1)
  have rest := run_iretOuter z ip (cs.setWidth 16) fl d v
  rw [cpl, io] at rest
  refine (iretIs_found prot single popped stays named found).to
    ((run_require_pass fits).trans ((run_require_pass present).trans ?_))
  rw [if_neg outer, rest]

/-- The claims write the tests of the code segment one by one. -/
theorem iretFits_of_outer {d : Desc} {sel : Half} {cpl : BitVec 2} (isCode : d.isCode = true)
    (outer : cpl.toNat < (rpl sel).toNat)
    (level : if d.conforming then d.dpl.toNat ≤ (rpl sel).toNat else d.dpl = rpl sel) : iretFits d sel cpl = true :=
  (iretFits_iff d sel cpl).2 ⟨isCode, outer.le, level⟩

theorem ne_of_outer {sel : Half} {cpl : BitVec 2} (outer : cpl.toNat < (rpl sel).toNat) : rpl sel ≠ cpl :=
  fun e => absurd (e ▸ outer) (Nat.lt_irrefl _)

theorem iretSameLevelComplete : Claim.IretSameLevelComplete := by
  intro z s u v ip cs fl d a inv prot single popped stays sel named found isCode same level present
  have only := popAll_only popped
  have e := fetchDescriptor_ok found
  have fits : iretFits d sel s.cpl = true := by
    refine (iretFits_iff _ _ _).2 ⟨isCode, ?_, ?_⟩
    · rw [same]
    · rw [same]
      exact level
  have reached := (iretIs_found prot single popped stays named found).to
    ((run_require_pass fits).trans ((run_require_pass present).trans (by rw [if_pos same])))
  have sameFlags : v.flags = s.flags := e.only.fields.2.1.trans only.fields.2.1
  refine ⟨setFlags s.flags fl (iretMask z s.cpl s.iopl), ?_, popAll_popped inv popped,
    e.accessed (popAll_inv inv popped), ?_⟩
  · rw [← sameFlags]
    exact reached.next (run_iretSame (e.only.cpl.trans only.cpl))
  · exact iretFlags_prot _ _ _ _ _

theorem iretOuterLevelComplete : Claim.IretOuterLevelComplete := by
  intro z s u v w x ip cs fl nsp ssv d kd a ka inv prot single popped stays sel n named found isCode outer level present
    stack nss stackNamed stackFound stackRpl stackDpl stackData stackWritable stackPresent outerSeg
  have e := fetchDescriptor_ok found
  have ex := fetchDescriptor_ok stackFound
  have invU := popAll_inv inv popped
  have invV := e.inv invU
  have invW := popAll_inv invV stack
  have stackFits : loadFits .ss nss kd n = true :=
    loadFits_iff.2 (if_pos rfl ▸ ⟨stackRpl, stackDpl, stackData, stackWritable⟩)
  have reached := (iretIs_outer prot single popped stays named found (iretFits_of_outer isCode outer level) present
    (ne_of_outer outer)).to (run_popStack stack)
  have loaded : (loadSS nss n).run w = .ok () (x.setSeg .ss (.ofDesc nss kd)) :=
    (run_loadSS_found stackNamed stackFound).trans ((run_require_pass stackFits).trans (run_require_pass stackPresent))
  have done := reached.next ((run_bind_ok loaded).trans (run_iretOuterRest _ _ _ _ _ _ _ _ _))
  obtain ⟨regs, flagsX, -, -, segsX, -⟩ := ex.only.fields
  obtain ⟨-, flagsW, -, -, segsW, -⟩ := (popAll_only stack).fields
  obtain ⟨-, flagsV, -, -, segsV, -⟩ := e.only.fields
  obtain ⟨-, flagsU, -, -, segsU, -⟩ := (popAll_only popped).fields
  have segs : x.segs = s.segs := segsX.trans (segsW.trans (segsV.trans segsU))
  have flags : x.flags = s.flags := flagsX.trans (flagsW.trans (flagsV.trans flagsU))
  have size : (x.setSeg .ss (.ofDesc nss kd)).ssz.width = if kd.db then .w32 else .w16 := by
    show Size.width (if kd.db then .s32 else .s16) = _
    cases kd.db <;> rfl
  refine ⟨setFlags s.flags fl (iretMask z s.cpl s.iopl), ?_, popAll_popped inv popped, popAll_popped invV stack,
    e.accessed invU, ex.accessed invW, iretFlags_prot _ _ _ _ _⟩
  rw [size] at done
  rw [← regs, ← flags]
  have seg : ∀ i, outerSeg i = (s.seg i).validateOuter n := fun i => ((s.seg i).validateOuter_eq n).symm
  rw [seg, seg, seg, seg, State.seg, State.seg, State.seg, State.seg, ← segs]
  exact done

/-! ### The return to virtual-8086 mode (R399) -/

/-- What is left of a return to virtual-8086 mode after its pops. -/
def iretV86To (eip : Word) (cs : Half) (fl nsp : Word) (nss es ds fs gs : Half) : Op Unit := do
  modify (·.loadFlags fl 0xFFFFFFFF)
  setCpl 3
  loadSegV86 .cs cs
  loadSegV86 .ss nss
  loadSegV86 .es es
  loadSegV86 .ds ds
  loadSegV86 .fs fs
  loadSegV86 .gs gs
  jumpTo (eip &&& 0xFFFF)
  writeReg .w32 .esp nsp

/-- Pop the stack and the data segments of a virtual-8086 task and go on with them. -/
def popV86 (f : Word → Half → Half → Half → Half → Half → Op Unit) : Op Unit := do
  let vs ← popAll .s32 6
  f (vs.getD 0 0) ((vs.getD 1 0).setWidth 16) ((vs.getD 2 0).setWidth 16) ((vs.getD 3 0).setWidth 16)
      ((vs.getD 4 0).setWidth 16) ((vs.getD 5 0).setWidth 16)

theorem run_popV86 {f : Word → Half → Half → Half → Half → Half → Op Unit} {s u : State} {nsp nss es ds fs gs : Word}
    (h : (popAll .s32 6).run s = .ok [nsp, nss, es, ds, fs, gs] u) : (popV86 f).run s =
      (f nsp (nss.setWidth 16) (es.setWidth 16) (ds.setWidth 16) (fs.setWidth 16) (gs.setWidth 16)).run u :=
  run_bind_ok h

theorem iretV86_eq (eip : Word) (cs : Half) (fl : Word) : iretV86 eip cs fl = popV86 (iretV86To eip cs fl) := by
  unfold iretV86
  simp only [popV86, popSel, popAll, bind_assoc, pure_bind]
  rfl
theorem run_iretV86To (eip : Word) (cs : Half) (fl nsp : Word) (nss es ds fs gs : Half) (u : State) :
    (iretV86To eip cs fl nsp nss es ds fs gs).run u = .ok () { u with
      regs := u.regs.setView .w32 .esp nsp
      segs := { es := .v86 .es es, cs := .v86 .cs cs, ss := .v86 .ss nss, ds := .v86 .ds ds, fs := .v86 .fs fs,
                gs := .v86 .gs gs }
      cpl := 3, eip := eip &&& 0xFFFF, flags := setFlags u.flags fl 0xFFFFFFFF } := by
  obtain ⟨⟩ := u
  rfl

theorem iretIs_v86 {s u : State} {ip cs fl : Word} (prot : s.protMode = true) (single : s.flag .nt = false)
    (top : s.cpl = 0) (popped : (popAll .s32 3).run s = .ok [ip, cs, fl] u) (vm : fl.getLsbD 17 = true) :
    IretIs .s32 s u (popV86 (iretV86To ip (cs.setWidth 16) fl)) := by
  refine (iretIs_prot prot single).to ((run_popFrame popped).trans ?_)
  rw [iretProtTo, if_pos (by simp [vm, top]), iretV86_eq]

/-- A segment register in virtual-8086 mode, from the value popped. -/
theorem SegReg.v86_setWidth (i : Seg) (v : Word) : SegReg.v86 i (v.setWidth 16) =
    { selector := v.setWidth 16, base := (v &&& 0xFFFF) <<< 4, limitMin := 0, limitMax := 0xFFFF,
      type := if i = .cs then 0xB else 3, dpl := 3, size32 := false, readable := true, writable := true,
      valid := true } := by
  unfold SegReg.v86
  rw [setWidth16_32]
  rfl

/-- A whole stack pointer takes the place of the one before. -/
theorem Regs.setView_esp_setView (x : Regs) (z : Size) (a b : Word) :
    (x.setView z.width .esp a).setView .w32 .esp b = { x with esp := b } := by
  cases z <;> rfl

theorem iretToV86Complete : Claim.IretToV86Complete := by
  intro s u ip cs fl sp ss es ds fs gs inv prot single top popped vm seg
  obtain ⟨t, first, second⟩ := popAll_add_inv (n := 3) (m := 6) (vs := [ip, cs, fl]) (ws := [sp, ss, es, ds, fs, gs])
    rfl popped
  obtain ⟨regs, flags, -⟩ := (popAll_only popped).fields
  have reached := (iretIs_v86 prot single top first vm).to (run_popV86 second)
  have done := reached.next (run_iretV86To _ _ _ _ _ _ _ _ _ _)
  have esp : u.regs.setView .w32 .esp sp = { s.regs with esp := sp } := by
    rw [regs]
    exact s.regs.setView_esp_setView s.ssz _ sp
  rw [esp, flags] at done
  simp only [SegReg.v86_setWidth] at done
  exact ⟨_, done, popAll_popped inv popped, getFlag_setFlags_all _ _, iopl_setFlags_all _ _⟩

/-! ### The return to the previous task (R397) -/

theorem tssSel_zero (base : Word) : tssSel base 0 = (do
    let v ← sysRead base .w16
    pure (v.setWidth 16)) := by
  have same : base + BitVec.ofNat 32 0 = base := BitVec.add_zero base
  unfold tssSel tssRead
  rw [same]

theorem busyTss_iff (d : Desc) : d.busyTss = true ↔ d.cls = .tss16Busy ∨ d.cls = .tss32Busy := by
  simp [Desc.busyTss]

/-- What is left of a return to a task once the back link is read. -/
def iretTaskTo (next : Word) (link : Half) : Op Unit := do
  require (!nullSel link && !selTI link) .ts (selCode link)
  let (d, a) ← fetchDescOr link .ts (selCode link)
  require d.busyTss .ts (selCode link)
  require d.p .np (selCode link)
  switchToTask link d a .iret next

theorem run_iretTask (s : State) : (iretTask).run s =
    (sysRead s.tr.base .w16 >>= fun v => iretTaskTo s.nextEip (v.setWidth 16)).run s := by
  refine (run_bind_ok (run_get s)).trans ?_
  simp only [tssSel_zero, bind_assoc, pure_bind]
  rfl

section
variable {next a : Word} {link : Half} {u w : State} {d : Desc}

theorem run_iretTaskTo_unnamed (unnamed : ¬ (nullSel link = false ∧ link.getLsbD 2 = false)) :
    (iretTaskTo next link).run u =
      .error (.fault { kind := .ts, code := some (selCode link), addr := none } false) u :=
  run_require_fail (Bool.eq_false_iff.2 (mt (gateTest_iff link).1 unnamed))

theorem run_iretTaskTo_error {e : Stop} (named : nullSel link = false ∧ link.getLsbD 2 = false)
    (h : (fetchDescOr link .ts (selCode link)).run u = .error e w) : (iretTaskTo next link).run u = .error e w :=
  (run_require_pass ((gateTest_iff link).2 named)).trans (run_bind_error h)

theorem run_iretTaskTo_found (named : nullSel link = false ∧ link.getLsbD 2 = false)
    (h : (fetchDescriptor link).run u = .ok (some (d, a)) w) : (iretTaskTo next link).run u = (do
      require d.busyTss .ts (selCode link)
      require d.p .np (selCode link)
      switchToTask link d a .iret next : Op Unit).run w :=
  (run_require_pass ((gateTest_iff link).2 named)).trans (run_bind_ok (run_fetchDescOr_found h))

end

/-- The return to a task, with its back link read. -/
theorem iretIs_link {z : Size} {s u : State} {v : Word} (prot : s.protMode = true) (nested : s.flag .nt = true)
    (read : (sysRead s.tr.base .w16).run s = .ok v u) : IretIs z s u (iretTaskTo s.nextEip (v.setWidth 16)) :=
  (iretIs_task prot nested).to ((run_iretTask s).trans (run_bind_ok read))

theorem iretTaskReturn : Claim.IretTaskReturn := by
  intro z s u v prot nested read link code named
  have reached := iretIs_link (z := z) prot nested read
  refine ⟨fun unnamed => reached.raises (run_iretTaskTo_unnamed unnamed),
    fun w hn missing => reached.raises (run_iretTaskTo_error hn (run_fetchDescOr_none missing)),
    fun d a w hn found => ?_⟩
  have checked := reached.to (run_iretTaskTo_found hn found)
  rw [← busyTss_iff]
  refine ⟨fun idle => ?_, fun busy absent => ?_, fun busy present => ?_⟩
  · exact checked.raises (run_require_fail (Bool.eq_false_iff.2 idle))
  · exact checked.raises ((run_require_pass busy).trans (run_require_fail absent))
  · exact settles_endBlock (checked.to ((run_require_pass busy).trans (run_require_pass present)))

/-! ### What IRET turns away (R397, R101) -/

section
variable {z : Size} {cpl io : BitVec 2} {eip fl nsp : Word} {cs nss : Half} {d : Desc} {w x : State}

/-- An outer return stops where the load of its stack segment stops. -/
theorem run_iretOuterTo_error {e : Stop} (h : (loadSS nss (rpl cs)).run w = .error e x) :
    (iretOuterTo z cpl io eip cs fl d nsp nss).run w = .error e x := run_bind_error h

end

theorem iretChecks : Claim.IretChecks := by
  intro z s u ip cs fl prot single popped stays sel n code faults
  have reached := iretIs_cs prot single popped stays
  refine ⟨fun null => reached.raises (run_iretProtCs_null null),
    fun v named missing => reached.raises (run_iretProtCs_error named (run_fetchDescOr_none missing)),
    fun d a v named found => ?_⟩
  have checked := iretIs_found prot single popped stays named found
  rw [← iretFits_iff]
  refine ⟨fun unfit => checked.raises (run_require_fail (Bool.eq_false_iff.2 unfit)),
    fun fits absent => checked.raises ((run_require_pass fits).trans (run_require_fail absent)),
    fun nsp ssv w fits present outer stack => ?_⟩
  have reached := (iretIs_outer prot single popped stays named found fits present outer).to (run_popStack stack)
  refine ⟨fun null => reached.raises (run_iretOuterTo_error (run_loadSS_null null)),
    fun x named missing =>
      reached.raises (run_iretOuterTo_error (run_loadSS_error named (run_fetchDescOr_none missing))),
    fun kd ka x named found => ?_⟩
  have loading := run_loadSS_found (cpl := n) named found
  have fits : loadFits .ss (ssv.setWidth 16) kd n = true ↔
      rpl (ssv.setWidth 16) = n ∧ kd.dpl = n ∧ kd.cls = .data ∧ kd.type.getLsbD 1 = true := by
    rw [loadFits_iff, if_pos rfl]
  rw [← fits]
  refine ⟨fun unfit => ?_, fun hfit absent => ?_⟩
  · have stopped := loading.trans (run_require_fail (Bool.eq_false_iff.2 unfit))
    exact reached.raises (run_iretOuterTo_error stopped)
  · have stopped := loading.trans ((run_require_pass hfit).trans (run_require_fail absent))
    exact reached.raises (run_iretOuterTo_error stopped)

/-! ### The faults of IRET's accesses -/

theorem iretFaults : Claim.IretFaults := by
  intro z s faults
  refine ⟨fun flat allowed => (iretIs_flat flat allowed).faults fun _ _ h => run_bind_error h,
    fun prot nested => ⟨?_, fun v u read named gdt => ?_⟩,
    fun prot single => ⟨(iretIs_prot prot single).faults fun _ _ h => run_bind_error h,
      fun ip cs fl u popped => ⟨fun size vm top => ?_, fun stays => ?_⟩⟩⟩
  · exact (iretIs_task prot nested).faults fun _ _ h => (run_iretTask s).trans (run_bind_error h)
  · have inGdt : (v.setWidth 16 : Half).getLsbD 2 = false := by
      rw [BitVec.getLsbD_setWidth, gdt, Bool.and_false]
    exact (iretIs_link prot nested read).faults fun _ _ h =>
      run_iretTaskTo_error ⟨named, inGdt⟩ (run_fetchDescOr_error h)
  · subst size
    exact (iretIs_v86 prot single top popped vm).faults fun _ _ h => run_bind_error h
  · intro sel n named
    refine ⟨(iretIs_cs prot single popped stays).faults fun _ _ h =>
      run_iretProtCs_error named (run_fetchDescOr_error h), ?_⟩
    intro d a v found isCode outer level present
    have reached := iretIs_outer prot single popped stays named found (iretFits_of_outer isCode outer level) present
      (ne_of_outer outer)
    refine ⟨reached.faults fun _ _ h => run_bind_error h, fun nsp ssv w stack stackNamed => ?_⟩
    exact (reached.to (run_popStack stack)).faults fun _ _ h =>
      run_iretOuterTo_error (run_loadSS_error stackNamed (run_fetchDescOr_error h))

/-- Settles O36: IRET pops its frame and goes on with it, and each form is its checks in their order and then loads that
no access comes between. -/
theorem iretComplete : Obligations.IretComplete :=
  ⟨iretFlatComplete, iretSameLevelComplete, iretOuterLevelComplete, iretToV86Complete, iretTaskReturn, iretChecks,
    iretFaults⟩

end Sys2Proof.Machine
